-- ==== Sys2Proof/Word.lean ====
section
/-! DEFINITION. Word.lean: the octet and the width of the cursors (00_scope.md R5, R6). -/

namespace Sys2Proof

/-- An octet: 8 bits, bit 0 the least significant (00_scope.md R6). -/
abbrev Byte := BitVec 8

/-- `LEN_W` = 32: the width in bits of `length`, `buffer_length` and of every offset operand
(00_scope.md R5). -/
abbrev lenW : Nat := 32

/-- A value of `LEN_W` bits, as an operation's operand carries it. -/
abbrev LenWord := BitVec lenW

end Sys2Proof
end

