-- ==== Sys2Proof/Config.lean ====
section
/-! DEFINITION. Config.lean: what an implementation fixes (00_scope.md R5, R22): the kinds of
recogniser, the sizes the spec leaves open, and the shape of the generator parameter record. The
record's values stand in Machine/Generators.lean, the payload offsets in Machine/Operands.lean. -/

namespace Sys2Proof

/-- The seven kinds of recogniser, in the order of their kind codes (10_state.md R12,
30_encoding.md R77). -/
inductive Kind where
  | nmea
  | uhash
  | rtcm
  | ubx
  | sbf
  | spartn
  | ubin
deriving DecidableEq, Repr

/-- The default `TABLE`: the seven kinds in the order of their codes (30_encoding.md R77). -/
def defaultTable : List Kind :=
  [.nmea, .uhash, .rtcm, .ubx, .sbf, .spartn, .ubin]

/-- The parameters of one CRC generator: polynomial as its engine uses it, initial value, final XOR
(40_generators.md R91, R93). -/
structure CrcParams (w : Nat) where
  poly : BitVec w
  init : BitVec w
  xorOut : BitVec w
deriving DecidableEq, Repr

/-- The generator parameter record (93_implementation_defined.md U14), one entry for each CRC
generator of 40_generators.md R91. XOR-8 and Fletcher-8 have no parameter. -/
structure GeneratorParams where
  crc24q : CrcParams 24
  ccitt16 : CrcParams 16
  crc32r : CrcParams 32
  spCrc4 : CrcParams 4
  spCrc8 : CrcParams 8
  spCrc16 : CrcParams 16
  spCrc24 : CrcParams 24
  spCrc32 : CrcParams 32
deriving DecidableEq, Repr

/-- `HEADER_BYTES`: OPEN, a named parameter (00_scope.md R5, 92_eei_decisions.md D5; log 10). -/
opaque Config.headerBytes : Nat

/-- `SCRATCH_BYTES[k]`: OPEN, a named parameter (00_scope.md R5, D5; log 10). -/
opaque Config.scratchBytes : Kind → Nat

/-- `MIN_PARSE_AREA[k] - 1`: OPEN (D5; log 10). -/
opaque Config.minParseAreaPred : Kind → Nat

/-- `MIN_PARSE_AREA[k]`, a named parameter whose one constraint is `MIN_PARSE_AREA[k] >= 1`
(41_dispatch.md R121, D5; log 10). -/
def Config.minParseArea (k : Kind) : Nat :=
  Config.minParseAreaPred k + 1

end Sys2Proof
end

