-- ==== Sys2Proof/Machine/Bytes.lean ====
section
/-! DEFINITION. Machine/Bytes.lean: the byte-order, character and search helpers that the decoder, the
recognisers and the accessors share (00_scope.md R6, R7; 20_memory.md R42, R43). -/

namespace Sys2Proof.Machine

/-- Little-endian value of a byte string: byte `i` weighs `2^(8*i)` (`MemRead`, 00_scope.md R7). -/
def leNat : List Byte → Nat
  | [] => 0
  | b :: bs => b.toNat + 256 * leNat bs

/-- Big-endian value of a byte string: the first byte is the most significant (20_memory.md R43). -/
def beNat (bs : List Byte) : Nat :=
  bs.foldl (fun acc b => acc * 256 + b.toNat) 0

/-- Byte `i` of a value, byte 0 the least significant. -/
def byteOf {w : Nat} (v : BitVec w) (i : Nat) : Byte :=
  v.extractLsb' (8 * i) 8

/-- The `n` low bytes of a value, least significant first. -/
def leBytes {w : Nat} (v : BitVec w) (n : Nat) : List Byte :=
  (List.range n).map (byteOf v)

/-- The `n` low bytes of a value, most significant first. -/
def beBytes {w : Nat} (v : BitVec w) (n : Nat) : List Byte :=
  (leBytes v n).reverse

/-- `is_alnum(c)` (00_scope.md R7). -/
def isAlnum (c : Byte) : Bool :=
  (0x30 ≤ c.toNat && c.toNat ≤ 0x39) || (0x41 ≤ c.toNat && c.toNat ≤ 0x5A) ||
    (0x61 ≤ c.toNat && c.toNat ≤ 0x7A)

/-- `hexval(c)` (00_scope.md R7): `'0'..'9'`, `'A'..'F'` and `'a'..'f'` are hex digits
(92_eei_decisions.md D12; log 23). -/
def hexval (c : Byte) : Option Nat :=
  if 0x30 ≤ c.toNat ∧ c.toNat ≤ 0x39 then some (c.toNat - 0x30)
  else if 0x41 ≤ c.toNat ∧ c.toNat ≤ 0x46 then some (c.toNat - 0x41 + 10)
  else if 0x61 ≤ c.toNat ∧ c.toNat ≤ 0x66 then some (c.toNat - 0x61 + 10)
  else none

/-- Whether a byte is a hex digit. -/
def isHex (c : Byte) : Bool := (hexval c).isSome

/-- The number a string of hex digits stands for, most significant digit first (30_encoding.md R71);
`none` if one of them is no hex digit. -/
def hexNumber (ds : List Byte) : Option Nat :=
  ds.foldl (fun acc d =>
    match acc, hexval d with
    | some n, some v => some (n * 16 + v)
    | _, _ => none) (some 0)

/-- Printable ASCII, `0x20..0x7E` (42_nmea.md R153). -/
def isPrintable (c : Byte) : Bool :=
  0x20 ≤ c.toNat && c.toNat ≤ 0x7E

/-- Whether `pat` stands at the head of a byte string. -/
def startsWith (pat : List Byte) (s : List Byte) : Bool :=
  s.take pat.length == pat

/-- Whether `pat` occurs consecutively anywhere in a byte string. -/
def occursIn (pat : List Byte) : List Byte → Bool
  | [] => startsWith pat []
  | c :: cs => startsWith pat (c :: cs) || occursIn pat cs

/-- `CONTAINS_MODE(name)`: the bytes `4D 4F 44 45` occur in the name, case-sensitively
(48_unicore_hash.md R284). -/
def containsMode (name : List Byte) : Bool :=
  occursIn [0x4D, 0x4F, 0x44, 0x45] name

/-- A byte string cut at the first `c`: what stands before it and what after it. -/
def cutAt (c : Byte) : List Byte → Option (List Byte × List Byte)
  | [] => none
  | x :: xs =>
    if x = c then some ([], xs)
    else (cutAt c xs).map fun r => (x :: r.1, r.2)

/-- The bytes before the first `0x00`, or all of them (49_accessors.md R311). -/
def untilNul (bs : List Byte) : List Byte :=
  bs.takeWhile fun b => b != 0

end Sys2Proof.Machine
end

