-- ==== Sys2Proof/Machine/Generators.lean ====
section
/-! DEFINITION. Machine/Generators.lean: the checksum and CRC generators as pure functions
(40_generators.md R90 to R109), their parameter record's values, and the two SPARTN block functions.
The generator operations' meanings stand in Machine/GeneratorOps.lean. -/

namespace Sys2Proof.Machine

/-- The default generator parameters (40_generators.md R91). PRESUMED (general knowledge, adopted by
92_eei_decisions.md D23; log 18), but for `0xEDB88320`, which is the source's. The reflected engines'
polynomials stand in reversed form. -/
def generatorParams : GeneratorParams where
  crc24q := ⟨0x864CFB, 0, 0⟩
  ccitt16 := ⟨0x1021, 0, 0⟩
  crc32r := ⟨0xEDB88320, 0, 0⟩
  spCrc4 := ⟨0x9, 0, 0⟩
  spCrc8 := ⟨0x07, 0, 0⟩
  spCrc16 := ⟨0x1021, 0, 0⟩
  spCrc24 := ⟨0x864CFB, 0, 0⟩
  spCrc32 := ⟨0x04C11DB7, 0xFFFFFFFF, 0xFFFFFFFF⟩

/-- A function applied eight times, once for each bit of an octet. -/
def times8 {α : Type} (f : α → α) (x : α) : α :=
  f (f (f (f (f (f (f (f x)))))))

/-- One shift of the non-reflected engine (40_generators.md R90). -/
def nrShift {w : Nat} (poly r : BitVec w) : BitVec w :=
  if r.msb then (r <<< 1) ^^^ poly else r <<< 1

/-- `nr_upd_W_P(acc, b)`, for `W >= 8` (40_generators.md R90). -/
def nrUpd {w : Nat} (poly acc : BitVec w) (b : Byte) : BitVec w :=
  times8 (nrShift poly) (acc ^^^ (b.setWidth w <<< (w - 8)))

/-- One shift of the reflected engine (40_generators.md R92). -/
def rfShift {w : Nat} (q r : BitVec w) : BitVec w :=
  if r.getLsbD 0 then (r >>> 1) ^^^ q else r >>> 1

/-- `rf_upd_W_Q(acc, b)` for `W >= 8` (40_generators.md R92). -/
def rfUpd {w : Nat} (q acc : BitVec w) (b : Byte) : BitVec w :=
  times8 (rfShift q) (acc ^^^ b.setWidth w)

/-- `rf_upd_4_Q(acc, b)`: the working value is 8 bits wide during the loop (40_generators.md R92). -/
def rfUpd4 (q acc : BitVec 4) (b : Byte) : BitVec 4 :=
  (times8 (rfShift (q.setWidth 8)) (acc.setWidth 8 ^^^ b)).setWidth 4

/-- `XOR8.UPD` (40_generators.md R94). -/
def xor8 (acc : BitVec 8) (b : Byte) : BitVec 8 := acc ^^^ b

/-- `CRC24Q.UPD` (R95). -/
def crc24q (acc : BitVec 24) (b : Byte) : BitVec 24 := nrUpd generatorParams.crc24q.poly acc b

/-- `FL8.UPD` (R96): the new `CK_A` is the one added into `CK_B`; both sums wrap modulo 256. -/
def fl8 (ckA ckB : BitVec 8) (b : Byte) : BitVec 8 × BitVec 8 :=
  (ckA + b, ckB + (ckA + b))

/-- `CCITT16.UPD` (R97). -/
def ccitt16 (acc : BitVec 16) (b : Byte) : BitVec 16 := nrUpd generatorParams.ccitt16.poly acc b

/-- `CRC32R.UPD` (R98). -/
def crc32r (acc : BitVec 32) (b : Byte) : BitVec 32 := rfUpd generatorParams.crc32r.poly acc b

/-- `SP.CRC4.UPD` (R99). -/
def spCrc4 (acc : BitVec 4) (b : Byte) : BitVec 4 := rfUpd4 generatorParams.spCrc4.poly acc b

/-- `SP.CRC8.UPD` (R100). -/
def spCrc8 (acc : BitVec 8) (b : Byte) : BitVec 8 := nrUpd generatorParams.spCrc8.poly acc b

/-- `SP.CRC16.UPD` (R101). -/
def spCrc16 (acc : BitVec 16) (b : Byte) : BitVec 16 := nrUpd generatorParams.spCrc16.poly acc b

/-- `SP.CRC24.UPD` (R102). -/
def spCrc24 (acc : BitVec 24) (b : Byte) : BitVec 24 := nrUpd generatorParams.spCrc24.poly acc b

/-- `SP.CRC32.UPD` (R103). -/
def spCrc32 (acc : BitVec 32) (b : Byte) : BitVec 32 := nrUpd generatorParams.spCrc32.poly acc b

/-- `G.block(bytes)`: the fold from the initial value, then the final XOR (40_generators.md R93). -/
def block {w : Nat} (upd : BitVec w → Byte → BitVec w) (p : CrcParams w) (bytes : List Byte) :
    BitVec w :=
  bytes.foldl upd p.init ^^^ p.xorOut

/-- `XOR8.block` (R93, R94). -/
def xor8Block (bytes : List Byte) : BitVec 8 := bytes.foldl xor8 0

/-- `FL8.block`: both sums from `(0, 0)` (R93, R96). -/
def fl8Block (bytes : List Byte) : BitVec 8 × BitVec 8 :=
  bytes.foldl (fun s b => fl8 s.1 s.2 b) (0, 0)

/-- `CRC24Q.block` (R93, R95). -/
def crc24qBlock (bytes : List Byte) : BitVec 24 := block crc24q generatorParams.crc24q bytes

/-- `CCITT16.block` (R93, R97). -/
def ccitt16Block (bytes : List Byte) : BitVec 16 := block ccitt16 generatorParams.ccitt16 bytes

/-- `CRC32R.block` (R93, R98). -/
def crc32rBlock (bytes : List Byte) : BitVec 32 := block crc32r generatorParams.crc32r bytes

/-- `SP.CRC4.block` (R93, R99). -/
def spCrc4Block (bytes : List Byte) : BitVec 4 := block spCrc4 generatorParams.spCrc4 bytes

/-- `SP.CRC8.block` (R93, R100). -/
def spCrc8Block (bytes : List Byte) : BitVec 8 := block spCrc8 generatorParams.spCrc8 bytes

/-- `SP.CRC16.block` (R93, R101). -/
def spCrc16Block (bytes : List Byte) : BitVec 16 := block spCrc16 generatorParams.spCrc16 bytes

/-- `SP.CRC24.block` (R93, R102). -/
def spCrc24Block (bytes : List Byte) : BitVec 24 := block spCrc24 generatorParams.spCrc24 bytes

/-- `SP.CRC32.block` (R93, R103). -/
def spCrc32Block (bytes : List Byte) : BitVec 32 := block spCrc32 generatorParams.spCrc32 bytes

/-- `SP_HDRCRC(h1, h2, h3)`: CRC-4 over the header with its low 4 bits zeroed (40_generators.md R104). -/
def spHdrCrc (h1 h2 h3 : Byte) : BitVec 4 :=
  spCrc4Block [h1, h2, h3 &&& 0xF0]

/-- `SP_BODYCRC(t, bytes)`: the body CRC selected by the CRC type (40_generators.md R105). -/
def spBodyCrc (t : BitVec 2) (bytes : List Byte) : BitVec 32 :=
  if t = 0 then (spCrc8Block bytes).setWidth 32
  else if t = 1 then (spCrc16Block bytes).setWidth 32
  else if t = 2 then (spCrc24Block bytes).setWidth 32
  else spCrc32Block bytes

/-- `EMBEDDED_LEN(auth, code)` (46_spartn.md R238). PRESUMED (general knowledge, D19; log 21). -/
def embeddedLen (auth code : BitVec 3) : BitVec 8 :=
  if auth.toNat ≤ 1 then 0
  else if code = 0 then 8
  else if code = 1 then 12
  else if code = 2 then 16
  else if code = 3 then 32
  else if code = 4 then 64
  else 0

end Sys2Proof.Machine
end

