-- ==== Sys2Proof/Machine/FrameFormat.lean ====
section
/-! DEFINITION. Machine/FrameFormat.lean: the seven frame formats of the input stream, as octets and as
checks on them (30_encoding.md R61 to R71, R79). The trailing checksum or CRC is no part of a format: a
frame with a wrong one is a frame whose verdict is bad. -/

namespace Sys2Proof.Machine

/-- NAME: 1 to 15 characters of `[A-Za-z0-9]` (30_encoding.md R62, R69). -/
def nameOk (name : List Byte) : Bool :=
  1 ≤ name.length && name.length ≤ 15 && name.all isAlnum

/-- `NAME ',' BODY '*'` and then exactly the hex digits the name asks for
(30_encoding.md R62, R69). -/
def textFormatOk (digits : List Byte → Nat) (rest : List Byte) : Bool :=
  match cutAt 0x2C rest with
  | none => false
  | some (name, r) =>
    match cutAt 0x2A r with
    | none => false
    | some (_, ds) => nameOk name && ds.length == digits name && ds.all isHex

/-- FRAME.NMEA (R62): two hex digits. -/
def nmeaFormatOk (rest : List Byte) : Bool :=
  textFormatOk (fun _ => 2) rest

/-- The number of checksum digits of a Unicore-hash name (30_encoding.md R69). -/
def uhashDigits (name : List Byte) : Nat :=
  if containsMode name then 2 else 8

/-- FRAME.UHASH (R69): two or eight hex digits. -/
def uhashFormatOk (rest : List Byte) : Bool :=
  textFormatOk uhashDigits rest

/-- FRAME.RTCM (R63): payload and three CRC octets. -/
def rtcmFormatOk (len : BitVec 10) (rest : List Byte) : Bool :=
  rest.length == len.toNat + 3

/-- FRAME.UBX (R64): payload, CK_A and CK_B. -/
def ubxFormatOk (len : BitVec 16) (rest : List Byte) : Bool :=
  rest.length == len.toNat + 2

/-- FRAME.SBF (R65): a length that is a multiple of 4 and at least 8, and that many octets in all. -/
def sbfFormatOk (len : BitVec 16) (rest : List Byte) : Bool :=
  len.toNat % 4 == 0 && 8 ≤ len.toNat && rest.length == len.toNat - 8

/-- SPARTN frame octet 1: message type, payload length bit 9 (30_encoding.md R66). -/
def spartnH1 (msgType : BitVec 7) (payloadLen : BitVec 10) : Byte :=
  msgType ++ payloadLen.extractLsb' 9 1

/-- SPARTN frame octet 2: payload length bits 8:1 (R66). -/
def spartnH2 (payloadLen : BitVec 10) : Byte :=
  payloadLen.extractLsb' 1 8

/-- SPARTN frame octet 3: payload length bit 0, EAF, CRC type, header CRC (R66). -/
def spartnH3 (payloadLen : BitVec 10) (eaf : BitVec 1) (crcType : BitVec 2) (hdrCrc : BitVec 4) :
    Byte :=
  payloadLen.extractLsb' 0 1 ++ eaf ++ crcType ++ hdrCrc

/-- `ext_len` of a SPARTN frame, from the first extended-header octet and EAF (R67). PRESUMED bit
position of the time tag type (log 21). -/
def spartnExtLen (first : Byte) (eaf : BitVec 1) : Nat :=
  (if first.getLsbD 3 then 6 else 4) + (if eaf = 1 then 2 else 0)

/-- `embedded_app_len` of a SPARTN frame, from the last extended-header octet and EAF (R67;
46_spartn.md R233, R238). -/
def spartnEmbedded (last : Byte) (eaf : BitVec 1) : Nat :=
  if eaf = 1 then (embeddedLen (last.extractLsb' 3 3) (last.extractLsb' 0 3)).toNat else 0

/-- The length check of a SPARTN frame's variable part (R67). -/
def spartnRestOk (payloadLen : BitVec 10) (eaf : BitVec 1) (crcType : BitVec 2)
    (rest : List Byte) : Bool :=
  match rest[0]? with
  | none => false
  | some first =>
    match rest[spartnExtLen first eaf - 1]? with
    | none => false
    | some last =>
      rest.length == spartnExtLen first eaf + payloadLen.toNat + spartnEmbedded last eaf +
        (crcType.toNat + 1)

/-- FRAME.SPARTN (R66, R67, R79): the header CRC and the length of the variable part. -/
def spartnFormatOk (msgType : BitVec 7) (payloadLen : BitVec 10) (eaf : BitVec 1)
    (crcType : BitVec 2) (hdrCrc : BitVec 4) (rest : List Byte) : Bool :=
  spHdrCrc (spartnH1 msgType payloadLen) (spartnH2 payloadLen)
      (spartnH3 payloadLen eaf crcType hdrCrc) == hdrCrc &&
    spartnRestOk payloadLen eaf crcType rest

/-- FRAME.UBIN (R68): 16 more header octets, the body, four CRC octets. -/
def ubinFormatOk (len : BitVec 16) (rest : List Byte) : Bool :=
  rest.length == 16 + len.toNat + 4

/-- The octets of an NMEA frame (R62). -/
def nmeaOctets (rest : List Byte) : List Byte := 0x24 :: rest

/-- The octets of a Unicore-hash frame (R69). -/
def uhashOctets (rest : List Byte) : List Byte := 0x23 :: rest

/-- The octets of an RTCM frame (R63): six reserved zero bits stand before the length. -/
def rtcmOctets (len : BitVec 10) (rest : List Byte) : List Byte :=
  0xD3 :: (len.extractLsb' 8 2).setWidth 8 :: len.extractLsb' 0 8 :: rest

/-- The octets of a UBX frame (R64). -/
def ubxOctets (cls id : Byte) (len : BitVec 16) (rest : List Byte) : List Byte :=
  0xB5 :: 0x62 :: cls :: id :: byteOf len 0 :: byteOf len 1 :: rest

/-- The octets of an SBF frame (R65). PRESUMED place of ID and revision in their word (log 20). -/
def sbfOctets (crc : BitVec 16) (id : BitVec 13) (rev : BitVec 3) (len : BitVec 16)
    (rest : List Byte) : List Byte :=
  0x24 :: 0x40 :: byteOf crc 0 :: byteOf crc 1 :: id.extractLsb' 0 8 ::
    (rev ++ id.extractLsb' 8 5 : BitVec 8) :: byteOf len 0 :: byteOf len 1 :: rest

/-- The octets of a SPARTN frame (R66, R67). -/
def spartnOctets (msgType : BitVec 7) (payloadLen : BitVec 10) (eaf : BitVec 1)
    (crcType : BitVec 2) (hdrCrc : BitVec 4) (rest : List Byte) : List Byte :=
  0x73 :: spartnH1 msgType payloadLen :: spartnH2 payloadLen ::
    spartnH3 payloadLen eaf crcType hdrCrc :: rest

/-- The octets of a Unicore-binary frame (R68). -/
def ubinOctets (h3 h4 h5 : Byte) (len : BitVec 16) (rest : List Byte) : List Byte :=
  0xAA :: 0x44 :: 0xB5 :: h3 :: h4 :: h5 :: byteOf len 0 :: byteOf len 1 :: rest

end Sys2Proof.Machine
end

