-- ==== Sys2Proof/Syntax.lean ====
section
/-! DEFINITION. Syntax.lean: the host operations and the frame formats, one constructor for each of
the 64 rows of spec/opcode_table.json, with the operands the spec gives each; and the records that
carry them. -/

namespace Sys2Proof

/-- BEGIN's buffer operand (41_dispatch.md R121): "null", the caller's whole buffer of
`BUFFER_TOTAL` bytes, or the message parse area's size taken directly ("A model that takes
`buffer_length` directly"; 30_encoding.md R81). -/
inductive BufferArg where
  | null
  | total (bytes : LenWord)
  | area (bytes : LenWord)
deriving DecidableEq, Repr

/-- BEGIN's operands (41_dispatch.md R121). -/
structure BeginArgs where
  table : List Kind
  buffer : BufferArg
  eomPresent : Bool
  badCrcPresent : Bool
  errorSinkPresent : Bool
  debugSinkPresent : Bool
  abortNpNmea : Bool
  abortNpUhash : Bool
deriving DecidableEq, Repr

/-- The instructions of the machine: the 57 host operations (30_encoding.md R73 to R76) and the
seven frame formats of the input stream (30_encoding.md R60 to R69). -/
inductive Instr where
  /-- `BEGIN` 0x01 (41_dispatch.md R121). -/
  | beginParser (args : BeginArgs)
  /-- `PUSH` 0x02 (R124). -/
  | push (b : Byte)
  /-- `PUSHN` 0x03 (R125). -/
  | pushN (bytes : List Byte)
  /-- `STOP` 0x04 (R123). -/
  | stop
  /-- `SETIDCB` 0x05 (R134). -/
  | setIdCb (en : Bool)
  /-- `DBGEN` 0x06 (R135). -/
  | dbgEn
  /-- `DBGDIS` 0x07 (R135). -/
  | dbgDis
  /-- `ERREN` 0x08 (R135). -/
  | errEn
  /-- `ERRDIS` 0x09 (R135). -/
  | errDis
  /-- `XOR8.UPD` 0x10 (40_generators.md R94). -/
  | xor8Upd (acc : BitVec 8) (b : Byte)
  /-- `CRC24Q.UPD` 0x11 (R95). -/
  | crc24qUpd (acc : BitVec 24) (b : Byte)
  /-- `FL8.UPD` 0x12 (R96). -/
  | fl8Upd (ckA ckB : BitVec 8) (b : Byte)
  /-- `CCITT16.UPD` 0x13 (R97). -/
  | ccitt16Upd (acc : BitVec 16) (b : Byte)
  /-- `CRC32R.UPD` 0x14 (R98). -/
  | crc32rUpd (acc : BitVec 32) (b : Byte)
  /-- `SP.CRC4.UPD` 0x15 (R99). -/
  | spCrc4Upd (acc : BitVec 4) (b : Byte)
  /-- `SP.CRC8.UPD` 0x16 (R100). -/
  | spCrc8Upd (acc : BitVec 8) (b : Byte)
  /-- `SP.CRC16.UPD` 0x17 (R101). -/
  | spCrc16Upd (acc : BitVec 16) (b : Byte)
  /-- `SP.CRC24.UPD` 0x18 (R102). -/
  | spCrc24Upd (acc : BitVec 24) (b : Byte)
  /-- `SP.CRC32.UPD` 0x19 (R103). -/
  | spCrc32Upd (acc : BitVec 32) (b : Byte)
  /-- `GETU8` 0x20 (49_accessors.md R301). -/
  | getU8 (offset : LenWord)
  /-- `GETU16` 0x21 (R302). -/
  | getU16 (offset : LenWord)
  /-- `GETU32` 0x22 (R303). -/
  | getU32 (offset : LenWord)
  /-- `GETU64` 0x23 (R304). -/
  | getU64 (offset : LenWord)
  /-- `GETI8` 0x24 (R305). -/
  | getI8 (offset : LenWord)
  /-- `GETI16` 0x25 (R306). -/
  | getI16 (offset : LenWord)
  /-- `GETI32` 0x26 (R307). -/
  | getI32 (offset : LenWord)
  /-- `GETI64` 0x27 (R308). -/
  | getI64 (offset : LenWord)
  /-- `GETF32` 0x28 (R309). -/
  | getF32 (offset : LenWord)
  /-- `GETF64` 0x29 (R310). -/
  | getF64 (offset : LenWord)
  /-- `GETSTR` 0x2A (R311). -/
  | getStr (offset : LenWord)
  /-- `GETU8.NO` 0x30 (R301, R312). -/
  | getU8No (offset : LenWord)
  /-- `GETU16.NO` 0x31 (R302, R312). -/
  | getU16No (offset : LenWord)
  /-- `GETU32.NO` 0x32 (R303, R312). -/
  | getU32No (offset : LenWord)
  /-- `GETU64.NO` 0x33 (R304, R312). -/
  | getU64No (offset : LenWord)
  /-- `GETI8.NO` 0x34 (R305, R312). -/
  | getI8No (offset : LenWord)
  /-- `GETI16.NO` 0x35 (R306, R312). -/
  | getI16No (offset : LenWord)
  /-- `GETI32.NO` 0x36 (R307, R312). -/
  | getI32No (offset : LenWord)
  /-- `GETI64.NO` 0x37 (R308, R312). -/
  | getI64No (offset : LenWord)
  /-- `GETF32.NO` 0x38 (R309, R312). -/
  | getF32No (offset : LenWord)
  /-- `GETF64.NO` 0x39 (R310, R312). -/
  | getF64No (offset : LenWord)
  /-- `GETSTR.NO` 0x3A (R311, R312). -/
  | getStrNo (offset : LenWord)
  /-- `NMEA.NAME` 0x40 (R313). -/
  | nmeaName
  /-- `UHASH.NAME` 0x41 (R314). -/
  | uhashName
  /-- `RTCM.MSGID` 0x42 (R315). -/
  | rtcmMsgId
  /-- `RTCM.GETU` 0x43 (R316); the width operand's own width is the model's (log 2). -/
  | rtcmGetU (start : LenWord) (width : BitVec 8)
  /-- `RTCM.GETS` 0x44 (R317). -/
  | rtcmGetS (start : LenWord) (width : BitVec 8)
  /-- `UBX.CLASS` 0x45 (R318). -/
  | ubxClass
  /-- `UBX.ID` 0x46 (R319). -/
  | ubxId
  /-- `UBX.NUM` 0x47 (R320). -/
  | ubxNum
  /-- `SBF.ID` 0x48 (R321). -/
  | sbfId
  /-- `SBF.REV` 0x49 (R322). -/
  | sbfRev
  /-- `SBF.ISNMEA` 0x4A (R323). -/
  | sbfIsNmea
  /-- `SBF.ISRTCM` 0x4B (R324). -/
  | sbfIsRtcm
  /-- `SBF.ENCPTR` 0x4C (R325). -/
  | sbfEncPtr
  /-- `SBF.ENCLEN` 0x4D (R326). -/
  | sbfEncLen
  /-- `SPARTN.TYPE` 0x4E (R327). -/
  | spartnType
  /-- `SPARTN.SUBTYPE` 0x4F (R328). -/
  | spartnSubtype
  /-- `FRAME.NMEA` (30_encoding.md R62): `rest` is every octet after the `'$'`. -/
  | frameNmea (rest : List Byte)
  /-- `FRAME.UHASH` (R69): `rest` is every octet after the `'#'`. -/
  | frameUhash (rest : List Byte)
  /-- `FRAME.RTCM` (R63): the 10-bit length; `rest` is the payload and the three CRC octets. -/
  | frameRtcm (len : BitVec 10) (rest : List Byte)
  /-- `FRAME.UBX` (R64): class, id, length; `rest` is the payload, CK_A and CK_B. -/
  | frameUbx (cls id : Byte) (len : BitVec 16) (rest : List Byte)
  /-- `FRAME.SBF` (R65): CRC, ID, revision, length; `rest` is the body. -/
  | frameSbf (crc : BitVec 16) (id : BitVec 13) (rev : BitVec 3) (len : BitVec 16)
      (rest : List Byte)
  /-- `FRAME.SPARTN` (R66, R67): the packed header's fields; `rest` is everything from the extended
  header to the last CRC octet. -/
  | frameSpartn (msgType : BitVec 7) (payloadLen : BitVec 10) (eaf : BitVec 1) (crcType : BitVec 2)
      (hdrCrc : BitVec 4) (rest : List Byte)
  /-- `FRAME.UBIN` (R68): the header octets 3, 4 and 5, `messageLength` (octets 6 and 7); `rest` is
  the other 16 header octets, the body and the four CRC octets. -/
  | frameUbin (h3 h4 h5 : Byte) (len : BitVec 16) (rest : List Byte)
deriving DecidableEq, Repr

/-- The two encoding spaces (30_encoding.md R60): operation records on the host port, octets on the
input stream. -/
inductive Space where
  | port
  | stream
deriving DecidableEq, Repr

/-- What the host presents: bytes, in one of the two spaces. On the port they are one operation
record (30_encoding.md R72; log 2); on the stream they are octets pushed in order (log 5). -/
structure Record where
  space : Space
  bytes : List Byte
deriving DecidableEq, Repr

end Sys2Proof
end

