-- ==== Sys2Proof/Decode.lean ====
section
/-! DEFINITION. Decode.lean: from the bytes the host presents to the instruction they stand for, total,
rejecting by name (30_encoding.md R60 to R79), and the encoder from the same tables. Operation codes
are the spec's (R73 to R76, 92_eei_decisions.md D2); the byte layout of an operation record's operands
is the model's (log 2). -/

namespace Sys2Proof

open Sys2Proof.Machine

/-- Why bytes are no instruction. -/
inductive DecodeError where
  /-- An operation record with no operation code. -/
  | emptyRecord
  /-- The operation code is not listed in 30_encoding.md R73 to R76 (R78). -/
  | illegalOpcode (op : Byte)
  /-- The record does not hold the bytes of the operation's operands, no more and no fewer. -/
  | operandShape
  /-- An operand is wider than its stated width (40_generators.md R108). -/
  | operandTooWide
  /-- A table entry of BEGIN is no kind code (30_encoding.md R77). -/
  | unknownKind (code : Byte)
  /-- The octets begin with the fixed octets of no frame format (30_encoding.md R70, R77). -/
  | noFrame
  /-- The octets end inside a frame's fixed header. -/
  | frameCut
deriving DecidableEq, Repr

/-- The kind a kind code stands for (30_encoding.md R77). -/
def kindOfCode (c : Byte) : Except DecodeError Kind :=
  match c.toNat with
  | 0 => .ok .nmea
  | 1 => .ok .uhash
  | 2 => .ok .rtcm
  | 3 => .ok .ubx
  | 4 => .ok .sbf
  | 5 => .ok .spartn
  | 6 => .ok .ubin
  | _ => .error (.unknownKind c)

/-- A kind's code (30_encoding.md R77). -/
def Kind.code : Kind → Byte
  | .nmea => 0
  | .uhash => 1
  | .rtcm => 2
  | .ubx => 3
  | .sbf => 4
  | .spartn => 5
  | .ubin => 6

/-- BEGIN's table operand: one kind code a byte. -/
def decodeTable : List Byte → Except DecodeError (List Kind)
  | [] => .ok []
  | c :: cs =>
    match kindOfCode c, decodeTable cs with
    | .ok k, .ok ks => .ok (k :: ks)
    | .error e, _ => .error e
    | _, .error e => .error e

/-- A little-endian `LEN_W`-bit operand. -/
def le32 (b0 b1 b2 b3 : Byte) : LenWord := b3 ++ b2 ++ b1 ++ b0

/-- BEGIN's buffer operand: a form byte (0 null, 1 total, 2 area) and a little-endian size, which is
0 in the null form. -/
def decodeBuffer (form : Byte) (size : LenWord) : Except DecodeError BufferArg :=
  match form.toNat with
  | 0 => if size = 0 then .ok .null else .error .operandShape
  | 1 => .ok (.total size)
  | 2 => .ok (.area size)
  | _ => .error .operandTooWide

/-- BEGIN's operands: buffer form, size (4 bytes), flags (bit 0 eom_present, 1 bad_crc_present,
2 error_sink_present, 3 debug_sink_present, 4 abort_np_nmea, 5 abort_np_uhash; bits 7:6 zero), then
the table (41_dispatch.md R121; log 2). -/
def decodeBegin : List Byte → Except DecodeError Instr
  | form :: n0 :: n1 :: n2 :: n3 :: flags :: kinds =>
    match decodeBuffer form (le32 n0 n1 n2 n3), decodeTable kinds with
    | .error e, _ => .error e
    | _, .error e => .error e
    | .ok buffer, .ok table =>
      if flags.extractLsb' 6 2 = 0 then
        .ok (.beginParser
          { table := table, buffer := buffer
            eomPresent := flags.getLsbD 0
            badCrcPresent := flags.getLsbD 1
            errorSinkPresent := flags.getLsbD 2
            debugSinkPresent := flags.getLsbD 3
            abortNpNmea := flags.getLsbD 4
            abortNpUhash := flags.getLsbD 5 })
      else .error .operandTooWide
  | _ => .error .operandShape

/-- An operation without operands. -/
def noArgs (i : Instr) : List Byte → Except DecodeError Instr
  | [] => .ok i
  | _ => .error .operandShape

/-- A generator operation with an 8-bit accumulator. -/
def acc8 (mk : BitVec 8 → Byte → Instr) : List Byte → Except DecodeError Instr
  | [a, b] => .ok (mk a b)
  | _ => .error .operandShape

/-- A generator operation with a 16-bit accumulator, little-endian in the record. -/
def acc16 (mk : BitVec 16 → Byte → Instr) : List Byte → Except DecodeError Instr
  | [a0, a1, b] => .ok (mk (a1 ++ a0) b)
  | _ => .error .operandShape

/-- A generator operation with a 24-bit accumulator. -/
def acc24 (mk : BitVec 24 → Byte → Instr) : List Byte → Except DecodeError Instr
  | [a0, a1, a2, b] => .ok (mk (a2 ++ a1 ++ a0) b)
  | _ => .error .operandShape

/-- A generator operation with a 32-bit accumulator. -/
def acc32 (mk : BitVec 32 → Byte → Instr) : List Byte → Except DecodeError Instr
  | [a0, a1, a2, a3, b] => .ok (mk (a3 ++ a2 ++ a1 ++ a0) b)
  | _ => .error .operandShape

/-- A generator operation with a 4-bit accumulator: the byte's high half must be zero
(40_generators.md R108). -/
def acc4 (mk : BitVec 4 → Byte → Instr) : List Byte → Except DecodeError Instr
  | [a, b] =>
    if a.extractLsb' 4 4 = 0 then .ok (mk (a.extractLsb' 0 4) b) else .error .operandTooWide
  | _ => .error .operandShape

/-- An accessor: its byte offset, little-endian. -/
def offsetArg (mk : LenWord → Instr) : List Byte → Except DecodeError Instr
  | [o0, o1, o2, o3] => .ok (mk (le32 o0 o1 o2 o3))
  | _ => .error .operandShape

/-- A bit-field query: start, little-endian, and width. -/
def bitfieldArgs (mk : LenWord → BitVec 8 → Instr) : List Byte → Except DecodeError Instr
  | [s0, s1, s2, s3, w] => .ok (mk (le32 s0 s1 s2 s3) w)
  | _ => .error .operandShape

/-- PUSH's octet. -/
def byteArg (mk : Byte → Instr) : List Byte → Except DecodeError Instr
  | [b] => .ok (mk b)
  | _ => .error .operandShape

/-- A 1-bit operand in a byte of its own. -/
def bitArg (mk : Bool → Instr) : List Byte → Except DecodeError Instr
  | [b] =>
    if b = 0 then .ok (mk false)
    else if b = 1 then .ok (mk true)
    else .error .operandTooWide
  | _ => .error .operandShape

/-- Fletcher-8's operands: both sums and the octet. -/
def fl8Args : List Byte → Except DecodeError Instr
  | [a, b, x] => .ok (.fl8Upd a b x)
  | _ => .error .operandShape

/-- The operands of the operation with code `op` (30_encoding.md R73 to R76); every other code is
illegal (R78). -/
def decodeArgs (op : Byte) (args : List Byte) : Except DecodeError Instr :=
  match op.toNat with
  | 0x01 => decodeBegin args
  | 0x02 => byteArg .push args
  | 0x03 => .ok (.pushN args)
  | 0x04 => noArgs .stop args
  | 0x05 => bitArg .setIdCb args
  | 0x06 => noArgs .dbgEn args
  | 0x07 => noArgs .dbgDis args
  | 0x08 => noArgs .errEn args
  | 0x09 => noArgs .errDis args
  | 0x10 => acc8 .xor8Upd args
  | 0x11 => acc24 .crc24qUpd args
  | 0x12 => fl8Args args
  | 0x13 => acc16 .ccitt16Upd args
  | 0x14 => acc32 .crc32rUpd args
  | 0x15 => acc4 .spCrc4Upd args
  | 0x16 => acc8 .spCrc8Upd args
  | 0x17 => acc16 .spCrc16Upd args
  | 0x18 => acc24 .spCrc24Upd args
  | 0x19 => acc32 .spCrc32Upd args
  | 0x20 => offsetArg .getU8 args
  | 0x21 => offsetArg .getU16 args
  | 0x22 => offsetArg .getU32 args
  | 0x23 => offsetArg .getU64 args
  | 0x24 => offsetArg .getI8 args
  | 0x25 => offsetArg .getI16 args
  | 0x26 => offsetArg .getI32 args
  | 0x27 => offsetArg .getI64 args
  | 0x28 => offsetArg .getF32 args
  | 0x29 => offsetArg .getF64 args
  | 0x2A => offsetArg .getStr args
  | 0x30 => offsetArg .getU8No args
  | 0x31 => offsetArg .getU16No args
  | 0x32 => offsetArg .getU32No args
  | 0x33 => offsetArg .getU64No args
  | 0x34 => offsetArg .getI8No args
  | 0x35 => offsetArg .getI16No args
  | 0x36 => offsetArg .getI32No args
  | 0x37 => offsetArg .getI64No args
  | 0x38 => offsetArg .getF32No args
  | 0x39 => offsetArg .getF64No args
  | 0x3A => offsetArg .getStrNo args
  | 0x40 => noArgs .nmeaName args
  | 0x41 => noArgs .uhashName args
  | 0x42 => noArgs .rtcmMsgId args
  | 0x43 => bitfieldArgs .rtcmGetU args
  | 0x44 => bitfieldArgs .rtcmGetS args
  | 0x45 => noArgs .ubxClass args
  | 0x46 => noArgs .ubxId args
  | 0x47 => noArgs .ubxNum args
  | 0x48 => noArgs .sbfId args
  | 0x49 => noArgs .sbfRev args
  | 0x4A => noArgs .sbfIsNmea args
  | 0x4B => noArgs .sbfIsRtcm args
  | 0x4C => noArgs .sbfEncPtr args
  | 0x4D => noArgs .sbfEncLen args
  | 0x4E => noArgs .spartnType args
  | 0x4F => noArgs .spartnSubtype args
  | _ => .error (.illegalOpcode op)

/-- The operation an operation record stands for (30_encoding.md R72). -/
def decodeOperation : List Byte → Except DecodeError Instr
  | [] => .error .emptyRecord
  | op :: args => decodeArgs op args

/-- What follows `D3`: six reserved zero bits and the length (30_encoding.md R63, R71). -/
def decodeRtcm : List Byte → Except DecodeError Instr
  | b1 :: b2 :: rest =>
    if b1.extractLsb' 2 6 = 0 then .ok (.frameRtcm (b1.extractLsb' 0 2 ++ b2) rest)
    else .error .noFrame
  | [b1] => if b1.extractLsb' 2 6 = 0 then .error .frameCut else .error .noFrame
  | [] => .error .noFrame

/-- What follows `B5 62` (R64, R71). -/
def decodeUbx : List Byte → Except DecodeError Instr
  | cls :: id :: l0 :: l1 :: rest => .ok (.frameUbx cls id (l1 ++ l0) rest)
  | _ => .error .frameCut

/-- What follows `24 40` (R65, R71). -/
def decodeSbf : List Byte → Except DecodeError Instr
  | c0 :: c1 :: i0 :: i1 :: l0 :: l1 :: rest =>
    .ok (.frameSbf (c1 ++ c0) (i1.extractLsb' 0 5 ++ i0) (i1.extractLsb' 5 3) (l1 ++ l0) rest)
  | _ => .error .frameCut

/-- What follows `73` (R66, R71). -/
def decodeSpartn : List Byte → Except DecodeError Instr
  | h1 :: h2 :: h3 :: rest =>
    .ok (.frameSpartn (h1.extractLsb' 1 7) (h1.extractLsb' 0 1 ++ h2 ++ h3.extractLsb' 7 1)
      (h3.extractLsb' 6 1) (h3.extractLsb' 4 2) (h3.extractLsb' 0 4) rest)
  | _ => .error .frameCut

/-- What follows `AA 44 B5` (R68, R71). -/
def decodeUbin : List Byte → Except DecodeError Instr
  | h3 :: h4 :: h5 :: l0 :: l1 :: rest => .ok (.frameUbin h3 h4 h5 (l1 ++ l0) rest)
  | _ => .error .frameCut

/-- The frame format a stretch of octets begins with, by its leading fixed octets (30_encoding.md R70,
R77). Where the NMEA row (`24`) and the SBF row (`24 40`) overlap the longer match is taken; which
recogniser owns the frame is the table's to decide, not the decoder's (log 6). -/
def decodeFrame : List Byte → Except DecodeError Instr
  | [] => .error .noFrame
  | b0 :: bs =>
    match b0.toNat with
    | 0x23 => .ok (.frameUhash bs)
    | 0x24 =>
      match bs with
      | b1 :: r => if b1 = 0x40 then decodeSbf r else .ok (.frameNmea bs)
      | [] => .ok (.frameNmea [])
    | 0x73 => decodeSpartn bs
    | 0xAA =>
      match bs with
      | b1 :: b2 :: r => if b1 = 0x44 ∧ b2 = 0xB5 then decodeUbin r else .error .noFrame
      | _ => .error .noFrame
    | 0xB5 =>
      match bs with
      | b1 :: r => if b1 = 0x62 then decodeUbx r else .error .noFrame
      | [] => .error .noFrame
    | 0xD3 => decodeRtcm bs
    | _ => .error .noFrame

/-- The instruction a record stands for. -/
def decode (r : Record) : Except DecodeError Instr :=
  match r.space with
  | .port => decodeOperation r.bytes
  | .stream => decodeFrame r.bytes

/-- A size or offset operand in a record, least significant byte first. -/
def encodeLen (v : LenWord) : List Byte :=
  [byteOf v 0, byteOf v 1, byteOf v 2, byteOf v 3]

/-- BEGIN's buffer operand in a record. -/
def encodeBuffer : BufferArg → List Byte
  | .null => 0 :: encodeLen 0
  | .total n => 1 :: encodeLen n
  | .area n => 2 :: encodeLen n

/-- BEGIN's flag byte. -/
def encodeFlags (a : BeginArgs) : Byte :=
  (0 : BitVec 2) ++ BitVec.ofBool a.abortNpUhash ++ BitVec.ofBool a.abortNpNmea ++
    BitVec.ofBool a.debugSinkPresent ++ BitVec.ofBool a.errorSinkPresent ++
    BitVec.ofBool a.badCrcPresent ++ BitVec.ofBool a.eomPresent

/-- BEGIN's operands in a record. -/
def encodeBegin (a : BeginArgs) : List Byte :=
  encodeBuffer a.buffer ++ (encodeFlags a :: a.table.map Kind.code)

/-- The record of an operation. -/
def portRecord (op : Byte) (args : List Byte) : Record := ⟨.port, op :: args⟩

/-- The octets of a frame, on the stream. -/
def streamRecord (octets : List Byte) : Record := ⟨.stream, octets⟩

/-- The record that stands for an instruction. -/
def encode : Instr → Record
  | .beginParser a => portRecord 0x01 (encodeBegin a)
  | .push b => portRecord 0x02 [b]
  | .pushN bytes => portRecord 0x03 bytes
  | .stop => portRecord 0x04 []
  | .setIdCb en => portRecord 0x05 [if en then 1 else 0]
  | .dbgEn => portRecord 0x06 []
  | .dbgDis => portRecord 0x07 []
  | .errEn => portRecord 0x08 []
  | .errDis => portRecord 0x09 []
  | .xor8Upd acc b => portRecord 0x10 [acc, b]
  | .crc24qUpd acc b => portRecord 0x11 [byteOf acc 0, byteOf acc 1, byteOf acc 2, b]
  | .fl8Upd a b x => portRecord 0x12 [a, b, x]
  | .ccitt16Upd acc b => portRecord 0x13 [byteOf acc 0, byteOf acc 1, b]
  | .crc32rUpd acc b => portRecord 0x14 [byteOf acc 0, byteOf acc 1, byteOf acc 2, byteOf acc 3, b]
  | .spCrc4Upd acc b => portRecord 0x15 [acc.setWidth 8, b]
  | .spCrc8Upd acc b => portRecord 0x16 [acc, b]
  | .spCrc16Upd acc b => portRecord 0x17 [byteOf acc 0, byteOf acc 1, b]
  | .spCrc24Upd acc b => portRecord 0x18 [byteOf acc 0, byteOf acc 1, byteOf acc 2, b]
  | .spCrc32Upd acc b =>
    portRecord 0x19 [byteOf acc 0, byteOf acc 1, byteOf acc 2, byteOf acc 3, b]
  | .getU8 o => portRecord 0x20 (encodeLen o)
  | .getU16 o => portRecord 0x21 (encodeLen o)
  | .getU32 o => portRecord 0x22 (encodeLen o)
  | .getU64 o => portRecord 0x23 (encodeLen o)
  | .getI8 o => portRecord 0x24 (encodeLen o)
  | .getI16 o => portRecord 0x25 (encodeLen o)
  | .getI32 o => portRecord 0x26 (encodeLen o)
  | .getI64 o => portRecord 0x27 (encodeLen o)
  | .getF32 o => portRecord 0x28 (encodeLen o)
  | .getF64 o => portRecord 0x29 (encodeLen o)
  | .getStr o => portRecord 0x2A (encodeLen o)
  | .getU8No o => portRecord 0x30 (encodeLen o)
  | .getU16No o => portRecord 0x31 (encodeLen o)
  | .getU32No o => portRecord 0x32 (encodeLen o)
  | .getU64No o => portRecord 0x33 (encodeLen o)
  | .getI8No o => portRecord 0x34 (encodeLen o)
  | .getI16No o => portRecord 0x35 (encodeLen o)
  | .getI32No o => portRecord 0x36 (encodeLen o)
  | .getI64No o => portRecord 0x37 (encodeLen o)
  | .getF32No o => portRecord 0x38 (encodeLen o)
  | .getF64No o => portRecord 0x39 (encodeLen o)
  | .getStrNo o => portRecord 0x3A (encodeLen o)
  | .nmeaName => portRecord 0x40 []
  | .uhashName => portRecord 0x41 []
  | .rtcmMsgId => portRecord 0x42 []
  | .rtcmGetU start width => portRecord 0x43 (encodeLen start ++ [width])
  | .rtcmGetS start width => portRecord 0x44 (encodeLen start ++ [width])
  | .ubxClass => portRecord 0x45 []
  | .ubxId => portRecord 0x46 []
  | .ubxNum => portRecord 0x47 []
  | .sbfId => portRecord 0x48 []
  | .sbfRev => portRecord 0x49 []
  | .sbfIsNmea => portRecord 0x4A []
  | .sbfIsRtcm => portRecord 0x4B []
  | .sbfEncPtr => portRecord 0x4C []
  | .sbfEncLen => portRecord 0x4D []
  | .spartnType => portRecord 0x4E []
  | .spartnSubtype => portRecord 0x4F []
  | .frameNmea rest => streamRecord (nmeaOctets rest)
  | .frameUhash rest => streamRecord (uhashOctets rest)
  | .frameRtcm len rest => streamRecord (rtcmOctets len rest)
  | .frameUbx cls id len rest => streamRecord (ubxOctets cls id len rest)
  | .frameSbf crc id rev len rest => streamRecord (sbfOctets crc id rev len rest)
  | .frameSpartn m l e t c rest => streamRecord (spartnOctets m l e t c rest)
  | .frameUbin h3 h4 h5 len rest => streamRecord (ubinOctets h3 h4 h5 len rest)

/-- How many operand bytes the operation with code `op` has when every operand is zero (BEGIN with an
empty table, PUSHN with no byte); `none` for a code 30_encoding.md R78 calls illegal. -/
def operandBytes (op : Nat) : Option Nat :=
  if op = 0x01 then some 6
  else if op = 0x02 ∨ op = 0x05 then some 1
  else if op = 0x03 ∨ op = 0x04 ∨ (0x06 ≤ op ∧ op ≤ 0x09) then some 0
  else if op = 0x10 ∨ op = 0x15 ∨ op = 0x16 then some 2
  else if op = 0x12 ∨ op = 0x13 ∨ op = 0x17 then some 3
  else if op = 0x11 ∨ op = 0x18 then some 4
  else if op = 0x14 ∨ op = 0x19 then some 5
  else if (0x20 ≤ op ∧ op ≤ 0x2A) ∨ (0x30 ≤ op ∧ op ≤ 0x3A) then some 4
  else if op = 0x43 ∨ op = 0x44 then some 5
  else if 0x40 ≤ op ∧ op ≤ 0x4F then some 0
  else none

/-- How many octets the shortest frame with these leading octets has (30_encoding.md R62 to R69). -/
def shortestFrame (first : Nat) : Nat :=
  if first = 0xD3 then 6
  else if first = 0xB5 then 8
  else if first = 0x73 then 9
  else if first = 0xAA then 28
  else if first = 0x24 then 8
  else 1

/-- The record of an instruction given as spec/opcode_table.json gives it: a number of `nbits` bits,
every bit above them zero. An 8-bit number that is an operation code is an operation record with zero
operands. Every other number is the leading octets of a frame "written as one number with the first
byte most significant" (30_encoding.md R77), filled up with zero octets. The two spaces share the
codes 0x23 and 0x24, and there the operation is taken (log 4). -/
def tableRecord (nbits w : Nat) : Record :=
  match (if nbits = 8 then operandBytes w else none) with
  | some n => portRecord (BitVec.ofNat 8 w) (List.replicate n 0)
  | none =>
    let lead := beBytes (BitVec.ofNat nbits w) (nbits / 8)
    let first := (lead.headD 0).toNat
    streamRecord (lead ++ List.replicate (shortestFrame first - lead.length) 0)

/-- The instruction the decoder reads from an instruction as spec/opcode_table.json numbers it. -/
def decodeTableWord (nbits w : Nat) : Option Instr :=
  match decode (tableRecord nbits w) with
  | .ok i => some i
  | .error _ => none

end Sys2Proof
end

