-- ==== Sys2Proof/Machine/State.lean ====
section
/-! DEFINITION. Machine/State.lean: every piece of state the spec gives the EMP core (10_state.md R10 to
R38), as plain data, and its values after power-on reset (R37, 70_reset_and_hazards.md R380). -/

namespace Sys2Proof.Machine

/-- The message buffer (10_state.md R13) as a list of the bytes that have a value, by address. A byte
the list does not name has no value (R13, R37, 93_implementation_defined.md U2; log 9). -/
abbrev Memory := List Host.Cell

/-- The canonical form: addresses strictly rising. An unlisted byte reads as no value, which no entry
can equal. -/
abbrev Memory.wf (m : Memory) : Prop := m.Pairwise fun x y => x.1 < y.1

/-- The parse state's active transition function, one flat enumeration of 43 values
(10_state.md R15). -/
inductive PState where
  | firstByte
  | nmeaNameThenFirstComma
  | nmeaFindAsterisk
  | nmeaChecksumHi
  | nmeaChecksumLo
  | lineTerm
  | crThenLf
  | lfThenCr
  | rtcmLengthHi
  | rtcmLengthLo
  | rtcmMsgIdHi
  | rtcmMsgIdLo
  | rtcmData
  | rtcmCrc
  | ubxSync2
  | ubxClass
  | ubxId
  | ubxLengthLo
  | ubxLengthHi
  | ubxPayload
  | ubxCkA
  | ubxCkB
  | sbfPreamble2
  | sbfCrc1
  | sbfCrc2
  | sbfId1
  | sbfId2
  | sbfLengthLo
  | sbfLengthHi
  | sbfBody
  | spartnHdr3
  | spartnExtHdr
  | spartnPayload
  | spartnEmbedded
  | spartnCrc
  | ubinSync2
  | ubinSync3
  | ubinReadHeader
  | ubinReadBody
  | ubinReadCrc
  | uhashNameThenFirstComma
  | uhashFindAsterisk
  | uhashChecksumByte
deriving DecidableEq, Repr

/-- The NMEA scratch record (10_state.md R24). -/
structure NmeaRec where
  sentenceName : Vector Byte 16
  nameLen : BitVec 8
deriving DecidableEq, Repr

/-- The RTCM scratch record (10_state.md R25); `messageId` is 12 bits in a 16-bit field. -/
structure RtcmRec where
  savedCrc : BitVec 24
  bytesRemaining : BitVec 16
  messageId : BitVec 16
deriving DecidableEq, Repr

/-- The UBX scratch record (10_state.md R26). -/
structure UbxRec where
  bytesRemaining : BitVec 16
  msgClass : BitVec 8
  msgId : BitVec 8
  payloadLen : BitVec 16
  ckA : BitVec 8
  ckB : BitVec 8
deriving DecidableEq, Repr

/-- The SBF scratch record (10_state.md R27); `length` is the frame's length field. -/
structure SbfRec where
  expectedCrc : BitVec 16
  computedCrc : BitVec 16
  blockId : BitVec 13
  blockRev : BitVec 3
  length : BitVec 16
  bytesRemaining : BitVec 16
deriving DecidableEq, Repr

/-- The SPARTN scratch record (10_state.md R28); `payloadLen` is 10 bits in a 16-bit field. -/
structure SpartnRec where
  frameCount : BitVec 16
  crcBytes : BitVec 3
  tf007ToTf016Len : BitVec 16
  messageType : BitVec 7
  payloadLen : BitVec 16
  eaf : BitVec 1
  crcType : BitVec 2
  headerCrc : BitVec 4
  subtype : BitVec 4
  timeTagType : BitVec 1
  authIndicator : BitVec 3
  embeddedAppLen : BitVec 8
deriving DecidableEq, Repr

/-- The Unicore-binary scratch record (10_state.md R29). -/
structure UbinRec where
  savedCrc : BitVec 32
  bytesRemaining : BitVec 16
deriving DecidableEq, Repr

/-- The Unicore-hash scratch record (10_state.md R30). -/
structure UhashRec where
  bytesRemaining : BitVec 8
  checksumBytes : BitVec 8
  sentenceName : Vector Byte 16
  nameLen : BitVec 8
deriving DecidableEq, Repr

/-- The scratch-pad as a tagged record: the tag is a kind (10_state.md R23). -/
inductive Scratch where
  | nmea (r : NmeaRec)
  | uhash (r : UhashRec)
  | rtcm (r : RtcmRec)
  | ubx (r : UbxRec)
  | sbf (r : SbfRec)
  | spartn (r : SpartnRec)
  | ubin (r : UbinRec)
deriving DecidableEq, Repr

/-- The cause of a failure (60_exceptions.md R351), codes 1 to 5. A ghost label on the event: no rule
branches on it (log 16). -/
inductive Cause where
  | tooLong
  | grammar
  | checksum
  | length
  | noParser
deriving DecidableEq, Repr

/-- The three event kinds (10_state.md R33). The host's answer to `badCrc` is no part of the event: it
comes with the host's return (60_exceptions.md R357, R360). -/
inductive Event where
  /-- `EOM(index, frame)`: a validated (or rescued) frame. -/
  | eom (index : Nat) (frame : List Byte)
  /-- `INVALID_DATA(bytes)`, with the cause as a ghost label. -/
  | invalidData (cause : Cause) (bytes : List Byte)
  /-- `BAD_CRC(index)`: the query whether a mismatching frame is to be delivered. -/
  | badCrc (index : Nat)
deriving DecidableEq, Repr

/-- `window` (10_state.md R34): whether the core is waiting inside a callback, and, as arguments, what
the suspended PUSH still has to do when the host returns ("the PUSH continues after the `emit`",
60_exceptions.md R360; log 12). -/
inductive Window where
  /-- No callback is open. -/
  | none
  /-- `IN_EOM`: `text` says whether TEXT_DELIVER (41_dispatch.md R130) or DELIVER (R129) raised it. -/
  | inEom (text : Bool)
  /-- `IN_INVALID`: `rescan` is the byte still to be dispatched by `FIRST_BYTE` (60_exceptions.md R352,
  R353), or nothing when `FIRST_BYTE` itself raised the event (41_dispatch.md R126). -/
  | inInvalid (rescan : Option Byte)
  /-- `IN_BAD_CRC`: the frame's last byte, and whether a rescued frame goes to TEXT_DELIVER or to
  DELIVER (60_exceptions.md R354). -/
  | inBadCrc (b : Byte) (text : Bool)
deriving DecidableEq, Repr

/-- The result of an operation (30_encoding.md R72: "a value, or `refused`"; 41_dispatch.md R121). -/
inductive Result where
  /-- No result: nothing has been presented, or the operation has none (41_dispatch.md R124). -/
  | nothing
  /-- `ok` of BEGIN. -/
  | ok
  /-- `error` of BEGIN (41_dispatch.md R122, 60_exceptions.md R368). -/
  | error
  /-- `refused`: the operation is not legal here and has changed nothing (41_dispatch.md R140). -/
  | refused
  /-- An unsigned value, or raw bits, of the width the operation states. -/
  | bits (w : Nat) (v : BitVec w)
  /-- A signed value of `w` bits, read as two's complement (49_accessors.md R305 to R308, R317). -/
  | signed (w : Nat) (v : Int)
  /-- Fletcher-8's two sums (40_generators.md R96). -/
  | sums (ckA ckB : BitVec 8)
  /-- A byte string (49_accessors.md R311, R313, R314). -/
  | bytes (s : List Byte)
  /-- One bit (49_accessors.md R323, R324). -/
  | bit (v : Bool)
deriving DecidableEq, Repr

/-- What the host does at the port (log 1): it presents a record, or it returns from the callback that
is open, with its Boolean (60_exceptions.md R357, R360). -/
inductive HostAction where
  | present (r : Record)
  | returns (answer : Bool)
deriving DecidableEq, Repr

/-- The ParseState (10_state.md R10): everything that exists only while `configured = 1`. -/
structure ParseState where
  /-- `TABLE[0..N-1]`; `N` is its length (R12). -/
  table : List Kind
  /-- `buffer_length`, `LEN_W` bits (R13; log 17). -/
  bufferLength : Nat
  /-- `buffer[0 .. buffer_length)` (R13). -/
  buffer : Memory
  /-- `length`, `LEN_W` bits: the number of valid bytes in `buffer` (R14; log 17). -/
  length : Nat
  /-- `state`, the active transition function (R15). -/
  state : PState
  /-- `active`, in `0..N`; `N` is the sentinel SEARCHING (R16). -/
  active : Nat
  /-- The CRC accumulator, 32 bits (R17). -/
  crc : BitVec 32
  /-- The scratch-pad record; none until a preamble has been accepted (R23; log 8). -/
  sp : Option Scratch
  /-- `bad_crc_en` (R21). -/
  badCrcEn : Bool
  /-- `invalid_en` (R21). -/
  invalidEn : Bool
  /-- `abort_np_nmea` (R21). -/
  abortNpNmea : Bool
  /-- `abort_np_uhash` (R21). -/
  abortNpUhash : Bool
  /-- `dbg_en` (R21), without effect (log 32). -/
  dbgEn : Bool
  /-- `err_en` (R21), without effect (log 32). -/
  errEn : Bool
  /-- `verbose` (R21), without effect (log 32). -/
  verbose : Bool
deriving DecidableEq, Repr

/-- The machine's state. -/
structure State where
  /-- The ParseState; `none` is `configured = 0` (10_state.md R11, 93_implementation_defined.md U3;
  log 7). -/
  parse : Option ParseState
  /-- `window` (10_state.md R34). -/
  window : Window
  /-- The bytes of a suspended PUSHN still to be pushed (41_dispatch.md R125): the model's own
  (log 12). -/
  todo : List Byte
  /-- What the host has presented and the core has not yet taken: the model's own (log 1). -/
  port : List HostAction
  /-- The output event list of the current operation (10_state.md R31, R33; log 14). -/
  events : List Event
  /-- The result of the operation last presented: the model's own (log 15). -/
  result : Result
deriving DecidableEq, Repr

/-- `configured` (10_state.md R11). -/
def State.configured (s : State) : Bool := s.parse.isSome

/-- After power-on reset (10_state.md R37, 70_reset_and_hazards.md R380): unconfigured, no window open;
nothing has been presented yet. -/
def State.reset : State where
  parse := none
  window := .none
  todo := []
  port := []
  events := []
  result := .nothing

/-- Why the model stops. All of them are the model's own (log 28): no run from reset reaches one, and
the spec gives no case a value. -/
inductive Fault where
  /-- Raised by a read of a buffer byte that has no value ("a model must not read `buffer[i]` for
  `i >= length`", 10_state.md R13). Safe: nothing is concluded from such a byte. -/
  | byteWithoutValue (address : Nat)
  /-- Raised by a state handler or a query whose scratch record is absent or of another kind
  (20_memory.md R56). Safe. -/
  | wrongScratch
  /-- Raised by an accessor or query whose `active` names no table entry (49_accessors.md R300 item 1
  gives `active < N` in a window). Safe. -/
  | noActiveEntry
  /-- Raised by a checksum verdict over a stored character that is no hex digit (42_nmea.md R155,
  48_unicore_hash.md R283: every digit was checked as it arrived). Safe. -/
  | notHexDigit
  /-- Raised when a window is open and there is no ParseState, or when a PUSH runs without one
  ("reading one is a model fault, not zero", 10_state.md R11). Safe. -/
  | noParseState
deriving DecidableEq, Repr

/-- Why the model gives no meaning. -/
inductive Refusal where
  /-- Raised by a refused arm of `exec`: the instruction has no meaning in the model yet. Safe: nothing
  is concluded about it. No arm raises it now. -/
  | notModelled (mnemonic : String)
deriving DecidableEq, Repr

end Sys2Proof.Machine
end

