-- ==== Sys2Proof/Machine/Flags.lean ====
section
/-! DEFINITION. Machine/Flags.lean: the verdicts a step computes and consumes. The machine has no flag
and no condition code ("every verdict is consumed inside the step that computes it", 10_state.md R20),
so nothing here is stored. -/

namespace Sys2Proof.Machine

/-- NMEA's verdict (42_nmea.md R155): the received pair, high digit first, against `crc[7:0]`; `none`
when a character is no hex digit. -/
def nmeaVerdict (hi lo : Byte) (crc : BitVec 32) : Option Bool :=
  match hexNumber [hi, lo] with
  | some rx => some (rx == (crc.setWidth 8).toNat)
  | none => none

/-- RTCM's verdict (43_rtcm.md R178): `crc[23:0] = 0`. -/
def rtcmVerdict (crc : BitVec 32) : Bool := crc.setWidth 24 == 0

/-- UBX's verdict (44_ubx.md R199): both received bytes against the computed sums. -/
def ubxVerdict (rxA rxB ckA ckB : Byte) : Bool := rxA == ckA && rxB == ckB

/-- SBF's verdict (45_sbf.md R220). -/
def sbfVerdict (computed expected : BitVec 16) : Bool := computed == expected

/-- SBF's length check (45_sbf.md R218): a multiple of 4, at least 8. -/
def sbfLengthLegal (len : BitVec 16) : Bool := len.toNat % 4 == 0 && 8 ≤ len.toNat

/-- RTCM's reserved bits (43_rtcm.md R172). -/
def rtcmReservedZero (b : Byte) : Bool := b &&& 0xFC == 0

/-- SPARTN's header verdict (46_spartn.md R232). -/
def spartnHeaderVerdict (h1 h2 h3 : Byte) (headerCrc : BitVec 4) : Bool :=
  spHdrCrc h1 h2 h3 == headerCrc

/-- SPARTN's body verdict (46_spartn.md R236): the received big-endian CRC of `n` bytes against
`c[8n-1:0]`. -/
def spartnBodyVerdict (crcType : BitVec 2) (n : Nat) (received covered : List Byte) : Bool :=
  beNat received == (spBodyCrc crcType covered).toNat % 2 ^ (8 * n)

/-- Unicore binary's verdict (47_unicore_binary.md R266): the received little-endian CRC against
`saved_crc`. -/
def ubinVerdict (received : List Byte) (savedCrc : BitVec 32) : Bool :=
  leNat received == savedCrc.toNat

/-- Unicore hash's verdict (48_unicore_hash.md R283): the digits' value against `crc[7:0]` for two
digits, `crc[31:0]` otherwise; `none` when a character is no hex digit. -/
def uhashVerdict (digits : List Byte) (checksumBytes : BitVec 8) (crc : BitVec 32) : Option Bool :=
  match hexNumber digits with
  | some rx =>
    some (rx == if checksumBytes = 2 then (crc.setWidth 8).toNat else crc.toNat)
  | none => none

end Sys2Proof.Machine
end

