-- ==== Sys2Proof/Machine/Ops.lean ====
section
/-! DEFINITION. Machine/Ops.lean: the named operations over the buffer, the cursor and the scratch-pad;
the dispatcher; raising an event and returning from its window, which are this machine's exception
entry and return (60_exceptions.md R350 to R361); and the failure and delivery procedures that every
recogniser shares. -/

namespace Sys2Proof.Machine

/-! ### The buffer -/

/-- What a byte of the buffer reads as; `none` where it has no value (10_state.md R13). -/
def Memory.read : Memory → Nat → Option Byte
  | [], _ => none
  | (a, v) :: m, i => if a = i then some v else Memory.read m i

/-- One byte written (`MemWrite(addr, 1, v)`, 00_scope.md R7), in the canonical form. -/
def Memory.write : Memory → Nat → Byte → Memory
  | [], i, b => [(i, b)]
  | (a, v) :: m, i, b =>
    if i < a then (i, b) :: (a, v) :: m
    else if i = a then (i, b) :: m
    else (a, v) :: Memory.write m i b

/-- The byte string of `n` bytes from `i` on; `none` if one of them has no value. -/
def Memory.readMany (m : Memory) (i : Nat) : Nat → Option (List Byte)
  | 0 => some []
  | n + 1 =>
    match Memory.read m i, Memory.readMany m (i + 1) n with
    | some b, some bs => some (b :: bs)
    | _, _ => none

/-- The first address from `i` on, among `n`, whose byte has no value. -/
def Memory.firstMissing (m : Memory) (i : Nat) : Nat → Nat
  | 0 => i
  | n + 1 => if (Memory.read m i).isNone then i else Memory.firstMissing m (i + 1) n

/-- `buffer[i]` (00_scope.md R7). -/
def ParseState.byteAt (p : ParseState) (i : Nat) : Except Fault Byte :=
  match p.buffer.read i with
  | some b => .ok b
  | none => .error (.byteWithoutValue i)

/-- `buffer[a..b)` (00_scope.md R7): empty if `a >= b`. -/
def ParseState.slice (p : ParseState) (a b : Nat) : Except Fault (List Byte) :=
  match p.buffer.readMany a (b - a) with
  | some bs => .ok bs
  | none => .error (.byteWithoutValue (p.buffer.firstMissing a (b - a)))

/-- `append(b)` (00_scope.md R7). -/
def ParseState.append (p : ParseState) (b : Byte) : ParseState :=
  { p with buffer := p.buffer.write p.length b, length := p.length + 1 }

/-- The synthetic `CR LF NUL` of a text frame: three bytes written, `length` advanced by two
(41_dispatch.md R130). -/
def ParseState.trailer (p : ParseState) : ParseState :=
  { p with
    buffer := ((p.buffer.write p.length 0x0D).write (p.length + 1) 0x0A).write (p.length + 2) 0x00
    length := p.length + 2 }

/-! ### The cursor, the accumulator and the scratch-pad -/

/-- `N` (10_state.md R12). -/
def ParseState.count (p : ParseState) : Nat := p.table.length

/-- `state <- S`. -/
def ParseState.goto (p : ParseState) (st : PState) : ParseState := { p with state := st }

/-- `state <- FIRST_BYTE; active <- N`: no recogniser is latched. -/
def ParseState.search (p : ParseState) : ParseState :=
  { p with state := .firstByte, active := p.count }

/-- `crc <- v`. -/
def ParseState.setCrc (p : ParseState) (v : BitVec 32) : ParseState := { p with crc := v }

/-- The scratch record rewritten. -/
def ParseState.setSp (p : ParseState) (r : Scratch) : ParseState := { p with sp := some r }

/-- `crc <- crc ^ b` (42_nmea.md R152; 48_unicore_hash.md R282). -/
def ParseState.foldXor (p : ParseState) (b : Byte) : ParseState :=
  p.setCrc (p.crc ^^^ b.setWidth 32)

/-- `crc <- crc24q(crc, b)` (43_rtcm.md). -/
def ParseState.foldCrc24q (p : ParseState) (b : Byte) : ParseState :=
  p.setCrc ((crc24q (p.crc.setWidth 24) b).setWidth 32)

/-- `crc <- ccitt16(crc, b)` (45_sbf.md). -/
def ParseState.foldCcitt16 (p : ParseState) (b : Byte) : ParseState :=
  p.setCrc ((ccitt16 (p.crc.setWidth 16) b).setWidth 32)

/-- `crc <- crc32r(crc, b)` (47_unicore_binary.md, 48_unicore_hash.md). -/
def ParseState.foldCrc32r (p : ParseState) (b : Byte) : ParseState :=
  p.setCrc (crc32r p.crc b)

/-- The kind a scratch record belongs to: its tag (10_state.md R23). -/
def Scratch.kind : Scratch → Kind
  | .nmea _ => .nmea
  | .uhash _ => .uhash
  | .rtcm _ => .rtcm
  | .ubx _ => .ubx
  | .sbf _ => .sbf
  | .spartn _ => .spartn
  | .ubin _ => .ubin

/-- The record of a kind with every field 0 (10_state.md R23, 92_eei_decisions.md D10). -/
def Scratch.zero : Kind → Scratch
  | .nmea => .nmea ⟨Vector.replicate 16 0, 0⟩
  | .uhash => .uhash ⟨0, 0, Vector.replicate 16 0, 0⟩
  | .rtcm => .rtcm ⟨0, 0, 0⟩
  | .ubx => .ubx ⟨0, 0, 0, 0, 0, 0⟩
  | .sbf => .sbf ⟨0, 0, 0, 0, 0, 0⟩
  | .spartn => .spartn ⟨0, 0, 0, 0, 0, 0, 0, 0, 0, 0, 0, 0⟩
  | .ubin => .ubin ⟨0, 0⟩

/-- The name characters of a text record: `sentence_name[0 .. name_len)`. -/
def nameChars (name : Vector Byte 16) (len : BitVec 8) : List Byte :=
  name.toList.take len.toNat

/-! ### The result of an operation -/

/-- The operation's result. -/
def State.answer (s : State) (r : Result) : State := { s with result := r }

/-- `refuse`: no state change, no event, result `refused` (41_dispatch.md R140). -/
def State.refuse (s : State) : State := s.answer .refused

/-! ### Raising an event -/

/-- Where a procedure of a PUSH has got to: the ParseState it leaves, and the event it has raised with
the window that the event opens, if it has raised one. -/
structure Turn where
  p : ParseState
  raised : Option (Event × Window)
deriving DecidableEq, Repr

/-- The procedure has run to its end and raised nothing. -/
def quiet (p : ParseState) : Except Fault Turn := .ok ⟨p, none⟩

/-- Exception entry (60_exceptions.md R359): the event is emitted and its window opens; nothing is
saved and no mode changes. Every effect before the `emit` has happened and none after it; what is
still to happen is in the window. -/
def raise (p : ParseState) (e : Event) (w : Window) : Except Fault Turn := .ok ⟨p, some (e, w)⟩

/-! ### The dispatcher -/

/-- `PREAMBLE[k]` (41_dispatch.md R127). -/
def preamble : Kind → Byte
  | .nmea => 0x24
  | .uhash => 0x23
  | .rtcm => 0xD3
  | .ubx => 0xB5
  | .sbf => 0x24
  | .spartn => 0x73
  | .ubin => 0xAA

/-- The first state of a kind, set by `ACCEPT_k` (41_dispatch.md R127). -/
def firstState : Kind → PState
  | .nmea => .nmeaNameThenFirstComma
  | .uhash => .uhashNameThenFirstComma
  | .rtcm => .rtcmLengthHi
  | .ubx => .ubxSync2
  | .sbf => .sbfPreamble2
  | .spartn => .spartnHdr3
  | .ubin => .ubinSync2

/-- `crc` after `ACCEPT_k(b)`: RTCM and Unicore binary fold their preamble (43_rtcm.md R171,
47_unicore_binary.md R261), the others leave the 0 of `FIRST_BYTE` (42_nmea.md R151, 44_ubx.md R191,
45_sbf.md R211, 46_spartn.md R231, 48_unicore_hash.md R285). -/
def acceptCrc (b : Byte) : Kind → BitVec 32
  | .rtcm => (crc24q 0 b).setWidth 32
  | .ubin => crc32r 0 b
  | .nmea | .uhash | .ubx | .sbf | .spartn => 0

/-- The first entry of the table, counted from `i`, whose preamble is `b` (41_dispatch.md R126,
R128). -/
def firstAcceptor (b : Byte) : List Kind → Nat → Option (Nat × Kind)
  | [], _ => none
  | k :: ks, i => if preamble k = b then some (i, k) else firstAcceptor b ks (i + 1)

/-- The first lines of `FIRST_BYTE`: the accumulator and the cursor cleared, `b` at index 0
(41_dispatch.md R126). -/
def ParseState.restart (p : ParseState) (b : Byte) : ParseState :=
  { p with
    crc := 0
    length := 1
    state := .firstByte
    active := p.count
    buffer := p.buffer.write 0 b }

/-- Entry `i` of kind `k` latched (41_dispatch.md R126): `active`, a zero record, `ACCEPT_k(b)`. -/
def ParseState.latch (p : ParseState) (i : Nat) (k : Kind) (b : Byte) : ParseState :=
  { p with
    active := i
    sp := some (Scratch.zero k)
    state := firstState k
    crc := acceptCrc b k }

/-- `FIRST_BYTE(b)` (41_dispatch.md R126). -/
def firstByte (p : ParseState) (b : Byte) : Except Fault Turn :=
  match firstAcceptor b p.table 0 with
  | some (i, k) => quiet ((p.restart b).latch i k b)
  | none =>
    if p.invalidEn then raise (p.restart b) (.invalidData .noParser [b]) (.inInvalid none)
    else quiet (p.restart b)

/-! ### The failure disciplines -/

/-- `FAIL(cause, b)`: fatal-to-frame-rescan by a state handler; `b` has been appended
(60_exceptions.md R352). -/
def fail (cause : Cause) (p : ParseState) (b : Byte) : Except Fault Turn :=
  if p.invalidEn then
    match p.slice 0 (p.length - 1) with
    | .ok dropped => raise p (.invalidData cause dropped) (.inInvalid (some b))
    | .error f => .error f
  else firstByte p b

/-- `FAIL_TOO_LONG(b)`: raised by PUSH before `b` is appended (60_exceptions.md R353). -/
def failTooLong (p : ParseState) (b : Byte) : Except Fault Turn :=
  if p.invalidEn then
    match p.slice 0 p.length with
    | .ok dropped => raise p (.invalidData .tooLong dropped) (.inInvalid (some b))
    | .error f => .error f
  else firstByte p b

/-! ### Frame completion -/

/-- `DELIVER` up to its EOM (41_dispatch.md R129). -/
def deliver (p : ParseState) : Except Fault Turn :=
  match p.slice 0 p.length with
  | .ok frame => raise p (.eom p.active frame) (.inEom false)
  | .error f => .error f

/-- `TEXT_DELIVER(b)` up to its EOM (41_dispatch.md R130). -/
def textDeliver (p : ParseState) (b : Byte) : Except Fault Turn :=
  if p.bufferLength < p.length + 3 then fail .tooLong p b
  else
    match p.trailer.slice 0 p.trailer.length with
    | .ok frame => raise p.trailer (.eom p.active frame) (.inEom true)
    | .error f => .error f

/-- What a frame with a good or rescued verdict does: TEXT_DELIVER for the text kinds, DELIVER for the
binary ones. -/
def complete (text : Bool) (p : ParseState) (b : Byte) : Except Fault Turn :=
  if text then textDeliver p b else deliver p

/-- `SOFT_CRC(b)` up to the host's answer (60_exceptions.md R354); without a bad-CRC callback the
answer is taken as false (R356). -/
def softCrc (text : Bool) (p : ParseState) (b : Byte) : Except Fault Turn :=
  if p.badCrcEn then raise p (.badCrc p.active) (.inBadCrc b text)
  else fail .checksum p b

/-- A frame's verdict acted on: delivered if good, SOFT_CRC if not. -/
def conclude (good text : Bool) (p : ParseState) (b : Byte) : Except Fault Turn :=
  if good then complete text p b else softCrc text p b

/-! ### The line-terminator states -/

/-- State `LINE_TERM` (41_dispatch.md R131). -/
def lineTerm (p : ParseState) (b : Byte) : Except Fault Turn :=
  if b = 0x0D then quiet (p.goto .crThenLf)
  else if b = 0x0A then quiet (p.goto .lfThenCr)
  else firstByte p b

/-- State `CR_THEN_LF` (41_dispatch.md R132). -/
def crThenLf (p : ParseState) (b : Byte) : Except Fault Turn :=
  if b = 0x0A then quiet p.search else firstByte p b

/-- State `LF_THEN_CR` (41_dispatch.md R133). -/
def lfThenCr (p : ParseState) (b : Byte) : Except Fault Turn :=
  if b = 0x0D then quiet p.search else firstByte p b

/-! ### The host's return -/

/-- The rest of a PUSH after the host has returned from the open window (60_exceptions.md R360):
nothing was saved, so nothing is restored. For IN_BAD_CRC the return carries the answer (R354,
R357). -/
def afterWindow (answer : Bool) (p : ParseState) : Window → Except Fault Turn
  | .none => quiet p
  | .inEom true => quiet (p.goto .lineTerm)
  | .inEom false => quiet p.search
  | .inInvalid none => quiet p
  | .inInvalid (some b) => firstByte p b
  | .inBadCrc b text => if answer then complete text p b else fail .checksum p b

end Sys2Proof.Machine
end

