-- ==== Sys2Proof/Machine/Operands.lean ====
section
/-! DEFINITION. Machine/Operands.lean: the operand forms of the accessors and queries: the window they
need, the effective address, the bounds, little-endian reads, signed reading, and the RTCM bit field
(49_accessors.md R300, R312, R316, R317, R329). -/

namespace Sys2Proof.Machine

/-- `PAYLOAD_OFFSET[k]`: 6 for UBX, 0 for the others (00_scope.md R5, 10_state.md R22; a parameter,
log 24). -/
def payloadOffset : Kind → Nat
  | .ubx => 6
  | .nmea | .uhash | .rtcm | .sbf | .spartn | .ubin => 0

/-- The ParseState an accessor or query reads: there is one only in an IN_EOM or IN_BAD_CRC window
(49_accessors.md R300 item 1, 41_dispatch.md R140). -/
def State.readable (s : State) : Option ParseState :=
  match s.window with
  | .inEom _ | .inBadCrc _ _ => s.parse
  | .none | .inInvalid _ => none

/-- `TABLE[active]`. -/
def ParseState.activeKind (p : ParseState) : Except Fault Kind :=
  match p.table[p.active]? with
  | some k => .ok k
  | none => .error .noActiveEntry

/-- An accessor's `base` (R300 item 3): `PAYLOAD_OFFSET[TABLE[active]]`, or 0 in the `.NO` variant. -/
def ParseState.base (p : ParseState) (raw : Bool) : Except Fault Nat :=
  if raw then .ok 0
  else
    match p.activeKind with
    | .ok k => .ok (payloadOffset k)
    | .error f => .error f

/-- `MemRead(ea, n)` as `w` bits, little-endian (R300 item 6; 20_memory.md R42). -/
def memValue (w : Nat) (bs : List Byte) : BitVec w := BitVec.ofNat w (leNat bs)

/-- An unsigned or raw result of `w` bits. -/
def asBits (w : Nat) (bs : List Byte) : Result := .bits w (memValue w bs)

/-- A signed result of `w` bits, two's complement (R305 to R308). PRESUMED (general knowledge, G12;
log 24). -/
def asSigned (w : Nat) (bs : List Byte) : Result := .signed w (memValue w bs).toInt

/-- The result of a read operation as an outcome: a value or a refusal changes the result alone
(R300 items 2 and 4). -/
def State.deliverResult (s : State) (r : Except Fault Result) : Host.Outcome State Fault Refusal :=
  match r with
  | .ok v => .next (s.answer v)
  | .error f => .fault f

/-- The value of an accessor of `n` bytes: refused when `ea + n > length` (R300 item 4), the effective
address computed in natural numbers (item 3). -/
def ParseState.access (p : ParseState) (raw : Bool) (offset : LenWord) (n : Nat)
    (form : List Byte → Result) : Except Fault Result :=
  match p.base raw with
  | .error f => .error f
  | .ok base =>
    if p.length < base + offset.toNat + n then .ok .refused
    else
      match p.slice (base + offset.toNat) (base + offset.toNat + n) with
      | .ok bs => .ok (form bs)
      | .error f => .error f

/-- `GETSTR` (R311): the bytes from `ea` up to the first `0x00` or the end of the frame slice. -/
def ParseState.accessStr (p : ParseState) (raw : Bool) (offset : LenWord) : Except Fault Result :=
  match p.base raw with
  | .error f => .error f
  | .ok base =>
    if p.length ≤ base + offset.toNat then .ok .refused
    else
      match p.slice (base + offset.toNat) p.length with
      | .ok bs => .ok (.bytes (untilNul bs))
      | .error f => .error f

/-- An accessor at the port: refused outside an IN_EOM or IN_BAD_CRC window (R300 item 1). -/
def accessor (s : State) (value : ParseState → Except Fault Result) :
    Host.Outcome State Fault Refusal :=
  match s.readable with
  | none => .next s.refuse
  | some p => s.deliverResult (value p)

/-- A query of kind `k` at the port: refused outside such a window and when `TABLE[active]` is another
kind (R329). -/
def query (k : Kind) (s : State) (value : ParseState → Scratch → Except Fault Result) :
    Host.Outcome State Fault Refusal :=
  match s.readable with
  | none => .next s.refuse
  | some p =>
    match p.activeKind, p.sp with
    | .error f, _ => .fault f
    | .ok k', sp =>
      if k' = k then
        match sp with
        | some r => s.deliverResult (value p r)
        | none => .fault .wrongScratch
      else .next s.refuse

/-- Bit `k` of an RTCM frame's payload: bit `7 - (k mod 8)` of `buffer[3 + k div 8]` (R316). PRESUMED
numbering (general knowledge, G14; log 24). -/
def ParseState.payloadBit (p : ParseState) (k : Nat) : Except Fault Bool :=
  match p.byteAt (3 + k / 8) with
  | .ok b => .ok (b.getLsbD (7 - k % 8))
  | .error f => .error f

/-- `width` payload bits from `start` on, shifted one after the other into `v` (R316). -/
def ParseState.bitField (p : ParseState) (start : Nat) : Nat → BitVec 64 → Except Fault (BitVec 64)
  | 0, v => .ok v
  | width + 1, v =>
    match p.payloadBit start with
    | .ok bit => p.bitField (start + 1) width ((v <<< 1) ||| (BitVec.ofBool bit).setWidth 64)
    | .error f => .error f

/-- The bit field of the RTCM getters: refused when the width is 0 or above 64 or the field runs past
the frame slice (R316). -/
def ParseState.rtcmField (p : ParseState) (start width : Nat) (form : BitVec 64 → Result) :
    Except Fault Result :=
  if width = 0 ∨ 64 < width ∨ 8 * p.length < 24 + start + width then .ok .refused
  else
    match p.bitField start width 0 with
    | .ok v => .ok (form v)
    | .error f => .error f

end Sys2Proof.Machine
end

