-- ==== Sys2Proof/Machine/Accessors.lean ====
section
/-! DEFINITION. Machine/Accessors.lean: the payload accessors' meanings (49_accessors.md R300 to R312).
The plain variants add the active kind's payload offset, the `.NO` variants do not (R312). -/

namespace Sys2Proof.Machine

/-- `GETU8` (49_accessors.md R301). -/
def execGetU8 (offset : LenWord) (s : State) : Host.Outcome State Fault Refusal :=
  accessor s fun p => p.access false offset 1 (asBits 8)

/-- `GETU16` (49_accessors.md R302). -/
def execGetU16 (offset : LenWord) (s : State) : Host.Outcome State Fault Refusal :=
  accessor s fun p => p.access false offset 2 (asBits 16)

/-- `GETU32` (49_accessors.md R303). -/
def execGetU32 (offset : LenWord) (s : State) : Host.Outcome State Fault Refusal :=
  accessor s fun p => p.access false offset 4 (asBits 32)

/-- `GETU64` (49_accessors.md R304). -/
def execGetU64 (offset : LenWord) (s : State) : Host.Outcome State Fault Refusal :=
  accessor s fun p => p.access false offset 8 (asBits 64)

/-- `GETI8` (49_accessors.md R305). -/
def execGetI8 (offset : LenWord) (s : State) : Host.Outcome State Fault Refusal :=
  accessor s fun p => p.access false offset 1 (asSigned 8)

/-- `GETI16` (49_accessors.md R306). -/
def execGetI16 (offset : LenWord) (s : State) : Host.Outcome State Fault Refusal :=
  accessor s fun p => p.access false offset 2 (asSigned 16)

/-- `GETI32` (49_accessors.md R307). -/
def execGetI32 (offset : LenWord) (s : State) : Host.Outcome State Fault Refusal :=
  accessor s fun p => p.access false offset 4 (asSigned 32)

/-- `GETI64` (49_accessors.md R308). -/
def execGetI64 (offset : LenWord) (s : State) : Host.Outcome State Fault Refusal :=
  accessor s fun p => p.access false offset 8 (asSigned 64)

/-- `GETF32` (49_accessors.md R309): raw bits, no floating-point operation. -/
def execGetF32 (offset : LenWord) (s : State) : Host.Outcome State Fault Refusal :=
  accessor s fun p => p.access false offset 4 (asBits 32)

/-- `GETF64` (49_accessors.md R310): raw bits, no floating-point operation. -/
def execGetF64 (offset : LenWord) (s : State) : Host.Outcome State Fault Refusal :=
  accessor s fun p => p.access false offset 8 (asBits 64)

/-- `GETSTR` (49_accessors.md R311). -/
def execGetStr (offset : LenWord) (s : State) : Host.Outcome State Fault Refusal :=
  accessor s fun p => p.accessStr false offset

/-- `GETU8.NO` (49_accessors.md R301, R312). -/
def execGetU8No (offset : LenWord) (s : State) : Host.Outcome State Fault Refusal :=
  accessor s fun p => p.access true offset 1 (asBits 8)

/-- `GETU16.NO` (49_accessors.md R302, R312). -/
def execGetU16No (offset : LenWord) (s : State) : Host.Outcome State Fault Refusal :=
  accessor s fun p => p.access true offset 2 (asBits 16)

/-- `GETU32.NO` (49_accessors.md R303, R312). -/
def execGetU32No (offset : LenWord) (s : State) : Host.Outcome State Fault Refusal :=
  accessor s fun p => p.access true offset 4 (asBits 32)

/-- `GETU64.NO` (49_accessors.md R304, R312). -/
def execGetU64No (offset : LenWord) (s : State) : Host.Outcome State Fault Refusal :=
  accessor s fun p => p.access true offset 8 (asBits 64)

/-- `GETI8.NO` (49_accessors.md R305, R312). -/
def execGetI8No (offset : LenWord) (s : State) : Host.Outcome State Fault Refusal :=
  accessor s fun p => p.access true offset 1 (asSigned 8)

/-- `GETI16.NO` (49_accessors.md R306, R312). -/
def execGetI16No (offset : LenWord) (s : State) : Host.Outcome State Fault Refusal :=
  accessor s fun p => p.access true offset 2 (asSigned 16)

/-- `GETI32.NO` (49_accessors.md R307, R312). -/
def execGetI32No (offset : LenWord) (s : State) : Host.Outcome State Fault Refusal :=
  accessor s fun p => p.access true offset 4 (asSigned 32)

/-- `GETI64.NO` (49_accessors.md R308, R312). -/
def execGetI64No (offset : LenWord) (s : State) : Host.Outcome State Fault Refusal :=
  accessor s fun p => p.access true offset 8 (asSigned 64)

/-- `GETF32.NO` (49_accessors.md R309, R312): raw bits, no floating-point operation. -/
def execGetF32No (offset : LenWord) (s : State) : Host.Outcome State Fault Refusal :=
  accessor s fun p => p.access true offset 4 (asBits 32)

/-- `GETF64.NO` (49_accessors.md R310, R312): raw bits, no floating-point operation. -/
def execGetF64No (offset : LenWord) (s : State) : Host.Outcome State Fault Refusal :=
  accessor s fun p => p.access true offset 8 (asBits 64)

/-- `GETSTR.NO` (49_accessors.md R311, R312). -/
def execGetStrNo (offset : LenWord) (s : State) : Host.Outcome State Fault Refusal :=
  accessor s fun p => p.accessStr true offset

end Sys2Proof.Machine
end

