-- ==== Sys2Proof/Machine/Nmea.lean ====
section
/-! DEFINITION. Machine/Nmea.lean: the NMEA text recogniser's states (42_nmea.md R150 to R157). In every
handler `b` has been appended. -/

namespace Sys2Proof.Machine

/-- The active scratch record as an NMEA record. -/
def withNmea (p : ParseState) (f : NmeaRec → Except Fault Turn) : Except Fault Turn :=
  match p.sp with
  | some (.nmea r) => f r
  | _ => .error .wrongScratch

/-- State `NMEA_NAME_THEN_FIRST_COMMA` (42_nmea.md R152). -/
def nmeaNameStep (p : ParseState) (b : Byte) : Except Fault Turn :=
  withNmea p fun r =>
    if b = 0x2C ∧ 1 ≤ r.nameLen.toNat then
      quiet (((p.foldXor b).setSp
        (.nmea { r with sentenceName := r.sentenceName.setIfInBounds r.nameLen.toNat 0 })).goto
          .nmeaFindAsterisk)
    else if isAlnum b ∧ r.nameLen.toNat < 15 then
      quiet ((p.foldXor b).setSp
        (.nmea
          { r with
            sentenceName := r.sentenceName.setIfInBounds r.nameLen.toNat b
            nameLen := r.nameLen + 1 }))
    else fail .grammar p b

/-- State `NMEA_FIND_ASTERISK` (R153): the body phase. -/
def nmeaBodyStep (p : ParseState) (b : Byte) : Except Fault Turn :=
  if b = 0x2A then quiet (p.goto .nmeaChecksumHi)
  else if p.abortNpNmea ∧ isPrintable b = false then fail .grammar p b
  else quiet (p.foldXor b)

/-- State `NMEA_CHECKSUM_HI` (R154). -/
def nmeaChecksumHiStep (p : ParseState) (b : Byte) : Except Fault Turn :=
  if isHex b then quiet (p.goto .nmeaChecksumLo) else fail .grammar p b

/-- State `NMEA_CHECKSUM_LO` (R155). -/
def nmeaChecksumLoStep (p : ParseState) (b : Byte) : Except Fault Turn :=
  if isHex b then
    match p.byteAt (p.length - 2) with
    | .error f => .error f
    | .ok hi =>
      match nmeaVerdict hi b p.crc with
      | none => .error .notHexDigit
      | some good => conclude good true p b
  else fail .grammar p b

end Sys2Proof.Machine
end

