-- ==== Sys2Proof/Machine/Rtcm.lean ====
section
/-! DEFINITION. Machine/Rtcm.lean: the RTCM recogniser's states (43_rtcm.md R170 to R179). In every
handler `b` has been appended. -/

namespace Sys2Proof.Machine

/-- The active scratch record as an RTCM record. -/
def withRtcm (p : ParseState) (f : RtcmRec → Except Fault Turn) : Except Fault Turn :=
  match p.sp with
  | some (.rtcm r) => f r
  | _ => .error .wrongScratch

/-- `ENTER_RTCM_CRC` (43_rtcm.md R177); `p` has the last byte folded. -/
def enterRtcmCrc (p : ParseState) (r : RtcmRec) : ParseState :=
  (p.setSp (.rtcm { r with savedCrc := p.crc.setWidth 24, bytesRemaining := 3 })).goto .rtcmCrc

/-- The end of a payload state: the CRC phase when no payload byte remains, else `next`. -/
def rtcmContinue (p : ParseState) (r : RtcmRec) (next : PState) : Except Fault Turn :=
  if r.bytesRemaining = 0 then quiet (enterRtcmCrc p r)
  else quiet ((p.setSp (.rtcm r)).goto next)

/-- State `RTCM_LENGTH_HI` (R172). -/
def rtcmLengthHiStep (p : ParseState) (b : Byte) : Except Fault Turn :=
  withRtcm p fun r =>
    if rtcmReservedZero b then
      quiet (((p.foldCrc24q b).setSp
        (.rtcm { r with bytesRemaining := (b &&& 0x03).setWidth 16 <<< 8 })).goto .rtcmLengthLo)
    else fail .length (p.foldCrc24q b) b

/-- State `RTCM_LENGTH_LO` (R173). -/
def rtcmLengthLoStep (p : ParseState) (b : Byte) : Except Fault Turn :=
  withRtcm p fun r =>
    rtcmContinue (p.foldCrc24q b) { r with bytesRemaining := r.bytesRemaining ||| b.setWidth 16 }
      .rtcmMsgIdHi

/-- State `RTCM_MSG_ID_HI` (R174): the first payload byte. -/
def rtcmMsgIdHiStep (p : ParseState) (b : Byte) : Except Fault Turn :=
  withRtcm p fun r =>
    rtcmContinue (p.foldCrc24q b)
      { r with messageId := b.setWidth 16 <<< 4, bytesRemaining := r.bytesRemaining - 1 }
      .rtcmMsgIdLo

/-- State `RTCM_MSG_ID_LO` (R175): the second payload byte. -/
def rtcmMsgIdLoStep (p : ParseState) (b : Byte) : Except Fault Turn :=
  withRtcm p fun r =>
    rtcmContinue (p.foldCrc24q b)
      { r with
        messageId := r.messageId ||| (b >>> 4).setWidth 16
        bytesRemaining := r.bytesRemaining - 1 }
      .rtcmData

/-- State `RTCM_DATA` (R176): the other payload bytes. -/
def rtcmDataStep (p : ParseState) (b : Byte) : Except Fault Turn :=
  withRtcm p fun r =>
    rtcmContinue (p.foldCrc24q b) { r with bytesRemaining := r.bytesRemaining - 1 } .rtcmData

/-- State `RTCM_CRC` (R178): the three CRC bytes. -/
def rtcmCrcStep (p : ParseState) (b : Byte) : Except Fault Turn :=
  withRtcm p fun r =>
    let q := (p.foldCrc24q b).setSp (.rtcm { r with bytesRemaining := r.bytesRemaining - 1 })
    if r.bytesRemaining - 1 = 0 then conclude (rtcmVerdict q.crc) false q b else quiet q

end Sys2Proof.Machine
end

