-- ==== Sys2Proof/Machine/Sbf.lean ====
section
/-! DEFINITION. Machine/Sbf.lean: the Septentrio SBF recogniser's states (45_sbf.md R210 to R222). In
every handler `b` has been appended. SBF never consults the bad-CRC callback (R220). -/

namespace Sys2Proof.Machine

/-- The active scratch record as an SBF record. -/
def withSbf (p : ParseState) (f : SbfRec → Except Fault Turn) : Except Fault Turn :=
  match p.sp with
  | some (.sbf r) => f r
  | _ => .error .wrongScratch

/-- `SBF_FINISH(b)` (45_sbf.md R220); `p` has the last byte folded. -/
def sbfFinish (p : ParseState) (r : SbfRec) (b : Byte) : Except Fault Turn :=
  let q := p.setSp (.sbf { r with computedCrc := p.crc.setWidth 16 })
  if sbfVerdict (p.crc.setWidth 16) r.expectedCrc then deliver q else fail .checksum q b

/-- State `SBF_PREAMBLE2` (R212). -/
def sbfPreamble2Step (p : ParseState) (b : Byte) : Except Fault Turn :=
  if b = 0x40 then quiet (p.goto .sbfCrc1) else fail .grammar p b

/-- State `SBF_CRC1` (R213). -/
def sbfCrc1Step (p : ParseState) (b : Byte) : Except Fault Turn :=
  withSbf p fun r =>
    quiet ((p.setSp (.sbf { r with expectedCrc := b.setWidth 16 })).goto .sbfCrc2)

/-- State `SBF_CRC2` (R214). -/
def sbfCrc2Step (p : ParseState) (b : Byte) : Except Fault Turn :=
  withSbf p fun r =>
    quiet ((p.setSp (.sbf { r with expectedCrc := r.expectedCrc ||| (b.setWidth 16 <<< 8) })).goto
      .sbfId1)

/-- State `SBF_ID1` (R215). -/
def sbfId1Step (p : ParseState) (b : Byte) : Except Fault Turn :=
  withSbf p fun r =>
    quiet (((p.foldCcitt16 b).setSp (.sbf { r with blockId := b.setWidth 13 })).goto .sbfId2)

/-- State `SBF_ID2` (R216). PRESUMED place of ID and revision (log 20). -/
def sbfId2Step (p : ParseState) (b : Byte) : Except Fault Turn :=
  withSbf p fun r =>
    quiet (((p.foldCcitt16 b).setSp
      (.sbf
        { r with
          blockId := r.blockId ||| ((b &&& 0x1F).setWidth 13 <<< 8)
          blockRev := (b >>> 5).setWidth 3 })).goto .sbfLengthLo)

/-- State `SBF_LENGTH_LO` (R217). -/
def sbfLengthLoStep (p : ParseState) (b : Byte) : Except Fault Turn :=
  withSbf p fun r =>
    quiet (((p.foldCcitt16 b).setSp (.sbf { r with length := b.setWidth 16 })).goto .sbfLengthHi)

/-- State `SBF_LENGTH_HI` (R218). -/
def sbfLengthHiStep (p : ParseState) (b : Byte) : Except Fault Turn :=
  withSbf p fun r =>
    let len := r.length ||| (b.setWidth 16 <<< 8)
    if sbfLengthLegal len then
      let r' := { r with length := len, bytesRemaining := len - 8 }
      if len - 8 = 0 then sbfFinish ((p.foldCcitt16 b).setSp (.sbf r')) r' b
      else quiet (((p.foldCcitt16 b).setSp (.sbf r')).goto .sbfBody)
    else fail .length ((p.foldCcitt16 b).setSp (.sbf { r with length := len })) b

/-- State `SBF_BODY` (R219). -/
def sbfBodyStep (p : ParseState) (b : Byte) : Except Fault Turn :=
  withSbf p fun r =>
    let r' := { r with bytesRemaining := r.bytesRemaining - 1 }
    if r.bytesRemaining - 1 = 0 then sbfFinish ((p.foldCcitt16 b).setSp (.sbf r')) r' b
    else quiet ((p.foldCcitt16 b).setSp (.sbf r'))

end Sys2Proof.Machine
end

