-- ==== Sys2Proof/Machine/Spartn.lean ====
section
/-! DEFINITION. Machine/Spartn.lean: the SPARTN recogniser's states (46_spartn.md R230 to R239). In every
handler `b` has been appended. No byte is folded as it arrives: both CRCs are computed from the
buffer. -/

namespace Sys2Proof.Machine

/-- The active scratch record as a SPARTN record. -/
def withSpartn (p : ParseState) (f : SpartnRec → Except Fault Turn) : Except Fault Turn :=
  match p.sp with
  | some (.spartn r) => f r
  | _ => .error .wrongScratch

/-- The header fields after the third header byte (46_spartn.md R232). -/
def SpartnRec.header3 (r : SpartnRec) (b : Byte) : SpartnRec :=
  { r with
    payloadLen := r.payloadLen ||| (b >>> 7).setWidth 16
    eaf := b.extractLsb' 6 1
    crcType := b.extractLsb' 4 2
    headerCrc := b.extractLsb' 0 4
    crcBytes := (b.extractLsb' 4 2).setWidth 3 + 1 }

/-- State `SPARTN_HDR3` (R232). -/
def spartnHdr3Step (p : ParseState) (b : Byte) : Except Fault Turn :=
  withSpartn p fun r =>
    let n := r.frameCount + 1
    if n = 1 then
      quiet (p.setSp (.spartn
        { r with
          frameCount := n
          messageType := b.extractLsb' 1 7
          payloadLen := (b &&& 1).setWidth 16 <<< 9 }))
    else if n = 2 then
      quiet (p.setSp (.spartn
        { r with frameCount := n, payloadLen := r.payloadLen ||| (b.setWidth 16 <<< 1) }))
    else
      match p.byteAt 1, p.byteAt 2, p.byteAt 3 with
      | .ok h1, .ok h2, .ok h3 =>
        let r' := { r.header3 b with frameCount := n }
        if spartnHeaderVerdict h1 h2 h3 r'.headerCrc then
          quiet ((p.setSp (.spartn { r' with frameCount := 0 })).goto .spartnExtHdr)
        else fail .checksum (p.setSp (.spartn r')) b
      | .error f, _, _ => .error f
      | _, .error f, _ => .error f
      | _, _, .error f => .error f

/-- `AFTER_PAYLOAD` (R237). -/
def afterPayload (p : ParseState) (r : SpartnRec) : Except Fault Turn :=
  quiet ((p.setSp (.spartn { r with frameCount := 0 })).goto
    (if 0 < r.embeddedAppLen.toNat then .spartnEmbedded else .spartnCrc))

/-- The fields the first extended-header byte sets (R233). PRESUMED bit positions (log 21). -/
def SpartnRec.ext1 (r : SpartnRec) (b : Byte) : SpartnRec :=
  { r with
    subtype := b.extractLsb' 4 4
    timeTagType := b.extractLsb' 3 1
    tf007ToTf016Len :=
      (if b.extractLsb' 3 1 = 1 then 6 else 4) + (if r.eaf = 1 then 2 else 0) + r.payloadLen }

/-- The fields the last extended-header byte sets (R233). PRESUMED bit positions (log 21). -/
def SpartnRec.extLast (r : SpartnRec) (b : Byte) : SpartnRec :=
  if r.eaf = 1 then
    { r with
      authIndicator := b.extractLsb' 3 3
      embeddedAppLen := embeddedLen (b.extractLsb' 3 3) (b.extractLsb' 0 3) }
  else { r with authIndicator := 0, embeddedAppLen := 0 }

/-- An extended-header byte counted, and the first one unpacked (R233). -/
def SpartnRec.extCount (r : SpartnRec) (b : Byte) : SpartnRec :=
  { (if r.frameCount + 1 = 1 then r.ext1 b else r) with frameCount := r.frameCount + 1 }

/-- State `SPARTN_EXT_HDR` (R233). -/
def spartnExtHdrStep (p : ParseState) (b : Byte) : Except Fault Turn :=
  withSpartn p fun r =>
    let r1 := r.extCount b
    if r1.frameCount = r1.tf007ToTf016Len - r1.payloadLen then
      let r2 : SpartnRec := r1.extLast b
      if 0 < r2.payloadLen.toNat then quiet ((p.setSp (.spartn r2)).goto .spartnPayload)
      else afterPayload p r2
    else quiet (p.setSp (.spartn r1))

/-- State `SPARTN_PAYLOAD` (R234). -/
def spartnPayloadStep (p : ParseState) : Except Fault Turn :=
  withSpartn p fun r =>
    let r' := { r with frameCount := r.frameCount + 1 }
    if r'.frameCount = r'.tf007ToTf016Len then afterPayload p r'
    else quiet (p.setSp (.spartn r'))

/-- State `SPARTN_EMBEDDED` (R235). -/
def spartnEmbeddedStep (p : ParseState) : Except Fault Turn :=
  withSpartn p fun r =>
    let r' := { r with frameCount := r.frameCount + 1 }
    if r'.frameCount = r'.embeddedAppLen.setWidth 16 then
      quiet ((p.setSp (.spartn { r' with frameCount := 0 })).goto .spartnCrc)
    else quiet (p.setSp (.spartn r'))

/-- State `SPARTN_CRC` (R236). -/
def spartnCrcStep (p : ParseState) (b : Byte) : Except Fault Turn :=
  withSpartn p fun r =>
    let r' := { r with frameCount := r.frameCount + 1 }
    let q := p.setSp (.spartn r')
    if r'.frameCount = r'.crcBytes.setWidth 16 then
      match q.slice (q.length - r'.crcBytes.toNat) q.length,
          q.slice 1 (q.length - r'.crcBytes.toNat) with
      | .ok received, .ok covered =>
        conclude (spartnBodyVerdict r'.crcType r'.crcBytes.toNat received covered) false q b
      | .error f, _ => .error f
      | _, .error f => .error f
    else quiet q

end Sys2Proof.Machine
end

