-- ==== Sys2Proof/Machine/Ubin.lean ====
section
/-! DEFINITION. Machine/Ubin.lean: the Unicore-binary recogniser's states (47_unicore_binary.md R260 to
R269). In every handler `b` has been appended. -/

namespace Sys2Proof.Machine

/-- The active scratch record as a Unicore-binary record. -/
def withUbin (p : ParseState) (f : UbinRec → Except Fault Turn) : Except Fault Turn :=
  match p.sp with
  | some (.ubin r) => f r
  | _ => .error .wrongScratch

/-- `ENTER_UBIN_CRC` (47_unicore_binary.md R267); `p` has the last byte folded. -/
def enterUbinCrc (p : ParseState) (r : UbinRec) : ParseState :=
  (p.setSp (.ubin { r with savedCrc := p.crc, bytesRemaining := 4 })).goto .ubinReadCrc

/-- State `UBIN_SYNC2` (R262). -/
def ubinSync2Step (p : ParseState) (b : Byte) : Except Fault Turn :=
  if b = 0x44 then quiet ((p.foldCrc32r b).goto .ubinSync3) else fail .grammar p b

/-- State `UBIN_SYNC3` (R263): the 24-byte header less the three sync bytes. -/
def ubinSync3Step (p : ParseState) (b : Byte) : Except Fault Turn :=
  withUbin p fun r =>
    if b = 0xB5 then
      quiet (((p.foldCrc32r b).setSp (.ubin { r with bytesRemaining := 21 })).goto .ubinReadHeader)
    else fail .grammar p b

/-- State `UBIN_READ_HEADER` (R264): `messageLength` is `buffer[6..8)`. -/
def ubinReadHeaderStep (p : ParseState) (b : Byte) : Except Fault Turn :=
  withUbin p fun r =>
    let q := p.foldCrc32r b
    if r.bytesRemaining - 1 = 0 then
      match q.byteAt 6, q.byteAt 7 with
      | .ok l0, .ok l1 =>
        let len := l0.setWidth 16 ||| (l1.setWidth 16 <<< 8)
        let r' := { r with bytesRemaining := len }
        if len = 0 then quiet (enterUbinCrc q r')
        else quiet ((q.setSp (.ubin r')).goto .ubinReadBody)
      | .error f, _ => .error f
      | _, .error f => .error f
    else quiet (q.setSp (.ubin { r with bytesRemaining := r.bytesRemaining - 1 }))

/-- State `UBIN_READ_BODY` (R265). -/
def ubinReadBodyStep (p : ParseState) (b : Byte) : Except Fault Turn :=
  withUbin p fun r =>
    let r' := { r with bytesRemaining := r.bytesRemaining - 1 }
    if r'.bytesRemaining = 0 then quiet (enterUbinCrc (p.foldCrc32r b) r')
    else quiet ((p.foldCrc32r b).setSp (.ubin r'))

/-- State `UBIN_READ_CRC` (R266): the CRC bytes are not folded. -/
def ubinReadCrcStep (p : ParseState) (b : Byte) : Except Fault Turn :=
  withUbin p fun r =>
    let q := p.setSp (.ubin { r with bytesRemaining := r.bytesRemaining - 1 })
    if r.bytesRemaining - 1 = 0 then
      match q.slice (q.length - 4) q.length with
      | .ok received => conclude (ubinVerdict received r.savedCrc) false q b
      | .error f => .error f
    else quiet q

end Sys2Proof.Machine
end

