-- ==== Sys2Proof/Machine/Ubx.lean ====
section
/-! DEFINITION. Machine/Ubx.lean: the u-blox UBX recogniser's states (44_ubx.md R190 to R200). In every
handler `b` has been appended. -/

namespace Sys2Proof.Machine

/-- The active scratch record as a UBX record. -/
def withUbx (p : ParseState) (f : UbxRec → Except Fault Turn) : Except Fault Turn :=
  match p.sp with
  | some (.ubx r) => f r
  | _ => .error .wrongScratch

/-- `fold(b)`: both Fletcher-8 sums (44_ubx.md). -/
def UbxRec.fold (r : UbxRec) (b : Byte) : UbxRec :=
  { r with ckA := (fl8 r.ckA r.ckB b).1, ckB := (fl8 r.ckA r.ckB b).2 }

/-- State `UBX_SYNC2` (44_ubx.md R192). -/
def ubxSync2Step (p : ParseState) (b : Byte) : Except Fault Turn :=
  if b = 0x62 then quiet (p.goto .ubxClass) else fail .grammar p b

/-- State `UBX_CLASS` (R193). -/
def ubxClassStep (p : ParseState) (b : Byte) : Except Fault Turn :=
  withUbx p fun r => quiet ((p.setSp (.ubx { r.fold b with msgClass := b })).goto .ubxId)

/-- State `UBX_ID` (R194). -/
def ubxIdStep (p : ParseState) (b : Byte) : Except Fault Turn :=
  withUbx p fun r => quiet ((p.setSp (.ubx { r.fold b with msgId := b })).goto .ubxLengthLo)

/-- State `UBX_LENGTH_LO` (R195). -/
def ubxLengthLoStep (p : ParseState) (b : Byte) : Except Fault Turn :=
  withUbx p fun r =>
    quiet ((p.setSp (.ubx { r.fold b with payloadLen := b.setWidth 16 })).goto .ubxLengthHi)

/-- State `UBX_LENGTH_HI` (R196). -/
def ubxLengthHiStep (p : ParseState) (b : Byte) : Except Fault Turn :=
  withUbx p fun r =>
    let len := r.payloadLen ||| (b.setWidth 16 <<< 8)
    quiet ((p.setSp (.ubx { r.fold b with payloadLen := len, bytesRemaining := len })).goto
      (if len = 0 then .ubxCkA else .ubxPayload))

/-- State `UBX_PAYLOAD` (R197). -/
def ubxPayloadStep (p : ParseState) (b : Byte) : Except Fault Turn :=
  withUbx p fun r =>
    quiet ((p.setSp (.ubx { r.fold b with bytesRemaining := r.bytesRemaining - 1 })).goto
      (if r.bytesRemaining - 1 = 0 then .ubxCkA else .ubxPayload))

/-- State `UBX_CK_A` (R198): neither folded nor compared yet. -/
def ubxCkAStep (p : ParseState) : Except Fault Turn := quiet (p.goto .ubxCkB)

/-- State `UBX_CK_B` (R199). -/
def ubxCkBStep (p : ParseState) (b : Byte) : Except Fault Turn :=
  withUbx p fun r =>
    match p.byteAt (p.length - 2) with
    | .error f => .error f
    | .ok a => conclude (ubxVerdict a b r.ckA r.ckB) false p b

end Sys2Proof.Machine
end

