-- ==== Sys2Proof/Machine/Uhash.lean ====
section
/-! DEFINITION. Machine/Uhash.lean: the Unicore-hash text recogniser's states (48_unicore_hash.md R280 to
R286). In every handler `b` has been appended. -/

namespace Sys2Proof.Machine

/-- The active scratch record as a Unicore-hash record. -/
def withUhash (p : ParseState) (f : UhashRec → Except Fault Turn) : Except Fault Turn :=
  match p.sp with
  | some (.uhash r) => f r
  | _ => .error .wrongScratch

/-- The first comma (48_unicore_hash.md R281): the name chooses the checksum, and for a `MODE` name the
XOR-8 of name and comma is computed from the buffer. -/
def uhashComma (p : ParseState) (r : UhashRec) (b : Byte) : Except Fault Turn :=
  let r' := { r with sentenceName := r.sentenceName.setIfInBounds r.nameLen.toNat 0 }
  if containsMode (nameChars r'.sentenceName r'.nameLen) then
    match p.slice 1 p.length with
    | .ok covered =>
      quiet (((p.setCrc ((xor8Block covered).setWidth 32)).setSp
        (.uhash { r' with checksumBytes := 2 })).goto .uhashFindAsterisk)
    | .error f => .error f
  else
    quiet (((p.foldCrc32r b).setSp (.uhash { r' with checksumBytes := 8 })).goto .uhashFindAsterisk)

/-- State `UHASH_NAME_THEN_FIRST_COMMA` (R281). -/
def uhashNameStep (p : ParseState) (b : Byte) : Except Fault Turn :=
  withUhash p fun r =>
    if b = 0x2C ∧ 1 ≤ r.nameLen.toNat then uhashComma p r b
    else if isAlnum b ∧ r.nameLen.toNat < 15 then
      quiet ((p.foldCrc32r b).setSp
        (.uhash
          { r with
            sentenceName := r.sentenceName.setIfInBounds r.nameLen.toNat b
            nameLen := r.nameLen + 1 }))
    else fail .grammar p b

/-- State `UHASH_FIND_ASTERISK` (R282): the body phase. -/
def uhashBodyStep (p : ParseState) (b : Byte) : Except Fault Turn :=
  withUhash p fun r =>
    if b = 0x2A then
      quiet ((p.setSp (.uhash { r with bytesRemaining := r.checksumBytes })).goto
        .uhashChecksumByte)
    else if p.abortNpUhash ∧ isPrintable b = false then fail .grammar p b
    else if r.checksumBytes = 2 then quiet (p.foldXor b)
    else quiet (p.foldCrc32r b)

/-- State `UHASH_CHECKSUM_BYTE` (R283). -/
def uhashChecksumStep (p : ParseState) (b : Byte) : Except Fault Turn :=
  withUhash p fun r =>
    if isHex b then
      let q := p.setSp (.uhash { r with bytesRemaining := r.bytesRemaining - 1 })
      if r.bytesRemaining - 1 = 0 then
        match q.slice (q.length - r.checksumBytes.toNat) q.length with
        | .error f => .error f
        | .ok digits =>
          match uhashVerdict digits r.checksumBytes q.crc with
          | none => .error .notHexDigit
          | some good => conclude good true q b
      else quiet q
    else fail .grammar p b

end Sys2Proof.Machine
end

