-- ==== Sys2Proof/Machine/ByteStep.lean ====
section
/-! DEFINITION. Machine/ByteStep.lean: the byte step of PUSH (41_dispatch.md R124), the run of a byte
string (R125), and the host's return from an open window (60_exceptions.md R360). -/

namespace Sys2Proof.Machine

/-- The handler of a state with the byte `b` already appended (42_nmea.md to 48_unicore_hash.md). The
four states that do not append are never handled here. -/
def handler (p : ParseState) (b : Byte) : Except Fault Turn :=
  match p.state with
  | .firstByte => firstByte p b
  | .lineTerm => lineTerm p b
  | .crThenLf => crThenLf p b
  | .lfThenCr => lfThenCr p b
  | .nmeaNameThenFirstComma => nmeaNameStep p b
  | .nmeaFindAsterisk => nmeaBodyStep p b
  | .nmeaChecksumHi => nmeaChecksumHiStep p b
  | .nmeaChecksumLo => nmeaChecksumLoStep p b
  | .rtcmLengthHi => rtcmLengthHiStep p b
  | .rtcmLengthLo => rtcmLengthLoStep p b
  | .rtcmMsgIdHi => rtcmMsgIdHiStep p b
  | .rtcmMsgIdLo => rtcmMsgIdLoStep p b
  | .rtcmData => rtcmDataStep p b
  | .rtcmCrc => rtcmCrcStep p b
  | .ubxSync2 => ubxSync2Step p b
  | .ubxClass => ubxClassStep p b
  | .ubxId => ubxIdStep p b
  | .ubxLengthLo => ubxLengthLoStep p b
  | .ubxLengthHi => ubxLengthHiStep p b
  | .ubxPayload => ubxPayloadStep p b
  | .ubxCkA => ubxCkAStep p
  | .ubxCkB => ubxCkBStep p b
  | .sbfPreamble2 => sbfPreamble2Step p b
  | .sbfCrc1 => sbfCrc1Step p b
  | .sbfCrc2 => sbfCrc2Step p b
  | .sbfId1 => sbfId1Step p b
  | .sbfId2 => sbfId2Step p b
  | .sbfLengthLo => sbfLengthLoStep p b
  | .sbfLengthHi => sbfLengthHiStep p b
  | .sbfBody => sbfBodyStep p b
  | .spartnHdr3 => spartnHdr3Step p b
  | .spartnExtHdr => spartnExtHdrStep p b
  | .spartnPayload => spartnPayloadStep p
  | .spartnEmbedded => spartnEmbeddedStep p
  | .spartnCrc => spartnCrcStep p b
  | .ubinSync2 => ubinSync2Step p b
  | .ubinSync3 => ubinSync3Step p b
  | .ubinReadHeader => ubinReadHeaderStep p b
  | .ubinReadBody => ubinReadBodyStep p b
  | .ubinReadCrc => ubinReadCrcStep p b
  | .uhashNameThenFirstComma => uhashNameStep p b
  | .uhashFindAsterisk => uhashBodyStep p b
  | .uhashChecksumByte => uhashChecksumStep p b

/-- The byte step of PUSH (41_dispatch.md R124): `FIRST_BYTE` and the three line-terminator states do
not append and are exempt from the too-long test (92_eei_decisions.md D6, D14). The source's test is
`length = buffer_length`, here `buffer_length <= length`: the same wherever `length <= buffer_length`
(log 27). -/
def byteStep (p : ParseState) (b : Byte) : Except Fault Turn :=
  match p.state with
  | .firstByte => firstByte p b
  | .lineTerm => lineTerm p b
  | .crThenLf => crThenLf p b
  | .lfThenCr => lfThenCr p b
  | _ => if p.bufferLength ≤ p.length then failTooLong p b else handler (p.append b) b

/-- PUSH after PUSH until the bytes run out or one raises an event, whose window suspends the run
(41_dispatch.md R125, 60_exceptions.md R359). The run is over when no byte is left: PUSH and PUSHN
have no result (R124). -/
def runBytes : List Byte → State → Host.Outcome State Fault Refusal
  | [], s => .next { s with todo := [], result := .nothing }
  | b :: bs, s =>
    match s.parse with
    | none => .fault .noParseState
    | some p =>
      match byteStep p b with
      | .error f => .fault f
      | .ok ⟨q, none⟩ => runBytes bs { s with parse := some q }
      | .ok ⟨q, some (e, w)⟩ =>
        .next
          { s with
            parse := some q
            window := w
            todo := bs
            events := s.events ++ [e]
            result := .nothing }

/-- The host's return from the open callback (60_exceptions.md R360): the suspended PUSH runs on, may
raise its next event, and then the rest of its PUSHN runs. With no window open there is nothing to
return from, and the return is refused (log 12). -/
def hostReturn (answer : Bool) (s : State) : Host.Outcome State Fault Refusal :=
  if s.window = .none then .next s.refuse
  else
    match s.parse with
    | none => .fault .noParseState
    | some p =>
      match afterWindow answer p s.window with
      | .error f => .fault f
      | .ok ⟨q, none⟩ => runBytes s.todo { s with parse := some q, window := .none }
      | .ok ⟨q, some (e, w)⟩ =>
        .next
          { s with
            parse := some q
            window := w
            events := s.events ++ [e]
            result := .nothing }

/-- Octets pushed in order, when PUSH is legal; refused as a whole when the core is unconfigured or a
window is open (41_dispatch.md R124, R125, R140). -/
def pushOctets (bytes : List Byte) (s : State) : Host.Outcome State Fault Refusal :=
  if s.configured ∧ s.window = .none then runBytes bytes s else .next s.refuse

end Sys2Proof.Machine
end

