-- ==== Sys2Proof/Machine/Frames.lean ====
section
/-! DEFINITION. Machine/Frames.lean: the frame formats' meanings (30_encoding.md R60 to R69): a frame on
the input stream is its octets, consumed one a PUSH (10_state.md R31 (d), R32), so its meaning is what
the byte step does with them in order. Which recogniser follows the frame, and whether it is
delivered, is the dispatcher's and the recognisers' doing (log 5). -/

namespace Sys2Proof.Machine

/-- `FRAME.NMEA` (30_encoding.md R62, 42_nmea.md R150). -/
def execFrameNmea (rest : List Byte) (s : State) : Host.Outcome State Fault Refusal :=
  pushOctets (nmeaOctets rest) s

/-- `FRAME.UHASH` (30_encoding.md R69, 48_unicore_hash.md R280). -/
def execFrameUhash (rest : List Byte) (s : State) : Host.Outcome State Fault Refusal :=
  pushOctets (uhashOctets rest) s

/-- `FRAME.RTCM` (30_encoding.md R63, 43_rtcm.md R170). -/
def execFrameRtcm (len : BitVec 10) (rest : List Byte) (s : State) :
    Host.Outcome State Fault Refusal :=
  pushOctets (rtcmOctets len rest) s

/-- `FRAME.UBX` (30_encoding.md R64, 44_ubx.md R190). -/
def execFrameUbx (cls id : Byte) (len : BitVec 16) (rest : List Byte) (s : State) :
    Host.Outcome State Fault Refusal :=
  pushOctets (ubxOctets cls id len rest) s

/-- `FRAME.SBF` (30_encoding.md R65, 45_sbf.md R210). -/
def execFrameSbf (crc : BitVec 16) (id : BitVec 13) (rev : BitVec 3) (len : BitVec 16)
    (rest : List Byte) (s : State) : Host.Outcome State Fault Refusal :=
  pushOctets (sbfOctets crc id rev len rest) s

/-- `FRAME.SPARTN` (30_encoding.md R66, R67, 46_spartn.md R230). -/
def execFrameSpartn (msgType : BitVec 7) (payloadLen : BitVec 10) (eaf : BitVec 1)
    (crcType : BitVec 2) (hdrCrc : BitVec 4) (rest : List Byte) (s : State) :
    Host.Outcome State Fault Refusal :=
  pushOctets (spartnOctets msgType payloadLen eaf crcType hdrCrc rest) s

/-- `FRAME.UBIN` (30_encoding.md R68, 47_unicore_binary.md R260). -/
def execFrameUbin (h3 h4 h5 : Byte) (len : BitVec 16) (rest : List Byte) (s : State) :
    Host.Outcome State Fault Refusal :=
  pushOctets (ubinOctets h3 h4 h5 len rest) s

end Sys2Proof.Machine
end

