-- ==== Sys2Proof/Machine/GeneratorOps.lean ====
section
/-! DEFINITION. Machine/GeneratorOps.lean: the generator operations' meanings (40_generators.md R94 to
R103). Each reads only its operands, writes no state of 10_state.md, emits no event, and runs whether
or not the core is configured, inside a window or outside (R108). -/

namespace Sys2Proof.Machine

/-- `XOR8.UPD` (40_generators.md R94). -/
def execXor8Upd (acc : BitVec 8) (b : Byte) (s : State) : Host.Outcome State Fault Refusal :=
  .next (s.answer (.bits 8 (xor8 acc b)))

/-- `CRC24Q.UPD` (40_generators.md R95). -/
def execCrc24qUpd (acc : BitVec 24) (b : Byte) (s : State) : Host.Outcome State Fault Refusal :=
  .next (s.answer (.bits 24 (crc24q acc b)))

/-- `FL8.UPD` (40_generators.md R96). -/
def execFl8Upd (ckA ckB : BitVec 8) (b : Byte) (s : State) : Host.Outcome State Fault Refusal :=
  .next (s.answer (.sums (fl8 ckA ckB b).1 (fl8 ckA ckB b).2))

/-- `CCITT16.UPD` (40_generators.md R97). -/
def execCcitt16Upd (acc : BitVec 16) (b : Byte) (s : State) : Host.Outcome State Fault Refusal :=
  .next (s.answer (.bits 16 (ccitt16 acc b)))

/-- `CRC32R.UPD` (40_generators.md R98). -/
def execCrc32rUpd (acc : BitVec 32) (b : Byte) (s : State) : Host.Outcome State Fault Refusal :=
  .next (s.answer (.bits 32 (crc32r acc b)))

/-- `SP.CRC4.UPD` (40_generators.md R99). -/
def execSpCrc4Upd (acc : BitVec 4) (b : Byte) (s : State) : Host.Outcome State Fault Refusal :=
  .next (s.answer (.bits 4 (spCrc4 acc b)))

/-- `SP.CRC8.UPD` (40_generators.md R100). -/
def execSpCrc8Upd (acc : BitVec 8) (b : Byte) (s : State) : Host.Outcome State Fault Refusal :=
  .next (s.answer (.bits 8 (spCrc8 acc b)))

/-- `SP.CRC16.UPD` (40_generators.md R101). -/
def execSpCrc16Upd (acc : BitVec 16) (b : Byte) (s : State) : Host.Outcome State Fault Refusal :=
  .next (s.answer (.bits 16 (spCrc16 acc b)))

/-- `SP.CRC24.UPD` (40_generators.md R102). -/
def execSpCrc24Upd (acc : BitVec 24) (b : Byte) (s : State) : Host.Outcome State Fault Refusal :=
  .next (s.answer (.bits 24 (spCrc24 acc b)))

/-- `SP.CRC32.UPD` (40_generators.md R103). -/
def execSpCrc32Upd (acc : BitVec 32) (b : Byte) (s : State) : Host.Outcome State Fault Refusal :=
  .next (s.answer (.bits 32 (spCrc32 acc b)))

end Sys2Proof.Machine
end

