-- ==== Sys2Proof/Machine/Lifecycle.lean ====
section
/-! DEFINITION. Machine/Lifecycle.lean: the lifecycle and control operations' meanings
(41_dispatch.md R121 to R125, R134, R135, R140). -/

namespace Sys2Proof.Machine

/-- The largest value of a per-kind size over the table's entries (41_dispatch.md R121). -/
def tableMax (size : Kind → Nat) (table : List Kind) : Nat :=
  table.foldl (fun m k => max m (size k)) 0

/-- The parse area that BEGIN's buffer operand leaves, if it is large enough (41_dispatch.md R121,
20_memory.md R40): of the whole buffer, what remains after header and scratch-pad, when that holds the
largest minimum parse area; of a parse area given directly, itself when it is at least 1. -/
def parseArea (table : List Kind) : BufferArg → Option Nat
  | .null => none
  | .total n =>
    let header := Config.headerBytes
    let scratch := tableMax Config.scratchBytes table
    let least := tableMax Config.minParseArea table
    if n.toNat < header + scratch + least then none else some (n.toNat - header - scratch)
  | .area n => if n.toNat = 0 then none else some n.toNat

/-- The ParseState a successful BEGIN creates (41_dispatch.md R121, 10_state.md R37). -/
def freshParse (a : BeginArgs) (bufferLength : Nat) : ParseState where
  table := a.table
  bufferLength := bufferLength
  buffer := []
  length := 0
  state := .firstByte
  active := a.table.length
  crc := 0
  sp := none
  badCrcEn := a.badCrcPresent
  invalidEn := false
  abortNpNmea := a.abortNpNmea
  abortNpUhash := a.abortNpUhash
  dbgEn := a.debugSinkPresent
  errEn := a.errorSinkPresent
  verbose := false

/-- `BEGIN` with no window open (41_dispatch.md R121): it creates the ParseState, or BeginFailure
(R122) takes away any that was there. -/
def beginParser (a : BeginArgs) (s : State) : State :=
  match if a.table = [] ∨ a.eomPresent = false then none else parseArea a.table a.buffer with
  | some n => { s with parse := some (freshParse a n), window := .none, result := .ok }
  | none => { s with parse := none, result := .error }

/-- An operation that writes one field of the ParseState: refused when unconfigured or inside a window
(41_dispatch.md R134, R135, R140); it has no result. -/
def control (s : State) (write : ParseState → ParseState) : Host.Outcome State Fault Refusal :=
  match s.parse, s.window with
  | some p, .none => .next { s with parse := some (write p), result := .nothing }
  | _, _ => .next s.refuse

/-- `BEGIN` (41_dispatch.md R121, R122): refused inside a window (R140). -/
def execBegin (a : BeginArgs) (s : State) : Host.Outcome State Fault Refusal :=
  if s.window = .none then .next (beginParser a s) else .next s.refuse

/-- `PUSH b` (41_dispatch.md R124). -/
def execPush (b : Byte) (s : State) : Host.Outcome State Fault Refusal := pushOctets [b] s

/-- `PUSHN b1 .. bn` (41_dispatch.md R125). -/
def execPushN (bytes : List Byte) (s : State) : Host.Outcome State Fault Refusal :=
  pushOctets bytes s

/-- `STOP` (41_dispatch.md R123): the ParseState is destroyed, without an event; no effect when there
is none; refused inside a window (R140). -/
def execStop (s : State) : Host.Outcome State Fault Refusal :=
  if s.window = .none then .next { s with parse := none, result := .nothing } else .next s.refuse

/-- `SETIDCB en` (41_dispatch.md R134). -/
def execSetIdCb (en : Bool) (s : State) : Host.Outcome State Fault Refusal :=
  control s fun p => { p with invalidEn := en }

/-- `DBGEN` (41_dispatch.md R135). -/
def execDbgEn (s : State) : Host.Outcome State Fault Refusal :=
  control s fun p => { p with dbgEn := true }

/-- `DBGDIS` (41_dispatch.md R135). -/
def execDbgDis (s : State) : Host.Outcome State Fault Refusal :=
  control s fun p => { p with dbgEn := false }

/-- `ERREN` (41_dispatch.md R135). -/
def execErrEn (s : State) : Host.Outcome State Fault Refusal :=
  control s fun p => { p with errEn := true }

/-- `ERRDIS` (41_dispatch.md R135). -/
def execErrDis (s : State) : Host.Outcome State Fault Refusal :=
  control s fun p => { p with errEn := false }

end Sys2Proof.Machine
end

