-- ==== Sys2Proof/Machine/Queries.lean ====
section
/-! DEFINITION. Machine/Queries.lean: the per-protocol queries' meanings (49_accessors.md R313 to R329). -/

namespace Sys2Proof.Machine

/-- A query over an NMEA record. -/
def fromNmea (r : Scratch) (f : NmeaRec → Except Fault Result) : Except Fault Result :=
  match r with
  | .nmea r => f r
  | _ => .error .wrongScratch

/-- A query over a Unicore-hash record. -/
def fromUhash (r : Scratch) (f : UhashRec → Except Fault Result) : Except Fault Result :=
  match r with
  | .uhash r => f r
  | _ => .error .wrongScratch

/-- A query over an RTCM record. -/
def fromRtcm (r : Scratch) (f : RtcmRec → Except Fault Result) : Except Fault Result :=
  match r with
  | .rtcm r => f r
  | _ => .error .wrongScratch

/-- A query over a UBX record. -/
def fromUbx (r : Scratch) (f : UbxRec → Except Fault Result) : Except Fault Result :=
  match r with
  | .ubx r => f r
  | _ => .error .wrongScratch

/-- A query over an SBF record. -/
def fromSbf (r : Scratch) (f : SbfRec → Except Fault Result) : Except Fault Result :=
  match r with
  | .sbf r => f r
  | _ => .error .wrongScratch

/-- A query over a SPARTN record. -/
def fromSpartn (r : Scratch) (f : SpartnRec → Except Fault Result) : Except Fault Result :=
  match r with
  | .spartn r => f r
  | _ => .error .wrongScratch

/-- The SBF block number that encapsulates another protocol (30_encoding.md R80). -/
def sbfEncapsulation : BitVec 13 := 4097

/-- Whether an SBF frame is block 4097 with `code` in frame byte 14 (49_accessors.md R323, R324): a
frame shorter than 15 bytes gives 0, not a refusal. -/
def sbfEncapsulates (p : ParseState) (r : SbfRec) (code : Byte) : Except Fault Result :=
  if r.blockId = sbfEncapsulation ∧ 14 < p.length then
    match p.byteAt 14 with
    | .ok b => .ok (.bit (b == code))
    | .error f => .error f
  else .ok (.bit false)

/-- `NMEA.NAME` (49_accessors.md R313). -/
def execNmeaName (s : State) : Host.Outcome State Fault Refusal :=
  query .nmea s fun _ sp => fromNmea sp fun r => .ok (.bytes (nameChars r.sentenceName r.nameLen))

/-- `UHASH.NAME` (R314). -/
def execUhashName (s : State) : Host.Outcome State Fault Refusal :=
  query .uhash s fun _ sp => fromUhash sp fun r => .ok (.bytes (nameChars r.sentenceName r.nameLen))

/-- `RTCM.MSGID` (R315): 12 bits. -/
def execRtcmMsgId (s : State) : Host.Outcome State Fault Refusal :=
  query .rtcm s fun _ sp => fromRtcm sp fun r => .ok (.bits 12 (r.messageId.setWidth 12))

/-- `RTCM.GETU start, width` (R316): zero-extended to 64 bits. -/
def execRtcmGetU (start : LenWord) (width : BitVec 8) (s : State) :
    Host.Outcome State Fault Refusal :=
  query .rtcm s fun p _ => p.rtcmField start.toNat width.toNat fun v => .bits 64 v

/-- `RTCM.GETS start, width` (R317): `sext_64(v[width-1:0])`. -/
def execRtcmGetS (start : LenWord) (width : BitVec 8) (s : State) :
    Host.Outcome State Fault Refusal :=
  query .rtcm s fun p _ =>
    p.rtcmField start.toNat width.toNat fun v => .signed 64 (v.setWidth width.toNat).toInt

/-- `UBX.CLASS` (R318). -/
def execUbxClass (s : State) : Host.Outcome State Fault Refusal :=
  query .ubx s fun _ sp => fromUbx sp fun r => .ok (.bits 8 r.msgClass)

/-- `UBX.ID` (R319). -/
def execUbxId (s : State) : Host.Outcome State Fault Refusal :=
  query .ubx s fun _ sp => fromUbx sp fun r => .ok (.bits 8 r.msgId)

/-- `UBX.NUM` (R320): the class in the high byte. -/
def execUbxNum (s : State) : Host.Outcome State Fault Refusal :=
  query .ubx s fun _ sp => fromUbx sp fun r => .ok (.bits 16 (r.msgClass ++ r.msgId))

/-- `SBF.ID` (R321): 13 bits. -/
def execSbfId (s : State) : Host.Outcome State Fault Refusal :=
  query .sbf s fun _ sp => fromSbf sp fun r => .ok (.bits 13 r.blockId)

/-- `SBF.REV` (R322): 3 bits. -/
def execSbfRev (s : State) : Host.Outcome State Fault Refusal :=
  query .sbf s fun _ sp => fromSbf sp fun r => .ok (.bits 3 r.blockRev)

/-- `SBF.ISNMEA` (R323): byte 14 is 4. -/
def execSbfIsNmea (s : State) : Host.Outcome State Fault Refusal :=
  query .sbf s fun p sp => fromSbf sp fun r => sbfEncapsulates p r 4

/-- `SBF.ISRTCM` (R324): byte 14 is 2. -/
def execSbfIsRtcm (s : State) : Host.Outcome State Fault Refusal :=
  query .sbf s fun p sp => fromSbf sp fun r => sbfEncapsulates p r 2

/-- `SBF.ENCPTR` (R325): the index 20, in `LEN_W` bits. -/
def execSbfEncPtr (s : State) : Host.Outcome State Fault Refusal :=
  query .sbf s fun p sp => fromSbf sp fun r =>
    if r.blockId ≠ sbfEncapsulation ∨ p.length < 20 then .ok .refused else .ok (.bits lenW 20)

/-- `SBF.ENCLEN` (R326): `MemRead(16, 2)`, as it is. -/
def execSbfEncLen (s : State) : Host.Outcome State Fault Refusal :=
  query .sbf s fun p sp => fromSbf sp fun r =>
    if r.blockId ≠ sbfEncapsulation ∨ p.length < 18 then .ok .refused
    else
      match p.slice 16 18 with
      | .ok bs => .ok (asBits 16 bs)
      | .error f => .error f

/-- `SPARTN.TYPE` (R327): 7 bits. -/
def execSpartnType (s : State) : Host.Outcome State Fault Refusal :=
  query .spartn s fun _ sp => fromSpartn sp fun r => .ok (.bits 7 r.messageType)

/-- `SPARTN.SUBTYPE` (R328): 4 bits. -/
def execSpartnSubtype (s : State) : Host.Outcome State Fault Refusal :=
  query .spartn s fun _ sp => fromSpartn sp fun r => .ok (.bits 4 r.subtype)

end Sys2Proof.Machine
end

