-- ==== Sys2Proof/Machine/Dispatch.lean ====
section
/-! DEFINITION. Machine/Dispatch.lean: from each instruction to its meaning, one arm a constructor. -/

namespace Sys2Proof.Machine

def exec (i : Instr) (s : State) : Host.Outcome State Fault Refusal :=
  match i with
  | .beginParser args => Sys2Proof.Machine.execBegin args s
  | .push b => Sys2Proof.Machine.execPush b s
  | .pushN bytes => Sys2Proof.Machine.execPushN bytes s
  | .stop => Sys2Proof.Machine.execStop s
  | .setIdCb en => Sys2Proof.Machine.execSetIdCb en s
  | .dbgEn => Sys2Proof.Machine.execDbgEn s
  | .dbgDis => Sys2Proof.Machine.execDbgDis s
  | .errEn => Sys2Proof.Machine.execErrEn s
  | .errDis => Sys2Proof.Machine.execErrDis s
  | .xor8Upd acc b => Sys2Proof.Machine.execXor8Upd acc b s
  | .crc24qUpd acc b => Sys2Proof.Machine.execCrc24qUpd acc b s
  | .fl8Upd ckA ckB b => Sys2Proof.Machine.execFl8Upd ckA ckB b s
  | .ccitt16Upd acc b => Sys2Proof.Machine.execCcitt16Upd acc b s
  | .crc32rUpd acc b => Sys2Proof.Machine.execCrc32rUpd acc b s
  | .spCrc4Upd acc b => Sys2Proof.Machine.execSpCrc4Upd acc b s
  | .spCrc8Upd acc b => Sys2Proof.Machine.execSpCrc8Upd acc b s
  | .spCrc16Upd acc b => Sys2Proof.Machine.execSpCrc16Upd acc b s
  | .spCrc24Upd acc b => Sys2Proof.Machine.execSpCrc24Upd acc b s
  | .spCrc32Upd acc b => Sys2Proof.Machine.execSpCrc32Upd acc b s
  | .getU8 offset => Sys2Proof.Machine.execGetU8 offset s
  | .getU16 offset => Sys2Proof.Machine.execGetU16 offset s
  | .getU32 offset => Sys2Proof.Machine.execGetU32 offset s
  | .getU64 offset => Sys2Proof.Machine.execGetU64 offset s
  | .getI8 offset => Sys2Proof.Machine.execGetI8 offset s
  | .getI16 offset => Sys2Proof.Machine.execGetI16 offset s
  | .getI32 offset => Sys2Proof.Machine.execGetI32 offset s
  | .getI64 offset => Sys2Proof.Machine.execGetI64 offset s
  | .getF32 offset => Sys2Proof.Machine.execGetF32 offset s
  | .getF64 offset => Sys2Proof.Machine.execGetF64 offset s
  | .getStr offset => Sys2Proof.Machine.execGetStr offset s
  | .getU8No offset => Sys2Proof.Machine.execGetU8No offset s
  | .getU16No offset => Sys2Proof.Machine.execGetU16No offset s
  | .getU32No offset => Sys2Proof.Machine.execGetU32No offset s
  | .getU64No offset => Sys2Proof.Machine.execGetU64No offset s
  | .getI8No offset => Sys2Proof.Machine.execGetI8No offset s
  | .getI16No offset => Sys2Proof.Machine.execGetI16No offset s
  | .getI32No offset => Sys2Proof.Machine.execGetI32No offset s
  | .getI64No offset => Sys2Proof.Machine.execGetI64No offset s
  | .getF32No offset => Sys2Proof.Machine.execGetF32No offset s
  | .getF64No offset => Sys2Proof.Machine.execGetF64No offset s
  | .getStrNo offset => Sys2Proof.Machine.execGetStrNo offset s
  | .nmeaName => Sys2Proof.Machine.execNmeaName s
  | .uhashName => Sys2Proof.Machine.execUhashName s
  | .rtcmMsgId => Sys2Proof.Machine.execRtcmMsgId s
  | .rtcmGetU start width => Sys2Proof.Machine.execRtcmGetU start width s
  | .rtcmGetS start width => Sys2Proof.Machine.execRtcmGetS start width s
  | .ubxClass => Sys2Proof.Machine.execUbxClass s
  | .ubxId => Sys2Proof.Machine.execUbxId s
  | .ubxNum => Sys2Proof.Machine.execUbxNum s
  | .sbfId => Sys2Proof.Machine.execSbfId s
  | .sbfRev => Sys2Proof.Machine.execSbfRev s
  | .sbfIsNmea => Sys2Proof.Machine.execSbfIsNmea s
  | .sbfIsRtcm => Sys2Proof.Machine.execSbfIsRtcm s
  | .sbfEncPtr => Sys2Proof.Machine.execSbfEncPtr s
  | .sbfEncLen => Sys2Proof.Machine.execSbfEncLen s
  | .spartnType => Sys2Proof.Machine.execSpartnType s
  | .spartnSubtype => Sys2Proof.Machine.execSpartnSubtype s
  | .frameNmea rest => Sys2Proof.Machine.execFrameNmea rest s
  | .frameUhash rest => Sys2Proof.Machine.execFrameUhash rest s
  | .frameRtcm len rest => Sys2Proof.Machine.execFrameRtcm len rest s
  | .frameUbx cls id len rest => Sys2Proof.Machine.execFrameUbx cls id len rest s
  | .frameSbf crc id rev len rest => Sys2Proof.Machine.execFrameSbf crc id rev len rest s
  | .frameSpartn msgType payloadLen eaf crcType hdrCrc rest => Sys2Proof.Machine.execFrameSpartn msgType payloadLen eaf crcType hdrCrc rest s
  | .frameUbin h3 h4 h5 len rest => Sys2Proof.Machine.execFrameUbin h3 h4 h5 len rest s

end Sys2Proof.Machine
end

