-- ==== Sys2Proof/Machine/Port.lean ====
section
/-! DEFINITION. Machine/Port.lean: the host port: what taking an action from the port does to the event
list, and what becomes of bytes that are no instruction (30_encoding.md R72, R78; 10_state.md R33;
log 1, log 3, log 5, log 14). -/

namespace Sys2Proof.Machine

/-- The state with the port's first action taken. A record presented with no window open starts an
event list of its own; one presented inside a window belongs to the suspended PUSH's window and leaves
that PUSH's list alone (10_state.md R33; log 14). -/
def State.take (s : State) (rest : List HostAction) : State :=
  { s with port := rest, events := if s.window = .none then [] else s.events }

/-- A record that is no instruction: on the port it is refused (30_encoding.md R78, 40_generators.md
R108; log 3); octets on the stream that begin no frame are pushed all the same (60_exceptions.md R351
`E_NO_PARSER`; log 5). -/
def runUndecoded (r : Record) (s : State) : Host.Outcome State Fault Refusal :=
  match r.space with
  | .port => .next s.refuse
  | .stream => pushOctets r.bytes s

end Sys2Proof.Machine
end

