-- ==== Sys2Proof/WellFormed.lean ====
section
/-! DEFINITION. WellFormed.lean: which instructions the spec's formats admit. An operation's operands
are typed, so every operation is well-formed; a frame is when its octets follow its format
(30_encoding.md R61 to R69, R79). The checks themselves stand in Machine/FrameFormat.lean. -/

namespace Sys2Proof

open Sys2Proof.Machine

/-- Whether an instruction is one the spec's formats admit. -/
def Instr.wf : Instr → Bool
  | .frameNmea rest => nmeaFormatOk rest
  | .frameUhash rest => uhashFormatOk rest
  | .frameRtcm len rest => rtcmFormatOk len rest
  | .frameUbx _ _ len rest => ubxFormatOk len rest
  | .frameSbf _ _ _ len rest => sbfFormatOk len rest
  | .frameSpartn msgType payloadLen eaf crcType hdrCrc rest =>
    spartnFormatOk msgType payloadLen eaf crcType hdrCrc rest
  | .frameUbin _ _ _ len rest => ubinFormatOk len rest
  | .beginParser _ | .push _ | .pushN _ | .stop | .setIdCb _ | .dbgEn | .dbgDis | .errEn | .errDis
  | .xor8Upd _ _ | .crc24qUpd _ _ | .fl8Upd _ _ _ | .ccitt16Upd _ _ | .crc32rUpd _ _
  | .spCrc4Upd _ _ | .spCrc8Upd _ _ | .spCrc16Upd _ _ | .spCrc24Upd _ _ | .spCrc32Upd _ _
  | .getU8 _ | .getU16 _ | .getU32 _ | .getU64 _ | .getI8 _ | .getI16 _ | .getI32 _ | .getI64 _
  | .getF32 _ | .getF64 _ | .getStr _
  | .getU8No _ | .getU16No _ | .getU32No _ | .getU64No _ | .getI8No _ | .getI16No _ | .getI32No _
  | .getI64No _ | .getF32No _ | .getF64No _ | .getStrNo _
  | .nmeaName | .uhashName | .rtcmMsgId | .rtcmGetU _ _ | .rtcmGetS _ _
  | .ubxClass | .ubxId | .ubxNum | .sbfId | .sbfRev | .sbfIsNmea | .sbfIsRtcm | .sbfEncPtr
  | .sbfEncLen | .spartnType | .spartnSubtype => true

end Sys2Proof
end

