-- ==== Sys2Proof/Machine/Step.lean ====
section
/-! DEFINITION. Machine/Step.lean: one step of the machine takes the host's next action from the port
(30_encoding.md R72; log 1). -/

namespace Sys2Proof.Machine

/-- One record presented by the host. -/
def runRecord (r : Record) (s : State) : Host.Outcome State Fault Refusal :=
  match decode r with
  | .ok i => exec i s
  | .error _ => runUndecoded r s

/-- One step: the first action waiting at the port is carried out. With none waiting the core is idle
and keeps its state (60_exceptions.md R367). -/
def step (s : State) : Host.Outcome State Fault Refusal :=
  match s.port with
  | [] => .next s
  | .present r :: rest => runRecord r (s.take rest)
  | .returns answer :: rest => hostReturn answer { s with port := rest }

/-- `s` with the instruction that spec/opcode_table.json numbers `w` presented next at the port. -/
def State.withFetchWord (s : State) (nbits w : Nat) : State :=
  { s with port := .present (tableRecord nbits w) :: s.port }

end Sys2Proof.Machine
end

