-- ==== Sys2Proof/Safety.lean ====
section
/-! DEFINITION. Safety.lean: the terms the statements are made in: which states the machine can be in
between two of the host's actions (10_state.md R14 to R17, R23 to R30, R36), and how the pushed bytes
are accounted for (41_dispatch.md R137). -/

namespace Sys2Proof.Machine

/-! ### Kinds and states -/

/-- The text kinds, whose frames are delivered by TEXT_DELIVER (41_dispatch.md R130). -/
def isText : Kind → Bool
  | .nmea | .uhash => true
  | .rtcm | .ubx | .sbf | .spartn | .ubin => false

/-- The kinds a state belongs to (10_state.md R15, R16): the three line-terminator states are shared by
the two text kinds, `FIRST_BYTE` belongs to none. -/
def PState.owners : PState → List Kind
  | .firstByte => []
  | .lineTerm | .crThenLf | .lfThenCr => [.nmea, .uhash]
  | .nmeaNameThenFirstComma | .nmeaFindAsterisk | .nmeaChecksumHi | .nmeaChecksumLo => [.nmea]
  | .rtcmLengthHi | .rtcmLengthLo | .rtcmMsgIdHi | .rtcmMsgIdLo | .rtcmData | .rtcmCrc => [.rtcm]
  | .ubxSync2 | .ubxClass | .ubxId | .ubxLengthLo | .ubxLengthHi | .ubxPayload | .ubxCkA
  | .ubxCkB => [.ubx]
  | .sbfPreamble2 | .sbfCrc1 | .sbfCrc2 | .sbfId1 | .sbfId2 | .sbfLengthLo | .sbfLengthHi
  | .sbfBody => [.sbf]
  | .spartnHdr3 | .spartnExtHdr | .spartnPayload | .spartnEmbedded | .spartnCrc => [.spartn]
  | .ubinSync2 | .ubinSync3 | .ubinReadHeader | .ubinReadBody | .ubinReadCrc => [.ubin]
  | .uhashNameThenFirstComma | .uhashFindAsterisk | .uhashChecksumByte => [.uhash]

/-- The states in which a frame is in progress: those whose bytes PUSH appends (41_dispatch.md R124,
92_eei_decisions.md D6). -/
def PState.inFrame (st : PState) : Bool :=
  match st with
  | .firstByte | .lineTerm | .crThenLf | .lfThenCr => false
  | _ => true

/-- Entry `i` of the table is the one that `FIRST_BYTE` latches on its kind's preamble: the first with
that preamble byte (41_dispatch.md R126, R128). -/
def ParseState.Latches (p : ParseState) (i : Nat) (k : Kind) : Prop :=
  p.table[i]? = some k ∧
    ∀ j < i, ∀ k', p.table[j]? = some k' → preamble k' ≠ preamble k

/-! ### The ranges of the working registers -/

/-- The ranges of the scratch-pad's fields (10_state.md R24 to R30). -/
def Scratch.InRange : Scratch → Prop
  | .nmea r => r.nameLen.toNat ≤ 15
  | .uhash r =>
    r.nameLen.toNat ≤ 15 ∧ (r.checksumBytes = 0 ∨ r.checksumBytes = 2 ∨ r.checksumBytes = 8)
  | .rtcm r => r.messageId.toNat < 2 ^ 12
  | .ubx _ => True
  | .sbf _ => True
  | .spartn r =>
    r.payloadLen.toNat < 2 ^ 10 ∧ r.crcBytes.toNat ≤ 4 ∧
      r.embeddedAppLen.toNat ∈ [0, 8, 12, 16, 32, 64]
  | .ubin _ => True

/-- The bits of the accumulator that the recogniser the scratch-pad belongs to does not use are 0
(10_state.md R17). -/
def ParseState.CrcInRange (p : ParseState) : Prop :=
  match p.sp with
  | none => p.crc = 0
  | some (.nmea _) => p.crc.toNat < 2 ^ 8
  | some (.uhash r) => r.checksumBytes = 2 → p.crc.toNat < 2 ^ 8
  | some (.rtcm _) => p.crc.toNat < 2 ^ 24
  | some (.ubx _) => p.crc = 0
  | some (.sbf _) => p.crc.toNat < 2 ^ 16
  | some (.spartn _) => p.crc = 0
  | some (.ubin _) => True

/-! ### The invariant of a ParseState -/

/-- What holds of a ParseState always, inside a window and outside: the invariants of 10_state.md R36,
with the sizes BEGIN guarantees (41_dispatch.md R121), the canonical form of the buffer, and the
ranges of the working registers. -/
structure ParseState.Inv (p : ParseState) : Prop where
  /-- `N >= 1` (10_state.md R12). -/
  tableNonempty : p.table ≠ []
  /-- `buffer_length >= 1`, in `LEN_W` bits (41_dispatch.md R121, 00_scope.md R5). -/
  areaSize : 1 ≤ p.bufferLength ∧ p.bufferLength < 2 ^ lenW
  /-- R36 (i). -/
  lengthBound : p.length ≤ p.bufferLength
  /-- The buffer is in canonical form. -/
  canonical : Memory.wf p.buffer
  /-- No byte at or past `buffer_length` was ever written (20_memory.md R41). -/
  inside : ∀ c ∈ p.buffer, c.1 < p.bufferLength
  /-- Every byte of `buffer[0 .. length)` has a value (10_state.md R14). -/
  filled : ∀ i < p.length, (p.buffer.read i).isSome
  /-- `active` is in `0..N` (10_state.md R16). -/
  activeBound : p.active ≤ p.count
  /-- R36 (ii). -/
  searching : p.active = p.count ↔ p.state = .firstByte
  /-- R36 (iii) and (iv), R16, and the priority of 41_dispatch.md R128. -/
  latched : p.active < p.count →
    ∃ k, p.Latches p.active k ∧ k ∈ p.state.owners ∧ 1 ≤ p.length ∧
      p.buffer.read 0 = some (preamble k) ∧ p.sp.map Scratch.kind = some k
  /-- 10_state.md R24 to R30. -/
  fields : ∀ r, p.sp = some r → r.InRange
  /-- 10_state.md R17. -/
  crcBits : p.CrcInRange

/-- Whether the byte at `i` has been stored and is a hex digit. -/
def ParseState.HexAt (p : ParseState) (i : Nat) : Prop :=
  ∃ c, p.buffer.read i = some c ∧ isHex c = true

/-- What the counters of a frame in progress say between two PUSH operations, state by state: a count
still to come is at least 1, a count of bytes consumed has not reached its end (42_nmea.md to
48_unicore_hash.md; 40_generators.md R107), and the checksum digits taken so far are hex digits. -/
def ParseState.Progress (p : ParseState) : Prop :=
  match p.state with
  | .nmeaChecksumLo => p.HexAt (p.length - 1)
  | .rtcmMsgIdHi | .rtcmMsgIdLo | .rtcmData | .rtcmCrc =>
    ∀ r, p.sp = some (.rtcm r) → 1 ≤ r.bytesRemaining.toNat
  | .ubxPayload => ∀ r, p.sp = some (.ubx r) → 1 ≤ r.bytesRemaining.toNat
  | .sbfBody => ∀ r, p.sp = some (.sbf r) → 1 ≤ r.bytesRemaining.toNat
  | .spartnHdr3 =>
    ∀ r, p.sp = some (.spartn r) → r.frameCount.toNat ≤ 2 ∧ p.length = r.frameCount.toNat + 1
  | .spartnExtHdr =>
    ∀ r, p.sp = some (.spartn r) →
      r.crcBytes.toNat = r.crcType.toNat + 1 ∧
        (r.frameCount = 0 ∨
          ∃ extLen ∈ [4, 6, 8], r.frameCount.toNat < extLen ∧
            r.tf007ToTf016Len.toNat = extLen + r.payloadLen.toNat)
  | .spartnPayload =>
    ∀ r, p.sp = some (.spartn r) →
      r.crcBytes.toNat = r.crcType.toNat + 1 ∧ r.frameCount.toNat < r.tf007ToTf016Len.toNat
  | .spartnEmbedded =>
    ∀ r, p.sp = some (.spartn r) →
      r.crcBytes.toNat = r.crcType.toNat + 1 ∧ r.frameCount.toNat < r.embeddedAppLen.toNat
  | .spartnCrc =>
    ∀ r, p.sp = some (.spartn r) →
      r.crcBytes.toNat = r.crcType.toNat + 1 ∧ r.frameCount.toNat < r.crcBytes.toNat
  | .ubinSync2 => p.length = 1
  | .ubinSync3 => p.length = 2
  | .ubinReadHeader =>
    ∀ r, p.sp = some (.ubin r) →
      1 ≤ r.bytesRemaining.toNat ∧ p.length + r.bytesRemaining.toNat = 24
  | .ubinReadBody | .ubinReadCrc => ∀ r, p.sp = some (.ubin r) → 1 ≤ r.bytesRemaining.toNat
  | .uhashNameThenFirstComma => ∀ r, p.sp = some (.uhash r) → r.checksumBytes = 0
  | .uhashFindAsterisk => ∀ r, p.sp = some (.uhash r) → r.checksumBytes ≠ 0
  | .uhashChecksumByte =>
    ∀ r, p.sp = some (.uhash r) →
      1 ≤ r.bytesRemaining.toNat ∧ r.bytesRemaining.toNat ≤ r.checksumBytes.toNat ∧
        r.checksumBytes.toNat - r.bytesRemaining.toNat < p.length ∧
        ∀ i < r.checksumBytes.toNat - r.bytesRemaining.toNat, p.HexAt (p.length - 1 - i)
  | _ => True

/-! ### The invariant of the machine -/

/-- What an open window says about the ParseState (60_exceptions.md R359). -/
def Window.Fits (p : ParseState) : Window → Prop
  | .none => p.Progress
  | .inEom text => ∃ k, p.table[p.active]? = some k ∧ isText k = text
  | .inInvalid Option.none => p.state = .firstByte
  | .inInvalid (some _) => True
  | .inBadCrc b text =>
    p.badCrcEn = true ∧ 2 ≤ p.length ∧ p.buffer.read (p.length - 1) = some b ∧
      ∃ k, p.table[p.active]? = some k ∧ isText k = text

/-- What holds of the machine between two of the host's actions. -/
structure State.Inv (s : State) : Prop where
  /-- The ParseState keeps its invariant; with none there is no window (10_state.md R37). -/
  parseOk : ∀ p, s.parse = some p → p.Inv ∧ s.window.Fits p
  unconfigured : s.parse = none → s.window = .none
  /-- Bytes of a PUSHN wait only behind an open window (log 12). -/
  waiting : s.window = .none → s.todo = []
  /-- The payload of an INVALID_DATA event is non-empty (10_state.md R33). -/
  payloads : ∀ c bs, Event.invalidData c bs ∈ s.events → bs ≠ []

/-! ### What an operation leaves alone -/

/-- The ParseState's configuration and control flags (10_state.md R12, R13, R21): everything that no
byte of the input stream writes. -/
def ParseState.SameSetup (p q : ParseState) : Prop :=
  q.table = p.table ∧ q.bufferLength = p.bufferLength ∧ q.badCrcEn = p.badCrcEn ∧
    q.invalidEn = p.invalidEn ∧ q.abortNpNmea = p.abortNpNmea ∧
    q.abortNpUhash = p.abortNpUhash ∧ q.dbgEn = p.dbgEn ∧ q.errEn = p.errEn ∧
    q.verbose = p.verbose

/-- The buffer holds `bytes` from address 0 on and is otherwise as it was. -/
def ParseState.Holds (p q : ParseState) (bytes : List Byte) : Prop :=
  ∀ a, q.buffer.read a = if a < bytes.length then bytes[a]? else p.buffer.read a

/-- The state after a PUSH or PUSHN that has raised `e` with its last byte: the window is open and
nothing else of the machine has changed. -/
def State.raised (s : State) (q : ParseState) (e : Event) (w : Window) : State :=
  { s with
    parse := some q, window := w, todo := [], events := s.events ++ [e], result := .nothing }

/-! ### Byte accounting -/

/-- The bytes of `buffer[0 .. length)`. -/
def ParseState.frameBytes (p : ParseState) : List Byte :=
  (p.buffer.readMany 0 p.length).getD []

/-- The bytes a state still owes an account of: the frame in progress, or what an open window has not
reported yet (41_dispatch.md R137 (4); 60_exceptions.md R352 to R354). -/
def State.owed (s : State) : List Byte :=
  match s.parse with
  | none => []
  | some p =>
    match s.window with
    | .none => if p.state.inFrame then p.frameBytes else []
    | .inEom _ => []
    | .inInvalid rescan => rescan.toList
    | .inBadCrc _ _ => p.frameBytes

/-- The stream bytes an event accounts for: a frame's, without the synthetic `CR LF` of a text frame
(41_dispatch.md R130), or those of the invalid-data payload (R137 (1), (2)). -/
def Event.accounted (table : List Kind) : Event → List Byte
  | .eom i frame =>
    if (table[i]?.map isText) = some true then frame.take (frame.length - 2) else frame
  | .invalidData _ bytes => bytes
  | .badCrc _ => []

/-- Whether a line-terminator state consumes the byte without trace (41_dispatch.md R131 to R133,
R137 (3)). -/
def PState.consumes (st : PState) (b : Byte) : Bool :=
  match st with
  | .lineTerm => b == 0x0D || b == 0x0A
  | .crThenLf => b == 0x0A
  | .lfThenCr => b == 0x0D
  | _ => false

/-! ### Which operations run where -/

/-- The rows of the legality table (41_dispatch.md R140); a frame on the input stream is a run of PUSH
operations. -/
inductive OpClass where
  | begins
  | stop
  | push
  | control
  | generator
  | reader
deriving DecidableEq, Repr

/-- The row an instruction belongs to (41_dispatch.md R140; 30_encoding.md R73 to R76). -/
def opClass : Instr → OpClass
  | .beginParser _ => .begins
  | .stop => .stop
  | .push _ | .pushN _ => .push
  | .setIdCb _ | .dbgEn | .dbgDis | .errEn | .errDis => .control
  | .xor8Upd _ _ | .crc24qUpd _ _ | .fl8Upd _ _ _ | .ccitt16Upd _ _ | .crc32rUpd _ _
  | .spCrc4Upd _ _ | .spCrc8Upd _ _ | .spCrc16Upd _ _ | .spCrc24Upd _ _
  | .spCrc32Upd _ _ => .generator
  | .getU8 _ | .getU16 _ | .getU32 _ | .getU64 _ | .getI8 _ | .getI16 _ | .getI32 _ | .getI64 _
  | .getF32 _ | .getF64 _ | .getStr _
  | .getU8No _ | .getU16No _ | .getU32No _ | .getU64No _ | .getI8No _ | .getI16No _ | .getI32No _
  | .getI64No _ | .getF32No _ | .getF64No _ | .getStrNo _
  | .nmeaName | .uhashName | .rtcmMsgId | .rtcmGetU _ _ | .rtcmGetS _ _
  | .ubxClass | .ubxId | .ubxNum | .sbfId | .sbfRev | .sbfIsNmea | .sbfIsRtcm | .sbfEncPtr
  | .sbfEncLen | .spartnType | .spartnSubtype => .reader
  | .frameNmea _ | .frameUhash _ | .frameRtcm _ _ | .frameUbx _ _ _ _ | .frameSbf _ _ _ _ _
  | .frameSpartn _ _ _ _ _ _ | .frameUbin _ _ _ _ _ => .push

/-- The legality table (41_dispatch.md R140). STOP of an unconfigured core is allowed and has no
effect. -/
def State.allows (s : State) : OpClass → Bool
  | .begins | .stop => s.window = .none
  | .push | .control => s.configured && decide (s.window = .none)
  | .generator => true
  | .reader =>
    s.configured &&
      match s.window with
      | .inEom _ | .inBadCrc _ _ => true
      | .none | .inInvalid _ => false

/-! ### Failures -/

/-- The bytes a state rejects by its grammar or length rule, and the cause (60_exceptions.md R351,
R355; 42_nmea.md R152 to R155, 43_rtcm.md R172, 44_ubx.md R192, 45_sbf.md R212, R218, 47_unicore_binary.md
R262, R263, 48_unicore_hash.md R281 to R283). -/
def ParseState.Rejects (p : ParseState) (b : Byte) (c : Cause) : Prop :=
  match p.state, p.sp with
  | .nmeaNameThenFirstComma, some (.nmea r) =>
    c = .grammar ∧ ¬(b = 0x2C ∧ 1 ≤ r.nameLen.toNat) ∧
      ¬(isAlnum b = true ∧ r.nameLen.toNat < 15)
  | .nmeaFindAsterisk, some (.nmea _) =>
    c = .grammar ∧ b ≠ 0x2A ∧ p.abortNpNmea = true ∧ (b.toNat < 0x20 ∨ 0x7E < b.toNat)
  | .nmeaChecksumHi, some (.nmea _) => c = .grammar ∧ hexval b = none
  | .nmeaChecksumLo, some (.nmea _) => c = .grammar ∧ hexval b = none
  | .rtcmLengthHi, some (.rtcm _) => c = .length ∧ b &&& 0xFC ≠ 0
  | .ubxSync2, some (.ubx _) => c = .grammar ∧ b ≠ 0x62
  | .sbfPreamble2, some (.sbf _) => c = .grammar ∧ b ≠ 0x40
  | .sbfLengthHi, some (.sbf r) =>
    c = .length ∧
      ((r.length ||| b.setWidth 16 <<< 8).toNat % 4 ≠ 0 ∨
        (r.length ||| b.setWidth 16 <<< 8).toNat < 8)
  | .ubinSync2, some (.ubin _) => c = .grammar ∧ b ≠ 0x44
  | .ubinSync3, some (.ubin _) => c = .grammar ∧ b ≠ 0xB5
  | .uhashNameThenFirstComma, some (.uhash r) =>
    c = .grammar ∧ ¬(b = 0x2C ∧ 1 ≤ r.nameLen.toNat) ∧
      ¬(isAlnum b = true ∧ r.nameLen.toNat < 15)
  | .uhashFindAsterisk, some (.uhash _) =>
    c = .grammar ∧ b ≠ 0x2A ∧ p.abortNpUhash = true ∧ (b.toNat < 0x20 ∨ 0x7E < b.toNat)
  | .uhashChecksumByte, some (.uhash _) => c = .grammar ∧ hexval b = none
  | _, _ => False

/-- `FIRST_BYTE(b)` run on ParseState `q` by the machine in state `s`: a PUSH of `b` in state
`FIRST_BYTE` (41_dispatch.md R126; 60_exceptions.md R352). -/
def State.redispatch (s : State) (q : ParseState) (b : Byte) :
    Host.Outcome State Fault Refusal :=
  exec (.push b) { s with parse := some { q with state := .firstByte } }

/-- What becomes of a frame whose checksum verdict is bad, consumed whole into `q`, without a bad-CRC
query: the frame but its last byte is reported if the invalid-data callback is registered, and the last
byte is dispatched again (60_exceptions.md R352). -/
def State.dropFrame (s : State) (q : ParseState) (frame : List Byte) (last : Byte) :
    Host.Outcome State Fault Refusal :=
  if q.invalidEn then
    .next (s.raised q (.invalidData .checksum frame.dropLast) (.inInvalid (some last)))
  else s.redispatch q last

/-- The same under the soft-CRC discipline: the host is asked first, if it registered the bad-CRC
callback (60_exceptions.md R354). -/
def State.softCrcFrame (s : State) (q : ParseState) (frame : List Byte) (last : Byte)
    (text : Bool) : Host.Outcome State Fault Refusal :=
  if q.badCrcEn then .next (s.raised q (.badCrc q.active) (.inBadCrc last text))
  else s.dropFrame q frame last

/-! ### The running checksum -/

/-- `frame` with `n` octets after its `'*'`: the octets between the preamble and the `'*'`
(30_encoding.md R62, R69). -/
def starred (frame : List Byte) (n : Nat) : List Byte :=
  (frame.take (frame.length - (n + 1))).drop 1

/-- Whether the octet `n` places before the last one is `'*'`, with the preamble before it. -/
def hasStar (frame : List Byte) (n : Nat) : Prop :=
  n + 2 ≤ frame.length ∧ frame[frame.length - (n + 1)]? = some 0x2A

/-- The name of a text frame: its octets between the preamble and the first `','`. -/
def frameName (frame : List Byte) : List Byte :=
  (frame.drop 1).takeWhile fun c => c != 0x2C

/-- The checksum of a Unicore-hash frame over `covered`, with the number of its digits
(48_unicore_hash.md R281, R282). -/
def uhashChecksum (digits : Nat) (covered : List Byte) : BitVec 32 :=
  if digits = 2 then (xor8Block covered).setWidth 32 else crc32rBlock covered

/-- What the recogniser has taken of the checksum of a frame in progress: the running value is the
checksum of exactly the bytes its protocol covers, and what it keeps of the frame's own checksum is
what stands in the frame (10_state.md R17, R18; 92_eei_decisions.md D9; 42_nmea.md R152 to R154,
43_rtcm.md R170, 44_ubx.md R193 to R198, 45_sbf.md R213 to R219, 46_spartn.md R232,
47_unicore_binary.md R261 to R267, 48_unicore_hash.md R281 to R283). -/
def ParseState.ChecksumCovers (p : ParseState) : Prop :=
  match p.state, p.sp with
  | .nmeaNameThenFirstComma, _ | .nmeaFindAsterisk, _ =>
    p.crc = (xor8Block (p.frameBytes.drop 1)).setWidth 32
  | .nmeaChecksumHi, _ =>
    hasStar p.frameBytes 0 ∧ p.crc = (xor8Block (starred p.frameBytes 0)).setWidth 32
  | .nmeaChecksumLo, _ =>
    hasStar p.frameBytes 1 ∧ p.crc = (xor8Block (starred p.frameBytes 1)).setWidth 32
  | .rtcmLengthHi, _ | .rtcmLengthLo, _ | .rtcmMsgIdHi, _ | .rtcmMsgIdLo, _ | .rtcmData, _
  | .rtcmCrc, _ => p.crc = (crc24qBlock p.frameBytes).setWidth 32
  | .ubxSync2, some (.ubx r) => p.length = 1 ∧ (r.ckA, r.ckB) = (0, 0)
  | .ubxClass, some (.ubx r) | .ubxId, some (.ubx r) | .ubxLengthLo, some (.ubx r)
  | .ubxLengthHi, some (.ubx r) | .ubxPayload, some (.ubx r) | .ubxCkA, some (.ubx r) =>
    2 ≤ p.length ∧ (r.ckA, r.ckB) = fl8Block (p.frameBytes.drop 2)
  | .ubxCkB, some (.ubx r) =>
    3 ≤ p.length ∧ (r.ckA, r.ckB) = fl8Block (p.frameBytes.dropLast.drop 2)
  | .sbfPreamble2, _ => p.length = 1 ∧ p.crc = 0
  | .sbfCrc1, _ => p.length = 2 ∧ p.crc = 0
  | .sbfCrc2, some (.sbf r) =>
    p.length = 3 ∧ p.crc = 0 ∧ r.expectedCrc.toNat = leNat (p.frameBytes.drop 2)
  | .sbfId1, some (.sbf r) | .sbfId2, some (.sbf r) | .sbfLengthLo, some (.sbf r)
  | .sbfLengthHi, some (.sbf r) | .sbfBody, some (.sbf r) =>
    4 ≤ p.length ∧ p.crc = (ccitt16Block (p.frameBytes.drop 4)).setWidth 32 ∧
      r.expectedCrc.toNat = leNat ((p.frameBytes.drop 2).take 2)
  | .spartnExtHdr, some (.spartn r) | .spartnPayload, some (.spartn r)
  | .spartnEmbedded, some (.spartn r) =>
    4 ≤ p.length ∧ p.frameBytes[3]?.map (·.extractLsb' 4 2) = some r.crcType
  | .spartnCrc, some (.spartn r) =>
    4 + r.frameCount.toNat ≤ p.length ∧
      p.frameBytes[3]?.map (·.extractLsb' 4 2) = some r.crcType
  | .ubinSync2, _ | .ubinSync3, _ | .ubinReadHeader, _ | .ubinReadBody, _ =>
    p.crc = crc32rBlock p.frameBytes
  | .ubinReadCrc, some (.ubin r) =>
    r.bytesRemaining.toNat ≤ 4 ∧ 4 ≤ p.length + r.bytesRemaining.toNat ∧
      r.savedCrc =
        crc32rBlock (p.frameBytes.take (p.length + r.bytesRemaining.toNat - 4))
  | .uhashNameThenFirstComma, some (.uhash r) =>
    p.crc = crc32rBlock (p.frameBytes.drop 1) ∧
      p.frameBytes.drop 1 = nameChars r.sentenceName r.nameLen ∧
      (p.frameBytes.drop 1).all isAlnum = true
  | .uhashFindAsterisk, some (.uhash r) =>
    r.checksumBytes.toNat = uhashDigits (frameName p.frameBytes) ∧
      0x2C ∈ p.frameBytes.drop 1 ∧
      p.crc = uhashChecksum r.checksumBytes.toNat (p.frameBytes.drop 1)
  | .uhashChecksumByte, some (.uhash r) =>
    r.checksumBytes.toNat = uhashDigits (frameName p.frameBytes) ∧
      0x2C ∈ p.frameBytes.drop 1 ∧
      hasStar p.frameBytes (r.checksumBytes.toNat - r.bytesRemaining.toNat) ∧
      p.crc = uhashChecksum r.checksumBytes.toNat
        (starred p.frameBytes (r.checksumBytes.toNat - r.bytesRemaining.toNat))
  | _, _ => True

/-- Whether the stream bytes of a whole frame carry the checksum or CRC of the bytes their protocol
covers (42_nmea.md R155, 43_rtcm.md R178, 44_ubx.md R199, 45_sbf.md R220, 46_spartn.md R236,
47_unicore_binary.md R266, 48_unicore_hash.md R283). -/
def frameChecks (k : Kind) (frame : List Byte) : Prop :=
  match k with
  | .nmea =>
    hasStar frame 2 ∧
      hexNumber (frame.drop (frame.length - 2)) = some (xor8Block (starred frame 2)).toNat
  | .uhash =>
    hasStar frame (uhashDigits (frameName frame)) ∧
      hexNumber (frame.drop (frame.length - uhashDigits (frameName frame))) =
        some (uhashChecksum (uhashDigits (frameName frame))
          (starred frame (uhashDigits (frameName frame)))).toNat
  | .rtcm => crc24qBlock frame = 0
  | .ubx =>
    4 ≤ frame.length ∧
      frame.drop (frame.length - 2) =
        [(fl8Block ((frame.take (frame.length - 2)).drop 2)).1,
          (fl8Block ((frame.take (frame.length - 2)).drop 2)).2]
  | .sbf =>
    4 ≤ frame.length ∧ (ccitt16Block (frame.drop 4)).toNat = leNat ((frame.drop 2).take 2)
  | .spartn =>
    ∃ crcType : BitVec 2, frame[3]?.map (·.extractLsb' 4 2) = some crcType ∧
      crcType.toNat + 5 ≤ frame.length ∧
      beNat (frame.drop (frame.length - (crcType.toNat + 1))) =
        (spBodyCrc crcType ((frame.take (frame.length - (crcType.toNat + 1))).drop 1)).toNat
  | .ubin =>
    4 ≤ frame.length ∧
      leNat (frame.drop (frame.length - 4)) = (crc32rBlock (frame.take (frame.length - 4))).toNat

/-! ### What a window shows -/

/-- The machine is inside an IN_EOM or IN_BAD_CRC window that shows `p` (49_accessors.md R300
item 1). -/
def State.Shows (s : State) (p : ParseState) : Prop :=
  s.parse = some p ∧
    ((∃ text, s.window = .inEom text) ∨ ∃ b text, s.window = .inBadCrc b text)

/-! ### A whole PUSH -/

/-- The three kinds of event (10_state.md R33). -/
inductive EventKind where
  | eom
  | invalidData
  | badCrc
deriving DecidableEq, Repr

def Event.kind : Event → EventKind
  | .eom _ _ => .eom
  | .invalidData _ _ => .invalidData
  | .badCrc _ => .badCrc

/-- The host returns from one callback after the other, while one is open, with these answers. -/
def returnAll : List Bool → State → Host.Outcome State Fault Refusal
  | [], s => .next s
  | answer :: answers, s =>
    if s.window = .none then .next s
    else
      match hostReturn answer s with
      | .next t => returnAll answers t
      | .fault f => .fault f
      | .refused r => .refused r

end Sys2Proof.Machine
end

