-- ==== Sys2Proof/Certificates/Slice0/Obligations.lean ====
section
/-! DEFINITION. Certificates/Slice0/Obligations.lean: the statements. Each docstring names the rules of
spec/ it formalises; where a clause is the model's own choice it says so and names the log entry. -/

open Sys2Proof Sys2Proof.Machine

/-! ### Encoding -/

/-- Every well-formed instruction's record decodes to it (30_encoding.md R62 to R69, R72 to R77). The
byte layout of operand records is the model's (log 2). -/
def Obligations.DecodeEncode : Prop :=
  ∀ i : Instr, i.wf = true → decode (encode i) = .ok i

/-- No two records decode to one instruction: every byte of a record that decodes is one the encoder
writes (30_encoding.md R62 to R69, R72 to R77; log 2). -/
def Obligations.EncodeDecode : Prop :=
  ∀ (r : Record) (i : Instr), decode r = .ok i → encode i = r

/-- Words written out from 30_encoding.md R63 to R66, R73 to R76: one of each unit and format. -/
def Obligations.DecodedWords : Prop :=
  decode ⟨.port, [0x02, 0xB5]⟩ = .ok (.push 0xB5) ∧
    decode ⟨.port, [0x04]⟩ = .ok .stop ∧
    decode ⟨.port, [0x11, 0xFB, 0x4C, 0x86, 0x01]⟩ = .ok (.crc24qUpd 0x864CFB 0x01) ∧
    decode ⟨.port, [0x21, 0x04, 0x00, 0x00, 0x00]⟩ = .ok (.getU16 4) ∧
    decode ⟨.port, [0x43, 0x0C, 0x00, 0x00, 0x00, 0x04]⟩ = .ok (.rtcmGetU 12 4) ∧
    decode ⟨.stream, [0xD3, 0x02, 0x01, 0x43]⟩ = .ok (.frameRtcm 0x201 [0x43]) ∧
    decode ⟨.stream, [0xB5, 0x62, 0x05, 0x01, 0x00, 0x00, 0x06, 0x17]⟩ =
      .ok (.frameUbx 0x05 0x01 0 [0x06, 0x17]) ∧
    decode ⟨.stream, [0x24, 0x40, 0xFB, 0x59, 0x1A, 0x57, 0x0C, 0x00, 0x01]⟩ =
      .ok (.frameSbf 0x59FB 5914 2 12 [0x01]) ∧
    decode ⟨.stream, [0x73, 0x02, 0x01, 0x95, 0x28]⟩ =
      .ok (.frameSpartn 1 3 0 1 5 [0x28])

/-- 30_encoding.md R78: a code outside R73 to R76 is refused: no state change, no event, result
`refused`. -/
def Obligations.IllegalOpcodesRefused : Prop :=
  ∀ (op : Byte) (args : List Byte) (rest : List HostAction) (s : State),
    s.port = .present ⟨.port, op :: args⟩ :: rest →
    ¬(0x01 ≤ op.toNat ∧ op.toNat ≤ 0x09) → ¬(0x10 ≤ op.toNat ∧ op.toNat ≤ 0x19) →
    ¬(0x20 ≤ op.toNat ∧ op.toNat ≤ 0x2A) → ¬(0x30 ≤ op.toNat ∧ op.toNat ≤ 0x3A) →
    ¬(0x40 ≤ op.toNat ∧ op.toNat ≤ 0x4F) →
    ∃ t, step s = .next t ∧ t.parse = s.parse ∧ t.window = s.window ∧ t.todo = s.todo ∧
      (∀ e ∈ t.events, e ∈ s.events) ∧ t.result = .refused

/-- 40_generators.md R108: an operand wider than its stated width is refused at the port: the 4-bit
accumulator of SP.CRC4.UPD, in the model's record (log 2). -/
def Obligations.WideOperandsRefused : Prop :=
  ∀ (acc b : Byte) (rest : List HostAction) (s : State),
    s.port = .present ⟨.port, [0x15, acc, b]⟩ :: rest →
    if acc.toNat < 16 then
      step s = exec (.spCrc4Upd (acc.setWidth 4) b) (s.take rest)
    else step s = .next (s.take rest).refuse

/-- One step carries out the first action at the port: a record that decodes runs its instruction, on
the state with the record taken and, with no window open, an empty event list; octets that begin no
frame are pushed; any other record is refused; a return runs the suspended PUSH on; with nothing at
the port the state stays (30_encoding.md R72; the port is the model's, logs 1, 3, 5, 14, 30). -/
def Obligations.StepRunsDecoded : Prop :=
  ∀ (s : State) (rest : List HostAction),
    (∀ (r : Record) (i : Instr), s.port = .present r :: rest → decode r = .ok i →
      step s =
        exec i
          { s with port := rest, events := if s.window = .none then [] else s.events }) ∧
    (∀ (bytes : List Byte) (e : DecodeError), s.port = .present ⟨.port, bytes⟩ :: rest →
      decode ⟨.port, bytes⟩ = .error e → step s = .next (s.take rest).refuse) ∧
    (∀ (bytes : List Byte) (e : DecodeError), s.port = .present ⟨.stream, bytes⟩ :: rest →
      decode ⟨.stream, bytes⟩ = .error e → step s = exec (.pushN bytes) (s.take rest)) ∧
    (∀ answer : Bool, s.port = .returns answer :: rest →
      step s = hostReturn answer { s with port := rest }) ∧
    (s.port = [] → step s = .next s)

/-! ### Generators -/

/-- 40_generators.md R94 and R96: XOR8.UPD and FL8.UPD, in every state, with nothing else changed. -/
def Obligations.SumGenerators : Prop :=
  ∀ (acc ckA ckB b : Byte) (s : State),
    exec (.xor8Upd acc b) s = .next { s with result := .bits 8 (acc ^^^ b) } ∧
    exec (.fl8Upd ckA ckB b) s =
      .next
        { s with
          result :=
            .sums (BitVec.ofNat 8 ((ckA.toNat + b.toNat) % 256))
              (BitVec.ofNat 8 ((ckB.toNat + (ckA.toNat + b.toNat) % 256) % 256)) } ∧
    (encode (.xor8Upd acc b)).bytes.head? = some 0x10 ∧
    (encode (.fl8Upd ckA ckB b)).bytes.head? = some 0x12

/-- The eight CRC generators run the bit-serial engines of 40_generators.md section 2 with the
parameters of its section 1, in every state, with nothing else changed. All but one polynomial is
PRESUMED (log 18), so no rule is cited for them. -/
def Obligations.CrcGenerators : Prop :=
  let nonReflected (w : Nat) (poly acc : BitVec w) (b : Byte) : BitVec w :=
    (List.range 8).foldl
      (fun r _ => if r.getLsbD (w - 1) then (r <<< 1) ^^^ poly else r <<< 1)
      (acc ^^^ (b.setWidth w <<< (w - 8)))
  let reflected (w : Nat) (poly r : BitVec w) : BitVec w :=
    (List.range 8).foldl (fun r _ => if r.getLsbD 0 then (r >>> 1) ^^^ poly else r >>> 1) r
  ∀ (a4 : BitVec 4) (a8 : BitVec 8) (a16 : BitVec 16) (a24 : BitVec 24) (a32 : BitVec 32)
    (b : Byte) (s : State),
    exec (.crc24qUpd a24 b) s =
      .next { s with result := .bits 24 (nonReflected 24 0x864CFB a24 b) } ∧
    exec (.ccitt16Upd a16 b) s =
      .next { s with result := .bits 16 (nonReflected 16 0x1021 a16 b) } ∧
    exec (.crc32rUpd a32 b) s =
      .next { s with result := .bits 32 (reflected 32 0xEDB88320 (a32 ^^^ b.setWidth 32)) } ∧
    exec (.spCrc4Upd a4 b) s =
      .next { s with result := .bits 4 ((reflected 8 0x9 (a4.setWidth 8 ^^^ b)).setWidth 4) } ∧
    exec (.spCrc8Upd a8 b) s =
      .next { s with result := .bits 8 (nonReflected 8 0x07 a8 b) } ∧
    exec (.spCrc16Upd a16 b) s =
      .next { s with result := .bits 16 (nonReflected 16 0x1021 a16 b) } ∧
    exec (.spCrc24Upd a24 b) s =
      .next { s with result := .bits 24 (nonReflected 24 0x864CFB a24 b) } ∧
    exec (.spCrc32Upd a32 b) s =
      .next { s with result := .bits 32 (nonReflected 32 0x04C11DB7 a32 b) }

/-- The table-driven form of both engines, for every width of at least 8 bits and every polynomial
(40_generators.md section 2; the 4-bit form is the corner case of SP.CRC4.UPD). The engines are
PRESUMED (log 18). -/
def Obligations.TableDriven : Prop :=
  (∀ (w : Nat) (poly acc : BitVec w) (b : Byte), 8 ≤ w →
    nrUpd poly acc b =
      (acc <<< 8) ^^^ nrUpd poly 0 ((acc >>> (w - 8)).setWidth 8 ^^^ b)) ∧
  (∀ (w : Nat) (poly acc : BitVec w) (b : Byte), 8 ≤ w →
    rfUpd poly acc b = (acc >>> 8) ^^^ rfUpd poly 0 (acc.setWidth 8 ^^^ b)) ∧
  ∀ (poly acc : BitVec 4) (b : Byte),
    rfUpd4 poly acc b = rfUpd4 poly 0 (acc.setWidth 8 ^^^ b)

/-- Zero residue, both ways: after a message exactly one trailer of the generator's size brings a
non-reflected generator with initial value and final XOR 0 to 0, its own CRC, most significant byte
first (40_generators.md section 5; parameters PRESUMED, log 18). -/
def Obligations.ZeroResidueMsbFirst : Prop :=
  ∀ message trailer : List Byte,
    (trailer.length = 3 → ((message ++ trailer).foldl crc24q 0 = 0 ↔
      trailer = beBytes (crc24qBlock message) 3)) ∧
    (trailer.length = 2 → ((message ++ trailer).foldl ccitt16 0 = 0 ↔
      trailer = beBytes (ccitt16Block message) 2)) ∧
    (trailer.length = 1 → ((message ++ trailer).foldl spCrc8 0 = 0 ↔
      trailer = beBytes (spCrc8Block message) 1)) ∧
    (trailer.length = 2 → ((message ++ trailer).foldl spCrc16 0 = 0 ↔
      trailer = beBytes (spCrc16Block message) 2)) ∧
    (trailer.length = 3 → ((message ++ trailer).foldl spCrc24 0 = 0 ↔
      trailer = beBytes (spCrc24Block message) 3))

/-- The same of the reflected generator CRC32R, least significant byte first (40_generators.md
section 5; engine PRESUMED, log 18). -/
def Obligations.ZeroResidueLsbFirst : Prop :=
  ∀ message trailer : List Byte, trailer.length = 4 →
    ((message ++ trailer).foldl crc32r 0 = 0 ↔ trailer = leBytes (crc32rBlock message) 4)

/-! ### Lifecycle and control -/

/-- 41_dispatch.md R121 and R122: BEGIN with no window open. It builds the ParseState of R121's
pseudocode, or fails and leaves none. `BUFFER_TOTAL` or the parse area's size is the operand; what the
caller's memory held is no value: the buffer lists nothing and there is no scratch record. -/
def Obligations.BeginResult : Prop :=
  ∀ (a : BeginArgs) (s : State), s.window = .none →
    let most (size : Kind → Nat) : Nat := (a.table.map size).foldr max 0
    let area : Option Nat :=
      match a.buffer with
      | .null => none
      | .total n =>
        if n.toNat < Config.headerBytes + most Config.scratchBytes + most Config.minParseArea then
          none
        else some (n.toNat - (Config.headerBytes + most Config.scratchBytes))
      | .area n => if 1 ≤ n.toNat then some n.toNat else none
    let failed : State := { s with parse := none, result := .error }
    (a.table = [] ∨ a.eomPresent = false → exec (.beginParser a) s = .next failed) ∧
    (a.table ≠ [] → a.eomPresent = true →
      (area = none → exec (.beginParser a) s = .next failed) ∧
      ∀ n, area = some n →
        exec (.beginParser a) s =
          .next
            { s with
              parse :=
                some
                  { table := a.table, bufferLength := n, buffer := [], length := 0
                    state := .firstByte, active := a.table.length, crc := 0, sp := none
                    badCrcEn := a.badCrcPresent, invalidEn := false
                    abortNpNmea := a.abortNpNmea, abortNpUhash := a.abortNpUhash
                    dbgEn := a.debugSinkPresent, errEn := a.errorSinkPresent, verbose := false }
              result := .ok })

/-- 41_dispatch.md R123: STOP destroys the ParseState without an event, does nothing more when there is
none, and is refused inside a window. -/
def Obligations.StopResult : Prop :=
  ∀ s : State,
    (s.window = .none → exec .stop s = .next { s with parse := none, result := .nothing }) ∧
    (s.window ≠ .none → exec .stop s = .next { s with result := .refused }) ∧
    (encode .stop).bytes = [0x04]

/-- 41_dispatch.md R134 and R135: each control operation writes its one bit and nothing else; each is
refused when unconfigured or inside a window. -/
def Obligations.ControlOperations : Prop :=
  ∀ s : State,
    (∀ (p : ParseState) (en : Bool), s.parse = some p → s.window = .none →
      exec (.setIdCb en) s =
        .next { s with parse := some { p with invalidEn := en }, result := .nothing } ∧
      exec .dbgEn s =
        .next { s with parse := some { p with dbgEn := true }, result := .nothing } ∧
      exec .dbgDis s =
        .next { s with parse := some { p with dbgEn := false }, result := .nothing } ∧
      exec .errEn s =
        .next { s with parse := some { p with errEn := true }, result := .nothing } ∧
      exec .errDis s =
        .next { s with parse := some { p with errEn := false }, result := .nothing }) ∧
    (s.parse = none ∨ s.window ≠ .none →
      ∀ i ∈ [Instr.setIdCb false, .setIdCb true, .dbgEn, .dbgDis, .errEn, .errDis],
        exec i s = .next { s with result := .refused }) ∧
    (∀ en, (encode (.setIdCb en)).bytes.head? = some 0x05) ∧
    (encode .dbgEn).bytes = [0x06] ∧ (encode .dbgDis).bytes = [0x07] ∧
    (encode .errEn).bytes = [0x08] ∧ (encode .errDis).bytes = [0x09]

/-- The legality table of 41_dispatch.md section 7: where it says `refuse`, the operation changes nothing
but the result, which is `refused`; where it says the operation runs, the machine goes on, and an
operation that has no refusal of its own is not refused; STOP of an unconfigured core has no effect. The
table has no row for the frame formats: that they stand in the row of PUSH and PUSHN is the model's
(log 5). -/
def Obligations.LegalityTable : Prop :=
  ∀ (i : Instr) (s : State),
    (s.allows (opClass i) = false → exec i s = .next { s with result := .refused }) ∧
    (s.allows (opClass i) = true → s.Inv →
      ∃ t, exec i s = .next t ∧ (opClass i ≠ .reader → t.result ≠ .refused)) ∧
    (s.parse = none → s.window = .none → exec .stop s = .next { s with result := .nothing })

/-- Generators, accessors and queries write nothing of the machine but the result
(40_generators.md R108; 49_accessors.md R300 item 2, R329). -/
def Obligations.ReadOnlyOps : Prop :=
  ∀ (i : Instr) (s t : State), opClass i = .generator ∨ opClass i = .reader →
    exec i s = .next t → t = { s with result := t.result }

/-- Inside a window no operation of the host changes the machine, so a callback has no side effect on
it (10_state.md R34, 60_exceptions.md R357, 70_reset_and_hazards.md R385, R387). -/
def Obligations.WindowLocksState : Prop :=
  ∀ (i : Instr) (s : State), s.window ≠ .none → s.Inv →
    ∃ r, exec i s = .next { s with result := r } ∧
      (opClass i ≠ .generator → opClass i ≠ .reader → r = .refused)

/-- What fixes the configuration and the control flags (10_state.md R12, R13, R21): every operation but
BEGIN leaves the table, the buffer's size and the flags that BEGIN alone writes; the other flags change
by their own operations only; a host's return changes none. -/
def Obligations.SetupFixed : Prop :=
  ∀ (s t : State) (p q : ParseState), s.parse = some p → t.parse = some q →
    (∀ i : Instr, exec i s = .next t → opClass i ≠ .begins →
      q.table = p.table ∧ q.bufferLength = p.bufferLength ∧ q.badCrcEn = p.badCrcEn ∧
        q.abortNpNmea = p.abortNpNmea ∧ q.abortNpUhash = p.abortNpUhash ∧
        q.verbose = p.verbose ∧
        (q.invalidEn ≠ p.invalidEn → i = .setIdCb q.invalidEn) ∧
        (q.dbgEn ≠ p.dbgEn → i = if q.dbgEn then .dbgEn else .dbgDis) ∧
        (q.errEn ≠ p.errEn → i = if q.errEn then .errEn else .errDis)) ∧
    ∀ answer, hostReturn answer s = .next t → p.SameSetup q

/-! ### The byte step -/

/-- 41_dispatch.md R126, R127 and R128: FIRST_BYTE. The first entry of the table whose preamble is the
byte is latched, with a record of zeros and its kind's first state; when there is none the byte is
reported, if the invalid-data callback is registered, and the search goes on. -/
def Obligations.Dispatch : Prop :=
  let code : Kind → Byte := fun
    | .nmea => 0x24 | .uhash => 0x23 | .rtcm => 0xD3 | .ubx => 0xB5 | .sbf => 0x24
    | .spartn => 0x73 | .ubin => 0xAA
  let first : Kind → PState := fun
    | .nmea => .nmeaNameThenFirstComma | .uhash => .uhashNameThenFirstComma
    | .rtcm => .rtcmLengthHi | .ubx => .ubxSync2 | .sbf => .sbfPreamble2
    | .spartn => .spartnHdr3 | .ubin => .ubinSync2
  let crc : Kind → BitVec 32 := fun
    | .rtcm => (crc24q 0 0xD3).setWidth 32
    | .ubin => crc32r 0 0xAA
    | _ => 0
  ∀ (s : State) (p : ParseState) (b : Byte), s.parse = some p → s.window = .none →
    p.state = .firstByte →
    (∀ (i : Nat) (k : Kind), p.table[i]? = some k → code k = b →
      (∀ j < i, ∀ k', p.table[j]? = some k' → code k' ≠ b) →
      ∃ q : ParseState, p.Holds q [b] ∧
        q =
          { p with
            crc := crc k, length := 1, state := first k, active := i
            sp := some (Scratch.zero k), buffer := q.buffer } ∧
        exec (.push b) s =
          .next { s with parse := some q, todo := [], result := .nothing }) ∧
    ((∀ k ∈ p.table, code k ≠ b) →
      ∃ q : ParseState, p.Holds q [b] ∧
        q =
          { p with
            crc := 0, length := 1, state := .firstByte, active := p.table.length
            buffer := q.buffer } ∧
        exec (.push b) s =
          if p.invalidEn then
            .next (s.raised q (.invalidData .noParser [b]) (.inInvalid none))
          else .next { s with parse := some q, todo := [], result := .nothing })

/-- After the report of a failed frame the byte is dispatched by FIRST_BYTE, as a PUSH of it in state
FIRST_BYTE is (60_exceptions.md R352, R353, R360). That the rest of the PUSH stands in the window is
the model's (log 12). -/
def Obligations.RescanIsDispatch : Prop :=
  ∀ (s : State) (p : ParseState) (b : Byte) (answer : Bool), s.parse = some p →
    s.window = .inInvalid (some b) → s.todo = [] →
    hostReturn answer s = State.redispatch { s with window := .none } p b

/-- FAIL by a grammar or length check (60_exceptions.md R352, R355): the byte is stored, the frame
before it is reported if the invalid-data callback is registered, and the byte is dispatched again.
RTCM_LENGTH_HI and SBF_LENGTH_HI have folded the byte before their check, and SBF_LENGTH_HI has set the
length field (43_rtcm.md R172, 45_sbf.md R218; the generators are PRESUMED, log 18); every other field
is as before. -/
def Obligations.RejectedByte : Prop :=
  ∀ (s : State) (p : ParseState) (b : Byte) (c : Cause), s.parse = some p →
    s.window = .none → p.Inv → p.length < p.bufferLength → p.Rejects b c →
    let crc : BitVec 32 :=
      match p.state with
      | .rtcmLengthHi => (crc24q (p.crc.setWidth 24) b).setWidth 32
      | .sbfLengthHi => (ccitt16 (p.crc.setWidth 16) b).setWidth 32
      | _ => p.crc
    let sp : Option Scratch :=
      match p.state, p.sp with
      | .sbfLengthHi, some (.sbf r) =>
        some (.sbf { r with length := r.length ||| (b.setWidth 16 <<< 8) })
      | _, sp => sp
    ∃ q : ParseState,
      (∀ a, q.buffer.read a = if a = p.length then some b else p.buffer.read a) ∧
      q = { p with buffer := q.buffer, length := p.length + 1, crc := crc, sp := sp } ∧
      exec (.push b) s =
        if p.invalidEn then
          .next (s.raised q (.invalidData c p.frameBytes) (.inInvalid (some b)))
        else s.redispatch q b

/-- FAIL_TOO_LONG (60_exceptions.md section 2): with the buffer full, the byte is not stored; the whole buffer
is reported if the invalid-data callback is registered, and the byte is dispatched. That the rest runs
at the host's return through the port is the model's (log 12). -/
def Obligations.TooLong : Prop :=
  ∀ (s : State) (p : ParseState) (b : Byte), s.parse = some p → s.window = .none → p.Inv →
    p.state.inFrame = true → p.length = p.bufferLength →
    p.frameBytes.length = p.bufferLength ∧
    (p.invalidEn = true →
      exec (.push b) s =
        .next (s.raised p (.invalidData .tooLong p.frameBytes) (.inInvalid (some b))) ∧
      ∀ answer,
        hostReturn answer
            (s.raised p (.invalidData .tooLong p.frameBytes) (.inInvalid (some b))) =
          State.redispatch
            { s with events := s.events ++ [.invalidData .tooLong p.frameBytes] } p b) ∧
    (p.invalidEn = false → exec (.push b) s = s.redispatch p b)

/-- 41_dispatch.md R131, R132 and R133: the line-terminator states: no byte is stored and no event
raised unless FIRST_BYTE runs. -/
def Obligations.LineTerminators : Prop :=
  ∀ (s : State) (p : ParseState) (b : Byte), s.parse = some p → s.window = .none →
    (p.state = .lineTerm →
      exec (.push b) s =
        if b = 0x0D then
          .next
            { s with
              parse := some { p with state := .crThenLf }, todo := [], result := .nothing }
        else if b = 0x0A then
          .next
            { s with
              parse := some { p with state := .lfThenCr }, todo := [], result := .nothing }
        else s.redispatch p b) ∧
    (p.state = .crThenLf ∧ b = 0x0A ∨ p.state = .lfThenCr ∧ b = 0x0D →
      exec (.push b) s =
        .next
          { s with
            parse := some { p with state := .firstByte, active := p.table.length }
            todo := [], result := .nothing }) ∧
    (p.state = .crThenLf ∧ b ≠ 0x0A ∨ p.state = .lfThenCr ∧ b ≠ 0x0D →
      exec (.push b) s = s.redispatch p b)

/-- The host's return from the windows that end a PUSH (41_dispatch.md R129, R130; 60_exceptions.md
R360): the window closes, the frame's recogniser is left or, for a text frame, LINE_TERM entered, and
the rest of a PUSHN runs. With no window open a return is refused. That the host returns through the
port and that waiting bytes stand in `todo` is the model's (log 12). -/
def Obligations.WindowReturn : Prop :=
  ∀ (s : State) (answer : Bool),
    (s.window = .none → hostReturn answer s = .next { s with result := .refused }) ∧
    ∀ p : ParseState, s.parse = some p →
      (s.window = .inEom false →
        hostReturn answer s =
          exec (.pushN s.todo)
            { s with
              parse := some { p with state := .firstByte, active := p.table.length }
              window := .none }) ∧
      (s.window = .inEom true →
        hostReturn answer s =
          exec (.pushN s.todo)
            { s with parse := some { p with state := .lineTerm }, window := .none }) ∧
      (s.window = .inInvalid none →
        hostReturn answer s = exec (.pushN s.todo) { s with window := .none })

/-- 41_dispatch.md R125: PUSHN is PUSH after PUSH, each with its events and windows before the next;
the empty string does nothing; it is refused as a whole when unconfigured or inside a window. The bytes
behind an open window wait in `todo` and run when the host has returned (log 12). -/
def Obligations.PushNIsPushes : Prop :=
  ∀ s : State,
    (s.parse = none ∨ s.window ≠ .none →
      ∀ bytes, exec (.pushN bytes) s = .next { s with result := .refused }) ∧
    (∀ p, s.parse = some p → s.window = .none →
      exec (.pushN []) s = .next { s with todo := [], result := .nothing } ∧
      ∀ (b : Byte) (bytes : List Byte) (t : State), exec (.push b) s = .next t →
        exec (.pushN (b :: bytes)) s =
          if t.window = .none then exec (.pushN bytes) t else .next { t with todo := bytes }) ∧
    (s.window ≠ .none → ∀ (answer : Bool) (t : State),
      hostReturn answer { s with todo := [] } = .next t →
      hostReturn answer s =
        if t.window = .none then exec (.pushN s.todo) t else .next { t with todo := s.todo }) ∧
    ∀ bytes, (encode (.pushN bytes)).bytes.head? = some 0x03

/-- The meaning of a frame on the input stream is a PUSHN of its octets (10_state.md R31 (d), R32;
30_encoding.md R60, R61; the reading is the model's, log 5). -/
def Obligations.FrameIsItsOctets : Prop :=
  ∀ (i : Instr) (s : State), (encode i).space = .stream →
    exec i s = exec (.pushN (encode i).bytes) s

/-- 20_memory.md R41: what a PUSH, and the host's return from one of its windows, writes of the buffer:
the byte at index 0 by FIRST_BYTE, the byte at index `length` of a frame in progress, and the three
bytes after a text frame that is delivered. Nothing at or past `buffer_length` changes. -/
def Obligations.BufferWrites : Prop :=
  ∀ (s t : State) (p q : ParseState), s.Inv → s.parse = some p → t.parse = some q →
    (∀ b : Byte, s.window = .none → exec (.push b) s = .next t →
      ∀ a, q.buffer.read a ≠ p.buffer.read a →
        a < p.bufferLength ∧
        (a = 0 ∧ q.buffer.read a = some b ∨
          p.state.inFrame = true ∧ a = p.length ∧ q.buffer.read a = some b ∨
          t.window = .inEom true ∧
            (a = p.length + 1 ∧ q.buffer.read a = some 0x0D ∨
              a = p.length + 2 ∧ q.buffer.read a = some 0x0A ∨
              a = p.length + 3 ∧ q.buffer.read a = some 0x00))) ∧
    (∀ answer : Bool, s.window ≠ .none → s.todo = [] → hostReturn answer s = .next t →
      ∀ a, q.buffer.read a ≠ p.buffer.read a →
        a < p.bufferLength ∧
        (a = 0 ∧ (∃ b, q.buffer.read a = some b ∧
            (s.window = .inInvalid (some b) ∨ ∃ text, s.window = .inBadCrc b text)) ∨
          t.window = .inEom true ∧
            (a = p.length ∧ q.buffer.read a = some 0x0D ∨
              a = p.length + 1 ∧ q.buffer.read a = some 0x0A ∨
              a = p.length + 2 ∧ q.buffer.read a = some 0x00)))

/-- The events of one PUSH, whatever the host answers, are one of the eight lists of 41_dispatch.md
section 6, and at most three windows open (an inference the spec marks as its own). -/
def Obligations.PushEventLists : Prop :=
  ∀ (s : State) (p : ParseState) (b : Byte) (a1 a2 a3 : Bool), s.Inv → s.parse = some p →
    s.window = .none →
    ∃ (t u : State) (new : List Event),
      exec (.push b) s = .next t ∧ returnAll [a1, a2, a3] t = .next u ∧ u.window = .none ∧
        u.events = s.events ++ new ∧
        new.map Event.kind ∈
          [[], [.eom], [.badCrc, .eom], [.invalidData], [.invalidData, .invalidData],
            [.badCrc, .invalidData], [.badCrc, .invalidData, .invalidData], [.badCrc]]

/-- Byte accounting (41_dispatch.md section 6, an inference the spec marks as its own): with the
invalid-data callback registered, what was owed and the byte pushed are, in stream order, what the
events of the PUSH account for, a consumed line terminator, and what is owed after it; likewise for the
host's return. -/
def Obligations.ByteAccounting : Prop :=
  ∀ (s t : State) (p : ParseState), s.Inv → s.parse = some p → p.invalidEn = true →
    (∀ b : Byte, s.window = .none → exec (.push b) s = .next t →
      ∃ new, t.events = s.events ++ new ∧
        s.owed ++ [b] =
          new.flatMap (Event.accounted p.table) ++
            (if p.state.consumes b then [b] else []) ++ t.owed) ∧
    (∀ answer : Bool, s.window ≠ .none → s.todo = [] → hostReturn answer s = .next t →
      ∃ new, t.events = s.events ++ new ∧
        s.owed = new.flatMap (Event.accounted p.table) ++ t.owed)

/-- The host's answer `false` to BAD_CRC leaves the machine as a core without the bad-CRC callback would
be, and the event lists differ by the BAD_CRC entry alone (60_exceptions.md R354,
70_reset_and_hazards.md R387). -/
def Obligations.DeclinedIsNoCallback : Prop :=
  ∀ (s t : State) (p : ParseState) (b b' : Byte) (text : Bool), s.Inv → s.parse = some p →
    s.window = .none → exec (.push b) s = .next t → t.window = .inBadCrc b' text →
    ∃ (q : ParseState) (w : Window) (new : List Event),
      exec (.push b) { s with parse := some { p with badCrcEn := false } } =
        .next
          { s with
            parse := some q, window := w, todo := [], events := s.events ++ new
            result := .nothing } ∧
      hostReturn false t =
        .next
          { s with
            parse := some { q with badCrcEn := true }, window := w, todo := []
            events := s.events ++ .badCrc p.active :: new, result := .nothing }

/-- The host's answer to BAD_CRC (60_exceptions.md R354; 41_dispatch.md R129, R130): `true` delivers the
frame, a text frame with its trailer if there is room for it, and otherwise fails as too long; `false`
fails it. -/
def Obligations.RescueOrDrop : Prop :=
  ∀ (s : State) (p : ParseState) (b : Byte) (text : Bool), s.Inv → s.parse = some p →
    s.window = .inBadCrc b text → s.todo = [] →
    let closed : State := { s with window := .none }
    hostReturn false s = closed.dropFrame p p.frameBytes b ∧
    (text = false →
      hostReturn true s = .next (s.raised p (.eom p.active p.frameBytes) (.inEom false))) ∧
    (text = true → p.length + 3 ≤ p.bufferLength →
      ∃ q : ParseState,
        (∀ a, q.buffer.read a =
          if a = p.length then some 0x0D else if a = p.length + 1 then some 0x0A
          else if a = p.length + 2 then some 0x00 else p.buffer.read a) ∧
        q = { p with buffer := q.buffer, length := p.length + 2 } ∧
        hostReturn true s =
          .next (s.raised q (.eom p.active (p.frameBytes ++ [0x0D, 0x0A])) (.inEom true))) ∧
    (text = true → p.bufferLength < p.length + 3 →
      hostReturn true s =
        if p.invalidEn then
          .next
            (s.raised p (.invalidData .tooLong p.frameBytes.dropLast) (.inInvalid (some b)))
        else closed.redispatch p b)

/-! ### Reset and what every step keeps -/

/-- 70_reset_and_hazards.md R380: after power-on reset the core is unconfigured with no window, and so
it is after STOP and after a failed BEGIN; in that condition only BEGIN and the generator operations do
anything. -/
def Obligations.PowerOnReset : Prop :=
  State.reset.configured = false ∧ State.reset.parse = none ∧ State.reset.window = .none ∧
    State.reset.events = [] ∧
    (∀ s t : State, s.window = .none → exec .stop s = .next t →
      t.parse = none ∧ t.window = .none) ∧
    (∀ (a : BeginArgs) (s t : State), exec (.beginParser a) s = .next t → t.result = .error →
      t.parse = none ∧ t.window = .none) ∧
    ∀ (i : Instr) (s : State), s.parse = none → s.window = .none →
      opClass i ≠ .begins → opClass i ≠ .generator →
      ∃ r, exec i s = .next { s with result := r }

/-- The invariants of 10_state.md R36 with the model's own (`State.Inv`) hold after reset. -/
def Obligations.ResetInv : Prop :=
  State.reset.Inv

/-- Every step keeps the invariant: `length` within the buffer, `active` the sentinel exactly in
FIRST_BYTE, the preamble byte at index 0, the scratch record of the latched kind, fields and
accumulator in range, the buffer canonical and every byte of the frame stored (10_state.md R14, R16,
R17, R23 to R30, R36). -/
def Obligations.StepKeepsInv : Prop :=
  ∀ s t : State, s.Inv → step s = .next t → t.Inv

/-- From every state of the invariant, whatever the host presents, the step answers a next state:
nothing the host can do stops the machine (60_exceptions.md R350: failures are local and
recoverable). -/
def Obligations.StepAnswers : Prop :=
  ∀ s : State, s.Inv → ∃ t, step s = .next t

/-- The running checksum of a frame in progress is the checksum of exactly the bytes its protocol
covers, and every step keeps this (10_state.md R17, R18; the coverage is that of 42_nmea.md to
48_unicore_hash.md). -/
def Obligations.RunningChecksum : Prop :=
  ∀ s t : State, s.Inv →
    (∀ p, s.parse = some p → s.window = .none → p.ChecksumCovers) → step s = .next t →
    ∀ q, t.parse = some q → t.window = .none → q.ChecksumCovers

/-- A PUSH that delivers a frame delivers one whose checksum or CRC is that of its bytes, and a PUSH
that asks the host about a bad CRC has one whose is not (60_exceptions.md R369: the end-of-message
callback is invoked only if the protocol's checksum validates or the bad-CRC callback returned
true). PRESUMED: the generators (log 18), the order of SPARTN's trailer bytes (log 19) and hex digits of
either case (log 23). -/
def Obligations.DeliveredFramesCheck : Prop :=
  ∀ (s t : State) (p : ParseState) (b : Byte) (i : Nat), s.Inv → s.parse = some p →
    s.window = .none → p.ChecksumCovers → exec (.push b) s = .next t →
    (∀ frame, t.events = s.events ++ [.eom i frame] →
      ∃ k, p.table[i]? = some k ∧ frameChecks k (Event.accounted p.table (.eom i frame))) ∧
    (t.events = s.events ++ [.badCrc i] →
      ∃ k, p.table[i]? = some k ∧ ¬frameChecks k t.owed)

/-! ### Whole frames -/

/-- A whole RTCM frame arriving in FIRST_BYTE (30_encoding.md R63; 43_rtcm.md R170 to R178): it is
delivered exactly when its trailer is the CRC-24Q of what precedes it, and is otherwise left to the
soft-CRC discipline. The generator's parameters are PRESUMED (log 18). -/
def Obligations.FrameRtcm : Prop :=
  ∀ (s : State) (p : ParseState) (i : Nat) (len : BitVec 10) (payload trailer : List Byte),
    s.parse = some p → s.window = .none → p.state = .firstByte → p.Latches i .rtcm →
    payload.length = len.toNat → trailer.length = 3 →
    let covered : List Byte :=
      0xD3 :: BitVec.ofNat 8 (len.toNat / 256) :: BitVec.ofNat 8 (len.toNat % 256) :: payload
    let octets := covered ++ trailer
    octets.length ≤ p.bufferLength →
    ∃ q : ParseState, p.Holds q octets ∧
      q =
        { p with
          buffer := q.buffer, length := octets.length, state := .rtcmCrc, active := i
          crc := (crc24qBlock octets).setWidth 32
          sp :=
            some (.rtcm
              { savedCrc := crc24qBlock covered
                bytesRemaining := 0
                messageId :=
                  (payload.getD 0 0).setWidth 16 <<< 4 |||
                    ((payload.getD 1 0).setWidth 16 >>> 4) }) } ∧
      exec (.frameRtcm len (payload ++ trailer)) s =
        if trailer = beBytes (crc24qBlock covered) 3 then
          .next (s.raised q (.eom i octets) (.inEom false))
        else s.softCrcFrame q octets (trailer.getD 2 0) false

/-- A whole UBX frame arriving in FIRST_BYTE (30_encoding.md R64; 44_ubx.md R190 to R199): it is
delivered exactly when CK_A and CK_B are the Fletcher-8 sums of class, id, length and payload. -/
def Obligations.FrameUbx : Prop :=
  ∀ (s : State) (p : ParseState) (i : Nat) (cls id ckA ckB : Byte) (len : BitVec 16)
    (payload : List Byte),
    s.parse = some p → s.window = .none → p.state = .firstByte → p.Latches i .ubx →
    payload.length = len.toNat →
    let covered : List Byte :=
      cls :: id :: BitVec.ofNat 8 (len.toNat % 256) :: BitVec.ofNat 8 (len.toNat / 256) :: payload
    let octets : List Byte := 0xB5 :: 0x62 :: covered ++ [ckA, ckB]
    octets.length ≤ p.bufferLength →
    ∃ q : ParseState, p.Holds q octets ∧
      q =
        { p with
          buffer := q.buffer, length := octets.length, state := .ubxCkB, active := i, crc := 0
          sp :=
            some (.ubx
              { bytesRemaining := 0, msgClass := cls, msgId := id, payloadLen := len
                ckA := (fl8Block covered).1, ckB := (fl8Block covered).2 }) } ∧
      exec (.frameUbx cls id len (payload ++ [ckA, ckB])) s =
        if fl8Block covered = (ckA, ckB) then
          .next (s.raised q (.eom i octets) (.inEom false))
        else s.softCrcFrame q octets ckB false

/-- A whole SBF frame arriving in FIRST_BYTE (30_encoding.md R65; 45_sbf.md R210 to R220): it is
delivered exactly when its CRC field is the CCITT-16 of ID, length and body; a bad one is dropped
without a question to the host. The places of ID and revision are PRESUMED (log 20), the generator's
parameters too (log 18). -/
def Obligations.FrameSbf : Prop :=
  ∀ (s : State) (p : ParseState) (i : Nat) (crc : BitVec 16) (id : BitVec 13) (rev : BitVec 3)
    (len : BitVec 16) (body : List Byte),
    s.parse = some p → s.window = .none → p.state = .firstByte → p.Latches i .sbf →
    len.toNat % 4 = 0 → 8 + body.length = len.toNat →
    let word := id.toNat + 2 ^ 13 * rev.toNat
    let covered : List Byte :=
      BitVec.ofNat 8 (word % 256) :: BitVec.ofNat 8 (word / 256) ::
        BitVec.ofNat 8 (len.toNat % 256) :: BitVec.ofNat 8 (len.toNat / 256) :: body
    let octets : List Byte :=
      0x24 :: 0x40 :: BitVec.ofNat 8 (crc.toNat % 256) :: BitVec.ofNat 8 (crc.toNat / 256) ::
        covered
    octets.length ≤ p.bufferLength →
    ∃ q : ParseState, p.Holds q octets ∧
      q =
        { p with
          buffer := q.buffer, length := octets.length, active := i
          state := if body = [] then .sbfLengthHi else .sbfBody
          crc := (ccitt16Block covered).setWidth 32
          sp :=
            some (.sbf
              { expectedCrc := crc, computedCrc := ccitt16Block covered
                blockId := id, blockRev := rev, length := len, bytesRemaining := 0 }) } ∧
      exec (.frameSbf crc id rev len body) s =
        if ccitt16Block covered = crc then .next (s.raised q (.eom i octets) (.inEom false))
        else s.dropFrame q octets (octets.getLastD 0)

/-- A whole SPARTN frame with a good header CRC arriving in FIRST_BYTE (30_encoding.md R66, R67;
46_spartn.md R230 to R238): it is delivered exactly when its trailer is the body CRC of the CRC type,
most significant byte first, over everything between the preamble and the trailer. The places of the
extended header's fields and the embedded lengths are PRESUMED (log 21), the generators' parameters
(log 18) and the order of the trailer's bytes (log 19) too. That the frame's meaning is a PUSHN of its
octets is the model's (log 5). -/
def Obligations.FrameSpartn : Prop :=
  ∀ (s : State) (p : ParseState) (i : Nat) (msgType : BitVec 7) (payloadLen : BitVec 10)
    (eaf : BitVec 1) (crcType : BitVec 2) (ext payload embedded trailer : List Byte),
    s.parse = some p → s.window = .none → p.state = .firstByte → p.Latches i .spartn →
    let h1 : Byte := BitVec.ofNat 8 (2 * msgType.toNat + payloadLen.toNat / 2 ^ 9)
    let h2 : Byte := BitVec.ofNat 8 (payloadLen.toNat / 2)
    let h3 : Byte :=
      BitVec.ofNat 8 (128 * (payloadLen.toNat % 2) + 64 * eaf.toNat + 16 * crcType.toNat)
    let hdrCrc := spHdrCrc h1 h2 h3
    let first := ext.getD 0 0
    let last := ext.getLastD 0
    ext.length = (if first.getLsbD 3 then 6 else 4) + (if eaf = 1 then 2 else 0) →
    payload.length = payloadLen.toNat →
    embedded.length =
      (if eaf = 1 then (embeddedLen (last.extractLsb' 3 3) (last.extractLsb' 0 3)).toNat else 0) →
    trailer.length = crcType.toNat + 1 →
    let covered : List Byte :=
      h1 :: h2 :: (h3 ||| hdrCrc.setWidth 8) :: (ext ++ payload ++ embedded)
    let octets : List Byte := 0x73 :: covered ++ trailer
    octets.length ≤ p.bufferLength →
    ∃ q : ParseState, p.Holds q octets ∧
      q =
        { p with
          buffer := q.buffer, length := octets.length, state := .spartnCrc, active := i, crc := 0
          sp :=
            some (.spartn
              { frameCount := BitVec.ofNat 16 (crcType.toNat + 1)
                crcBytes := BitVec.ofNat 3 (crcType.toNat + 1)
                tf007ToTf016Len := BitVec.ofNat 16 (ext.length + payload.length)
                messageType := msgType
                payloadLen := payloadLen.setWidth 16
                eaf := eaf
                crcType := crcType
                headerCrc := hdrCrc
                subtype := first.extractLsb' 4 4
                timeTagType := first.extractLsb' 3 1
                authIndicator := if eaf = 1 then last.extractLsb' 3 3 else 0
                embeddedAppLen := BitVec.ofNat 8 embedded.length }) } ∧
      exec (.frameSpartn msgType payloadLen eaf crcType hdrCrc
          (ext ++ payload ++ embedded ++ trailer)) s =
        if beNat trailer = (spBodyCrc crcType covered).toNat then
          .next (s.raised q (.eom i octets) (.inEom false))
        else s.softCrcFrame q octets (trailer.getLastD 0) false

/-- A SPARTN header whose CRC-4 does not agree, at its third byte (46_spartn.md R232;
60_exceptions.md R355): the frame is failed without a question to the host, with the header's fields
already in the record. The generator's parameters are PRESUMED (log 18). -/
def Obligations.SpartnHeaderFails : Prop :=
  ∀ (s : State) (p : ParseState) (r : SpartnRec) (h1 h2 b : Byte), s.parse = some p →
    s.window = .none → p.Inv → p.Progress → p.length < p.bufferLength →
    p.state = .spartnHdr3 → p.sp = some (.spartn r) → r.frameCount = 2 →
    p.buffer.read 1 = some h1 → p.buffer.read 2 = some h2 →
    spHdrCrc h1 h2 b ≠ b.extractLsb' 0 4 →
    ∃ q : ParseState,
      (∀ a, q.buffer.read a = if a = 3 then some b else p.buffer.read a) ∧
      q =
        { p with
          buffer := q.buffer, length := 4
          sp :=
            some (.spartn
              { r with
                frameCount := 3
                payloadLen := r.payloadLen ||| (b >>> 7).setWidth 16
                eaf := b.extractLsb' 6 1
                crcType := b.extractLsb' 4 2
                headerCrc := b.extractLsb' 0 4
                crcBytes := (b.extractLsb' 4 2).setWidth 3 + 1 }) } ∧
      exec (.push b) s =
        if p.invalidEn then
          .next (s.raised q (.invalidData .checksum p.frameBytes) (.inInvalid (some b)))
        else s.redispatch q b

/-- A whole Unicore-binary frame arriving in FIRST_BYTE (30_encoding.md R68; 47_unicore_binary.md R260
to R267): it is delivered exactly when its trailer is the CRC-32 of what precedes it, least significant
byte first. The extent of the header is the spec's decision D21 (log 22), the generator's engine PRESUMED
(log 18). -/
def Obligations.FrameUbin : Prop :=
  ∀ (s : State) (p : ParseState) (i : Nat) (h3 h4 h5 : Byte) (len : BitVec 16)
    (header body trailer : List Byte),
    s.parse = some p → s.window = .none → p.state = .firstByte → p.Latches i .ubin →
    header.length = 16 → body.length = len.toNat → trailer.length = 4 →
    let covered : List Byte :=
      0xAA :: 0x44 :: 0xB5 :: h3 :: h4 :: h5 :: BitVec.ofNat 8 (len.toNat % 256) ::
        BitVec.ofNat 8 (len.toNat / 256) :: (header ++ body)
    let octets := covered ++ trailer
    octets.length ≤ p.bufferLength →
    ∃ q : ParseState, p.Holds q octets ∧
      q =
        { p with
          buffer := q.buffer, length := octets.length, state := .ubinReadCrc, active := i
          crc := crc32rBlock covered
          sp := some (.ubin { savedCrc := crc32rBlock covered, bytesRemaining := 0 }) } ∧
      exec (.frameUbin h3 h4 h5 len (header ++ body ++ trailer)) s =
        if leNat trailer = (crc32rBlock covered).toNat then
          .next (s.raised q (.eom i octets) (.inEom false))
        else s.softCrcFrame q octets (trailer.getD 3 0) false

/-- A whole NMEA sentence arriving in FIRST_BYTE (30_encoding.md R62; 42_nmea.md R150 to R157;
41_dispatch.md R130): it is delivered with CR LF after it and NUL behind them exactly when its two hex
digits are the XOR-8 of name, comma and body and there is room for the trailer. The record holds the
name with zeros behind it (10_state.md R24, 42_nmea.md R152). That digits of either case count is
PRESUMED (log 23); that the frame's meaning is a PUSHN of its octets is the model's (log 5). -/
def Obligations.FrameNmea : Prop :=
  ∀ (s : State) (p : ParseState) (i : Nat) (name body : List Byte) (hi lo : Byte),
    s.parse = some p → s.window = .none → p.state = .firstByte → p.Latches i .nmea →
    1 ≤ name.length → name.length ≤ 15 → (∀ c ∈ name, isAlnum c = true) → 0x2A ∉ body →
    (p.abortNpNmea = true → ∀ c ∈ body, 0x20 ≤ c.toNat ∧ c.toNat ≤ 0x7E) →
    isHex hi = true → isHex lo = true →
    let covered := name ++ 0x2C :: body
    let octets := 0x24 :: covered ++ [0x2A, hi, lo]
    octets.length ≤ p.bufferLength →
    ∃ (q : ParseState) (r : NmeaRec), p.Holds q octets ∧
      r.nameLen.toNat = name.length ∧
      r.sentenceName.toList = name ++ List.replicate (16 - name.length) 0 ∧
      q =
        { p with
          buffer := q.buffer, length := octets.length, state := .nmeaChecksumLo, active := i
          crc := (xor8Block covered).setWidth 32, sp := some (.nmea r) } ∧
      (hexNumber [hi, lo] ≠ some (xor8Block covered).toNat →
        exec (.frameNmea (covered ++ [0x2A, hi, lo])) s = s.softCrcFrame q octets lo true) ∧
      (hexNumber [hi, lo] = some (xor8Block covered).toNat →
        p.bufferLength < octets.length + 3 →
        exec (.frameNmea (covered ++ [0x2A, hi, lo])) s =
          if p.invalidEn then
            .next (s.raised q (.invalidData .tooLong octets.dropLast) (.inInvalid (some lo)))
          else s.redispatch q lo) ∧
      (hexNumber [hi, lo] = some (xor8Block covered).toNat →
        octets.length + 3 ≤ p.bufferLength →
        ∃ q' : ParseState, p.Holds q' (octets ++ [0x0D, 0x0A, 0x00]) ∧
          q' = { q with buffer := q'.buffer, length := octets.length + 2 } ∧
          exec (.frameNmea (covered ++ [0x2A, hi, lo])) s =
            .next (s.raised q' (.eom i (octets ++ [0x0D, 0x0A])) (.inEom true)))

/-- A whole Unicore-hash sentence arriving in FIRST_BYTE (30_encoding.md R69; 48_unicore_hash.md R280 to
R286; 41_dispatch.md R130): a name with `MODE` in it takes two hex digits, the XOR-8 of name, comma and
body, every other name eight, their CRC-32; it is delivered with CR LF after it and NUL behind them
exactly when they agree and there is room for the trailer. The record holds the name with zeros behind
it (10_state.md R30, 48_unicore_hash.md R281). The generator's engine is PRESUMED (log 18), and so is
that digits of either case count (log 23); that the frame's meaning is a PUSHN of its octets is the
model's (log 5). -/
def Obligations.FrameUhash : Prop :=
  ∀ (s : State) (p : ParseState) (i : Nat) (name body digits : List Byte),
    s.parse = some p → s.window = .none → p.state = .firstByte → p.Latches i .uhash →
    1 ≤ name.length → name.length ≤ 15 → (∀ c ∈ name, isAlnum c = true) → 0x2A ∉ body →
    (p.abortNpUhash = true → ∀ c ∈ body, 0x20 ≤ c.toNat ∧ c.toNat ≤ 0x7E) →
    digits.length = (if [0x4D, 0x4F, 0x44, 0x45] <:+: name then 2 else 8) →
    (∀ c ∈ digits, isHex c = true) →
    let covered := name ++ 0x2C :: body
    let octets := 0x23 :: covered ++ 0x2A :: digits
    let checksum : BitVec 32 :=
      if [0x4D, 0x4F, 0x44, 0x45] <:+: name then (xor8Block covered).setWidth 32
      else crc32rBlock covered
    octets.length ≤ p.bufferLength →
    ∃ (q : ParseState) (r : UhashRec), p.Holds q octets ∧
      r.nameLen.toNat = name.length ∧
      r.sentenceName.toList = name ++ List.replicate (16 - name.length) 0 ∧
      r.bytesRemaining = 0 ∧ r.checksumBytes.toNat = digits.length ∧
      q =
        { p with
          buffer := q.buffer, length := octets.length, state := .uhashChecksumByte, active := i
          crc := checksum, sp := some (.uhash r) } ∧
      (hexNumber digits ≠ some checksum.toNat →
        exec (.frameUhash (covered ++ 0x2A :: digits)) s =
          s.softCrcFrame q octets (digits.getLastD 0) true) ∧
      (hexNumber digits = some checksum.toNat → p.bufferLength < octets.length + 3 →
        exec (.frameUhash (covered ++ 0x2A :: digits)) s =
          if p.invalidEn then
            .next
              (s.raised q (.invalidData .tooLong octets.dropLast)
                (.inInvalid (some (digits.getLastD 0))))
          else s.redispatch q (digits.getLastD 0)) ∧
      (hexNumber digits = some checksum.toNat → octets.length + 3 ≤ p.bufferLength →
        ∃ q' : ParseState, p.Holds q' (octets ++ [0x0D, 0x0A, 0x00]) ∧
          q' = { q with buffer := q'.buffer, length := octets.length + 2 } ∧
          exec (.frameUhash (covered ++ 0x2A :: digits)) s =
            .next (s.raised q' (.eom i (octets ++ [0x0D, 0x0A])) (.inEom true)))

/-- 30_encoding.md R62 and R69: the text formats the checks admit are exactly
`NAME ',' BODY '*' HEX ... HEX`. -/
def Obligations.TextFormatsSplit : Prop :=
  ∀ rest : List Byte,
    (nmeaFormatOk rest = true ↔
      ∃ name body digits : List Byte,
        rest = name ++ 0x2C :: (body ++ 0x2A :: digits) ∧
          1 ≤ name.length ∧ name.length ≤ 15 ∧ (∀ c ∈ name, isAlnum c = true) ∧ 0x2A ∉ body ∧
          digits.length = 2 ∧ ∀ c ∈ digits, isHex c = true) ∧
    (uhashFormatOk rest = true ↔
      ∃ name body digits : List Byte,
        rest = name ++ 0x2C :: (body ++ 0x2A :: digits) ∧
          1 ≤ name.length ∧ name.length ≤ 15 ∧ (∀ c ∈ name, isAlnum c = true) ∧ 0x2A ∉ body ∧
          digits.length = (if [0x4D, 0x4F, 0x44, 0x45] <:+: name then 2 else 8) ∧
          ∀ c ∈ digits, isHex c = true)

/-! ### Accessors -/

/-- 49_accessors.md R301 to R304, R309 and R310: the unsigned and raw-bit accessors in a window: the
little-endian value of the bytes from `ea = base + offset` on, computed in natural numbers, refused when
`ea + n > length`; nothing else changes. -/
def Obligations.UnsignedAccessors : Prop :=
  ∀ row ∈
      [((0x20 : Byte), Instr.getU8, false, 1), (0x30, .getU8No, true, 1),
        (0x21, .getU16, false, 2), (0x31, .getU16No, true, 2),
        (0x22, .getU32, false, 4), (0x32, .getU32No, true, 4),
        (0x23, .getU64, false, 8), (0x33, .getU64No, true, 8),
        (0x28, .getF32, false, 4), (0x38, .getF32No, true, 4),
        (0x29, .getF64, false, 8), (0x39, .getF64No, true, 8)],
    let code : Byte := row.1
    let instr : LenWord → Instr := row.2.1
    let raw : Bool := row.2.2.1
    let n : Nat := row.2.2.2
    ∀ (s : State) (p : ParseState) (k : Kind) (offset : LenWord), s.Shows p → p.Inv →
      p.table[p.active]? = some k →
      let ea := (if raw then 0 else payloadOffset k) + offset.toNat
      let value :=
        ((List.range n).map fun i => ((p.buffer.read (ea + i)).getD 0).toNat * 2 ^ (8 * i)).sum
      (encode (instr offset)).bytes.head? = some code ∧
      exec (instr offset) s =
        .next
          { s with
            result :=
              if p.length < ea + n then .refused else .bits (8 * n) (BitVec.ofNat (8 * n) value) }

/-- 49_accessors.md section 2: the signed accessors: the same bytes read as two's complement, which is
PRESUMED (log 24). -/
def Obligations.SignedAccessors : Prop :=
  ∀ row ∈
      [((0x24 : Byte), Instr.getI8, false, 1), (0x34, .getI8No, true, 1),
        (0x25, .getI16, false, 2), (0x35, .getI16No, true, 2),
        (0x26, .getI32, false, 4), (0x36, .getI32No, true, 4),
        (0x27, .getI64, false, 8), (0x37, .getI64No, true, 8)],
    let code : Byte := row.1
    let instr : LenWord → Instr := row.2.1
    let raw : Bool := row.2.2.1
    let n : Nat := row.2.2.2
    ∀ (s : State) (p : ParseState) (k : Kind) (offset : LenWord), s.Shows p → p.Inv →
      p.table[p.active]? = some k →
      let ea := (if raw then 0 else payloadOffset k) + offset.toNat
      let value : Nat :=
        ((List.range n).map fun i => ((p.buffer.read (ea + i)).getD 0).toNat * 2 ^ (8 * i)).sum
      (encode (instr offset)).bytes.head? = some code ∧
      exec (instr offset) s =
        .next
          { s with
            result :=
              if p.length < ea + n then .refused
              else
                .signed (8 * n)
                  (if value < 2 ^ (8 * n - 1) then (value : Int)
                    else (value : Int) - 2 ^ (8 * n)) }

/-- 49_accessors.md R311: the string accessors: the bytes from `ea` up to the first zero byte or the end
of the frame slice, refused when `ea >= length`. -/
def Obligations.StringAccessors : Prop :=
  ∀ row ∈ [((0x2A : Byte), Instr.getStr, false), (0x3A, .getStrNo, true)],
    let code : Byte := row.1
    let instr : LenWord → Instr := row.2.1
    let raw : Bool := row.2.2
    ∀ (s : State) (p : ParseState) (k : Kind) (offset : LenWord), s.Shows p → p.Inv →
      p.table[p.active]? = some k →
      let ea := (if raw then 0 else payloadOffset k) + offset.toNat
      (encode (instr offset)).bytes.head? = some code ∧
      (p.length ≤ ea → exec (instr offset) s = .next { s with result := .refused }) ∧
      (ea < p.length →
        ∃ j, ea ≤ j ∧ j ≤ p.length ∧ (j = p.length ∨ p.buffer.read j = some 0) ∧
          (∀ i, ea ≤ i → i < j → p.buffer.read i ≠ some 0) ∧
          exec (instr offset) s =
            .next
              { s with
                result :=
                  .bytes ((List.range (j - ea)).map fun i => (p.buffer.read (ea + i)).getD 0) })

/-- 49_accessors.md, the law of its section 3: for a kind whose payload offset is 0, which is every kind
but UBX, the plain and the raw accessors are the same function; UBX's offset is 6 (00_scope.md R5;
the offsets are a parameter, log 24). -/
def Obligations.RawVariantsCoincide : Prop :=
  (∀ k : Kind, payloadOffset k = if k = .ubx then 6 else 0) ∧
  ∀ (s : State) (p : ParseState) (k : Kind) (offset : LenWord), s.Shows p →
    p.table[p.active]? = some k → k ≠ .ubx →
    ∀ pair ∈
      [(Instr.getU8, Instr.getU8No), (.getU16, .getU16No), (.getU32, .getU32No),
        (.getU64, .getU64No), (.getI8, .getI8No), (.getI16, .getI16No), (.getI32, .getI32No),
        (.getI64, .getI64No), (.getF32, .getF32No), (.getF64, .getF64No),
        (.getStr, .getStrNo)],
      exec (pair.1 offset) s = exec (pair.2 offset) s

/-! ### Queries -/

/-- 49_accessors.md R314, and the same of the NMEA name: the name characters of the scratch record,
without the stored terminator. -/
def Obligations.TextNames : Prop :=
  ∀ (s : State) (p : ParseState), s.Shows p →
    (∀ r : NmeaRec, p.table[p.active]? = some .nmea → p.sp = some (.nmea r) →
      exec .nmeaName s =
        .next { s with result := .bytes (r.sentenceName.toList.take r.nameLen.toNat) }) ∧
    (∀ r : UhashRec, p.table[p.active]? = some .uhash → p.sp = some (.uhash r) →
      exec .uhashName s =
        .next { s with result := .bytes (r.sentenceName.toList.take r.nameLen.toNat) }) ∧
    (encode .nmeaName).bytes = [0x40] ∧ (encode .uhashName).bytes = [0x41]

/-- The RTCM message id query returns the 12 bits of the record (49_accessors.md section 4). -/
def Obligations.RtcmMsgId : Prop :=
  ∀ (s : State) (p : ParseState) (r : RtcmRec), s.Shows p →
    p.table[p.active]? = some .rtcm → p.sp = some (.rtcm r) →
    exec .rtcmMsgId s = .next { s with result := .bits 12 (BitVec.ofNat 12 r.messageId.toNat) }

/-- The RTCM bit-field queries (49_accessors.md section 4): bit `k` of the payload is bit `7 - k mod 8`
of `buffer[3 + k div 8]`, the first bit taken is the most significant of the result and, in the signed
form, its sign; refused for a width of 0 or above 64 and for a field past the frame slice. The bit
numbering is PRESUMED (log 24). -/
def Obligations.RtcmBitFields : Prop :=
  ∀ (s : State) (p : ParseState) (start : LenWord) (width : BitVec 8), s.Shows p → s.Inv →
    p.table[p.active]? = some .rtcm →
    let bit (k : Nat) : Bool := ((p.buffer.read (3 + k / 8)).getD 0).getLsbD (7 - k % 8)
    (width = 0 ∨ 64 < width.toNat ∨ 8 * p.length < 24 + start.toNat + width.toNat →
      exec (.rtcmGetU start width) s = .next { s with result := .refused } ∧
      exec (.rtcmGetS start width) s = .next { s with result := .refused }) ∧
    (1 ≤ width.toNat → width.toNat ≤ 64 → 24 + start.toNat + width.toNat ≤ 8 * p.length →
      ∃ v : BitVec 64,
        (∀ j < 64,
          v.getLsbD j =
            (decide (j < width.toNat) && bit (start.toNat + (width.toNat - 1 - j)))) ∧
        exec (.rtcmGetU start width) s = .next { s with result := .bits 64 v } ∧
        exec (.rtcmGetS start width) s =
          .next
            { s with
              result :=
                .signed 64
                  (if bit start.toNat then (v.toNat : Int) - 2 ^ width.toNat
                    else (v.toNat : Int)) })

/-- 49_accessors.md R320, and the two queries it combines: class, id, and the class in the high byte
with the id in the low. -/
def Obligations.UbxQueries : Prop :=
  ∀ (s : State) (p : ParseState) (r : UbxRec), s.Shows p →
    p.table[p.active]? = some .ubx → p.sp = some (.ubx r) →
    exec .ubxClass s = .next { s with result := .bits 8 r.msgClass } ∧
    exec .ubxId s = .next { s with result := .bits 8 r.msgId } ∧
    exec .ubxNum s =
      .next
        { s with
          result := .bits 16 ((r.msgClass.setWidth 16 <<< 8) ||| r.msgId.setWidth 16) } ∧
    (encode .ubxClass).bytes = [0x45] ∧ (encode .ubxId).bytes = [0x46] ∧
    (encode .ubxNum).bytes = [0x47]

/-- 49_accessors.md R321 to R326: the SBF queries. -/
def Obligations.SbfQueries : Prop :=
  ∀ (s : State) (p : ParseState) (r : SbfRec), s.Shows p → p.Inv →
    p.table[p.active]? = some .sbf → p.sp = some (.sbf r) →
    exec .sbfId s = .next { s with result := .bits 13 r.blockId } ∧
    exec .sbfRev s = .next { s with result := .bits 3 r.blockRev } ∧
    exec .sbfIsNmea s =
      .next
        { s with
          result :=
            .bit (decide (r.blockId = 4097 ∧ 14 < p.length ∧ p.buffer.read 14 = some 4)) } ∧
    exec .sbfIsRtcm s =
      .next
        { s with
          result :=
            .bit (decide (r.blockId = 4097 ∧ 14 < p.length ∧ p.buffer.read 14 = some 2)) } ∧
    exec .sbfEncPtr s =
      .next
        { s with
          result := if r.blockId ≠ 4097 ∨ p.length < 20 then .refused else .bits 32 20 } ∧
    exec .sbfEncLen s =
      .next
        { s with
          result :=
            if r.blockId ≠ 4097 ∨ p.length < 18 then .refused
            else
              .bits 16
                (BitVec.ofNat 16
                  (((p.buffer.read 16).getD 0).toNat +
                    ((p.buffer.read 17).getD 0).toNat * 2 ^ 8)) } ∧
    (encode .sbfId).bytes = [0x48] ∧ (encode .sbfRev).bytes = [0x49] ∧
    (encode .sbfIsNmea).bytes = [0x4A] ∧ (encode .sbfIsRtcm).bytes = [0x4B] ∧
    (encode .sbfEncPtr).bytes = [0x4C] ∧ (encode .sbfEncLen).bytes = [0x4D]

/-- 49_accessors.md R327 and R328: the SPARTN queries return the record's message type and subtype. -/
def Obligations.SpartnQueries : Prop :=
  ∀ (s : State) (p : ParseState) (r : SpartnRec), s.Shows p →
    p.table[p.active]? = some .spartn → p.sp = some (.spartn r) →
    exec .spartnType s = .next { s with result := .bits 7 r.messageType } ∧
    exec .spartnSubtype s = .next { s with result := .bits 4 r.subtype } ∧
    (encode .spartnType).bytes = [0x4E] ∧ (encode .spartnSubtype).bytes = [0x4F]

/-- 49_accessors.md R329: a query is refused when the latched entry is of another kind and outside an
IN_EOM or IN_BAD_CRC window, and it changes nothing but the result. -/
def Obligations.WrongKindRefused : Prop :=
  ∀ (start : LenWord) (width : BitVec 8) (s : State) (p : ParseState) (k : Kind),
    ∀ row ∈
      [(Instr.nmeaName, Kind.nmea), (.uhashName, .uhash), (.rtcmMsgId, .rtcm),
        (.rtcmGetU start width, .rtcm), (.rtcmGetS start width, .rtcm), (.ubxClass, .ubx),
        (.ubxId, .ubx), (.ubxNum, .ubx), (.sbfId, .sbf), (.sbfRev, .sbf), (.sbfIsNmea, .sbf),
        (.sbfIsRtcm, .sbf), (.sbfEncPtr, .sbf), (.sbfEncLen, .sbf), (.spartnType, .spartn),
        (.spartnSubtype, .spartn)],
      (s.Shows p → p.table[p.active]? = some k → k ≠ row.2 →
        exec row.1 s = .next { s with result := .refused }) ∧
      (s.window = .none ∨ (∃ rescan, s.window = .inInvalid rescan) →
        exec row.1 s = .next { s with result := .refused }) ∧
      ∀ t, exec row.1 s = .next t → t = { s with result := t.result }
end

