-- ==== Sys2Proof/Laws/State.lean ====
section
/-! SUPPORT. Laws/State.lean: one lemma for each field and each update of the state, so that no proof
unfolds a record update. -/

namespace Sys2Proof.Machine

/-! ### `ParseState.append` -/

@[simp] theorem ParseState.append_table (p : ParseState) (b : Byte) :
    (p.append b).table = p.table := rfl
@[simp] theorem ParseState.append_bufferLength (p : ParseState) (b : Byte) :
    (p.append b).bufferLength = p.bufferLength := rfl
@[simp] theorem ParseState.append_buffer (p : ParseState) (b : Byte) :
    (p.append b).buffer = p.buffer.write p.length b := rfl
@[simp] theorem ParseState.append_length (p : ParseState) (b : Byte) :
    (p.append b).length = p.length + 1 := rfl
@[simp] theorem ParseState.append_state (p : ParseState) (b : Byte) :
    (p.append b).state = p.state := rfl
@[simp] theorem ParseState.append_active (p : ParseState) (b : Byte) :
    (p.append b).active = p.active := rfl
@[simp] theorem ParseState.append_crc (p : ParseState) (b : Byte) : (p.append b).crc = p.crc := rfl
@[simp] theorem ParseState.append_sp (p : ParseState) (b : Byte) : (p.append b).sp = p.sp := rfl
@[simp] theorem ParseState.append_badCrcEn (p : ParseState) (b : Byte) :
    (p.append b).badCrcEn = p.badCrcEn := rfl
@[simp] theorem ParseState.append_invalidEn (p : ParseState) (b : Byte) :
    (p.append b).invalidEn = p.invalidEn := rfl
@[simp] theorem ParseState.append_abortNpNmea (p : ParseState) (b : Byte) :
    (p.append b).abortNpNmea = p.abortNpNmea := rfl
@[simp] theorem ParseState.append_abortNpUhash (p : ParseState) (b : Byte) :
    (p.append b).abortNpUhash = p.abortNpUhash := rfl
@[simp] theorem ParseState.append_dbgEn (p : ParseState) (b : Byte) :
    (p.append b).dbgEn = p.dbgEn := rfl
@[simp] theorem ParseState.append_errEn (p : ParseState) (b : Byte) :
    (p.append b).errEn = p.errEn := rfl
@[simp] theorem ParseState.append_verbose (p : ParseState) (b : Byte) :
    (p.append b).verbose = p.verbose := rfl
@[simp] theorem ParseState.append_count (p : ParseState) (b : Byte) : (p.append b).count = p.count := rfl

/-! ### `ParseState.trailer` -/

@[simp] theorem ParseState.trailer_table (p : ParseState) : (p.trailer).table = p.table := rfl
@[simp] theorem ParseState.trailer_bufferLength (p : ParseState) :
    (p.trailer).bufferLength = p.bufferLength := rfl
@[simp] theorem ParseState.trailer_buffer (p : ParseState) :
    (p.trailer).buffer =
      ((p.buffer.write p.length 0x0D).write (p.length + 1) 0x0A).write (p.length + 2) 0x00 := rfl
@[simp] theorem ParseState.trailer_length (p : ParseState) :
    (p.trailer).length = p.length + 2 := rfl
@[simp] theorem ParseState.trailer_state (p : ParseState) : (p.trailer).state = p.state := rfl
@[simp] theorem ParseState.trailer_active (p : ParseState) : (p.trailer).active = p.active := rfl
@[simp] theorem ParseState.trailer_crc (p : ParseState) : (p.trailer).crc = p.crc := rfl
@[simp] theorem ParseState.trailer_sp (p : ParseState) : (p.trailer).sp = p.sp := rfl
@[simp] theorem ParseState.trailer_badCrcEn (p : ParseState) :
    (p.trailer).badCrcEn = p.badCrcEn := rfl
@[simp] theorem ParseState.trailer_invalidEn (p : ParseState) :
    (p.trailer).invalidEn = p.invalidEn := rfl
@[simp] theorem ParseState.trailer_abortNpNmea (p : ParseState) :
    (p.trailer).abortNpNmea = p.abortNpNmea := rfl
@[simp] theorem ParseState.trailer_abortNpUhash (p : ParseState) :
    (p.trailer).abortNpUhash = p.abortNpUhash := rfl
@[simp] theorem ParseState.trailer_dbgEn (p : ParseState) : (p.trailer).dbgEn = p.dbgEn := rfl
@[simp] theorem ParseState.trailer_errEn (p : ParseState) : (p.trailer).errEn = p.errEn := rfl
@[simp] theorem ParseState.trailer_verbose (p : ParseState) : (p.trailer).verbose = p.verbose := rfl
@[simp] theorem ParseState.trailer_count (p : ParseState) : (p.trailer).count = p.count := rfl

/-! ### `ParseState.goto` -/

@[simp] theorem ParseState.goto_table (p : ParseState) (st : PState) :
    (p.goto st).table = p.table := rfl
@[simp] theorem ParseState.goto_bufferLength (p : ParseState) (st : PState) :
    (p.goto st).bufferLength = p.bufferLength := rfl
@[simp] theorem ParseState.goto_buffer (p : ParseState) (st : PState) :
    (p.goto st).buffer = p.buffer := rfl
@[simp] theorem ParseState.goto_length (p : ParseState) (st : PState) :
    (p.goto st).length = p.length := rfl
@[simp] theorem ParseState.goto_state (p : ParseState) (st : PState) : (p.goto st).state = st := rfl
@[simp] theorem ParseState.goto_active (p : ParseState) (st : PState) :
    (p.goto st).active = p.active := rfl
@[simp] theorem ParseState.goto_crc (p : ParseState) (st : PState) : (p.goto st).crc = p.crc := rfl
@[simp] theorem ParseState.goto_sp (p : ParseState) (st : PState) : (p.goto st).sp = p.sp := rfl
@[simp] theorem ParseState.goto_badCrcEn (p : ParseState) (st : PState) :
    (p.goto st).badCrcEn = p.badCrcEn := rfl
@[simp] theorem ParseState.goto_invalidEn (p : ParseState) (st : PState) :
    (p.goto st).invalidEn = p.invalidEn := rfl
@[simp] theorem ParseState.goto_abortNpNmea (p : ParseState) (st : PState) :
    (p.goto st).abortNpNmea = p.abortNpNmea := rfl
@[simp] theorem ParseState.goto_abortNpUhash (p : ParseState) (st : PState) :
    (p.goto st).abortNpUhash = p.abortNpUhash := rfl
@[simp] theorem ParseState.goto_dbgEn (p : ParseState) (st : PState) :
    (p.goto st).dbgEn = p.dbgEn := rfl
@[simp] theorem ParseState.goto_errEn (p : ParseState) (st : PState) :
    (p.goto st).errEn = p.errEn := rfl
@[simp] theorem ParseState.goto_verbose (p : ParseState) (st : PState) :
    (p.goto st).verbose = p.verbose := rfl
@[simp] theorem ParseState.goto_count (p : ParseState) (st : PState) : (p.goto st).count = p.count := rfl

/-! ### `ParseState.search` -/

@[simp] theorem ParseState.search_table (p : ParseState) : (p.search).table = p.table := rfl
@[simp] theorem ParseState.search_bufferLength (p : ParseState) :
    (p.search).bufferLength = p.bufferLength := rfl
@[simp] theorem ParseState.search_buffer (p : ParseState) : (p.search).buffer = p.buffer := rfl
@[simp] theorem ParseState.search_length (p : ParseState) : (p.search).length = p.length := rfl
@[simp] theorem ParseState.search_state (p : ParseState) : (p.search).state = .firstByte := rfl
@[simp] theorem ParseState.search_active (p : ParseState) : (p.search).active = p.count := rfl
@[simp] theorem ParseState.search_crc (p : ParseState) : (p.search).crc = p.crc := rfl
@[simp] theorem ParseState.search_sp (p : ParseState) : (p.search).sp = p.sp := rfl
@[simp] theorem ParseState.search_badCrcEn (p : ParseState) :
    (p.search).badCrcEn = p.badCrcEn := rfl
@[simp] theorem ParseState.search_invalidEn (p : ParseState) :
    (p.search).invalidEn = p.invalidEn := rfl
@[simp] theorem ParseState.search_abortNpNmea (p : ParseState) :
    (p.search).abortNpNmea = p.abortNpNmea := rfl
@[simp] theorem ParseState.search_abortNpUhash (p : ParseState) :
    (p.search).abortNpUhash = p.abortNpUhash := rfl
@[simp] theorem ParseState.search_dbgEn (p : ParseState) : (p.search).dbgEn = p.dbgEn := rfl
@[simp] theorem ParseState.search_errEn (p : ParseState) : (p.search).errEn = p.errEn := rfl
@[simp] theorem ParseState.search_verbose (p : ParseState) : (p.search).verbose = p.verbose := rfl
@[simp] theorem ParseState.search_count (p : ParseState) : (p.search).count = p.count := rfl

/-! ### `ParseState.setCrc` -/

@[simp] theorem ParseState.setCrc_table (p : ParseState) (v : BitVec 32) :
    (p.setCrc v).table = p.table := rfl
@[simp] theorem ParseState.setCrc_bufferLength (p : ParseState) (v : BitVec 32) :
    (p.setCrc v).bufferLength = p.bufferLength := rfl
@[simp] theorem ParseState.setCrc_buffer (p : ParseState) (v : BitVec 32) :
    (p.setCrc v).buffer = p.buffer := rfl
@[simp] theorem ParseState.setCrc_length (p : ParseState) (v : BitVec 32) :
    (p.setCrc v).length = p.length := rfl
@[simp] theorem ParseState.setCrc_state (p : ParseState) (v : BitVec 32) :
    (p.setCrc v).state = p.state := rfl
@[simp] theorem ParseState.setCrc_active (p : ParseState) (v : BitVec 32) :
    (p.setCrc v).active = p.active := rfl
@[simp] theorem ParseState.setCrc_crc (p : ParseState) (v : BitVec 32) : (p.setCrc v).crc = v := rfl
@[simp] theorem ParseState.setCrc_sp (p : ParseState) (v : BitVec 32) :
    (p.setCrc v).sp = p.sp := rfl
@[simp] theorem ParseState.setCrc_badCrcEn (p : ParseState) (v : BitVec 32) :
    (p.setCrc v).badCrcEn = p.badCrcEn := rfl
@[simp] theorem ParseState.setCrc_invalidEn (p : ParseState) (v : BitVec 32) :
    (p.setCrc v).invalidEn = p.invalidEn := rfl
@[simp] theorem ParseState.setCrc_abortNpNmea (p : ParseState) (v : BitVec 32) :
    (p.setCrc v).abortNpNmea = p.abortNpNmea := rfl
@[simp] theorem ParseState.setCrc_abortNpUhash (p : ParseState) (v : BitVec 32) :
    (p.setCrc v).abortNpUhash = p.abortNpUhash := rfl
@[simp] theorem ParseState.setCrc_dbgEn (p : ParseState) (v : BitVec 32) :
    (p.setCrc v).dbgEn = p.dbgEn := rfl
@[simp] theorem ParseState.setCrc_errEn (p : ParseState) (v : BitVec 32) :
    (p.setCrc v).errEn = p.errEn := rfl
@[simp] theorem ParseState.setCrc_verbose (p : ParseState) (v : BitVec 32) :
    (p.setCrc v).verbose = p.verbose := rfl
@[simp] theorem ParseState.setCrc_count (p : ParseState) (v : BitVec 32) : (p.setCrc v).count = p.count := rfl

/-! ### `ParseState.setSp` -/

@[simp] theorem ParseState.setSp_table (p : ParseState) (r : Scratch) :
    (p.setSp r).table = p.table := rfl
@[simp] theorem ParseState.setSp_bufferLength (p : ParseState) (r : Scratch) :
    (p.setSp r).bufferLength = p.bufferLength := rfl
@[simp] theorem ParseState.setSp_buffer (p : ParseState) (r : Scratch) :
    (p.setSp r).buffer = p.buffer := rfl
@[simp] theorem ParseState.setSp_length (p : ParseState) (r : Scratch) :
    (p.setSp r).length = p.length := rfl
@[simp] theorem ParseState.setSp_state (p : ParseState) (r : Scratch) :
    (p.setSp r).state = p.state := rfl
@[simp] theorem ParseState.setSp_active (p : ParseState) (r : Scratch) :
    (p.setSp r).active = p.active := rfl
@[simp] theorem ParseState.setSp_crc (p : ParseState) (r : Scratch) : (p.setSp r).crc = p.crc := rfl
@[simp] theorem ParseState.setSp_sp (p : ParseState) (r : Scratch) : (p.setSp r).sp = some r := rfl
@[simp] theorem ParseState.setSp_badCrcEn (p : ParseState) (r : Scratch) :
    (p.setSp r).badCrcEn = p.badCrcEn := rfl
@[simp] theorem ParseState.setSp_invalidEn (p : ParseState) (r : Scratch) :
    (p.setSp r).invalidEn = p.invalidEn := rfl
@[simp] theorem ParseState.setSp_abortNpNmea (p : ParseState) (r : Scratch) :
    (p.setSp r).abortNpNmea = p.abortNpNmea := rfl
@[simp] theorem ParseState.setSp_abortNpUhash (p : ParseState) (r : Scratch) :
    (p.setSp r).abortNpUhash = p.abortNpUhash := rfl
@[simp] theorem ParseState.setSp_dbgEn (p : ParseState) (r : Scratch) :
    (p.setSp r).dbgEn = p.dbgEn := rfl
@[simp] theorem ParseState.setSp_errEn (p : ParseState) (r : Scratch) :
    (p.setSp r).errEn = p.errEn := rfl
@[simp] theorem ParseState.setSp_verbose (p : ParseState) (r : Scratch) :
    (p.setSp r).verbose = p.verbose := rfl
@[simp] theorem ParseState.setSp_count (p : ParseState) (r : Scratch) : (p.setSp r).count = p.count := rfl

/-! ### `ParseState.restart` -/

@[simp] theorem ParseState.restart_table (p : ParseState) (b : Byte) :
    (p.restart b).table = p.table := rfl
@[simp] theorem ParseState.restart_bufferLength (p : ParseState) (b : Byte) :
    (p.restart b).bufferLength = p.bufferLength := rfl
@[simp] theorem ParseState.restart_buffer (p : ParseState) (b : Byte) :
    (p.restart b).buffer = p.buffer.write 0 b := rfl
@[simp] theorem ParseState.restart_length (p : ParseState) (b : Byte) :
    (p.restart b).length = 1 := rfl
@[simp] theorem ParseState.restart_state (p : ParseState) (b : Byte) :
    (p.restart b).state = .firstByte := rfl
@[simp] theorem ParseState.restart_active (p : ParseState) (b : Byte) :
    (p.restart b).active = p.count := rfl
@[simp] theorem ParseState.restart_crc (p : ParseState) (b : Byte) : (p.restart b).crc = 0 := rfl
@[simp] theorem ParseState.restart_sp (p : ParseState) (b : Byte) : (p.restart b).sp = p.sp := rfl
@[simp] theorem ParseState.restart_badCrcEn (p : ParseState) (b : Byte) :
    (p.restart b).badCrcEn = p.badCrcEn := rfl
@[simp] theorem ParseState.restart_invalidEn (p : ParseState) (b : Byte) :
    (p.restart b).invalidEn = p.invalidEn := rfl
@[simp] theorem ParseState.restart_abortNpNmea (p : ParseState) (b : Byte) :
    (p.restart b).abortNpNmea = p.abortNpNmea := rfl
@[simp] theorem ParseState.restart_abortNpUhash (p : ParseState) (b : Byte) :
    (p.restart b).abortNpUhash = p.abortNpUhash := rfl
@[simp] theorem ParseState.restart_dbgEn (p : ParseState) (b : Byte) :
    (p.restart b).dbgEn = p.dbgEn := rfl
@[simp] theorem ParseState.restart_errEn (p : ParseState) (b : Byte) :
    (p.restart b).errEn = p.errEn := rfl
@[simp] theorem ParseState.restart_verbose (p : ParseState) (b : Byte) :
    (p.restart b).verbose = p.verbose := rfl
@[simp] theorem ParseState.restart_count (p : ParseState) (b : Byte) : (p.restart b).count = p.count := rfl

/-! ### `ParseState.latch` -/

@[simp] theorem ParseState.latch_table (p : ParseState) (i : Nat) (k : Kind) (b : Byte) :
    (p.latch i k b).table = p.table := rfl
@[simp] theorem ParseState.latch_bufferLength (p : ParseState) (i : Nat) (k : Kind) (b : Byte) :
    (p.latch i k b).bufferLength = p.bufferLength := rfl
@[simp] theorem ParseState.latch_buffer (p : ParseState) (i : Nat) (k : Kind) (b : Byte) :
    (p.latch i k b).buffer = p.buffer := rfl
@[simp] theorem ParseState.latch_length (p : ParseState) (i : Nat) (k : Kind) (b : Byte) :
    (p.latch i k b).length = p.length := rfl
@[simp] theorem ParseState.latch_state (p : ParseState) (i : Nat) (k : Kind) (b : Byte) :
    (p.latch i k b).state = firstState k := rfl
@[simp] theorem ParseState.latch_active (p : ParseState) (i : Nat) (k : Kind) (b : Byte) :
    (p.latch i k b).active = i := rfl
@[simp] theorem ParseState.latch_crc (p : ParseState) (i : Nat) (k : Kind) (b : Byte) :
    (p.latch i k b).crc = acceptCrc b k := rfl
@[simp] theorem ParseState.latch_sp (p : ParseState) (i : Nat) (k : Kind) (b : Byte) :
    (p.latch i k b).sp = some (Scratch.zero k) := rfl
@[simp] theorem ParseState.latch_badCrcEn (p : ParseState) (i : Nat) (k : Kind) (b : Byte) :
    (p.latch i k b).badCrcEn = p.badCrcEn := rfl
@[simp] theorem ParseState.latch_invalidEn (p : ParseState) (i : Nat) (k : Kind) (b : Byte) :
    (p.latch i k b).invalidEn = p.invalidEn := rfl
@[simp] theorem ParseState.latch_abortNpNmea (p : ParseState) (i : Nat) (k : Kind) (b : Byte) :
    (p.latch i k b).abortNpNmea = p.abortNpNmea := rfl
@[simp] theorem ParseState.latch_abortNpUhash (p : ParseState) (i : Nat) (k : Kind) (b : Byte) :
    (p.latch i k b).abortNpUhash = p.abortNpUhash := rfl
@[simp] theorem ParseState.latch_dbgEn (p : ParseState) (i : Nat) (k : Kind) (b : Byte) :
    (p.latch i k b).dbgEn = p.dbgEn := rfl
@[simp] theorem ParseState.latch_errEn (p : ParseState) (i : Nat) (k : Kind) (b : Byte) :
    (p.latch i k b).errEn = p.errEn := rfl
@[simp] theorem ParseState.latch_verbose (p : ParseState) (i : Nat) (k : Kind) (b : Byte) :
    (p.latch i k b).verbose = p.verbose := rfl
@[simp] theorem ParseState.latch_count (p : ParseState) (i : Nat) (k : Kind) (b : Byte) : (p.latch i k b).count = p.count := rfl

/-! ### The accumulator's folds are writes of it -/

@[simp] theorem ParseState.foldXor_eq (p : ParseState) (b : Byte) :
    p.foldXor b = p.setCrc (p.crc ^^^ b.setWidth 32) := rfl
@[simp] theorem ParseState.foldCrc24q_eq (p : ParseState) (b : Byte) :
    p.foldCrc24q b = p.setCrc ((crc24q (p.crc.setWidth 24) b).setWidth 32) := rfl
@[simp] theorem ParseState.foldCcitt16_eq (p : ParseState) (b : Byte) :
    p.foldCcitt16 b = p.setCrc ((ccitt16 (p.crc.setWidth 16) b).setWidth 32) := rfl
@[simp] theorem ParseState.foldCrc32r_eq (p : ParseState) (b : Byte) :
    p.foldCrc32r b = p.setCrc (crc32r p.crc b) := rfl

/-! ### `State.answer` -/

@[simp] theorem State.answer_parse (s : State) (r : Result) : (s.answer r).parse = s.parse := rfl
@[simp] theorem State.answer_window (s : State) (r : Result) : (s.answer r).window = s.window := rfl
@[simp] theorem State.answer_todo (s : State) (r : Result) : (s.answer r).todo = s.todo := rfl
@[simp] theorem State.answer_port (s : State) (r : Result) : (s.answer r).port = s.port := rfl
@[simp] theorem State.answer_events (s : State) (r : Result) : (s.answer r).events = s.events := rfl
@[simp] theorem State.answer_result (s : State) (r : Result) : (s.answer r).result = r := rfl

/-! ### `State.refuse` -/

@[simp] theorem State.refuse_parse (s : State) : (s.refuse).parse = s.parse := rfl
@[simp] theorem State.refuse_window (s : State) : (s.refuse).window = s.window := rfl
@[simp] theorem State.refuse_todo (s : State) : (s.refuse).todo = s.todo := rfl
@[simp] theorem State.refuse_port (s : State) : (s.refuse).port = s.port := rfl
@[simp] theorem State.refuse_events (s : State) : (s.refuse).events = s.events := rfl
@[simp] theorem State.refuse_result (s : State) : (s.refuse).result = .refused := rfl

/-! ### `State.take` -/

@[simp] theorem State.take_parse (s : State) (rest : List HostAction) :
    (s.take rest).parse = s.parse := rfl
@[simp] theorem State.take_window (s : State) (rest : List HostAction) :
    (s.take rest).window = s.window := rfl
@[simp] theorem State.take_todo (s : State) (rest : List HostAction) :
    (s.take rest).todo = s.todo := rfl
@[simp] theorem State.take_port (s : State) (rest : List HostAction) :
    (s.take rest).port = rest := rfl
@[simp] theorem State.take_events (s : State) (rest : List HostAction) :
    (s.take rest).events = if s.window = .none then [] else s.events := rfl
@[simp] theorem State.take_result (s : State) (rest : List HostAction) :
    (s.take rest).result = s.result := rfl

/-! ### `State.raised` -/

@[simp] theorem State.raised_parse (s : State) (q : ParseState) (e : Event) (w : Window) :
    (s.raised q e w).parse = some q := rfl
@[simp] theorem State.raised_window (s : State) (q : ParseState) (e : Event) (w : Window) :
    (s.raised q e w).window = w := rfl
@[simp] theorem State.raised_todo (s : State) (q : ParseState) (e : Event) (w : Window) :
    (s.raised q e w).todo = [] := rfl
@[simp] theorem State.raised_port (s : State) (q : ParseState) (e : Event) (w : Window) :
    (s.raised q e w).port = s.port := rfl
@[simp] theorem State.raised_events (s : State) (q : ParseState) (e : Event) (w : Window) :
    (s.raised q e w).events = s.events ++ [e] := rfl
@[simp] theorem State.raised_result (s : State) (q : ParseState) (e : Event) (w : Window) :
    (s.raised q e w).result = .nothing := rfl

end Sys2Proof.Machine
end

