-- ==== Sys2Proof/Laws/Memory.lean ====
section
/-! SUPPORT. Laws/Memory.lean: the buffer. What a read gives after a write, that writes keep the canonical
form, and what a run of reads gives (00_scope.md R7, 20_memory.md R41). -/

namespace Sys2Proof.Machine

@[simp] theorem Memory.read_nil (i : Nat) : Memory.read [] i = none := rfl

@[simp] theorem Memory.read_write_same (m : Memory) (i : Nat) (b : Byte) :
    (m.write i b).read i = some b := by
  induction m with
  | nil => simp [Memory.write, Memory.read]
  | cons c m ih =>
    obtain ⟨a, v⟩ := c
    simp only [Memory.write]
    split_ifs with h1 h2
    · simp [Memory.read]
    · simp [Memory.read]
    · simp [Memory.read, Ne.symm h2, ih]

theorem Memory.read_write_other (m : Memory) {i j : Nat} (b : Byte) (h : j ≠ i) :
    (m.write i b).read j = m.read j := by
  induction m with
  | nil => simp [Memory.write, Memory.read, Ne.symm h]
  | cons c m ih =>
    obtain ⟨a, v⟩ := c
    simp only [Memory.write]
    split_ifs with h1 h2
    · simp [Memory.read, Ne.symm h]
    · subst h2
      simp [Memory.read, Ne.symm h]
    · simp [Memory.read, ih]

/-- A read after a write, at any address. -/
theorem Memory.read_write (m : Memory) (i j : Nat) (b : Byte) :
    (m.write i b).read j = if j = i then some b else m.read j := by
  split_ifs with h
  · rw [h, Memory.read_write_same]
  · exact Memory.read_write_other m b h

theorem Memory.mem_write {m : Memory} {i : Nat} {b : Byte} {c : Host.Cell}
    (h : c ∈ m.write i b) : c = (i, b) ∨ c ∈ m := by
  induction m with
  | nil => simpa [Memory.write] using h
  | cons d m ih =>
    obtain ⟨a, v⟩ := d
    simp only [Memory.write] at h
    split_ifs at h with h1 h2
    · simpa using h
    · rcases List.mem_cons.mp h with h | h
      · exact .inl h
      · exact .inr (List.mem_cons_of_mem _ h)
    · rcases List.mem_cons.mp h with h | h
      · exact .inr (by simp [h])
      · exact (ih h).imp_right (List.mem_cons_of_mem _)

/-- A write keeps the canonical form. -/
theorem Memory.write_wf {m : Memory} (h : m.wf) (i : Nat) (b : Byte) : (m.write i b).wf := by
  induction m with
  | nil => simp [Memory.write]
  | cons d m ih =>
    obtain ⟨a, v⟩ := d
    have hall : ∀ c ∈ m, a < c.1 := (List.pairwise_cons.mp h).1
    have hm : Memory.wf m := (List.pairwise_cons.mp h).2
    simp only [Memory.write]
    split_ifs with h1 h2
    · refine List.pairwise_cons.mpr ⟨fun c hc => ?_, h⟩
      rcases List.mem_cons.mp hc with hc | hc
      · simp [hc, h1]
      · exact Nat.lt_trans h1 (hall c hc)
    · subst h2
      exact List.pairwise_cons.mpr ⟨hall, hm⟩
    · refine List.pairwise_cons.mpr ⟨fun c hc => ?_, ih hm⟩
      rcases Memory.mem_write hc with hc | hc
      · simp only [hc]; omega
      · exact hall c hc

/-- What a run of reads gives: a byte for each address. -/
theorem Memory.readMany_eq_some {m : Memory} {i n : Nat} {bs : List Byte} :
    m.readMany i n = some bs ↔ bs.length = n ∧ ∀ j < n, m.read (i + j) = bs[j]? := by
  induction n generalizing i bs with
  | zero =>
    simp only [Memory.readMany, Option.some.injEq, Nat.not_lt_zero, false_implies, implies_true,
      and_true]
    exact ⟨fun h => by simp [← h], fun h => (List.eq_nil_of_length_eq_zero h).symm⟩
  | succ n ih =>
    simp only [Memory.readMany]
    constructor
    · intro h
      split at h
      · rename_i b tl hb htl
        cases h
        obtain ⟨hl, hr⟩ := ih.mp htl
        refine ⟨by simp [hl], fun j hj => ?_⟩
        cases j with
        | zero => simpa using hb
        | succ j =>
          have := hr j (by omega)
          rw [show i + (j + 1) = i + 1 + j by omega, this]
          simp
      · cases h
    · rintro ⟨hl, hr⟩
      cases bs with
      | nil => simp at hl
      | cons b tl =>
        have hb : m.read i = some b := by simpa using hr 0 (by omega)
        have htl : m.readMany (i + 1) n = some tl := by
          refine ih.mpr ⟨by simpa using hl, fun j hj => ?_⟩
          have := hr (j + 1) (by omega)
          rw [show i + 1 + j = i + (j + 1) by omega, this]
          simp
        simp [hb, htl]

/-- A run of reads succeeds where every byte has a value. -/
theorem Memory.readMany_isSome {m : Memory} {i n : Nat}
    (h : ∀ j < n, (m.read (i + j)).isSome) : ∃ bs, m.readMany i n = some bs := by
  induction n generalizing i with
  | zero => exact ⟨[], rfl⟩
  | succ n ih =>
    obtain ⟨b, hb⟩ := Option.isSome_iff_exists.mp (h 0 (by omega))
    obtain ⟨tl, htl⟩ := ih (i := i + 1) fun j hj => by
      simpa [Nat.add_assoc, Nat.add_comm 1 j] using h (j + 1) (by omega)
    exact ⟨b :: tl, by simp only [Nat.add_zero] at hb; simp [Memory.readMany, hb, htl]⟩

theorem Memory.readMany_congr {m m' : Memory} {i n : Nat}
    (h : ∀ j < n, m'.read (i + j) = m.read (i + j)) : m'.readMany i n = m.readMany i n := by
  induction n generalizing i with
  | zero => rfl
  | succ n ih =>
    have h0 := h 0 (by omega)
    have := ih (i := i + 1) fun j hj => by
      simpa [Nat.add_assoc, Nat.add_comm 1 j] using h (j + 1) (by omega)
    simp only [Nat.add_zero] at h0
    simp [Memory.readMany, h0, this]

/-- One more read at the end of a run. -/
theorem Memory.readMany_succ {m : Memory} {i n : Nat} {bs : List Byte} {b : Byte}
    (h : m.readMany i n = some bs) (hb : m.read (i + n) = some b) :
    m.readMany i (n + 1) = some (bs ++ [b]) := by
  obtain ⟨hl, hr⟩ := Memory.readMany_eq_some.mp h
  refine Memory.readMany_eq_some.mpr ⟨by simp [hl], fun j hj => ?_⟩
  rcases Nat.lt_succ_iff_lt_or_eq.mp hj with hj | hj
  · rw [hr j hj, List.getElem?_append_left (by omega)]
  · subst hj
    rw [hb, ← hl, List.getElem?_concat_length]

/-- `buffer[i]` has a value. -/
theorem ParseState.byteAt_of_read {p : ParseState} {i : Nat} {b : Byte}
    (h : p.buffer.read i = some b) : p.byteAt i = .ok b := by
  simp [ParseState.byteAt, h]

/-- `buffer[a..b)` as a run of reads. -/
theorem ParseState.slice_of_readMany {p : ParseState} {a b : Nat} {bs : List Byte}
    (h : p.buffer.readMany a (b - a) = some bs) : p.slice a b = .ok bs := by
  simp [ParseState.slice, h]

/-- `buffer[a..b)` answers exactly when every byte of it has a value, and then with those bytes. -/
theorem ParseState.slice_eq_ok {p : ParseState} {a b : Nat} {bs : List Byte} :
    p.slice a b = .ok bs ↔ bs.length = b - a ∧ ∀ j < b - a, p.buffer.read (a + j) = bs[j]? := by
  rw [← Memory.readMany_eq_some]
  unfold ParseState.slice
  split <;> simp_all

theorem ParseState.slice_exists {p : ParseState} {a b : Nat}
    (h : ∀ i, a ≤ i → i < b → (p.buffer.read i).isSome) : ∃ bs, p.slice a b = .ok bs := by
  obtain ⟨bs, hbs⟩ := Memory.readMany_isSome (m := p.buffer) (i := a) (n := b - a)
    fun j hj => h (a + j) (by omega) (by omega)
  exact ⟨bs, ParseState.slice_of_readMany hbs⟩

end Sys2Proof.Machine
end

