-- ==== Sys2Proof/Laws/Ops.lean ====
section
/-! SUPPORT. Laws/Ops.lean: the dispatcher, the failure procedures and the delivery procedures keep the
invariant of Safety.lean and never stop; each lemma says for one procedure all that a later proof of the
invariant needs. -/

namespace Sys2Proof.Machine

/-! ### What a procedure of a PUSH leaves -/

/-- What a procedure may leave: a ParseState that keeps its invariant, with the facts of the window it
opens, or of a frame in progress when it opens none. -/
def Turn.Good (t : Turn) : Prop :=
  t.p.Inv ∧
    match t.raised with
    | none => t.p.Progress
    | some (e, w) => w ≠ .none ∧ w.Fits t.p ∧ ∀ c bs, e = .invalidData c bs → bs ≠ []

/-- A procedure that does not stop, and leaves a good turn. -/
def Safe (r : Except Fault Turn) : Prop := ∃ t, r = .ok t ∧ t.Good

theorem Safe.quiet {p : ParseState} (h : p.Inv) (hp : p.Progress) : Safe (quiet p) :=
  ⟨⟨p, none⟩, rfl, h, hp⟩

theorem Safe.raise {p : ParseState} {e : Event} {w : Window} (h : p.Inv) (hw : w ≠ .none)
    (hf : w.Fits p) (he : ∀ c bs, e = .invalidData c bs → bs ≠ []) : Safe (raise p e w) :=
  ⟨⟨p, some (e, w)⟩, rfl, h, hw, hf, he⟩

/-! ### The invariant and the cursor -/

/-- The part of the invariant that does not speak of the frame in progress. -/
structure ParseState.Base (p : ParseState) : Prop where
  tableNonempty : p.table ≠ []
  areaSize : 1 ≤ p.bufferLength ∧ p.bufferLength < 2 ^ lenW
  canonical : Memory.wf p.buffer
  inside : ∀ c ∈ p.buffer, c.1 < p.bufferLength
  fields : ∀ r, p.sp = some r → r.InRange

theorem ParseState.Inv.base {p : ParseState} (h : p.Inv) : p.Base :=
  ⟨h.tableNonempty, h.areaSize, h.canonical, h.inside, h.fields⟩

/-- Cleared accumulators are in range. -/
theorem ParseState.crcInRange_zero {p : ParseState} (h : p.crc = 0) : p.CrcInRange := by
  unfold ParseState.CrcInRange
  split <;> simp [h]

/-- In a state of a kind, that kind is latched and owns the scratch-pad. -/
theorem ParseState.Inv.latched_of_state {p : ParseState} (h : p.Inv) {k : Kind}
    (hs : p.state.owners = [k]) :
    p.active < p.count ∧ p.Latches p.active k ∧ 1 ≤ p.length ∧
      p.buffer.read 0 = some (preamble k) ∧ ∃ r, p.sp = some r ∧ r.kind = k := by
  have hne : p.active ≠ p.count := fun he => by
    rw [h.searching.mp he] at hs
    cases hs
  have hlt : p.active < p.count := Nat.lt_of_le_of_ne h.activeBound hne
  obtain ⟨k', hl, hk, h1, h0, hsp⟩ := h.latched hlt
  rw [hs, List.mem_singleton] at hk
  subst hk
  obtain ⟨r, hr, hrk⟩ := Option.map_eq_some_iff.mp hsp
  exact ⟨hlt, hl, h1, h0, r, hr, hrk⟩

/-- Advancing inside a frame keeps the invariant: state, accumulator and record may change, as long as
they stay the latched kind's and in range. -/
theorem ParseState.Inv.advance {p q : ParseState} (h : p.Inv) {k : Kind} {r : Scratch}
    (hl : p.Latches p.active k) (hlen : 1 ≤ p.length) (h0 : p.buffer.read 0 = some (preamble k))
    (ht : q.table = p.table) (hb : q.bufferLength = p.bufferLength) (hm : q.buffer = p.buffer)
    (hn : q.length = p.length) (ha : q.active = p.active) (hs : k ∈ q.state.owners)
    (hr : q.sp = some r) (hrk : r.kind = k) (hri : r.InRange) (hc : q.CrcInRange) : q.Inv where
  tableNonempty := ht ▸ h.tableNonempty
  areaSize := hb ▸ h.areaSize
  lengthBound := by rw [hn, hb]; exact h.lengthBound
  canonical := hm ▸ h.canonical
  inside := by rw [hm, hb]; exact h.inside
  filled := by rw [hn, hm]; exact h.filled
  activeBound := by simpa [ParseState.count, ht, ha] using h.activeBound
  searching := by
    have hlt : p.active < p.table.length := (List.getElem?_eq_some_iff.mp hl.1).1
    have : q.state ≠ .firstByte := fun he => by
      rw [he] at hs
      cases hs
    simp only [ParseState.count, ht, ha, this, iff_false]
    omega
  latched := fun _ =>
    ⟨k, by rw [ParseState.Latches, ht, ha]; exact hl, hs, by omega, by rw [hm]; exact h0,
      by rw [hr, Option.map_some, hrk]⟩
  fields := fun r' hr' => by
    rw [hr] at hr'
    cases hr'
    exact hri
  crcBits := hc

/-- Letting the frame go keeps the invariant (41_dispatch.md R129, R132, R133). -/
theorem ParseState.Inv.search {p : ParseState} (h : p.Inv) : p.search.Inv where
  tableNonempty := h.tableNonempty
  areaSize := h.areaSize
  lengthBound := h.lengthBound
  canonical := h.canonical
  inside := h.inside
  filled := h.filled
  activeBound := by simp
  searching := by simp
  latched := by simp
  fields := h.fields
  crcBits := h.crcBits

/-- Storing the next byte of a frame keeps the invariant (41_dispatch.md R124). -/
theorem ParseState.Inv.append {p : ParseState} (h : p.Inv) (b : Byte)
    (hlt : p.length < p.bufferLength) : (p.append b).Inv where
  tableNonempty := h.tableNonempty
  areaSize := h.areaSize
  lengthBound := by simpa using hlt
  canonical := Memory.write_wf h.canonical _ _
  inside := fun c hc => by
    rcases Memory.mem_write hc with hc | hc
    · rw [hc]; exact hlt
    · exact h.inside c hc
  filled := fun i hi => by
    rw [ParseState.append_length] at hi
    rw [ParseState.append_buffer, Memory.read_write]
    split_ifs with he
    · rfl
    · exact h.filled i (by omega)
  activeBound := h.activeBound
  searching := h.searching
  latched := fun ha => by
    obtain ⟨k, hl, hk, h1, h0, hsp⟩ := h.latched ha
    refine ⟨k, hl, hk, by simp, ?_, hsp⟩
    rw [ParseState.append_buffer, Memory.read_write_other _ _ (by omega), h0]
  fields := h.fields
  crcBits := h.crcBits

theorem ParseState.append_read_last (p : ParseState) (b : Byte) :
    (p.append b).buffer.read ((p.append b).length - 1) = some b := by
  simp

/-! ### The dispatcher -/

theorem firstAcceptor_some {b : Byte} {ks : List Kind} {n i : Nat} {k : Kind}
    (h : firstAcceptor b ks n = some (i, k)) :
    n ≤ i ∧ ks[i - n]? = some k ∧ preamble k = b ∧
      ∀ j < i - n, ∀ k', ks[j]? = some k' → preamble k' ≠ b := by
  induction ks generalizing n with
  | nil => cases h
  | cons x ks ih =>
    simp only [firstAcceptor] at h
    split_ifs at h with hx
    · simp only [Option.some.injEq, Prod.mk.injEq] at h
      obtain ⟨rfl, rfl⟩ := h
      exact ⟨le_refl _, by simp, hx, by simp⟩
    · obtain ⟨h1, h2, h3, h4⟩ := ih h
      have he : i - n = (i - (n + 1)) + 1 := by omega
      refine ⟨by omega, by rw [he]; simpa using h2, h3, fun j hj k' hk' => ?_⟩
      cases j with
      | zero =>
        simp only [List.getElem?_cons_zero, Option.some.injEq] at hk'
        subst hk'
        exact hx
      | succ j => exact h4 j (by omega) k' (by simpa using hk')

theorem firstAcceptor_none {b : Byte} {ks : List Kind} {n : Nat} :
    firstAcceptor b ks n = none ↔ ∀ k ∈ ks, preamble k ≠ b := by
  induction ks generalizing n with
  | nil => simp [firstAcceptor]
  | cons x ks ih =>
    simp only [firstAcceptor]
    split_ifs with hx
    · simp [hx]
    · simp [hx, ih]

/-- The entry that `FIRST_BYTE` latches (41_dispatch.md R126, R128). -/
theorem firstAcceptor_of_latches {p : ParseState} {i : Nat} {k : Kind} (h : p.Latches i k) :
    firstAcceptor (preamble k) p.table 0 = some (i, k) := by
  have aux : ∀ (ks : List Kind) (i n : Nat), ks[i]? = some k →
      (∀ j < i, ∀ k', ks[j]? = some k' → preamble k' ≠ preamble k) →
      firstAcceptor (preamble k) ks n = some (n + i, k) := by
    intro ks
    induction ks with
    | nil => intro i n h1; simp at h1
    | cons x ks ih =>
      intro i n h1 h2
      cases i with
      | zero =>
        simp only [List.getElem?_cons_zero, Option.some.injEq] at h1
        subst h1
        simp [firstAcceptor]
      | succ i =>
        have hx : preamble x ≠ preamble k := h2 0 (by omega) x (by simp)
        rw [firstAcceptor, if_neg hx, ih i (n + 1) (by simpa using h1) fun j hj k' hk' =>
          h2 (j + 1) (by omega) k' (by simpa using hk')]
        congr 2
        omega
  simpa using aux p.table i 0 h.1 h.2

theorem Scratch.zero_kind (k : Kind) : (Scratch.zero k).kind = k := by
  cases k <;> rfl

theorem Scratch.zero_inRange (k : Kind) : (Scratch.zero k).InRange := by
  cases k <;> simp [Scratch.zero, Scratch.InRange]

theorem firstState_owners (k : Kind) : (firstState k).owners = [k] := by
  cases k <;> rfl

/-- `FIRST_BYTE` with a byte that an entry accepts (41_dispatch.md R126). -/
theorem firstByte_latch {p : ParseState} {i : Nat} {k : Kind} (h : p.Latches i k) :
    firstByte p (preamble k) = quiet ((p.restart (preamble k)).latch i k (preamble k)) := by
  simp [firstByte, firstAcceptor_of_latches h]

/-- `FIRST_BYTE` with a byte that no entry accepts (41_dispatch.md R126). -/
theorem firstByte_unaccepted {p : ParseState} {b : Byte} (h : ∀ k ∈ p.table, preamble k ≠ b) :
    firstByte p b =
      if p.invalidEn then raise (p.restart b) (.invalidData .noParser [b]) (.inInvalid none)
      else quiet (p.restart b) := by
  simp [firstByte, firstAcceptor_none.mpr h]

theorem ParseState.Base.restart {p : ParseState} (h : p.Base) (b : Byte) : (p.restart b).Inv where
  tableNonempty := h.tableNonempty
  areaSize := h.areaSize
  lengthBound := h.areaSize.1
  canonical := Memory.write_wf h.canonical _ _
  inside := fun c hc => by
    rcases Memory.mem_write hc with hc | hc
    · rw [hc]; exact h.areaSize.1
    · exact h.inside c hc
  filled := fun i hi => by
    have hi0 : i = 0 := by simpa using hi
    subst hi0
    simp
  activeBound := by simp
  searching := by simp
  latched := by simp
  fields := h.fields
  crcBits := ParseState.crcInRange_zero rfl

theorem crcInRange_latch (p : ParseState) (i : Nat) (k : Kind) (b : Byte) :
    (p.latch i k b).CrcInRange := by
  cases k <;> simp [ParseState.CrcInRange, Scratch.zero, acceptCrc]
  omega

/-- `FIRST_BYTE` never stops and keeps the invariant, whatever the frame before it was. -/
theorem firstByte_safe {p : ParseState} (h : p.Base) (b : Byte) : Safe (firstByte p b) := by
  unfold firstByte
  split
  · rename_i i k ha
    obtain ⟨-, hk, hpre, hfirst⟩ := firstAcceptor_some ha
    simp only [Nat.sub_zero] at hk hfirst
    have hi : i < p.table.length := (List.getElem?_eq_some_iff.mp hk).1
    have hrestart := h.restart b
    refine Safe.quiet ?_ ?_
    · exact
        { tableNonempty := h.tableNonempty
          areaSize := h.areaSize
          lengthBound := h.areaSize.1
          canonical := hrestart.canonical
          inside := hrestart.inside
          filled := hrestart.filled
          activeBound := hi.le
          searching := by
            have : firstState k ≠ .firstByte := by cases k <;> decide
            exact ⟨fun he => absurd he (Nat.ne_of_lt hi), fun he => absurd he this⟩
          latched := fun _ =>
            ⟨k, ⟨hk, fun j hj k' hk' => hpre ▸ hfirst j hj k' hk'⟩,
              by simp [firstState_owners], by simp, by simp [hpre],
              by simp [Scratch.zero_kind]⟩
          fields := fun r hr => by
            simp only [ParseState.latch_sp, Option.some.injEq] at hr
            subst hr
            exact Scratch.zero_inRange k
          crcBits := crcInRange_latch _ i k b }
    · cases k <;> simp [ParseState.Progress, firstState, Scratch.zero]
  · split_ifs
    · exact Safe.raise (h.restart b) (by simp) rfl (by simp)
    · exact Safe.quiet (h.restart b) (by simp [ParseState.Progress])

/-! ### The failure procedures -/

/-- `FAIL` never stops and keeps the invariant (60_exceptions.md R352). -/
theorem fail_safe {p : ParseState} (h : p.Inv) (hlen : 2 ≤ p.length) (c : Cause) (b : Byte) :
    Safe (fail c p b) := by
  unfold fail
  split_ifs
  · obtain ⟨bs, hbs⟩ := ParseState.slice_exists (p := p) (a := 0) (b := p.length - 1)
      fun i _ hi => h.filled i (by omega)
    have hne : bs ≠ [] := fun he => by
      have := (ParseState.slice_eq_ok.mp hbs).1
      rw [he, List.length_nil] at this
      omega
    rw [hbs]
    exact Safe.raise h (by simp) trivial (fun _ _ he => by cases he; exact hne)
  · exact firstByte_safe h.base b

/-- `FAIL_TOO_LONG` never stops and keeps the invariant (60_exceptions.md R353). -/
theorem failTooLong_safe {p : ParseState} (h : p.Inv) (hlen : 1 ≤ p.length) (b : Byte) :
    Safe (failTooLong p b) := by
  unfold failTooLong
  split_ifs
  · obtain ⟨bs, hbs⟩ := ParseState.slice_exists (p := p) (a := 0) (b := p.length)
      fun i _ hi => h.filled i hi
    have hne : bs ≠ [] := fun he => by
      have := (ParseState.slice_eq_ok.mp hbs).1
      rw [he, List.length_nil] at this
      omega
    rw [hbs]
    exact Safe.raise h (by simp) trivial (fun _ _ he => by cases he; exact hne)
  · exact firstByte_safe h.base b

/-! ### Frame completion -/

/-- `DELIVER` never stops (41_dispatch.md R129). -/
theorem deliver_safe {p : ParseState} (h : p.Inv) {k : Kind}
    (hk : p.table[p.active]? = some k) (ht : isText k = false) : Safe (deliver p) := by
  unfold deliver
  obtain ⟨bs, hbs⟩ := ParseState.slice_exists (p := p) (a := 0) (b := p.length)
    fun i _ hi => h.filled i hi
  rw [hbs]
  exact Safe.raise h (by simp) ⟨k, hk, ht⟩ (by simp)

/-- The text trailer keeps the invariant where there is room for it (41_dispatch.md R130). -/
theorem ParseState.Inv.trailer {p : ParseState} (h : p.Inv) (hlen : 1 ≤ p.length)
    (hroom : p.length + 3 ≤ p.bufferLength) : p.trailer.Inv where
  tableNonempty := h.tableNonempty
  areaSize := h.areaSize
  lengthBound := by simp; omega
  canonical := Memory.write_wf (Memory.write_wf (Memory.write_wf h.canonical _ _) _ _) _ _
  inside := fun c hc => by
    rcases Memory.mem_write hc with hc | hc
    · rw [hc, ParseState.trailer_bufferLength]; simp only; omega
    rcases Memory.mem_write hc with hc | hc
    · rw [hc, ParseState.trailer_bufferLength]; simp only; omega
    rcases Memory.mem_write hc with hc | hc
    · rw [hc, ParseState.trailer_bufferLength]; simp only; omega
    exact h.inside c hc
  filled := fun i hi => by
    rw [ParseState.trailer_length] at hi
    simp only [ParseState.trailer_buffer, Memory.read_write]
    split_ifs
    · rfl
    · rfl
    · rfl
    · exact h.filled i (by omega)
  activeBound := h.activeBound
  searching := h.searching
  latched := fun ha => by
    obtain ⟨k, hl, hk, h1, h0, hsp⟩ := h.latched ha
    refine ⟨k, hl, hk, by simp, ?_, hsp⟩
    rw [ParseState.trailer_buffer, Memory.read_write_other _ _ (by omega),
      Memory.read_write_other _ _ (by omega), Memory.read_write_other _ _ (by omega), h0]
  fields := h.fields
  crcBits := h.crcBits

/-- `TEXT_DELIVER` never stops (41_dispatch.md R130). -/
theorem textDeliver_safe {p : ParseState} (h : p.Inv) (hlen : 2 ≤ p.length) {k : Kind}
    (hk : p.table[p.active]? = some k) (ht : isText k = true) (b : Byte) :
    Safe (textDeliver p b) := by
  unfold textDeliver
  split_ifs with hroom
  · exact fail_safe h hlen _ b
  · have hi := h.trailer (by omega) (by omega)
    obtain ⟨bs, hbs⟩ := ParseState.slice_exists (p := p.trailer) (a := 0) (b := p.trailer.length)
      fun i _ hi' => hi.filled i hi'
    rw [hbs]
    exact Safe.raise hi (by simp) ⟨k, hk, ht⟩ (by simp)

theorem complete_safe {p : ParseState} (h : p.Inv) (hlen : 2 ≤ p.length) {k : Kind} {text : Bool}
    (hk : p.table[p.active]? = some k) (ht : isText k = text) (b : Byte) :
    Safe (complete text p b) := by
  unfold complete
  cases text
  · exact deliver_safe h hk ht
  · exact textDeliver_safe h hlen hk ht b

/-- A verdict acted on never stops (60_exceptions.md R354). -/
theorem conclude_safe {p : ParseState} (h : p.Inv) (hlen : 2 ≤ p.length) {k : Kind} {text : Bool}
    (hk : p.table[p.active]? = some k) (ht : isText k = text) {b : Byte}
    (hlast : p.buffer.read (p.length - 1) = some b) (good : Bool) :
    Safe (conclude good text p b) := by
  unfold conclude softCrc
  split_ifs with hgood hbad
  · exact complete_safe h hlen hk ht b
  · exact Safe.raise h (by simp) ⟨hbad, hlen, hlast, k, hk, ht⟩ (by simp)
  · exact fail_safe h hlen _ b

/-! ### The line-terminator states and the host's return -/

theorem lineTerm_safe {p : ParseState} (h : p.Inv) (hs : p.state.owners = [.nmea, .uhash])
    (b : Byte) : Safe (lineTerm p b) := by
  have hgoto : ∀ st : PState, st.owners = [.nmea, .uhash] → (p.goto st).Inv := fun st hst => by
    have hne : p.active ≠ p.count := fun he => by
      rw [h.searching.mp he] at hs
      cases hs
    obtain ⟨k, hl, hk, h1, h0, hsp⟩ := h.latched (Nat.lt_of_le_of_ne h.activeBound hne)
    obtain ⟨r, hr, hrk⟩ := Option.map_eq_some_iff.mp hsp
    exact h.advance hl h1 h0 rfl rfl rfl rfl rfl (by rw [ParseState.goto_state, hst, ← hs]; exact hk)
      hr hrk (h.fields r hr) h.crcBits
  unfold lineTerm
  split_ifs
  · exact Safe.quiet (hgoto _ rfl) (by simp [ParseState.Progress])
  · exact Safe.quiet (hgoto _ rfl) (by simp [ParseState.Progress])
  · exact firstByte_safe h.base b

theorem crThenLf_safe {p : ParseState} (h : p.Inv) (b : Byte) : Safe (crThenLf p b) := by
  unfold crThenLf
  split_ifs
  · exact Safe.quiet h.search (by simp [ParseState.Progress])
  · exact firstByte_safe h.base b

theorem lfThenCr_safe {p : ParseState} (h : p.Inv) (b : Byte) : Safe (lfThenCr p b) := by
  unfold lfThenCr
  split_ifs
  · exact Safe.quiet h.search (by simp [ParseState.Progress])
  · exact firstByte_safe h.base b

/-- What follows the host's return never stops and keeps the invariant (60_exceptions.md R360). -/
theorem afterWindow_safe {p : ParseState} (h : p.Inv) {w : Window} (hw : w ≠ .none)
    (hf : w.Fits p) (answer : Bool) : Safe (afterWindow answer p w) := by
  match w, hw, hf with
  | .inEom false, _, _ => exact Safe.quiet h.search (by simp [ParseState.Progress])
  | .inEom true, _, ⟨k, hk, ht⟩ =>
    have ha : p.active < p.count := (List.getElem?_eq_some_iff.mp hk).1
    obtain ⟨k', hl, hk', h1, h0, hsp⟩ := h.latched ha
    obtain ⟨r, hr, hrk⟩ := Option.map_eq_some_iff.mp hsp
    have he : k' = k := Option.some.inj (hl.1.symm.trans hk)
    subst he
    refine Safe.quiet (h.advance hl h1 h0 rfl rfl rfl rfl rfl ?_ hr hrk (h.fields r hr) h.crcBits)
      (by simp [ParseState.Progress])
    cases k' <;> simp_all [PState.owners, isText]
  | .inInvalid Option.none, _, hf =>
    refine Safe.quiet h ?_
    have : p.state = .firstByte := hf
    simp [ParseState.Progress, this]
  | .inInvalid (some b), _, _ => exact firstByte_safe h.base b
  | .inBadCrc b text, _, ⟨_, hlen, _, k, hk, ht⟩ =>
    simp only [afterWindow]
    split_ifs
    · exact complete_safe h hlen hk ht b
    · exact fail_safe h hlen _ b

end Sys2Proof.Machine
end

