-- ==== Sys2Proof/Laws/Handlers.lean ====
section
/-! SUPPORT. Laws/Handlers.lean: every state handler of 42_nmea.md to 48_unicore_hash.md, run with its byte
appended, keeps the invariant of Safety.lean and never stops. -/

namespace Sys2Proof.Machine

/-- A ParseState to whose frame `b` has just been appended (41_dispatch.md R124). -/
structure ParseState.Taking (q : ParseState) (b : Byte) : Prop where
  inv : q.Inv
  two : 2 ≤ q.length
  last : q.buffer.read (q.length - 1) = some b

theorem ParseState.Inv.taking {p : ParseState} (h : p.Inv) {k : Kind} (hs : k ∈ p.state.owners)
    (b : Byte) (hlt : p.length < p.bufferLength) : (p.append b).Taking b where
  inv := h.append b hlt
  two := by
    have hne : p.active ≠ p.count := fun he => by
      rw [h.searching.mp he] at hs
      cases hs
    obtain ⟨-, -, -, h1, -⟩ := h.latched (Nat.lt_of_le_of_ne h.activeBound hne)
    simpa using h1
  last := p.append_read_last b

/-- The record a kind's handler reads, in a state of that kind. -/
theorem ParseState.Taking.record {q : ParseState} {b : Byte} (h : q.Taking b) {k : Kind}
    (hs : q.state.owners = [k]) :
    q.Latches q.active k ∧ ∃ r, q.sp = some r ∧ r.kind = k ∧ r.InRange := by
  obtain ⟨-, hl, -, -, r, hr, hrk⟩ := h.inv.latched_of_state hs
  exact ⟨hl, r, hr, hrk, h.inv.fields r hr⟩

/-- A handler that advances: the cursor's buffer part stays, the rest stays the latched kind's. -/
theorem ParseState.Taking.quiet {q q' : ParseState} {b : Byte} (h : q.Taking b) {k : Kind}
    {r : Scratch} (hs : q.state.owners = [k])
    (same : q'.table = q.table ∧ q'.bufferLength = q.bufferLength ∧ q'.buffer = q.buffer ∧
      q'.length = q.length ∧ q'.active = q.active)
    (hs' : q'.state.owners = [k]) (hr : q'.sp = some r) (hrk : r.kind = k) (hri : r.InRange)
    (hc : q'.CrcInRange) (hp : q'.Progress) : Safe (quiet q') := by
  obtain ⟨-, hl, h1, h0, -⟩ := h.inv.latched_of_state hs
  obtain ⟨s1, s2, s3, s4, s5⟩ := same
  exact Safe.quiet (h.inv.advance hl h1 h0 s1 s2 s3 s4 s5 (by simp [hs']) hr hrk hri hc) hp

theorem ParseState.Taking.fail {q : ParseState} {b : Byte} (h : q.Taking b) (c : Cause) :
    Safe (fail c q b) :=
  fail_safe h.inv h.two c b

theorem ParseState.Taking.conclude {q : ParseState} {b : Byte} (h : q.Taking b) {k : Kind}
    (hs : q.state.owners = [k]) (good : Bool) : Safe (conclude good (isText k) q b) :=
  conclude_safe h.inv h.two (h.inv.latched_of_state hs).2.1.1 rfl h.last good

/-- Rewriting the record and the accumulator of the latched kind keeps what a handler works on. -/
theorem ParseState.Taking.update {q q' : ParseState} {b : Byte} (h : q.Taking b) {k : Kind}
    {r : Scratch} (hs : q.state.owners = [k])
    (same : q'.table = q.table ∧ q'.bufferLength = q.bufferLength ∧ q'.buffer = q.buffer ∧
      q'.length = q.length ∧ q'.active = q.active)
    (hs' : q'.state.owners = [k]) (hr : q'.sp = some r) (hrk : r.kind = k) (hri : r.InRange)
    (hc : q'.CrcInRange) : q'.Taking b := by
  obtain ⟨-, hl, h1, h0, -⟩ := h.inv.latched_of_state hs
  obtain ⟨s1, s2, s3, s4, s5⟩ := same
  exact ⟨h.inv.advance hl h1 h0 s1 s2 s3 s4 s5 (by simp [hs']) hr hrk hri hc,
    by rw [s4]; exact h.two, by rw [s3, s4]; exact h.last⟩

/-- The record rewritten. -/
theorem ParseState.Taking.setSp {q : ParseState} {b : Byte} (h : q.Taking b) {k : Kind}
    (hs : q.state.owners = [k]) (r : Scratch) (hrk : r.kind = k) (hri : r.InRange)
    (hc : (q.setSp r).CrcInRange) : (q.setSp r).Taking b :=
  h.update hs ⟨rfl, rfl, rfl, rfl, rfl⟩ hs rfl hrk hri hc

/-- The accumulator and the record rewritten. -/
theorem ParseState.Taking.setCrcSp {q : ParseState} {b : Byte} (h : q.Taking b) {k : Kind}
    (hs : q.state.owners = [k]) (v : BitVec 32) (r : Scratch) (hrk : r.kind = k)
    (hri : r.InRange) (hc : ((q.setCrc v).setSp r).CrcInRange) :
    ((q.setCrc v).setSp r).Taking b :=
  h.update hs ⟨rfl, rfl, rfl, rfl, rfl⟩ hs rfl hrk hri hc

/-! ### Small facts of the fields -/

theorem toNat_setWidth32_lt {w : Nat} (v : BitVec w) (hw : w ≤ 32) :
    (v.setWidth 32).toNat < 2 ^ w := by
  rw [BitVec.toNat_setWidth_of_le hw]
  exact v.isLt

theorem crc_xor_lt {c : BitVec 32} (h : c.toNat < 2 ^ 8) (b : Byte) :
    (c ^^^ b.setWidth 32).toNat < 2 ^ 8 := by
  rw [BitVec.toNat_xor]
  exact Nat.xor_lt_two_pow h (toNat_setWidth32_lt b (by omega))

theorem toNat_sub_one {w : Nat} {v : BitVec w} (hw : 1 ≤ w) (h : 1 ≤ v.toNat) :
    (v - 1).toNat = v.toNat - 1 := by
  have h1 : (1 : BitVec w).toNat = 1 :=
    Nat.mod_eq_of_lt (Nat.one_lt_two_pow (by omega) : 1 < 2 ^ w)
  rw [BitVec.toNat_sub_of_le (by rw [BitVec.le_def, h1]; exact h), h1]

theorem one_le_of_ne_zero {w : Nat} {v : BitVec w} (h : v ≠ 0) : 1 ≤ v.toNat := by
  rcases Nat.eq_zero_or_pos v.toNat with h0 | h0
  · exact absurd (BitVec.eq_of_toNat_eq (by simpa using h0)) h
  · exact h0

/-! ### NMEA -/

theorem ParseState.Taking.nmea {q : ParseState} {b : Byte} (h : q.Taking b)
    (hs : q.state.owners = [.nmea]) :
    ∃ r, q.sp = some (.nmea r) ∧ r.nameLen.toNat ≤ 15 ∧ q.crc.toNat < 2 ^ 8 := by
  obtain ⟨-, r, hr, hrk, hri⟩ := h.record hs
  have hc := h.inv.crcBits
  cases r <;> simp [Scratch.kind] at hrk
  rename_i r
  simp only [ParseState.CrcInRange, hr] at hc
  exact ⟨r, hr, hri, hc⟩

theorem nmeaNameStep_safe {q : ParseState} {b : Byte} (h : q.Taking b)
    (hs : q.state = .nmeaNameThenFirstComma) : Safe (nmeaNameStep q b) := by
  have ho : q.state.owners = [.nmea] := by rw [hs]; rfl
  obtain ⟨r, hr, hn, hc⟩ := h.nmea ho
  simp only [nmeaNameStep, withNmea, hr]
  split_ifs with h1 h2
  · exact h.quiet ho ⟨rfl, rfl, rfl, rfl, rfl⟩ rfl rfl rfl hn (crc_xor_lt hc b) trivial
  · refine h.quiet ho ⟨rfl, rfl, rfl, rfl, rfl⟩ ho rfl rfl ?_ (crc_xor_lt hc b)
      (by simp [ParseState.Progress, hs])
    have := h2.2
    simp only [Scratch.InRange]
    bv_omega
  · exact h.fail _

theorem nmeaBodyStep_safe {q : ParseState} {b : Byte} (h : q.Taking b)
    (hs : q.state = .nmeaFindAsterisk) : Safe (nmeaBodyStep q b) := by
  have ho : q.state.owners = [.nmea] := by rw [hs]; rfl
  obtain ⟨r, hr, hn, hc⟩ := h.nmea ho
  unfold nmeaBodyStep
  split_ifs
  · exact h.quiet ho ⟨rfl, rfl, rfl, rfl, rfl⟩ rfl hr rfl hn h.inv.crcBits trivial
  · exact h.fail _
  · refine h.quiet ho ⟨rfl, rfl, rfl, rfl, rfl⟩ ho hr rfl hn ?_ (by simp [ParseState.Progress, hs])
    simp only [ParseState.CrcInRange, ParseState.foldXor_eq, ParseState.setCrc_sp, hr,
      ParseState.setCrc_crc]
    exact crc_xor_lt hc b

theorem nmeaChecksumHiStep_safe {q : ParseState} {b : Byte} (h : q.Taking b)
    (hs : q.state = .nmeaChecksumHi) : Safe (nmeaChecksumHiStep q b) := by
  have ho : q.state.owners = [.nmea] := by rw [hs]; rfl
  obtain ⟨r, hr, hn, -⟩ := h.nmea ho
  unfold nmeaChecksumHiStep
  split_ifs with hx
  · exact h.quiet ho ⟨rfl, rfl, rfl, rfl, rfl⟩ rfl hr rfl hn h.inv.crcBits ⟨b, h.last, hx⟩
  · exact h.fail _

/-- A string of hex digits has a value (30_encoding.md R71). -/
theorem hexNumber_isSome {ds : List Byte} (h : ∀ d ∈ ds, isHex d = true) :
    ∃ n, hexNumber ds = some n := by
  have aux : ∀ (ds : List Byte) (n : Nat), (∀ d ∈ ds, isHex d = true) →
      ∃ m, ds.foldl (fun acc d =>
        match acc, hexval d with
        | some n, some v => some (n * 16 + v)
        | _, _ => none) (some n) = some m := by
    intro ds
    induction ds with
    | nil => exact fun n _ => ⟨n, rfl⟩
    | cons d ds ih =>
      intro n hd
      obtain ⟨v, hv⟩ := Option.isSome_iff_exists.mp (hd d (by simp))
      simp only [List.foldl_cons, hv]
      exact ih _ fun x hx => hd x (by simp [hx])
  exact aux ds 0 h

theorem nmeaChecksumLoStep_safe {q : ParseState} {b : Byte} (h : q.Taking b)
    (hs : q.state = .nmeaChecksumLo) (hp : q.HexAt (q.length - 2)) :
    Safe (nmeaChecksumLoStep q b) := by
  have ho : q.state.owners = [.nmea] := by rw [hs]; rfl
  unfold nmeaChecksumLoStep
  split_ifs with hx
  · obtain ⟨hi, hread, hhex⟩ := hp
    obtain ⟨n, hn⟩ := hexNumber_isSome (ds := [hi, b]) (by simp [hhex, hx])
    rw [ParseState.byteAt_of_read hread]
    simp only [nmeaVerdict, hn]
    exact h.conclude ho _
  · exact h.fail _

/-! ### RTCM -/

theorem ParseState.Taking.rtcm {q : ParseState} {b : Byte} (h : q.Taking b)
    (hs : q.state.owners = [.rtcm]) :
    ∃ r, q.sp = some (.rtcm r) ∧ r.messageId.toNat < 2 ^ 12 := by
  obtain ⟨-, r, hr, hrk, hri⟩ := h.record hs
  cases r <;> simp [Scratch.kind] at hrk
  exact ⟨_, hr, hri⟩

/-- The end of an RTCM payload state, with the byte folded. -/
theorem rtcmContinue_safe {q : ParseState} {b : Byte} (h : q.Taking b)
    (hs : q.state.owners = [.rtcm]) {r : RtcmRec} (hri : r.messageId.toNat < 2 ^ 12)
    {next : PState} (hnext : next = .rtcmMsgIdHi ∨ next = .rtcmMsgIdLo ∨ next = .rtcmData) :
    Safe (rtcmContinue (q.foldCrc24q b) r next) := by
  unfold rtcmContinue enterRtcmCrc
  have hc : ((crc24q (q.crc.setWidth 24) b).setWidth 32).toNat < 2 ^ 24 :=
    toNat_setWidth32_lt _ (by omega)
  split_ifs with hz
  · refine h.quiet hs ⟨rfl, rfl, rfl, rfl, rfl⟩ rfl rfl rfl hri hc ?_
    intro r' hr'
    cases hr'
    exact Nat.le_of_ble_eq_true rfl
  · refine h.quiet hs ⟨rfl, rfl, rfl, rfl, rfl⟩ ?_ rfl rfl hri hc ?_
    · rcases hnext with rfl | rfl | rfl <;> rfl
    · have := one_le_of_ne_zero hz
      rcases hnext with rfl | rfl | rfl <;> (intro r' hr'; cases hr'; exact this)

theorem rtcmLengthHiStep_safe {q : ParseState} {b : Byte} (h : q.Taking b)
    (hs : q.state = .rtcmLengthHi) : Safe (rtcmLengthHiStep q b) := by
  have ho : q.state.owners = [.rtcm] := by rw [hs]; rfl
  obtain ⟨r, hr, hri⟩ := h.rtcm ho
  simp only [rtcmLengthHiStep, withRtcm, hr]
  have hc : ((crc24q (q.crc.setWidth 24) b).setWidth 32).toNat < 2 ^ 24 :=
    toNat_setWidth32_lt _ (by omega)
  split_ifs
  · exact h.quiet ho ⟨rfl, rfl, rfl, rfl, rfl⟩ rfl rfl rfl hri hc trivial
  · refine (h.update (q' := q.foldCrc24q b) ho ⟨rfl, rfl, rfl, rfl, rfl⟩ ho hr rfl hri ?_).fail _
    simp only [ParseState.CrcInRange, ParseState.foldCrc24q_eq, ParseState.setCrc_sp, hr]
    exact hc

theorem rtcmLengthLoStep_safe {q : ParseState} {b : Byte} (h : q.Taking b)
    (hs : q.state = .rtcmLengthLo) : Safe (rtcmLengthLoStep q b) := by
  have ho : q.state.owners = [.rtcm] := by rw [hs]; rfl
  obtain ⟨r, hr, hri⟩ := h.rtcm ho
  simp only [rtcmLengthLoStep, withRtcm, hr]
  exact rtcmContinue_safe h ho (by exact hri) (.inl rfl)

theorem rtcmMsgIdHiStep_safe {q : ParseState} {b : Byte} (h : q.Taking b)
    (hs : q.state = .rtcmMsgIdHi) : Safe (rtcmMsgIdHiStep q b) := by
  have ho : q.state.owners = [.rtcm] := by rw [hs]; rfl
  obtain ⟨r, hr, hri⟩ := h.rtcm ho
  simp only [rtcmMsgIdHiStep, withRtcm, hr]
  refine rtcmContinue_safe h ho ?_ (.inr (.inl rfl))
  have := b.isLt
  simp only [BitVec.toNat_shiftLeft, BitVec.toNat_setWidth]
  omega

theorem rtcmMsgIdLoStep_safe {q : ParseState} {b : Byte} (h : q.Taking b)
    (hs : q.state = .rtcmMsgIdLo) : Safe (rtcmMsgIdLoStep q b) := by
  have ho : q.state.owners = [.rtcm] := by rw [hs]; rfl
  obtain ⟨r, hr, hri⟩ := h.rtcm ho
  simp only [rtcmMsgIdLoStep, withRtcm, hr]
  refine rtcmContinue_safe h ho ?_ (.inr (.inr rfl))
  have := b.isLt
  rw [BitVec.toNat_or]
  refine Nat.or_lt_two_pow hri ?_
  simp only [BitVec.toNat_setWidth, BitVec.toNat_ushiftRight]
  omega

theorem rtcmDataStep_safe {q : ParseState} {b : Byte} (h : q.Taking b)
    (hs : q.state = .rtcmData) : Safe (rtcmDataStep q b) := by
  have ho : q.state.owners = [.rtcm] := by rw [hs]; rfl
  obtain ⟨r, hr, hri⟩ := h.rtcm ho
  simp only [rtcmDataStep, withRtcm, hr]
  exact rtcmContinue_safe h ho (by exact hri) (.inr (.inr rfl))

theorem rtcmCrcStep_safe {q : ParseState} {b : Byte} (h : q.Taking b)
    (hs : q.state = .rtcmCrc) : Safe (rtcmCrcStep q b) := by
  have ho : q.state.owners = [.rtcm] := by rw [hs]; rfl
  obtain ⟨r, hr, hri⟩ := h.rtcm ho
  simp only [rtcmCrcStep, withRtcm, hr]
  have hc : ((crc24q (q.crc.setWidth 24) b).setWidth 32).toNat < 2 ^ 24 :=
    toNat_setWidth32_lt _ (by omega)
  split_ifs with hz
  · exact (h.setCrcSp ho _ (.rtcm { r with bytesRemaining := r.bytesRemaining - 1 }) rfl hri
      hc).conclude ho _
  · refine h.quiet ho ⟨rfl, rfl, rfl, rfl, rfl⟩ ho rfl rfl hri hc ?_
    have := one_le_of_ne_zero hz
    simp only [ParseState.Progress, ParseState.setSp_state, ParseState.foldCrc24q_eq,
      ParseState.setCrc_state, hs]
    intro r' hr'
    cases hr'
    exact this

/-! ### UBX -/

theorem ParseState.Taking.ubx {q : ParseState} {b : Byte} (h : q.Taking b)
    (hs : q.state.owners = [.ubx]) : ∃ r, q.sp = some (.ubx r) ∧ q.crc = 0 := by
  obtain ⟨-, r, hr, hrk, -⟩ := h.record hs
  have hc := h.inv.crcBits
  cases r <;> simp [Scratch.kind] at hrk
  simp only [ParseState.CrcInRange, hr] at hc
  exact ⟨_, hr, hc⟩

theorem ubxSync2Step_safe {q : ParseState} {b : Byte} (h : q.Taking b)
    (hs : q.state = .ubxSync2) : Safe (ubxSync2Step q b) := by
  have ho : q.state.owners = [.ubx] := by rw [hs]; rfl
  obtain ⟨r, hr, -⟩ := h.ubx ho
  unfold ubxSync2Step
  split_ifs
  · exact h.quiet ho ⟨rfl, rfl, rfl, rfl, rfl⟩ rfl hr rfl trivial h.inv.crcBits trivial
  · exact h.fail _

theorem ubxClassStep_safe {q : ParseState} {b : Byte} (h : q.Taking b)
    (hs : q.state = .ubxClass) : Safe (ubxClassStep q b) := by
  have ho : q.state.owners = [.ubx] := by rw [hs]; rfl
  obtain ⟨r, hr, hc⟩ := h.ubx ho
  simp only [ubxClassStep, withUbx, hr]
  exact h.quiet ho ⟨rfl, rfl, rfl, rfl, rfl⟩ rfl rfl rfl trivial hc trivial

theorem ubxIdStep_safe {q : ParseState} {b : Byte} (h : q.Taking b)
    (hs : q.state = .ubxId) : Safe (ubxIdStep q b) := by
  have ho : q.state.owners = [.ubx] := by rw [hs]; rfl
  obtain ⟨r, hr, hc⟩ := h.ubx ho
  simp only [ubxIdStep, withUbx, hr]
  exact h.quiet ho ⟨rfl, rfl, rfl, rfl, rfl⟩ rfl rfl rfl trivial hc trivial

theorem ubxLengthLoStep_safe {q : ParseState} {b : Byte} (h : q.Taking b)
    (hs : q.state = .ubxLengthLo) : Safe (ubxLengthLoStep q b) := by
  have ho : q.state.owners = [.ubx] := by rw [hs]; rfl
  obtain ⟨r, hr, hc⟩ := h.ubx ho
  simp only [ubxLengthLoStep, withUbx, hr]
  exact h.quiet ho ⟨rfl, rfl, rfl, rfl, rfl⟩ rfl rfl rfl trivial hc trivial

theorem ubxLengthHiStep_safe {q : ParseState} {b : Byte} (h : q.Taking b)
    (hs : q.state = .ubxLengthHi) : Safe (ubxLengthHiStep q b) := by
  have ho : q.state.owners = [.ubx] := by rw [hs]; rfl
  obtain ⟨r, hr, hc⟩ := h.ubx ho
  simp only [ubxLengthHiStep, withUbx, hr]
  split_ifs with hz
  · exact h.quiet ho ⟨rfl, rfl, rfl, rfl, rfl⟩ rfl rfl rfl trivial hc trivial
  · refine h.quiet ho ⟨rfl, rfl, rfl, rfl, rfl⟩ rfl rfl rfl trivial hc ?_
    have := one_le_of_ne_zero hz
    intro r' hr'
    cases hr'
    exact this

theorem ubxPayloadStep_safe {q : ParseState} {b : Byte} (h : q.Taking b)
    (hs : q.state = .ubxPayload) : Safe (ubxPayloadStep q b) := by
  have ho : q.state.owners = [.ubx] := by rw [hs]; rfl
  obtain ⟨r, hr, hc⟩ := h.ubx ho
  simp only [ubxPayloadStep, withUbx, hr]
  split_ifs with hz
  · exact h.quiet ho ⟨rfl, rfl, rfl, rfl, rfl⟩ rfl rfl rfl trivial hc trivial
  · refine h.quiet ho ⟨rfl, rfl, rfl, rfl, rfl⟩ rfl rfl rfl trivial hc ?_
    have := one_le_of_ne_zero hz
    intro r' hr'
    cases hr'
    exact this

theorem ubxCkAStep_safe {q : ParseState} {b : Byte} (h : q.Taking b)
    (hs : q.state = .ubxCkA) : Safe (ubxCkAStep q) := by
  have ho : q.state.owners = [.ubx] := by rw [hs]; rfl
  obtain ⟨r, hr, -⟩ := h.ubx ho
  exact h.quiet ho ⟨rfl, rfl, rfl, rfl, rfl⟩ rfl hr rfl trivial h.inv.crcBits trivial

theorem ubxCkBStep_safe {q : ParseState} {b : Byte} (h : q.Taking b)
    (hs : q.state = .ubxCkB) : Safe (ubxCkBStep q b) := by
  have ho : q.state.owners = [.ubx] := by rw [hs]; rfl
  obtain ⟨r, hr, -⟩ := h.ubx ho
  have h2 := h.two
  obtain ⟨a, ha⟩ := Option.isSome_iff_exists.mp (h.inv.filled (q.length - 2) (by omega))
  simp only [ubxCkBStep, withUbx, hr, ParseState.byteAt_of_read ha]
  exact h.conclude ho _

/-! ### SBF -/

theorem ParseState.Taking.sbf {q : ParseState} {b : Byte} (h : q.Taking b)
    (hs : q.state.owners = [.sbf]) : ∃ r, q.sp = some (.sbf r) := by
  obtain ⟨-, r, hr, hrk, -⟩ := h.record hs
  cases r <;> simp [Scratch.kind] at hrk
  exact ⟨_, hr⟩

theorem ParseState.crcInRange_ccitt16 (q : ParseState) (b : Byte) (r : SbfRec) :
    ((q.foldCcitt16 b).setSp (.sbf r)).CrcInRange :=
  toNat_setWidth32_lt _ (by omega)

theorem sbfFinish_safe {q : ParseState} {b : Byte} (h : q.Taking b)
    (hs : q.state.owners = [.sbf]) (hc : q.crc.toNat < 2 ^ 16) (r : SbfRec) :
    Safe (sbfFinish q r b) := by
  unfold sbfFinish
  have h' := h.update (q' := q.setSp (.sbf { r with computedCrc := q.crc.setWidth 16 })) hs
    ⟨rfl, rfl, rfl, rfl, rfl⟩ hs rfl rfl trivial hc
  split_ifs
  · exact deliver_safe h'.inv (h'.inv.latched_of_state (k := .sbf) hs).2.1.1 rfl
  · exact h'.fail _

theorem sbfPreamble2Step_safe {q : ParseState} {b : Byte} (h : q.Taking b)
    (hs : q.state = .sbfPreamble2) : Safe (sbfPreamble2Step q b) := by
  have ho : q.state.owners = [.sbf] := by rw [hs]; rfl
  obtain ⟨r, hr⟩ := h.sbf ho
  unfold sbfPreamble2Step
  split_ifs
  · exact h.quiet ho ⟨rfl, rfl, rfl, rfl, rfl⟩ rfl hr rfl trivial h.inv.crcBits trivial
  · exact h.fail _

theorem ParseState.Taking.sbfCrc {q : ParseState} {b : Byte} (h : q.Taking b)
    (hs : q.state.owners = [.sbf]) : q.crc.toNat < 2 ^ 16 := by
  obtain ⟨r, hr⟩ := h.sbf hs
  have hc := h.inv.crcBits
  simp only [ParseState.CrcInRange, hr] at hc
  exact hc

theorem sbfCrc1Step_safe {q : ParseState} {b : Byte} (h : q.Taking b)
    (hs : q.state = .sbfCrc1) : Safe (sbfCrc1Step q b) := by
  have ho : q.state.owners = [.sbf] := by rw [hs]; rfl
  obtain ⟨r, hr⟩ := h.sbf ho
  simp only [sbfCrc1Step, withSbf, hr]
  exact h.quiet ho ⟨rfl, rfl, rfl, rfl, rfl⟩ rfl rfl rfl trivial (h.sbfCrc ho) trivial

theorem sbfCrc2Step_safe {q : ParseState} {b : Byte} (h : q.Taking b)
    (hs : q.state = .sbfCrc2) : Safe (sbfCrc2Step q b) := by
  have ho : q.state.owners = [.sbf] := by rw [hs]; rfl
  obtain ⟨r, hr⟩ := h.sbf ho
  simp only [sbfCrc2Step, withSbf, hr]
  exact h.quiet ho ⟨rfl, rfl, rfl, rfl, rfl⟩ rfl rfl rfl trivial (h.sbfCrc ho) trivial

theorem sbfId1Step_safe {q : ParseState} {b : Byte} (h : q.Taking b)
    (hs : q.state = .sbfId1) : Safe (sbfId1Step q b) := by
  have ho : q.state.owners = [.sbf] := by rw [hs]; rfl
  obtain ⟨r, hr⟩ := h.sbf ho
  simp only [sbfId1Step, withSbf, hr]
  exact h.quiet ho ⟨rfl, rfl, rfl, rfl, rfl⟩ rfl rfl rfl trivial (toNat_setWidth32_lt _ (by omega)) trivial

theorem sbfId2Step_safe {q : ParseState} {b : Byte} (h : q.Taking b)
    (hs : q.state = .sbfId2) : Safe (sbfId2Step q b) := by
  have ho : q.state.owners = [.sbf] := by rw [hs]; rfl
  obtain ⟨r, hr⟩ := h.sbf ho
  simp only [sbfId2Step, withSbf, hr]
  exact h.quiet ho ⟨rfl, rfl, rfl, rfl, rfl⟩ rfl rfl rfl trivial (toNat_setWidth32_lt _ (by omega)) trivial

theorem sbfLengthLoStep_safe {q : ParseState} {b : Byte} (h : q.Taking b)
    (hs : q.state = .sbfLengthLo) : Safe (sbfLengthLoStep q b) := by
  have ho : q.state.owners = [.sbf] := by rw [hs]; rfl
  obtain ⟨r, hr⟩ := h.sbf ho
  simp only [sbfLengthLoStep, withSbf, hr]
  exact h.quiet ho ⟨rfl, rfl, rfl, rfl, rfl⟩ rfl rfl rfl trivial (toNat_setWidth32_lt _ (by omega)) trivial

theorem sbfLengthHiStep_safe {q : ParseState} {b : Byte} (h : q.Taking b)
    (hs : q.state = .sbfLengthHi) : Safe (sbfLengthHiStep q b) := by
  have ho : q.state.owners = [.sbf] := by rw [hs]; rfl
  obtain ⟨r, hr⟩ := h.sbf ho
  simp only [sbfLengthHiStep, withSbf, hr]
  have hup := fun r' : SbfRec => h.update (q' := (q.foldCcitt16 b).setSp (.sbf r')) ho
    ⟨rfl, rfl, rfl, rfl, rfl⟩ ho rfl rfl trivial (q.crcInRange_ccitt16 b _)
  split_ifs with h1 h2
  · exact sbfFinish_safe (hup _) ho (q.crcInRange_ccitt16 b r) _
  · refine h.quiet ho ⟨rfl, rfl, rfl, rfl, rfl⟩ rfl rfl rfl trivial (toNat_setWidth32_lt _ (by omega)) ?_
    have := one_le_of_ne_zero h2
    intro r' hr'
    cases hr'
    exact this
  · exact (hup _).fail _

theorem sbfBodyStep_safe {q : ParseState} {b : Byte} (h : q.Taking b)
    (hs : q.state = .sbfBody) : Safe (sbfBodyStep q b) := by
  have ho : q.state.owners = [.sbf] := by rw [hs]; rfl
  obtain ⟨r, hr⟩ := h.sbf ho
  simp only [sbfBodyStep, withSbf, hr]
  split_ifs with hz
  · exact sbfFinish_safe (h.setCrcSp ho _
      (.sbf { r with bytesRemaining := r.bytesRemaining - 1 }) rfl trivial
      (q.crcInRange_ccitt16 b _)) ho (q.crcInRange_ccitt16 b r) _
  · refine h.quiet ho ⟨rfl, rfl, rfl, rfl, rfl⟩ ho rfl rfl trivial (toNat_setWidth32_lt _ (by omega)) ?_
    have := one_le_of_ne_zero hz
    simp only [ParseState.Progress, ParseState.setSp_state, ParseState.foldCcitt16_eq,
      ParseState.setCrc_state, hs]
    intro r' hr'
    cases hr'
    exact this

/-! ### SPARTN -/

theorem ParseState.Taking.spartn {q : ParseState} {b : Byte} (h : q.Taking b)
    (hs : q.state.owners = [.spartn]) :
    ∃ r, q.sp = some (.spartn r) ∧ (Scratch.spartn r).InRange ∧ q.crc = 0 := by
  obtain ⟨-, r, hr, hrk, hri⟩ := h.record hs
  have hc := h.inv.crcBits
  cases r <;> simp [Scratch.kind] at hrk
  simp only [ParseState.CrcInRange, hr] at hc
  exact ⟨_, hr, hri, hc⟩

theorem embeddedLen_mem (auth code : BitVec 3) :
    (embeddedLen auth code).toNat ∈ [0, 8, 12, 16, 32, 64] := by
  unfold embeddedLen
  split_ifs <;> decide

theorem crcBytes_toNat (t : BitVec 2) : (t.setWidth 3 + 1 : BitVec 3).toNat = t.toNat + 1 := by
  have := t.isLt
  bv_omega

theorem spartnHdr3Step_safe {q : ParseState} {b : Byte} (h : q.Taking b)
    (hs : q.state = .spartnHdr3)
    (hp : ∀ r, q.sp = some (.spartn r) →
      r.frameCount.toNat ≤ 2 ∧ q.length = r.frameCount.toNat + 2) :
    Safe (spartnHdr3Step q b) := by
  have ho : q.state.owners = [.spartn] := by rw [hs]; rfl
  obtain ⟨r, hr, hri, hc⟩ := h.spartn ho
  obtain ⟨hfc, hlen⟩ := hp r hr
  simp only [spartnHdr3Step, withSpartn, hr]
  have hb := b.isLt
  have hn : (r.frameCount + 1).toNat = r.frameCount.toNat + 1 := by bv_omega
  split_ifs with h1 h2
  · refine h.quiet ho ⟨rfl, rfl, rfl, rfl, rfl⟩ ho rfl rfl ⟨?_, hri.2⟩ hc ?_
    · simp only [BitVec.toNat_shiftLeft, BitVec.toNat_setWidth, BitVec.toNat_and,
        show (1 : BitVec 8).toNat = 1 from rfl, Nat.and_one_is_mod]
      omega
    · simp only [ParseState.Progress, ParseState.setSp_state, hs]
      intro r' hr'
      cases hr'
      rw [hn, ParseState.setSp_length]
      rw [h1] at hn
      exact ⟨by simp at hn; omega, by omega⟩
  · refine h.quiet ho ⟨rfl, rfl, rfl, rfl, rfl⟩ ho rfl rfl ⟨?_, hri.2⟩ hc ?_
    · rw [BitVec.toNat_or]
      refine Nat.or_lt_two_pow hri.1 ?_
      simp only [BitVec.toNat_shiftLeft, BitVec.toNat_setWidth]
      omega
    · simp only [ParseState.Progress, ParseState.setSp_state, hs]
      intro r' hr'
      cases hr'
      rw [hn, ParseState.setSp_length]
      rw [h2] at hn
      exact ⟨by simp at hn; omega, by omega⟩
  · have h3 : r.frameCount.toNat = 2 := by
      have h1' : (r.frameCount + 1).toNat ≠ 1 := fun he => h1 (BitVec.eq_of_toNat_eq he)
      have h2' : (r.frameCount + 1).toNat ≠ 2 := fun he => h2 (BitVec.eq_of_toNat_eq he)
      omega
    obtain ⟨b1, hb1⟩ := Option.isSome_iff_exists.mp (h.inv.filled 1 (by omega))
    obtain ⟨b2, hb2⟩ := Option.isSome_iff_exists.mp (h.inv.filled 2 (by omega))
    obtain ⟨b3, hb3⟩ := Option.isSome_iff_exists.mp (h.inv.filled 3 (by omega))
    simp only [ParseState.byteAt_of_read hb1, ParseState.byteAt_of_read hb2,
      ParseState.byteAt_of_read hb3]
    have hcb : (SpartnRec.header3 r b).crcBytes.toNat = (b.extractLsb' 4 2).toNat + 1 :=
      crcBytes_toNat _
    have hlt := (b.extractLsb' 4 2).isLt
    have hpl : (SpartnRec.header3 r b).payloadLen.toNat < 2 ^ 10 := by
      simp only [SpartnRec.header3]
      rw [BitVec.toNat_or]
      refine Nat.or_lt_two_pow hri.1 ?_
      simp only [BitVec.toNat_setWidth, BitVec.toNat_ushiftRight]
      omega
    split_ifs
    · refine h.quiet (r := .spartn { r.header3 b with frameCount := 0 }) ho
        ⟨rfl, rfl, rfl, rfl, rfl⟩ rfl rfl rfl ⟨hpl, (by simp only; omega), hri.2.2⟩ hc ?_
      intro r' hr'
      cases hr'
      exact ⟨hcb, .inl rfl⟩
    · exact (h.setSp ho (.spartn { r.header3 b with frameCount := r.frameCount + 1 }) rfl
        ⟨hpl, (by simp only; omega), hri.2.2⟩ hc).fail _

/-- Leaving the payload phase (46_spartn.md R237). -/
theorem afterPayload_safe {q : ParseState} {b : Byte} (h : q.Taking b)
    (hs : q.state.owners = [.spartn]) {r : SpartnRec} (hri : (Scratch.spartn r).InRange)
    (hc : q.crc = 0) (hcb : r.crcBytes.toNat = r.crcType.toNat + 1) :
    Safe (afterPayload q r) := by
  unfold afterPayload
  split_ifs with he
  · refine h.quiet hs ⟨rfl, rfl, rfl, rfl, rfl⟩ rfl rfl rfl hri hc ?_
    intro r' hr'
    cases hr'
    exact ⟨hcb, he⟩
  · refine h.quiet hs ⟨rfl, rfl, rfl, rfl, rfl⟩ rfl rfl rfl hri hc ?_
    intro r' hr'
    cases hr'
    exact ⟨hcb, by simp only [hcb]; simp⟩

theorem extLast_inRange {r : SpartnRec} {b : Byte} (h : (Scratch.spartn r).InRange) :
    (Scratch.spartn (r.extLast b)).InRange ∧ (r.extLast b).crcBytes = r.crcBytes ∧
      (r.extLast b).crcType = r.crcType ∧ (r.extLast b).frameCount = r.frameCount ∧
      (r.extLast b).payloadLen = r.payloadLen ∧
      (r.extLast b).tf007ToTf016Len = r.tf007ToTf016Len := by
  unfold SpartnRec.extLast
  split_ifs
  · exact ⟨⟨h.1, h.2.1, embeddedLen_mem _ _⟩, rfl, rfl, rfl, rfl, rfl⟩
  · exact ⟨⟨h.1, h.2.1, by simp⟩, rfl, rfl, rfl, rfl, rfl⟩

/-- The record after an extended-header byte is counted, with the header's length in natural numbers. -/
theorem extCount_spec {r : SpartnRec} {b : Byte} (h : (Scratch.spartn r).InRange)
    (hp : r.frameCount = 0 ∨
      ∃ extLen ∈ [4, 6, 8], r.frameCount.toNat < extLen ∧
        r.tf007ToTf016Len.toNat = extLen + r.payloadLen.toNat) :
    (Scratch.spartn (r.extCount b)).InRange ∧ (r.extCount b).crcBytes = r.crcBytes ∧
      (r.extCount b).crcType = r.crcType ∧
      ∃ extLen ∈ [4, 6, 8], (r.extCount b).frameCount.toNat ≤ extLen ∧
        (r.extCount b).tf007ToTf016Len.toNat = extLen + (r.extCount b).payloadLen.toNat := by
  have hpl := h.1
  unfold SpartnRec.extCount
  split_ifs with h1
  · refine ⟨h, rfl, rfl, ?_⟩
    have hone : (r.frameCount + 1).toNat = 1 := by rw [h1]; rfl
    simp only [hone, SpartnRec.ext1]
    split_ifs
    · exact ⟨8, by simp, by omega, by bv_omega⟩
    · exact ⟨6, by simp, by omega, by bv_omega⟩
    · exact ⟨6, by simp, by omega, by bv_omega⟩
    · exact ⟨4, by simp, by omega, by bv_omega⟩
  · rcases hp with h0 | ⟨extLen, hmem, hlt, htf⟩
    · exact absurd (by rw [h0]; rfl) h1
    · have hle : extLen ≤ 8 := by
        simp only [List.mem_cons, List.not_mem_nil, or_false] at hmem
        omega
      exact ⟨h, rfl, rfl, extLen, hmem, by simp only; bv_omega, htf⟩

theorem spartnExtHdrStep_safe {q : ParseState} {b : Byte} (h : q.Taking b)
    (hs : q.state = .spartnExtHdr)
    (hp : ∀ r, q.sp = some (.spartn r) →
      r.crcBytes.toNat = r.crcType.toNat + 1 ∧
        (r.frameCount = 0 ∨
          ∃ extLen ∈ [4, 6, 8], r.frameCount.toNat < extLen ∧
            r.tf007ToTf016Len.toNat = extLen + r.payloadLen.toNat)) :
    Safe (spartnExtHdrStep q b) := by
  have ho : q.state.owners = [.spartn] := by rw [hs]; rfl
  obtain ⟨r, hr, hri, hc⟩ := h.spartn ho
  obtain ⟨hcb, hfc⟩ := hp r hr
  obtain ⟨hri1, hcb1, hct1, extLen, hmem, hle, htf⟩ := extCount_spec (b := b) hri hfc
  simp only [spartnExtHdrStep, withSpartn, hr]
  have hsub : ((r.extCount b).tf007ToTf016Len - (r.extCount b).payloadLen).toNat = extLen := by
    rw [BitVec.toNat_sub_of_le (by rw [BitVec.le_def]; omega)]
    omega
  obtain ⟨hri2, e1, e2, e3, e4, e5⟩ := extLast_inRange (b := b) hri1
  have hcb2 : ((r.extCount b).extLast b).crcBytes.toNat =
      ((r.extCount b).extLast b).crcType.toNat + 1 := by
    rw [e1, e2, hcb1, hct1, hcb]
  split_ifs with hend hpay
  · refine h.quiet ho ⟨rfl, rfl, rfl, rfl, rfl⟩ rfl rfl rfl hri2 hc ?_
    intro r' hr'
    cases hr'
    refine ⟨hcb2, ?_⟩
    rw [e4] at hpay
    rw [e3, e5, hend, hsub]
    omega
  · exact afterPayload_safe h ho hri2 hc hcb2
  · refine h.quiet ho ⟨rfl, rfl, rfl, rfl, rfl⟩ ho rfl rfl hri1 hc ?_
    simp only [ParseState.Progress, ParseState.setSp_state, hs]
    intro r' hr'
    cases hr'
    refine ⟨by rw [hcb1, hct1, hcb], .inr ⟨extLen, hmem, ?_, htf⟩⟩
    have hne : (r.extCount b).frameCount.toNat ≠ extLen := fun he =>
      hend (BitVec.eq_of_toNat_eq (by rw [hsub, he]))
    omega

theorem spartnPayloadStep_safe {q : ParseState} {b : Byte} (h : q.Taking b)
    (hs : q.state = .spartnPayload)
    (hp : ∀ r, q.sp = some (.spartn r) →
      r.crcBytes.toNat = r.crcType.toNat + 1 ∧
        r.frameCount.toNat < r.tf007ToTf016Len.toNat) :
    Safe (spartnPayloadStep q) := by
  have ho : q.state.owners = [.spartn] := by rw [hs]; rfl
  obtain ⟨r, hr, hri, hc⟩ := h.spartn ho
  obtain ⟨hcb, hfc⟩ := hp r hr
  simp only [spartnPayloadStep, withSpartn, hr]
  split_ifs with hend
  · exact afterPayload_safe h ho hri hc hcb
  · refine h.quiet ho ⟨rfl, rfl, rfl, rfl, rfl⟩ ho rfl rfl hri hc ?_
    simp only [ParseState.Progress, ParseState.setSp_state, hs]
    intro r' hr'
    cases hr'
    exact ⟨hcb, by simp only; bv_omega⟩

theorem spartnEmbeddedStep_safe {q : ParseState} {b : Byte} (h : q.Taking b)
    (hs : q.state = .spartnEmbedded)
    (hp : ∀ r, q.sp = some (.spartn r) →
      r.crcBytes.toNat = r.crcType.toNat + 1 ∧ r.frameCount.toNat < r.embeddedAppLen.toNat) :
    Safe (spartnEmbeddedStep q) := by
  have ho : q.state.owners = [.spartn] := by rw [hs]; rfl
  obtain ⟨r, hr, hri, hc⟩ := h.spartn ho
  obtain ⟨hcb, hfc⟩ := hp r hr
  simp only [spartnEmbeddedStep, withSpartn, hr]
  split_ifs with hend
  · refine h.quiet ho ⟨rfl, rfl, rfl, rfl, rfl⟩ rfl rfl rfl hri hc ?_
    intro r' hr'
    cases hr'
    exact ⟨hcb, by simp only [hcb]; simp⟩
  · refine h.quiet ho ⟨rfl, rfl, rfl, rfl, rfl⟩ ho rfl rfl hri hc ?_
    simp only [ParseState.Progress, ParseState.setSp_state, hs]
    intro r' hr'
    cases hr'
    exact ⟨hcb, by simp only; bv_omega⟩

theorem spartnCrcStep_safe {q : ParseState} {b : Byte} (h : q.Taking b)
    (hs : q.state = .spartnCrc)
    (hp : ∀ r, q.sp = some (.spartn r) →
      r.crcBytes.toNat = r.crcType.toNat + 1 ∧ r.frameCount.toNat < r.crcBytes.toNat) :
    Safe (spartnCrcStep q b) := by
  have ho : q.state.owners = [.spartn] := by rw [hs]; rfl
  obtain ⟨r, hr, hri, hc⟩ := h.spartn ho
  obtain ⟨hcb, hfc⟩ := hp r hr
  simp only [spartnCrcStep, withSpartn, hr]
  have h' := h.update (q' := q.setSp (.spartn { r with frameCount := r.frameCount + 1 })) ho
    ⟨rfl, rfl, rfl, rfl, rfl⟩ ho rfl rfl hri hc
  split_ifs with hend
  · obtain ⟨rx, hrx⟩ := ParseState.slice_exists
      (p := q.setSp (.spartn { r with frameCount := r.frameCount + 1 }))
      (a := q.length - r.crcBytes.toNat) (b := q.length) fun i _ hi => h'.inv.filled i hi
    obtain ⟨cov, hcov⟩ := ParseState.slice_exists
      (p := q.setSp (.spartn { r with frameCount := r.frameCount + 1 }))
      (a := 1) (b := q.length - r.crcBytes.toNat)
      fun i _ hi => h'.inv.filled i (by simp only [ParseState.setSp_length]; omega)
    simp only [ParseState.setSp_length, hrx, hcov]
    exact h'.conclude ho _
  · refine h.quiet ho ⟨rfl, rfl, rfl, rfl, rfl⟩ ho rfl rfl hri hc ?_
    simp only [ParseState.Progress, ParseState.setSp_state, hs]
    intro r' hr'
    cases hr'
    refine ⟨hcb, ?_⟩
    simp only at hend ⊢
    bv_omega

/-! ### Unicore binary -/

theorem ParseState.Taking.ubin {q : ParseState} {b : Byte} (h : q.Taking b)
    (hs : q.state.owners = [.ubin]) : ∃ r, q.sp = some (.ubin r) := by
  obtain ⟨-, r, hr, hrk, -⟩ := h.record hs
  cases r <;> simp [Scratch.kind] at hrk
  exact ⟨_, hr⟩

theorem ubinSync2Step_safe {q : ParseState} {b : Byte} (h : q.Taking b)
    (hs : q.state = .ubinSync2) (hp : q.length = 2) : Safe (ubinSync2Step q b) := by
  have ho : q.state.owners = [.ubin] := by rw [hs]; rfl
  obtain ⟨r, hr⟩ := h.ubin ho
  unfold ubinSync2Step
  split_ifs
  · refine h.quiet ho ⟨rfl, rfl, rfl, rfl, rfl⟩ rfl hr rfl trivial ?_ hp
    simp [ParseState.CrcInRange, hr]
  · exact h.fail _

theorem ubinSync3Step_safe {q : ParseState} {b : Byte} (h : q.Taking b)
    (hs : q.state = .ubinSync3) (hp : q.length = 3) : Safe (ubinSync3Step q b) := by
  have ho : q.state.owners = [.ubin] := by rw [hs]; rfl
  obtain ⟨r, hr⟩ := h.ubin ho
  simp only [ubinSync3Step, withUbin, hr]
  split_ifs
  · refine h.quiet ho ⟨rfl, rfl, rfl, rfl, rfl⟩ rfl rfl rfl trivial trivial ?_
    intro r' hr'
    cases hr'
    exact ⟨Nat.le_of_ble_eq_true rfl, by simpa using hp⟩
  · exact h.fail _

theorem enterUbinCrc_safe {q : ParseState} {b : Byte} (h : q.Taking b)
    (hs : q.state.owners = [.ubin]) (r : UbinRec) :
    Safe (quiet (enterUbinCrc (q.foldCrc32r b) r)) := by
  refine h.quiet hs ⟨rfl, rfl, rfl, rfl, rfl⟩ rfl rfl rfl trivial trivial ?_
  intro r' hr'
  cases hr'
  exact Nat.le_of_ble_eq_true rfl

theorem ubinReadHeaderStep_safe {q : ParseState} {b : Byte} (h : q.Taking b)
    (hs : q.state = .ubinReadHeader)
    (hp : ∀ r, q.sp = some (.ubin r) →
      1 ≤ r.bytesRemaining.toNat ∧ q.length + r.bytesRemaining.toNat = 25) :
    Safe (ubinReadHeaderStep q b) := by
  have ho : q.state.owners = [.ubin] := by rw [hs]; rfl
  obtain ⟨r, hr⟩ := h.ubin ho
  obtain ⟨h1, hlen⟩ := hp r hr
  have hsub := toNat_sub_one (v := r.bytesRemaining) (by omega) h1
  simp only [ubinReadHeaderStep, withUbin, hr]
  split_ifs with hend
  · have hr1 : r.bytesRemaining.toNat = 1 := by
      have : (r.bytesRemaining - 1).toNat = 0 := by rw [hend]; rfl
      omega
    obtain ⟨l0, hl0⟩ := Option.isSome_iff_exists.mp (h.inv.filled 6 (by omega))
    obtain ⟨l1, hl1⟩ := Option.isSome_iff_exists.mp (h.inv.filled 7 (by omega))
    rw [ParseState.byteAt_of_read (p := q.foldCrc32r b) hl0,
      ParseState.byteAt_of_read (p := q.foldCrc32r b) hl1]
    simp only
    split_ifs with hz
    · exact enterUbinCrc_safe h ho _
    · refine h.quiet ho ⟨rfl, rfl, rfl, rfl, rfl⟩ rfl rfl rfl trivial trivial ?_
      have := one_le_of_ne_zero hz
      intro r' hr'
      cases hr'
      exact this
  · refine h.quiet ho ⟨rfl, rfl, rfl, rfl, rfl⟩ ho rfl rfl trivial trivial ?_
    have hge := one_le_of_ne_zero hend
    simp only [ParseState.Progress, ParseState.setSp_state, ParseState.foldCrc32r_eq,
      ParseState.setCrc_state, hs]
    intro r' hr'
    cases hr'
    exact ⟨hge, by simp only [ParseState.setSp_length, ParseState.setCrc_length]; omega⟩

theorem ubinReadBodyStep_safe {q : ParseState} {b : Byte} (h : q.Taking b)
    (hs : q.state = .ubinReadBody) : Safe (ubinReadBodyStep q b) := by
  have ho : q.state.owners = [.ubin] := by rw [hs]; rfl
  obtain ⟨r, hr⟩ := h.ubin ho
  simp only [ubinReadBodyStep, withUbin, hr]
  split_ifs with hend
  · exact enterUbinCrc_safe h ho _
  · refine h.quiet ho ⟨rfl, rfl, rfl, rfl, rfl⟩ ho rfl rfl trivial trivial ?_
    have hge := one_le_of_ne_zero hend
    simp only [ParseState.Progress, ParseState.setSp_state, ParseState.foldCrc32r_eq,
      ParseState.setCrc_state, hs]
    intro r' hr'
    cases hr'
    exact hge

theorem ubinReadCrcStep_safe {q : ParseState} {b : Byte} (h : q.Taking b)
    (hs : q.state = .ubinReadCrc) : Safe (ubinReadCrcStep q b) := by
  have ho : q.state.owners = [.ubin] := by rw [hs]; rfl
  obtain ⟨r, hr⟩ := h.ubin ho
  simp only [ubinReadCrcStep, withUbin, hr]
  have h' := h.update
    (q' := q.setSp (.ubin { r with bytesRemaining := r.bytesRemaining - 1 })) ho
    ⟨rfl, rfl, rfl, rfl, rfl⟩ ho rfl rfl trivial trivial
  split_ifs with hend
  · obtain ⟨rx, hrx⟩ := ParseState.slice_exists
      (p := q.setSp (.ubin { r with bytesRemaining := r.bytesRemaining - 1 }))
      (a := q.length - 4) (b := q.length) fun i _ hi => h'.inv.filled i hi
    simp only [ParseState.setSp_length, hrx]
    exact h'.conclude ho _
  · refine h.quiet ho ⟨rfl, rfl, rfl, rfl, rfl⟩ ho rfl rfl trivial trivial ?_
    have hge := one_le_of_ne_zero hend
    simp only [ParseState.Progress, ParseState.setSp_state, hs]
    intro r' hr'
    cases hr'
    exact hge

/-! ### Unicore hash -/

theorem ParseState.Taking.uhash {q : ParseState} {b : Byte} (h : q.Taking b)
    (hs : q.state.owners = [.uhash]) :
    ∃ r, q.sp = some (.uhash r) ∧ (Scratch.uhash r).InRange ∧
      (r.checksumBytes = 2 → q.crc.toNat < 2 ^ 8) := by
  obtain ⟨-, r, hr, hrk, hri⟩ := h.record hs
  have hc := h.inv.crcBits
  cases r <;> simp [Scratch.kind] at hrk
  simp only [ParseState.CrcInRange, hr] at hc
  exact ⟨_, hr, hri, hc⟩

theorem uhashNameStep_safe {q : ParseState} {b : Byte} (h : q.Taking b)
    (hs : q.state = .uhashNameThenFirstComma)
    (hp : ∀ r, q.sp = some (.uhash r) → r.checksumBytes = 0) : Safe (uhashNameStep q b) := by
  have ho : q.state.owners = [.uhash] := by rw [hs]; rfl
  obtain ⟨r, hr, hri, hc⟩ := h.uhash ho
  have h0 := hp r hr
  simp only [uhashNameStep, withUhash, hr]
  split_ifs with h1 h2
  · simp only [uhashComma]
    split_ifs
    · obtain ⟨cov, hcov⟩ := ParseState.slice_exists (p := q) (a := 1) (b := q.length)
        fun i _ hi => h.inv.filled i hi
      rw [hcov]
      refine h.quiet ho ⟨rfl, rfl, rfl, rfl, rfl⟩ rfl rfl rfl ⟨hri.1, .inr (.inl rfl)⟩
        (fun _ => toNat_setWidth32_lt _ (by omega)) ?_
      intro r' hr'
      cases hr'
      simp
    · refine h.quiet ho ⟨rfl, rfl, rfl, rfl, rfl⟩ rfl rfl rfl ⟨hri.1, .inr (.inr rfl)⟩
        (fun he => absurd (show (8 : BitVec 8) = 2 from he) (by decide)) ?_
      intro r' hr'
      cases hr'
      simp
  · refine h.quiet ho ⟨rfl, rfl, rfl, rfl, rfl⟩ ho rfl rfl ⟨?_, hri.2⟩
      (fun he => absurd (h0.symm.trans he) (by decide)) ?_
    · have := h2.2
      simp only
      bv_omega
    · simp only [ParseState.Progress, ParseState.setSp_state, ParseState.foldCrc32r_eq,
        ParseState.setCrc_state, hs]
      intro r' hr'
      cases hr'
      exact h0
  · exact h.fail _

theorem uhashBodyStep_safe {q : ParseState} {b : Byte} (h : q.Taking b)
    (hs : q.state = .uhashFindAsterisk)
    (hp : ∀ r, q.sp = some (.uhash r) → r.checksumBytes ≠ 0) : Safe (uhashBodyStep q b) := by
  have ho : q.state.owners = [.uhash] := by rw [hs]; rfl
  obtain ⟨r, hr, hri, hc⟩ := h.uhash ho
  have h0 := hp r hr
  have h2 := h.two
  simp only [uhashBodyStep, withUhash, hr]
  split_ifs with hstar habort htwo
  · refine h.quiet ho ⟨rfl, rfl, rfl, rfl, rfl⟩ rfl rfl rfl hri hc ?_
    intro r' hr'
    cases hr'
    refine ⟨one_le_of_ne_zero h0, le_refl _, ?_, ?_⟩
    · simp only [Nat.sub_self, ParseState.goto_length, ParseState.setSp_length]; omega
    · simp
  · exact h.fail _
  · refine h.quiet ho ⟨rfl, rfl, rfl, rfl, rfl⟩ ho hr rfl hri ?_ ?_
    · simp only [ParseState.CrcInRange, ParseState.foldXor_eq, ParseState.setCrc_sp, hr,
        ParseState.setCrc_crc]
      exact fun he => crc_xor_lt (hc he) b
    · simp only [ParseState.Progress, ParseState.foldXor_eq, ParseState.setCrc_state, hs]
      exact hp
  · refine h.quiet ho ⟨rfl, rfl, rfl, rfl, rfl⟩ ho hr rfl hri ?_ ?_
    · simp only [ParseState.CrcInRange, ParseState.foldCrc32r_eq, ParseState.setCrc_sp, hr]
      exact fun he => absurd he htwo
    · simp only [ParseState.Progress, ParseState.foldCrc32r_eq, ParseState.setCrc_state, hs]
      exact hp

theorem uhashChecksumStep_safe {q : ParseState} {b : Byte} (h : q.Taking b)
    (hs : q.state = .uhashChecksumByte)
    (hp : ∀ r, q.sp = some (.uhash r) →
      1 ≤ r.bytesRemaining.toNat ∧ r.bytesRemaining.toNat ≤ r.checksumBytes.toNat ∧
        r.checksumBytes.toNat - r.bytesRemaining.toNat + 1 < q.length ∧
        ∀ i < r.checksumBytes.toNat - r.bytesRemaining.toNat, q.HexAt (q.length - 2 - i)) :
    Safe (uhashChecksumStep q b) := by
  have ho : q.state.owners = [.uhash] := by rw [hs]; rfl
  obtain ⟨r, hr, hri, hc⟩ := h.uhash ho
  obtain ⟨h1, hle, hlen, hhex⟩ := hp r hr
  have hsub := toNat_sub_one (v := r.bytesRemaining) (by omega) h1
  simp only [uhashChecksumStep, withUhash, hr]
  split_ifs with hx hend
  · have h' := h.update
      (q' := q.setSp (.uhash { r with bytesRemaining := r.bytesRemaining - 1 })) ho
      ⟨rfl, rfl, rfl, rfl, rfl⟩ ho rfl rfl hri hc
    have hr1 : r.bytesRemaining.toNat = 1 := by
      have : (r.bytesRemaining - 1).toNat = 0 := by rw [hend]; rfl
      omega
    obtain ⟨ds, hds⟩ := ParseState.slice_exists
      (p := q.setSp (.uhash { r with bytesRemaining := r.bytesRemaining - 1 }))
      (a := q.length - r.checksumBytes.toNat) (b := q.length) fun i _ hi => h'.inv.filled i hi
    simp only [ParseState.setSp_length, hds]
    obtain ⟨hdl, hdr⟩ := ParseState.slice_eq_ok.mp hds
    have hall : ∀ d ∈ ds, isHex d = true := by
      intro d hd
      obtain ⟨j, hj, hjd⟩ := List.getElem_of_mem hd
      have hrd := hdr j (by omega)
      rw [List.getElem?_eq_getElem hj, hjd, ParseState.setSp_buffer] at hrd
      rcases Nat.lt_or_ge (j + 1) ds.length with hlt | hge
      · obtain ⟨c, hc1, hc2⟩ := hhex (ds.length - 2 - j) (by omega)
        have he : q.length - r.checksumBytes.toNat + j =
            q.length - 2 - (ds.length - 2 - j) := by omega
        rw [he, hc1] at hrd
        cases hrd
        exact hc2
      · have he : q.length - r.checksumBytes.toNat + j = q.length - 1 := by omega
        rw [he, h.last] at hrd
        cases hrd
        exact hx
    obtain ⟨n, hn⟩ := hexNumber_isSome hall
    simp only [uhashVerdict, hn]
    exact h'.conclude ho _
  · refine h.quiet ho ⟨rfl, rfl, rfl, rfl, rfl⟩ ho rfl rfl hri hc ?_
    have hge := one_le_of_ne_zero hend
    simp only [ParseState.Progress, ParseState.setSp_state, hs]
    intro r' hr'
    cases hr'
    refine ⟨hge, by simp only; omega, ?_, ?_⟩
    · simp only [ParseState.setSp_length]; omega
    · intro i hi
      simp only [ParseState.setSp_length] at hi ⊢
      cases i with
      | zero => exact ⟨b, h.last, hx⟩
      | succ i =>
        have := hhex i (by omega)
        rw [show q.length - 1 - (i + 1) = q.length - 2 - i by omega]
        exact this
  · exact h.fail _

end Sys2Proof.Machine
end

