-- ==== Sys2Proof/Laws/Run.lean ====
section
/-! SUPPORT. Laws/Run.lean: the byte step keeps the invariant and never stops; what a run of bytes does
(41_dispatch.md R124, R125). -/

namespace Sys2Proof.Machine

/-- The byte step in a state in which a frame is in progress (41_dispatch.md R124). -/
theorem byteStep_inFrame {p : ParseState} (h : p.state.inFrame = true) (b : Byte) :
    byteStep p b =
      if p.bufferLength ≤ p.length then failTooLong p b else handler (p.append b) b := by
  unfold byteStep
  split <;> simp_all [PState.inFrame]

theorem byteStep_inFrame_room {p : ParseState} (h : p.state.inFrame = true)
    (hlt : p.length < p.bufferLength) (b : Byte) :
    byteStep p b = handler (p.append b) b := by
  rw [byteStep_inFrame h, if_neg (by omega)]

theorem byteStep_firstByte {p : ParseState} (h : p.state = .firstByte) (b : Byte) :
    byteStep p b = firstByte p b := by
  simp [byteStep, h]

theorem byteStep_lineTerm {p : ParseState} (h : p.state = .lineTerm) (b : Byte) :
    byteStep p b = lineTerm p b := by
  simp [byteStep, h]

theorem byteStep_crThenLf {p : ParseState} (h : p.state = .crThenLf) (b : Byte) :
    byteStep p b = crThenLf p b := by
  simp [byteStep, h]

theorem byteStep_lfThenCr {p : ParseState} (h : p.state = .lfThenCr) (b : Byte) :
    byteStep p b = lfThenCr p b := by
  simp [byteStep, h]

/-- A state in which a frame is in progress belongs to exactly one kind (10_state.md R15). -/
theorem PState.inFrame_owner {st : PState} (h : st.inFrame = true) : ∃ k, st.owners = [k] := by
  cases st <;> first | (exact absurd h (by decide)) | exact ⟨_, rfl⟩

/-- The facts of a frame in progress, with one more byte stored. -/
theorem handler_safe {p : ParseState} (h : p.Inv) (hp : p.Progress)
    (hf : p.state.inFrame = true) (hlt : p.length < p.bufferLength) (b : Byte) :
    Safe (handler (p.append b) b) := by
  obtain ⟨k, hk⟩ := PState.inFrame_owner hf
  have ht : (p.append b).Taking b := h.taking (k := k) (by rw [hk]; simp) b hlt
  have h1 : 1 ≤ p.length := by have := ht.two; simpa using this
  have old : ∀ i < p.length, ∀ c, p.buffer.read i = some c →
      (p.append b).buffer.read i = some c := fun i hi c hc => by
    rw [ParseState.append_buffer, Memory.read_write_other _ _ (by omega), hc]
  have oldHex : ∀ i < p.length, p.HexAt i → (p.append b).HexAt i :=
    fun i hi ⟨c, hc, hx⟩ => ⟨c, old i hi c hc, hx⟩
  have hlen : (p.append b).length = p.length + 1 := rfl
  unfold handler
  split <;> rename_i hs <;> rw [ParseState.append_state] at hs <;>
    try simp only [ParseState.Progress, hs] at hp
  · exact absurd hf (by simp [hs, PState.inFrame])
  · exact absurd hf (by simp [hs, PState.inFrame])
  · exact absurd hf (by simp [hs, PState.inFrame])
  · exact absurd hf (by simp [hs, PState.inFrame])
  · exact nmeaNameStep_safe ht hs
  · exact nmeaBodyStep_safe ht hs
  · exact nmeaChecksumHiStep_safe ht hs
  · refine nmeaChecksumLoStep_safe ht hs ?_
    rw [hlen, show p.length + 1 - 2 = p.length - 1 by omega]
    exact oldHex _ (by omega) hp
  · exact rtcmLengthHiStep_safe ht hs
  · exact rtcmLengthLoStep_safe ht hs
  · exact rtcmMsgIdHiStep_safe ht hs
  · exact rtcmMsgIdLoStep_safe ht hs
  · exact rtcmDataStep_safe ht hs
  · exact rtcmCrcStep_safe ht hs
  · exact ubxSync2Step_safe ht hs
  · exact ubxClassStep_safe ht hs
  · exact ubxIdStep_safe ht hs
  · exact ubxLengthLoStep_safe ht hs
  · exact ubxLengthHiStep_safe ht hs
  · exact ubxPayloadStep_safe ht hs
  · exact ubxCkAStep_safe ht hs
  · exact ubxCkBStep_safe ht hs
  · exact sbfPreamble2Step_safe ht hs
  · exact sbfCrc1Step_safe ht hs
  · exact sbfCrc2Step_safe ht hs
  · exact sbfId1Step_safe ht hs
  · exact sbfId2Step_safe ht hs
  · exact sbfLengthLoStep_safe ht hs
  · exact sbfLengthHiStep_safe ht hs
  · exact sbfBodyStep_safe ht hs
  · refine spartnHdr3Step_safe ht hs fun r hr => ?_
    obtain ⟨h2, h3⟩ := hp r hr
    exact ⟨h2, by omega⟩
  · exact spartnExtHdrStep_safe ht hs hp
  · exact spartnPayloadStep_safe ht hs hp
  · exact spartnEmbeddedStep_safe ht hs hp
  · exact spartnCrcStep_safe ht hs hp
  · exact ubinSync2Step_safe ht hs (by omega)
  · exact ubinSync3Step_safe ht hs (by omega)
  · refine ubinReadHeaderStep_safe ht hs fun r hr => ?_
    obtain ⟨h2, h3⟩ := hp r hr
    exact ⟨h2, by omega⟩
  · exact ubinReadBodyStep_safe ht hs
  · exact ubinReadCrcStep_safe ht hs
  · exact uhashNameStep_safe ht hs hp
  · exact uhashBodyStep_safe ht hs hp
  · refine uhashChecksumStep_safe ht hs fun r hr => ?_
    obtain ⟨h2, h3, h4, h5⟩ := hp r hr
    refine ⟨h2, h3, by omega, fun i hi => ?_⟩
    rw [hlen, show p.length + 1 - 2 - i = p.length - 1 - i by omega]
    exact oldHex _ (by omega) (h5 i hi)

/-- The byte step never stops and keeps the invariant (41_dispatch.md R124). -/
theorem byteStep_safe {p : ParseState} (h : p.Inv) (hp : p.Progress) (b : Byte) :
    Safe (byteStep p b) := by
  by_cases hf : p.state.inFrame = true
  · rw [byteStep_inFrame hf]
    split_ifs with hlt
    · obtain ⟨k, hk⟩ := PState.inFrame_owner hf
      exact failTooLong_safe h (h.latched_of_state hk).2.2.1 b
    · exact handler_safe h hp hf (by omega) b
  · unfold byteStep
    split
    · exact firstByte_safe h.base b
    · rename_i hs
      exact lineTerm_safe h (by rw [hs]; rfl) b
    · exact crThenLf_safe h b
    · exact lfThenCr_safe h b
    · rename_i h1 h2 h3 h4
      cases hs : p.state <;> simp_all [PState.inFrame]

/-! ### Runs of bytes -/

theorem runBytes_nil (s : State) :
    runBytes [] s = .next { s with todo := [], result := .nothing } := rfl

/-- A byte that raises nothing: the run goes on. -/
theorem runBytes_quiet {s : State} {p q : ParseState} {b : Byte} (bs : List Byte)
    (hp : s.parse = some p) (h : byteStep p b = .ok ⟨q, none⟩) :
    runBytes (b :: bs) s = runBytes bs { s with parse := some q } := by
  simp [runBytes, hp, h]

/-- A byte that raises an event: its window suspends the run. -/
theorem runBytes_raise {s : State} {p q : ParseState} {b : Byte} (bs : List Byte) {e : Event}
    {w : Window} (hp : s.parse = some p) (h : byteStep p b = .ok ⟨q, some (e, w)⟩) :
    runBytes (b :: bs) s =
      .next
        { s with
          parse := some q, window := w, todo := bs, events := s.events ++ [e]
          result := .nothing } := by
  simp [runBytes, hp, h]

/-- A stretch of bytes of which none raises an event: the ParseState after it. -/
inductive QuietRun : ParseState → List Byte → ParseState → Prop where
  | nil (p : ParseState) : QuietRun p [] p
  | cons {p q r : ParseState} {b : Byte} {bs : List Byte} (h : byteStep p b = .ok ⟨q, none⟩)
      (t : QuietRun q bs r) : QuietRun p (b :: bs) r

theorem QuietRun.append {p q r : ParseState} {bs cs : List Byte} (h1 : QuietRun p bs q)
    (h2 : QuietRun q cs r) : QuietRun p (bs ++ cs) r := by
  induction h1 with
  | nil => exact h2
  | cons h _ ih => exact .cons h (ih h2)

theorem QuietRun.one {p q : ParseState} {b : Byte} (h : byteStep p b = .ok ⟨q, none⟩) :
    QuietRun p [b] q := .cons h (.nil q)

/-- A run whose first part raises nothing goes on with the rest. -/
theorem runBytes_quietRun {s : State} {p q : ParseState} {bs : List Byte} (cs : List Byte)
    (hp : s.parse = some p) (h : QuietRun p bs q) :
    runBytes (bs ++ cs) s = runBytes cs { s with parse := some q } := by
  induction h generalizing s with
  | nil => simp [← hp]
  | cons hb _ ih =>
    rw [List.cons_append, runBytes_quiet _ hp hb, ih rfl]

/-- A run all of whose bytes but the last raise nothing, and whose last raises an event: the form of a
frame that is recognised (41_dispatch.md R120 (ii)). -/
theorem runBytes_frame {s : State} {p q r : ParseState} {bs : List Byte} {b : Byte} {e : Event}
    {w : Window} (hp : s.parse = some p) (h : QuietRun p bs q)
    (hb : byteStep q b = .ok ⟨r, some (e, w)⟩) :
    runBytes (bs ++ [b]) s = .next (s.raised r e w) := by
  rw [runBytes_quietRun [b] hp h, runBytes_raise [] rfl hb]
  rfl

/-- PUSH and PUSHN where they are legal (41_dispatch.md R140). -/
theorem pushOctets_run {s : State} {p : ParseState} (bytes : List Byte) (hw : s.window = .none)
    (hp : s.parse = some p) : pushOctets bytes s = runBytes bytes s := by
  simp [pushOctets, State.configured, hw, hp]

/-- PUSH and PUSHN where they are refused (41_dispatch.md R140). -/
theorem pushOctets_refused {s : State} (bytes : List Byte)
    (h : s.parse = none ∨ s.window ≠ .none) : pushOctets bytes s = .next s.refuse := by
  rcases h with h | h <;> simp [pushOctets, State.configured, h]

/-- A run of bytes from a state of the invariant never stops and ends in one (41_dispatch.md R125). -/
theorem runBytes_safe (bytes : List Byte) {s : State} {p : ParseState} (hp : s.parse = some p)
    (hi : p.Inv) (hpr : p.Progress) (hw : s.window = .none)
    (he : ∀ c bs, Event.invalidData c bs ∈ s.events → bs ≠ []) :
    ∃ t, runBytes bytes s = .next t ∧ t.Inv := by
  induction bytes generalizing s p with
  | nil =>
    refine ⟨_, rfl, ⟨?_, by simp [hp], fun _ => rfl, he⟩⟩
    simp only [hp, hw, Option.some.injEq]
    rintro q rfl
    exact ⟨hi, hpr⟩
  | cons b bytes ih =>
    obtain ⟨⟨q, raised⟩, ht, hq, hr⟩ := byteStep_safe hi hpr b
    cases raised with
    | none =>
      rw [runBytes_quiet bytes hp ht]
      exact ih rfl hq hr hw he
    | some ew =>
      obtain ⟨e, w⟩ := ew
      rw [runBytes_raise bytes hp ht]
      obtain ⟨h1, h2, h3⟩ := hr
      refine ⟨_, rfl, ⟨?_, by simp, fun hn => absurd hn h1, ?_⟩⟩
      · simp only [Option.some.injEq]
        rintro q' rfl
        exact ⟨hq, h2⟩
      · intro c bs hm
        rw [List.mem_append, List.mem_singleton] at hm
        exact hm.elim (he c bs) fun h => h3 c bs h.symm

end Sys2Proof.Machine
end

