-- ==== Sys2Proof/Laws/Operands.lean ====
section
/-! SUPPORT. Laws/Operands.lean: what an accessor, a query and a control operation answer, once for each
form (49_accessors.md R300, R329; 41_dispatch.md R134, R135, R140). -/

namespace Sys2Proof.Machine

/-- A window in which the frame may be read (49_accessors.md R300 item 1). -/
theorem State.readable_of_window {s : State} {p : ParseState}
    (hw : (∃ text, s.window = .inEom text) ∨ ∃ b text, s.window = .inBadCrc b text)
    (hp : s.parse = some p) : s.readable = some p := by
  rcases hw with ⟨_, hw⟩ | ⟨_, _, hw⟩ <;> simp [State.readable, hw, hp]

theorem State.readable_none {s : State}
    (hw : s.window = .none ∨ ∃ rescan, s.window = .inInvalid rescan) : s.readable = none := by
  rcases hw with hw | ⟨_, hw⟩ <;> simp [State.readable, hw]

/-- An accessor where the frame may be read. -/
theorem accessor_readable {s : State} {p : ParseState} (h : s.readable = some p)
    (value : ParseState → Except Fault Result) :
    accessor s value = s.deliverResult (value p) := by
  simp [accessor, h]

theorem accessor_refused {s : State} (h : s.readable = none)
    (value : ParseState → Except Fault Result) : accessor s value = .next s.refuse := by
  simp [accessor, h]

/-- The base of an effective address (49_accessors.md R300 item 3). -/
theorem ParseState.base_eq {p : ParseState} {k : Kind} (h : p.table[p.active]? = some k)
    (raw : Bool) : p.base raw = .ok (if raw then 0 else payloadOffset k) := by
  cases raw <;> simp [ParseState.base, ParseState.activeKind, h]

/-- An access of `n` bytes inside the frame slice (49_accessors.md R300). -/
theorem ParseState.access_value {p : ParseState} {raw : Bool} {base n : Nat} {offset : LenWord}
    {bs : List Byte} (hb : p.base raw = .ok base)
    (hfit : base + offset.toNat + n ≤ p.length)
    (hbs : p.buffer.readMany (base + offset.toNat) n = some bs) (form : List Byte → Result) :
    p.access raw offset n form = .ok (form bs) := by
  have hs : p.slice (base + offset.toNat) (base + offset.toNat + n) = .ok bs :=
    ParseState.slice_of_readMany (by rw [Nat.add_sub_cancel_left]; exact hbs)
  simp only [ParseState.access, hb, hs]
  rw [if_neg (by omega)]

/-- An access past the frame slice is refused (49_accessors.md R300 item 4). -/
theorem ParseState.access_refused {p : ParseState} {raw : Bool} {base n : Nat} {offset : LenWord}
    (hb : p.base raw = .ok base) (hfit : p.length < base + offset.toNat + n)
    (form : List Byte → Result) : p.access raw offset n form = .ok .refused := by
  simp only [ParseState.access, hb]
  rw [if_pos hfit]

/-- `MemRead` of `n` bytes: byte `i` weighs `2^(8*i)` (00_scope.md R7). -/
theorem leNat_eq_sum (bs : List Byte) :
    leNat bs = ((List.range bs.length).map fun i => (bs[i]?.getD 0).toNat * 256 ^ i).sum := by
  induction bs with
  | nil => rfl
  | cons b bs ih =>
    rw [leNat, ih, List.length_cons, List.range_succ_eq_map, List.map_cons, List.sum_cons,
      List.map_map, ← List.sum_map_mul_left]
    simp only [List.getElem?_cons_zero, Option.getD_some, Nat.pow_zero, Nat.mul_one,
      Nat.add_left_cancel_iff]
    congr 1
    refine List.map_congr_left fun i _ => ?_
    simp only [Function.comp, List.getElem?_cons_succ, Nat.pow_succ]
    ring

/-- A query where the frame may be read and is of the query's kind (49_accessors.md R329). -/
theorem query_value {s : State} {p : ParseState} {k : Kind} {r : Scratch}
    (h : s.readable = some p) (hk : p.table[p.active]? = some k) (hr : p.sp = some r)
    (value : ParseState → Scratch → Except Fault Result) :
    query k s value = s.deliverResult (value p r) := by
  simp [query, h, ParseState.activeKind, hk, hr]

/-- A query of another kind than the frame's is refused (49_accessors.md R329). -/
theorem query_otherKind {s : State} {p : ParseState} {k k' : Kind} (h : s.readable = some p)
    (hk : p.table[p.active]? = some k') (hne : k' ≠ k)
    (value : ParseState → Scratch → Except Fault Result) :
    query k s value = .next s.refuse := by
  simp [query, h, ParseState.activeKind, hk, hne]

theorem query_refused {s : State} (h : s.readable = none) (k : Kind)
    (value : ParseState → Scratch → Except Fault Result) :
    query k s value = .next s.refuse := by
  simp [query, h]

/-- An accessor changes the result alone (49_accessors.md R300 items 2 and 4). -/
theorem accessor_readOnly {s t : State} {value : ParseState → Except Fault Result}
    (h : accessor s value = .next t) : t = s.answer t.result := by
  unfold accessor State.deliverResult at h
  split at h
  · cases h; rfl
  · split at h <;> cases h
    rfl

/-- A query changes the result alone (49_accessors.md R329). -/
theorem query_readOnly {s t : State} {k : Kind}
    {value : ParseState → Scratch → Except Fault Result} (h : query k s value = .next t) :
    t = s.answer t.result := by
  unfold query State.deliverResult at h
  repeat' split at h
  all_goals cases h
  all_goals rfl

/-- A control operation where it is legal (41_dispatch.md R134, R135). -/
theorem control_legal {s : State} {p : ParseState} (hp : s.parse = some p)
    (hw : s.window = .none) (write : ParseState → ParseState) :
    control s write = .next { s with parse := some (write p), result := .nothing } := by
  simp [control, hp, hw]

/-- A control operation where it is refused (41_dispatch.md R140). -/
theorem control_refused {s : State} (h : s.parse = none ∨ s.window ≠ .none)
    (write : ParseState → ParseState) : control s write = .next s.refuse := by
  unfold control
  split
  · rename_i hp hw
    rcases h with h | h
    · rw [hp] at h; cases h
    · exact absurd hw h
  · rfl

end Sys2Proof.Machine
end

