-- ==== Sys2Proof/Laws/PerInstr.lean ====
section
/-! SUPPORT. Laws/PerInstr.lean: the family `EncodedAs`: the record that encodes an instruction stands in
the space of its row of spec/opcode_table.json and begins with the row's fixed bytes
(30_encoding.md R73 to R77). -/

namespace Sys2Proof.Laws.EncodedAs

open Sys2Proof.Machine

/-- A row of the table: the space, and the fixed leading bytes as masks and values. -/
structure Row where
  space : Space
  fixed : List (Byte × Byte)
deriving DecidableEq, Repr

/-- An operation's row: its code. -/
def op (code : Byte) : Row := ⟨.port, [(0xFF, code)]⟩

/-- A frame's row: its leading bytes. -/
def frame (fixed : List (Byte × Byte)) : Row := ⟨.stream, fixed⟩

/-- The rows, written out from 30_encoding.md R73 to R77. -/
def row : Instr → Row
  | .beginParser _ => op 0x01
  | .push _ => op 0x02
  | .pushN _ => op 0x03
  | .stop => op 0x04
  | .setIdCb _ => op 0x05
  | .dbgEn => op 0x06
  | .dbgDis => op 0x07
  | .errEn => op 0x08
  | .errDis => op 0x09
  | .xor8Upd _ _ => op 0x10
  | .crc24qUpd _ _ => op 0x11
  | .fl8Upd _ _ _ => op 0x12
  | .ccitt16Upd _ _ => op 0x13
  | .crc32rUpd _ _ => op 0x14
  | .spCrc4Upd _ _ => op 0x15
  | .spCrc8Upd _ _ => op 0x16
  | .spCrc16Upd _ _ => op 0x17
  | .spCrc24Upd _ _ => op 0x18
  | .spCrc32Upd _ _ => op 0x19
  | .getU8 _ => op 0x20
  | .getU16 _ => op 0x21
  | .getU32 _ => op 0x22
  | .getU64 _ => op 0x23
  | .getI8 _ => op 0x24
  | .getI16 _ => op 0x25
  | .getI32 _ => op 0x26
  | .getI64 _ => op 0x27
  | .getF32 _ => op 0x28
  | .getF64 _ => op 0x29
  | .getStr _ => op 0x2A
  | .getU8No _ => op 0x30
  | .getU16No _ => op 0x31
  | .getU32No _ => op 0x32
  | .getU64No _ => op 0x33
  | .getI8No _ => op 0x34
  | .getI16No _ => op 0x35
  | .getI32No _ => op 0x36
  | .getI64No _ => op 0x37
  | .getF32No _ => op 0x38
  | .getF64No _ => op 0x39
  | .getStrNo _ => op 0x3A
  | .nmeaName => op 0x40
  | .uhashName => op 0x41
  | .rtcmMsgId => op 0x42
  | .rtcmGetU _ _ => op 0x43
  | .rtcmGetS _ _ => op 0x44
  | .ubxClass => op 0x45
  | .ubxId => op 0x46
  | .ubxNum => op 0x47
  | .sbfId => op 0x48
  | .sbfRev => op 0x49
  | .sbfIsNmea => op 0x4A
  | .sbfIsRtcm => op 0x4B
  | .sbfEncPtr => op 0x4C
  | .sbfEncLen => op 0x4D
  | .spartnType => op 0x4E
  | .spartnSubtype => op 0x4F
  | .frameNmea _ => frame [(0xFF, 0x24)]
  | .frameUhash _ => frame [(0xFF, 0x23)]
  | .frameRtcm _ _ => frame [(0xFF, 0xD3), (0xFC, 0x00)]
  | .frameUbx _ _ _ _ => frame [(0xFF, 0xB5), (0xFF, 0x62)]
  | .frameSbf _ _ _ _ _ => frame [(0xFF, 0x24), (0xFF, 0x40)]
  | .frameSpartn _ _ _ _ _ _ => frame [(0xFF, 0x73)]
  | .frameUbin _ _ _ _ _ => frame [(0xFF, 0xAA), (0xFF, 0x44), (0xFF, 0xB5)]

/-- A byte string begins with a row's fixed bytes. -/
def Begins : List (Byte × Byte) → List Byte → Prop
  | [], _ => True
  | (mask, value) :: fixed, b :: bs => b &&& mask = value ∧ Begins fixed bs
  | _ :: _, [] => False

/-- The encoding of an instruction is that of its row. -/
def Statement (i : Instr) : Prop :=
  (encode i).space = (row i).space ∧ Begins (row i).fixed (encode i).bytes

/-- An operation's record begins with its code. -/
theorem statement_op {i : Instr} {code : Byte} {args : List Byte}
    (he : encode i = portRecord code args) (hr : row i = op code) : Statement i := by
  rw [Statement, he, hr]
  refine ⟨rfl, ?_, trivial⟩
  exact BitVec.and_allOnes

/-- The six bits before an RTCM frame's length are 0 (30_encoding.md R63). -/
theorem rtcm_reserved (len : BitVec 10) :
    (len.extractLsb' 8 2).setWidth 8 &&& (0xFC : Byte) = 0x00 := by
  generalize len.extractLsb' 8 2 = x
  revert x
  decide

theorem beginParser (args : BeginArgs) : Statement (.beginParser args) :=
  statement_op rfl rfl

theorem push (b : Byte) : Statement (.push b) :=
  statement_op rfl rfl

theorem pushN (bytes : List Byte) : Statement (.pushN bytes) :=
  statement_op rfl rfl

theorem stop : Statement (.stop) :=
  statement_op rfl rfl

theorem setIdCb (en : Bool) : Statement (.setIdCb en) :=
  statement_op rfl rfl

theorem dbgEn : Statement (.dbgEn) :=
  statement_op rfl rfl

theorem dbgDis : Statement (.dbgDis) :=
  statement_op rfl rfl

theorem errEn : Statement (.errEn) :=
  statement_op rfl rfl

theorem errDis : Statement (.errDis) :=
  statement_op rfl rfl

theorem xor8Upd (acc : BitVec 8) (b : Byte) : Statement (.xor8Upd acc b) :=
  statement_op rfl rfl

theorem crc24qUpd (acc : BitVec 24) (b : Byte) : Statement (.crc24qUpd acc b) :=
  statement_op rfl rfl

theorem fl8Upd (ckA : BitVec 8) (ckB : BitVec 8) (b : Byte) : Statement (.fl8Upd ckA ckB b) :=
  statement_op rfl rfl

theorem ccitt16Upd (acc : BitVec 16) (b : Byte) : Statement (.ccitt16Upd acc b) :=
  statement_op rfl rfl

theorem crc32rUpd (acc : BitVec 32) (b : Byte) : Statement (.crc32rUpd acc b) :=
  statement_op rfl rfl

theorem spCrc4Upd (acc : BitVec 4) (b : Byte) : Statement (.spCrc4Upd acc b) :=
  statement_op rfl rfl

theorem spCrc8Upd (acc : BitVec 8) (b : Byte) : Statement (.spCrc8Upd acc b) :=
  statement_op rfl rfl

theorem spCrc16Upd (acc : BitVec 16) (b : Byte) : Statement (.spCrc16Upd acc b) :=
  statement_op rfl rfl

theorem spCrc24Upd (acc : BitVec 24) (b : Byte) : Statement (.spCrc24Upd acc b) :=
  statement_op rfl rfl

theorem spCrc32Upd (acc : BitVec 32) (b : Byte) : Statement (.spCrc32Upd acc b) :=
  statement_op rfl rfl

theorem getU8 (offset : LenWord) : Statement (.getU8 offset) :=
  statement_op rfl rfl

theorem getU16 (offset : LenWord) : Statement (.getU16 offset) :=
  statement_op rfl rfl

theorem getU32 (offset : LenWord) : Statement (.getU32 offset) :=
  statement_op rfl rfl

theorem getU64 (offset : LenWord) : Statement (.getU64 offset) :=
  statement_op rfl rfl

theorem getI8 (offset : LenWord) : Statement (.getI8 offset) :=
  statement_op rfl rfl

theorem getI16 (offset : LenWord) : Statement (.getI16 offset) :=
  statement_op rfl rfl

theorem getI32 (offset : LenWord) : Statement (.getI32 offset) :=
  statement_op rfl rfl

theorem getI64 (offset : LenWord) : Statement (.getI64 offset) :=
  statement_op rfl rfl

theorem getF32 (offset : LenWord) : Statement (.getF32 offset) :=
  statement_op rfl rfl

theorem getF64 (offset : LenWord) : Statement (.getF64 offset) :=
  statement_op rfl rfl

theorem getStr (offset : LenWord) : Statement (.getStr offset) :=
  statement_op rfl rfl

theorem getU8No (offset : LenWord) : Statement (.getU8No offset) :=
  statement_op rfl rfl

theorem getU16No (offset : LenWord) : Statement (.getU16No offset) :=
  statement_op rfl rfl

theorem getU32No (offset : LenWord) : Statement (.getU32No offset) :=
  statement_op rfl rfl

theorem getU64No (offset : LenWord) : Statement (.getU64No offset) :=
  statement_op rfl rfl

theorem getI8No (offset : LenWord) : Statement (.getI8No offset) :=
  statement_op rfl rfl

theorem getI16No (offset : LenWord) : Statement (.getI16No offset) :=
  statement_op rfl rfl

theorem getI32No (offset : LenWord) : Statement (.getI32No offset) :=
  statement_op rfl rfl

theorem getI64No (offset : LenWord) : Statement (.getI64No offset) :=
  statement_op rfl rfl

theorem getF32No (offset : LenWord) : Statement (.getF32No offset) :=
  statement_op rfl rfl

theorem getF64No (offset : LenWord) : Statement (.getF64No offset) :=
  statement_op rfl rfl

theorem getStrNo (offset : LenWord) : Statement (.getStrNo offset) :=
  statement_op rfl rfl

theorem nmeaName : Statement (.nmeaName) :=
  statement_op rfl rfl

theorem uhashName : Statement (.uhashName) :=
  statement_op rfl rfl

theorem rtcmMsgId : Statement (.rtcmMsgId) :=
  statement_op rfl rfl

theorem rtcmGetU (start : LenWord) (width : BitVec 8) : Statement (.rtcmGetU start width) :=
  statement_op rfl rfl

theorem rtcmGetS (start : LenWord) (width : BitVec 8) : Statement (.rtcmGetS start width) :=
  statement_op rfl rfl

theorem ubxClass : Statement (.ubxClass) :=
  statement_op rfl rfl

theorem ubxId : Statement (.ubxId) :=
  statement_op rfl rfl

theorem ubxNum : Statement (.ubxNum) :=
  statement_op rfl rfl

theorem sbfId : Statement (.sbfId) :=
  statement_op rfl rfl

theorem sbfRev : Statement (.sbfRev) :=
  statement_op rfl rfl

theorem sbfIsNmea : Statement (.sbfIsNmea) :=
  statement_op rfl rfl

theorem sbfIsRtcm : Statement (.sbfIsRtcm) :=
  statement_op rfl rfl

theorem sbfEncPtr : Statement (.sbfEncPtr) :=
  statement_op rfl rfl

theorem sbfEncLen : Statement (.sbfEncLen) :=
  statement_op rfl rfl

theorem spartnType : Statement (.spartnType) :=
  statement_op rfl rfl

theorem spartnSubtype : Statement (.spartnSubtype) :=
  statement_op rfl rfl

theorem frameNmea (rest : List Byte) :
    Statement (.frameNmea rest) :=
  ⟨rfl, rfl, trivial⟩

theorem frameUhash (rest : List Byte) :
    Statement (.frameUhash rest) :=
  ⟨rfl, rfl, trivial⟩

theorem frameRtcm (len : BitVec 10) (rest : List Byte) :
    Statement (.frameRtcm len rest) :=
  ⟨rfl, rfl, rtcm_reserved len, trivial⟩

theorem frameUbx (cls : Byte) (id : Byte) (len : BitVec 16) (rest : List Byte) :
    Statement (.frameUbx cls id len rest) :=
  ⟨rfl, rfl, rfl, trivial⟩

theorem frameSbf (crc : BitVec 16) (id : BitVec 13) (rev : BitVec 3) (len : BitVec 16)
    (rest : List Byte) :
    Statement (.frameSbf crc id rev len rest) :=
  ⟨rfl, rfl, rfl, trivial⟩

theorem frameSpartn (msgType : BitVec 7) (payloadLen : BitVec 10) (eaf : BitVec 1)
    (crcType : BitVec 2) (hdrCrc : BitVec 4) (rest : List Byte) :
    Statement (.frameSpartn msgType payloadLen eaf crcType hdrCrc rest) :=
  ⟨rfl, rfl, trivial⟩

theorem frameUbin (h3 : Byte) (h4 : Byte) (h5 : Byte) (len : BitVec 16) (rest : List Byte) :
    Statement (.frameUbin h3 h4 h5 len rest) :=
  ⟨rfl, rfl, rfl, rfl, trivial⟩

end Sys2Proof.Laws.EncodedAs
end

