-- ==== Sys2Proof/Tests/Slice0.lean ====
section
/-! SUPPORT. Tests/Slice0.lean: the model's own tests: ill-formed terms refused, words written out from
the encodings of 30_encoding.md, one or two small results an instruction from 95_test_vectors.md and the
rules' examples, and for every statement with hypotheses a concrete case that meets them. -/

open Sys2Proof Sys2Proof.Machine

namespace Sys2Proof.Tests

/-! ### Helpers -/

/-- A searching ParseState with this table and a parse area of `n` bytes. -/
def fresh (table : List Kind) (n : Nat) (badCrc invalid : Bool) (abort : Bool := false) :
    ParseState :=
  { freshParse ⟨table, .null, true, badCrc, false, false, abort, abort⟩ n with
    invalidEn := invalid }

/-- The machine with this ParseState, no window open and nothing waiting. -/
def machine (p : ParseState) : State := { State.reset with parse := some p }

/-- The machine after these octets have been pushed, up to the first window. -/
def pushed (p : ParseState) (octets : List Byte) : State :=
  match runBytes octets (machine p) with
  | .next t => t
  | .fault _ => machine p
  | .refused _ => machine p

/-- The ParseState after these octets. -/
def parsed (p : ParseState) (octets : List Byte) : ParseState :=
  (pushed p octets).parse.getD p

/-- The state an instruction leads to. -/
def after (i : Instr) (s : State) : Option State :=
  match exec i s with
  | .next t => some t
  | .fault _ => none
  | .refused _ => none

/-- The result an instruction gives. -/
def resultOf (i : Instr) (s : State) : Option Result := (after i s).map (·.result)

theorem fresh_inv {table : List Kind} {n : Nat} {badCrc invalid abort : Bool} (ht : table ≠ [])
    (hn : 1 ≤ n ∧ n < 2 ^ lenW) : (fresh table n badCrc invalid abort).Inv :=
  ⟨ht, hn, Nat.zero_le _, List.Pairwise.nil, by simp [fresh, freshParse],
    by simp [fresh, freshParse], le_refl _, by simp [fresh, freshParse, ParseState.count],
    by simp [fresh, freshParse, ParseState.count], by simp [fresh, freshParse], rfl⟩

theorem pushed_inv {table : List Kind} {n : Nat} {badCrc invalid abort : Bool} (octets : List Byte)
    (ht : table ≠ [] := by decide) (hn : 1 ≤ n ∧ n < 2 ^ lenW := by decide) :
    (pushed (fresh table n badCrc invalid abort) octets).Inv := by
  obtain ⟨t, h, hi⟩ := runBytes_safe octets
    (s := machine (fresh table n badCrc invalid abort)) rfl
    (fresh_inv ht hn) trivial rfl (by simp [machine, State.reset])
  simpa only [pushed, h] using hi

/-- The default table, a parse area of 64 bytes, the invalid-data callback registered. -/
def usual : ParseState := fresh defaultTable 64 false true

/-- The same with the bad-CRC callback. -/
def asking : ParseState := fresh defaultTable 64 true true

/-- The table of 95_test_vectors.md section 2.7. -/
def sbfFirst : ParseState := fresh [.sbf, .nmea] 64 true true

/-- Frame U of 49_accessors.md. -/
def ubxU : List Byte := [0xB5, 0x62, 0x06, 0x08, 0x02, 0x00, 0xE8, 0x03, 0xFB, 0x27]

/-- Vector N0 of 95_test_vectors.md up to its last digit. -/
def nmeaN0 : List Byte := [0x24, 0x47, 0x50, 0x47, 0x47, 0x41, 0x2C, 0x31, 0x2A, 0x34, 0x42]

/-- The same with the digits `00` (scenario S2). -/
def nmeaS2 : List Byte := [0x24, 0x47, 0x50, 0x47, 0x47, 0x41, 0x2C, 0x31, 0x2A, 0x30, 0x30]

/-- Vector R1. -/
def rtcmR1 : List Byte := [0xD3, 0x00, 0x04, 0x43, 0x50, 0x00, 0xAB, 0xD6, 0x70, 0xAC]

/-- Vector H1. -/
def uhashH1 : List Byte :=
  [0x23, 0x4D, 0x4F, 0x44, 0x45, 0x2C, 0x72, 0x6F, 0x76, 0x65, 0x72, 0x2A, 0x35, 0x33]

/-- Vector B7, frame E of 49_accessors.md. -/
def sbfB7 : List Byte :=
  [0x24, 0x40, 0xFE, 0x94, 0x01, 0x10, 0x1C, 0x00, 0x10, 0x20, 0x30, 0x40, 0x50, 0x60, 0x04, 0x00,
    0x06, 0x00, 0x00, 0x00, 0x41, 0x42, 0x43, 0x44, 0x45, 0x46, 0x00, 0x00]

/-- Vector P4. -/
def spartnP4 : List Byte :=
  [0x73, 0xF0, 0x00, 0xFE, 0x30, 0x00, 0x00, 0x00, 0x00, 0x10, 0xA5, 0x01, 0x02, 0x03, 0x04, 0x05,
    0x06, 0x07, 0x08, 0xD0, 0x86, 0xA9, 0x9D]

/-- Vector X1. -/
def ubinX1 : List Byte :=
  [0xAA, 0x44, 0xB5, 0x32, 0x11, 0x00, 0x00, 0x00] ++ List.replicate 16 0 ++
    [0xA5, 0x8B, 0x8A, 0x25]

def inUbx : State := pushed usual ubxU
def inNmea : State := pushed usual nmeaN0
def inRtcm : State := pushed usual rtcmR1
def inUhash : State := pushed usual uhashH1
def inSbf : State := pushed sbfFirst sbfB7
def inSpartn : State := pushed usual spartnP4

/-! ### Ill-formed terms are refused (30_encoding.md R62 to R69) -/

/-- A non-hex checksum digit. -/
theorem test_wf_nmea : (Instr.frameNmea [0x41, 0x2C, 0x2A, 0x34, 0x47]).wf = false := by decide

/-- An empty name. -/
theorem test_wf_name_empty : (Instr.frameNmea [0x2C, 0x2A, 0x34, 0x42]).wf = false := by decide

/-- A name of sixteen characters. -/
theorem test_wf_name_long :
    (Instr.frameNmea (List.replicate 16 0x41 ++ [0x2C, 0x2A, 0x34, 0x42])).wf = false := by decide

/-- A `MODE` name with eight digits. -/
theorem test_wf_uhash :
    (Instr.frameUhash ([0x4D, 0x4F, 0x44, 0x45, 0x2C, 0x2A] ++ List.replicate 8 0x30)).wf =
      false := by decide

/-- A missing CRC octet. -/
theorem test_wf_rtcm : (Instr.frameRtcm 0 [0x47, 0xEA]).wf = false := by decide

/-- A payload shorter than the length. -/
theorem test_wf_ubx : (Instr.frameUbx 5 1 1 [0x06, 0x17]).wf = false := by decide

/-- A length that is no multiple of 4. -/
theorem test_wf_sbf : (Instr.frameSbf 0 0x1234 0 10 [0, 0]).wf = false := by decide

/-- A length below 8. -/
theorem test_wf_sbf_short : (Instr.frameSbf 0 0x1234 0 4 []).wf = false := by decide

/-- A wrong header CRC (vector P3: the right one is 9). -/
theorem test_wf_spartn_header :
    (Instr.frameSpartn 0 2 0 0 8 [0x10, 0, 0, 0, 0xDE, 0xAD, 0x9E]).wf = false := by decide +kernel

/-- A variable part that is one octet short. -/
theorem test_wf_spartn_rest :
    (Instr.frameSpartn 0 2 0 0 9 [0x10, 0, 0, 0, 0xDE, 0xAD]).wf = false := by decide +kernel

/-- No room for the CRC. -/
theorem test_wf_ubin : (Instr.frameUbin 0 0 0 0 (List.replicate 16 0)).wf = false := by decide

/-- The vectors' own frames are well-formed. -/
theorem test_wf_accepts :
    (Instr.frameNmea (nmeaN0.drop 1)).wf = true ∧ (Instr.frameUhash (uhashH1.drop 1)).wf = true ∧
      (Instr.frameRtcm 4 (rtcmR1.drop 3)).wf = true ∧
      (Instr.frameUbx 6 8 2 (ubxU.drop 6)).wf = true ∧
      (Instr.frameSbf 0x94FE 4097 0 28 (sbfB7.drop 8)).wf = true ∧
      (Instr.frameSpartn 120 1 1 3 0xE (spartnP4.drop 4)).wf = true ∧
      (Instr.frameUbin 0x32 0x11 0 0 (ubinX1.drop 8)).wf = true := by decide +kernel

/-! ### Decoding: words written out from 30_encoding.md R62 to R77 -/

theorem test_decode_lifecycle :
    decode ⟨.port, [0x01, 0x02, 0x40, 0x00, 0x00, 0x00, 0x13, 0x04, 0x00]⟩ =
        .ok (.beginParser ⟨[.sbf, .nmea], .area 64, true, true, false, false, true, false⟩) ∧
      decode ⟨.port, [0x02, 0xB5]⟩ = .ok (.push 0xB5) ∧
      decode ⟨.port, [0x03, 0xB5, 0x62]⟩ = .ok (.pushN [0xB5, 0x62]) ∧
      decode ⟨.port, [0x04]⟩ = .ok .stop ∧
      decode ⟨.port, [0x05, 0x01]⟩ = .ok (.setIdCb true) ∧
      decode ⟨.port, [0x06]⟩ = .ok .dbgEn ∧ decode ⟨.port, [0x07]⟩ = .ok .dbgDis ∧
      decode ⟨.port, [0x08]⟩ = .ok .errEn ∧ decode ⟨.port, [0x09]⟩ = .ok .errDis := by decide

theorem test_decode_generators :
    decode ⟨.port, [0x10, 0x5A, 0xA5]⟩ = .ok (.xor8Upd 0x5A 0xA5) ∧
      decode ⟨.port, [0x11, 0x33, 0x22, 0x11, 0xD3]⟩ = .ok (.crc24qUpd 0x112233 0xD3) ∧
      decode ⟨.port, [0x12, 0x01, 0x02, 0x03]⟩ = .ok (.fl8Upd 1 2 3) ∧
      decode ⟨.port, [0x13, 0x22, 0x11, 0x1A]⟩ = .ok (.ccitt16Upd 0x1122 0x1A) ∧
      decode ⟨.port, [0x14, 0x44, 0x33, 0x22, 0x11, 0xAA]⟩ = .ok (.crc32rUpd 0x11223344 0xAA) ∧
      decode ⟨.port, [0x15, 0x0F, 0x80]⟩ = .ok (.spCrc4Upd 0xF 0x80) ∧
      decode ⟨.port, [0x16, 0xFF, 0x80]⟩ = .ok (.spCrc8Upd 0xFF 0x80) ∧
      decode ⟨.port, [0x17, 0x22, 0x11, 0x80]⟩ = .ok (.spCrc16Upd 0x1122 0x80) ∧
      decode ⟨.port, [0x18, 0x33, 0x22, 0x11, 0x80]⟩ = .ok (.spCrc24Upd 0x112233 0x80) ∧
      decode ⟨.port, [0x19, 0x44, 0x33, 0x22, 0x11, 0x80]⟩ =
        .ok (.spCrc32Upd 0x11223344 0x80) := by decide

/-- The operand of an accessor record: offset 0x01020304. -/
def someOffset : List Byte := [0x04, 0x03, 0x02, 0x01]

theorem test_decode_accessors :
    ∀ row ∈
        [((0x20 : Byte), Instr.getU8), (0x21, .getU16), (0x22, .getU32), (0x23, .getU64),
          (0x24, .getI8), (0x25, .getI16), (0x26, .getI32), (0x27, .getI64), (0x28, .getF32),
          (0x29, .getF64), (0x2A, .getStr), (0x30, .getU8No), (0x31, .getU16No),
          (0x32, .getU32No), (0x33, .getU64No), (0x34, .getI8No), (0x35, .getI16No),
          (0x36, .getI32No), (0x37, .getI64No), (0x38, .getF32No), (0x39, .getF64No),
          (0x3A, .getStrNo)],
      decode ⟨.port, row.1 :: someOffset⟩ = .ok (row.2 0x01020304) := by decide

theorem test_decode_queries :
    (∀ row ∈
        [((0x40 : Byte), Instr.nmeaName), (0x41, .uhashName), (0x42, .rtcmMsgId),
          (0x45, .ubxClass), (0x46, .ubxId), (0x47, .ubxNum), (0x48, .sbfId), (0x49, .sbfRev),
          (0x4A, .sbfIsNmea), (0x4B, .sbfIsRtcm), (0x4C, .sbfEncPtr), (0x4D, .sbfEncLen),
          (0x4E, .spartnType), (0x4F, .spartnSubtype)],
        decode ⟨.port, [row.1]⟩ = .ok row.2) ∧
      decode ⟨.port, [0x43, 0x10, 0x00, 0x00, 0x00, 0x0C]⟩ = .ok (.rtcmGetU 16 12) ∧
      decode ⟨.port, [0x44, 0x18, 0x00, 0x00, 0x00, 0x08]⟩ = .ok (.rtcmGetS 24 8) := by decide

theorem test_decode_frames :
    decode ⟨.stream, [0x24, 0x47, 0x50]⟩ = .ok (.frameNmea [0x47, 0x50]) ∧
      decode ⟨.stream, [0x23, 0x4D]⟩ = .ok (.frameUhash [0x4D]) ∧
      decode ⟨.stream, [0xD3, 0x02, 0x01, 0x43]⟩ = .ok (.frameRtcm 0x201 [0x43]) ∧
      decode ⟨.stream, [0xB5, 0x62, 0x06, 0x08, 0x02, 0x01, 0xE8]⟩ =
        .ok (.frameUbx 6 8 0x102 [0xE8]) ∧
      decode ⟨.stream, [0x24, 0x40, 0xFB, 0x59, 0x1A, 0x57, 0x0C, 0x00, 0x01]⟩ =
        .ok (.frameSbf 0x59FB 5914 2 12 [0x01]) ∧
      decode ⟨.stream, [0x73, 0xF0, 0x00, 0xFE, 0x30]⟩ =
        .ok (.frameSpartn 120 1 1 3 0xE [0x30]) ∧
      decode ⟨.stream, [0xAA, 0x44, 0xB5, 0x32, 0x11, 0x05, 0x04, 0x01, 0x99]⟩ =
        .ok (.frameUbin 0x32 0x11 0x05 0x104 [0x99]) := by decide

/-- Codes outside the tables (vector Z10) and reserved bits (30_encoding.md R77, R79). -/
theorem test_decode_rejects :
    decode ⟨.port, [0x0A]⟩ = .error (.illegalOpcode 0x0A) ∧
      decode ⟨.port, [0x2B, 0, 0, 0, 0]⟩ = .error (.illegalOpcode 0x2B) ∧
      decode ⟨.port, [0x15, 0x10, 0x00]⟩ = .error .operandTooWide ∧
      decode ⟨.stream, [0xD3, 0x04, 0x00]⟩ = .error .noFrame ∧
      decode ⟨.stream, [0xB5, 0x63]⟩ = .error .noFrame := by decide

/-- The table's own numbers (spec/opcode_table.json). -/
theorem test_table_words :
    decodeTableWord 8 0x10 = some (.xor8Upd 0 0) ∧
      decodeTableWord 16 0xB562 = some (.frameUbx 0 0 0 [0, 0]) ∧
      decodeTableWord 16 0x2440 = some (.frameSbf 0 0 0 0 []) ∧
      decodeTableWord 24 0xAA44B5 = some (.frameUbin 0 0 0 0 (List.replicate 20 0)) := by decide

/-- `withFetchWord` puts the word where the next step takes it. -/
theorem test_fetch_word :
    step (State.reset.withFetchWord 8 0x04) = exec .stop (State.reset.take []) := by rfl

/-! ### Results (95_test_vectors.md; the rules' examples) -/

/-- The nine octets of vector G1. -/
def nine : List Byte := [0x31, 0x32, 0x33, 0x34, 0x35, 0x36, 0x37, 0x38, 0x39]

theorem test_check_values :
    xor8Block nine = 0x31 ∧ crc24qBlock nine = 0xCDE703 ∧ fl8Block nine = (0xDD, 0x15) ∧
      ccitt16Block nine = 0x31C3 ∧ crc32rBlock nine = 0x2DFD2D88 ∧ spCrc4Block nine = 0x2 ∧
      spCrc8Block nine = 0xF4 ∧ spCrc16Block nine = 0x31C3 ∧ spCrc24Block nine = 0xCDE703 ∧
      spCrc32Block nine = 0xFC891918 := by decide +kernel

/-- Vector G3, one update each, in the reset state (R108). -/
theorem test_generators :
    resultOf (.xor8Upd 0x5A 0xA5) .reset = some (.bits 8 0xFF) ∧
      resultOf (.crc24qUpd 0xFFFFFF 0x00) .reset = some (.bits 24 0x227A38) ∧
      resultOf (.fl8Upd 0xFF 0xFF 0x01) .reset = some (.sums 0x00 0xFF) ∧
      resultOf (.ccitt16Upd 0xFFFF 0x00) .reset = some (.bits 16 0xE1F0) ∧
      resultOf (.crc32rUpd 0xFFFFFFFF 0x00) .reset = some (.bits 32 0x2DFD1072) ∧
      resultOf (.spCrc4Upd 0x5 0xA5) .reset = some (.bits 4 0x6) ∧
      resultOf (.spCrc8Upd 0xFF 0x00) .reset = some (.bits 8 0xF3) ∧
      resultOf (.spCrc16Upd 0x8000 0x00) .reset = some (.bits 16 0x9188) ∧
      resultOf (.spCrc24Upd 0x800000 0x00) .reset = some (.bits 24 0x3347A4) ∧
      resultOf (.spCrc32Upd 0xFFFFFFFF 0x00) .reset = some (.bits 32 0x4E08BFB4) := by decide

/-- Vector G4. -/
theorem test_spartn_blocks :
    spHdrCrc 0x00 0x01 0x09 = 0x9 ∧ spHdrCrc 0xF0 0x00 0xFE = 0xE ∧
      spBodyCrc 1 [0x00, 0x01, 0x09, 0x10, 0x00, 0x00, 0x00, 0xDE, 0xAD] = 0x24F4 ∧
      spBodyCrc 3 [0x00, 0x01, 0x09, 0x10, 0x00, 0x00, 0x00, 0xDE, 0xAD] = 0xD8419683 := by decide +kernel

/-- Vectors Z3 to Z5 and Z9: BEGIN with an empty table, without EOM, and over a frame in progress. -/
theorem test_begin :
    resultOf (.beginParser ⟨[], .area 64, true, false, false, false, false, false⟩) .reset =
        some .error ∧
      resultOf (.beginParser ⟨[.ubx], .area 64, false, false, false, false, false, false⟩)
        .reset = some .error ∧
      (after (.beginParser ⟨[.ubx], .area 64, true, false, false, false, false, false⟩)
          (pushed usual [0xB5, 0x62, 0x05])).map (·.parse) =
        some (some (fresh [.ubx] 64 false false)) := by decide

/-- Vectors Z1 and Z8: PUSH of an unconfigured core, and STOP with a frame in progress. -/
theorem test_push_stop :
    resultOf (.push 0x24) .reset = some .refused ∧
      (after .stop (pushed usual [0xB5, 0x62, 0x05])).map (fun t => (t.configured, t.events)) =
        some (false, []) := by decide

/-- Vector Z7, and the control bits (R134, R135). -/
theorem test_control :
    (after (.setIdCb false) (machine usual)).map (fun t => t.parse.map (·.invalidEn)) =
        some (some false) ∧
      (after .dbgEn (machine usual)).map (fun t => t.parse.map (·.dbgEn)) = some (some true) ∧
      (after .dbgDis (machine usual)).map (fun t => t.parse.map (·.dbgEn)) =
        some (some false) ∧
      (after .errEn (machine usual)).map (fun t => t.parse.map (·.errEn)) = some (some true) ∧
      (after .errDis (machine usual)).map (fun t => t.parse.map (·.errEn)) =
        some (some false) := by decide

/-- Frame U through PUSHN and as FRAME.UBX: one EOM of entry 3 (vector U1). -/
theorem test_ubx_frame :
    inUbx.events = [.eom 3 ubxU] ∧
      (after (.frameUbx 6 8 2 (ubxU.drop 6)) (machine usual)).map (·.events) =
        some [.eom 3 ubxU] := by decide

/-- Vector N0: the synthetic CR LF, and NUL past the slice. -/
theorem test_nmea_frame :
    (after (.frameNmea (nmeaN0.drop 1)) (machine usual)).map (·.events) =
        some [.eom 0 (nmeaN0 ++ [0x0D, 0x0A])] ∧
      (parsed usual nmeaN0).buffer.read 13 = some 0 := by decide

/-- Vector H1. -/
theorem test_uhash_frame :
    (after (.frameUhash (uhashH1.drop 1)) (machine usual)).map (·.events) =
      some [.eom 1 (uhashH1 ++ [0x0D, 0x0A])] := by decide

/-- Vector R1. -/
theorem test_rtcm_frame :
    (after (.frameRtcm 4 (rtcmR1.drop 3)) (machine usual)).map (·.events) =
      some [.eom 2 rtcmR1] := by decide +kernel

/-- Vectors B7 and B2: SBF is not asked about a bad CRC. -/
theorem test_sbf_frame :
    (after (.frameSbf 0x94FE 4097 0 28 (sbfB7.drop 8)) (machine sbfFirst)).map (·.events) =
        some [.eom 0 sbfB7] ∧
      (after (.frameSbf 0x59FA 5914 2 12 [1, 2, 3, 4]) (machine sbfFirst)).map (·.events) =
        some [.invalidData .checksum
          [0x24, 0x40, 0xFA, 0x59, 0x1A, 0x57, 0x0C, 0x00, 1, 2, 3]] := by decide +kernel

/-- Vectors P4 and P3. -/
theorem test_spartn_frame :
    (after (.frameSpartn 120 1 1 3 0xE (spartnP4.drop 4)) (machine usual)).map (·.events) =
        some [.eom 5 spartnP4] ∧
      (pushed asking [0x73, 0x00, 0x01, 0x08]).events =
        [.invalidData .checksum [0x73, 0x00, 0x01]] := by decide +kernel

/-- Vector X1. -/
theorem test_ubin_frame :
    (after (.frameUbin 0x32 0x11 0 0 (ubinX1.drop 8)) (machine usual)).map (·.events) =
      some [.eom 6 ubinX1] := by decide +kernel

/-- 49_accessors.md R301 to R304, R309, R310, R312, in frame U. -/
theorem test_unsigned_accessors :
    resultOf (.getU8 3) inUbx = some (.bits 8 0x27) ∧
      resultOf (.getU8 4) inUbx = some .refused ∧
      resultOf (.getU16 1) inUbx = some (.bits 16 0xFB03) ∧
      resultOf (.getU32 0) inUbx = some (.bits 32 0x27FB03E8) ∧
      resultOf (.getU64 0) inUbx = some .refused ∧
      resultOf (.getF32 0) inUbx = some (.bits 32 0x27FB03E8) ∧
      resultOf (.getF64 0) inUbx = some .refused := by decide

theorem test_raw_accessors :
    resultOf (.getU8No 0) inUbx = some (.bits 8 0xB5) ∧
      resultOf (.getU16No 4) inUbx = some (.bits 16 0x0002) ∧
      resultOf (.getU32No 0) inUbx = some (.bits 32 0x080662B5) ∧
      resultOf (.getU64No 2) inUbx = some (.bits 64 0x27FB03E800020806) ∧
      resultOf (.getF32No 6) inUbx = some (.bits 32 0x27FB03E8) ∧
      resultOf (.getF64No 0) inUbx = some (.bits 64 0x03E80002080662B5) := by decide

/-- R305 to R308. -/
theorem test_signed_accessors :
    resultOf (.getI8 0) inUbx = some (.signed 8 (-24)) ∧
      resultOf (.getI16 1) inUbx = some (.signed 16 (-1277)) ∧
      resultOf (.getI32 0) inUbx = some (.signed 32 670761960) ∧
      resultOf (.getI64 0) inUbx = some .refused ∧
      resultOf (.getI8No 0) inUbx = some (.signed 8 (-75)) ∧
      resultOf (.getI16No 6) inUbx = some (.signed 16 1000) ∧
      resultOf (.getI32No 6) inUbx = some (.signed 32 670761960) ∧
      resultOf (.getI64No 2) inUbx = some (.signed 64 0x27FB03E800020806) := by decide

/-- R311. -/
theorem test_string_accessors :
    resultOf (.getStr 0) inUbx = some (.bytes [0xE8, 0x03, 0xFB, 0x27]) ∧
      resultOf (.getStr 4) inUbx = some .refused ∧
      resultOf (.getStrNo 4) inUbx = some (.bytes [0x02]) ∧
      resultOf (.getStrNo 5) inUbx = some (.bytes []) := by decide

/-- R313, R314, R318 to R320, R329. -/
theorem test_text_and_ubx_queries :
    resultOf .nmeaName inNmea = some (.bytes [0x47, 0x50, 0x47, 0x47, 0x41]) ∧
      resultOf .uhashName inUhash = some (.bytes [0x4D, 0x4F, 0x44, 0x45]) ∧
      resultOf .ubxClass inUbx = some (.bits 8 0x06) ∧
      resultOf .ubxId inUbx = some (.bits 8 0x08) ∧
      resultOf .ubxNum inUbx = some (.bits 16 0x0608) ∧
      resultOf .nmeaName inUbx = some .refused ∧
      resultOf .ubxNum (machine usual) = some .refused := by decide

/-- R315 to R317, in vector R1. -/
theorem test_rtcm_queries :
    resultOf .rtcmMsgId inRtcm = some (.bits 12 1077) ∧
      resultOf (.rtcmGetU 0 12) inRtcm = some (.bits 64 0x435) ∧
      resultOf (.rtcmGetU 0 56) inRtcm = some (.bits 64 0x435000ABD670AC) ∧
      resultOf (.rtcmGetU 0 57) inRtcm = some .refused ∧
      resultOf (.rtcmGetS 24 8) inRtcm = some (.signed 64 (-85)) := by decide +kernel

/-- R321 to R326, in frame E. -/
theorem test_sbf_queries :
    resultOf .sbfId inSbf = some (.bits 13 4097) ∧ resultOf .sbfRev inSbf = some (.bits 3 0) ∧
      resultOf .sbfIsNmea inSbf = some (.bit true) ∧
      resultOf .sbfIsRtcm inSbf = some (.bit false) ∧
      resultOf .sbfEncPtr inSbf = some (.bits 32 20) ∧
      resultOf .sbfEncLen inSbf = some (.bits 16 6) := by decide +kernel

/-- R327, R328, in vector P4. -/
theorem test_spartn_queries :
    resultOf .spartnType inSpartn = some (.bits 7 120) ∧
      resultOf .spartnSubtype inSpartn = some (.bits 4 3) := by decide +kernel

/-- Z11: inside a window. -/
theorem test_window_refuses :
    resultOf (.push 0) inUbx = some .refused ∧ resultOf .stop inUbx = some .refused ∧
      resultOf (.setIdCb true) inUbx = some .refused := by decide

/-- The reset memory is in canonical form: there is none, and BEGIN's buffer lists nothing. -/
theorem test_memory_wf : State.reset.parse = none ∧ Memory.wf usual.buffer := by decide

/-! ### Every statement's hypotheses are met

One theorem for each statement with hypotheses, named after it; a statement with several clauses has a
case of each. -/

/-- The invariant of a ParseState after some octets. -/
theorem parsed_inv {table : List Kind} {n : Nat} {badCrc invalid abort : Bool} (octets : List Byte)
    (p : ParseState) (hp : (pushed (fresh table n badCrc invalid abort) octets).parse = some p)
    (ht : table ≠ [] := by decide) (hn : 1 ≤ n ∧ n < 2 ^ lenW := by decide) : p.Inv :=
  ((pushed_inv octets ht hn).parseOk p hp).1

theorem latches_of {p : ParseState} {i : Nat} {k : Kind}
    (h : firstAcceptor (preamble k) p.table 0 = some (i, k)) : p.Latches i k := by
  obtain ⟨-, h1, -, h2⟩ := firstAcceptor_some h
  exact ⟨by simpa using h1, by simpa using h2⟩

def rejectsDec (p : ParseState) (b : Byte) (c : Cause) : Decidable (p.Rejects b c) := by
  unfold ParseState.Rejects
  split <;> infer_instance

def starDec (frame : List Byte) (n : Nat) : Decidable (hasStar frame n) := by
  unfold hasStar
  infer_instance

def coversDec (p : ParseState) : Decidable p.ChecksumCovers := by
  have := starDec
  unfold ParseState.ChecksumCovers
  split <;> infer_instance

/-- A machine that has these actions at its port. -/
def facing (port : List HostAction) (s : State) : State := { s with port := port }

theorem witness_DecodeEncode :
    (Instr.frameSbf 0x94FE 4097 0 28 (sbfB7.drop 8)).wf = true ∧ (Instr.pushN []).wf = true := by
  decide +kernel

theorem witness_EncodeDecode :
    decode ⟨.stream, ubxU⟩ = .ok (.frameUbx 6 8 2 [0xE8, 0x03, 0xFB, 0x27]) := by decide

/-- The codes on both sides of every range. -/
theorem witness_IllegalOpcodesRefused :
    ∀ op ∈ ([0x00, 0x0A, 0x0F, 0x1A, 0x1F, 0x2B, 0x2F, 0x3B, 0x3F, 0x50, 0xFF] : List Byte),
      (facing [.present ⟨.port, [op]⟩] .reset).port = [.present ⟨.port, [op]⟩] ∧
        ¬(0x01 ≤ op.toNat ∧ op.toNat ≤ 0x09) ∧ ¬(0x10 ≤ op.toNat ∧ op.toNat ≤ 0x19) ∧
        ¬(0x20 ≤ op.toNat ∧ op.toNat ≤ 0x2A) ∧ ¬(0x30 ≤ op.toNat ∧ op.toNat ≤ 0x3A) ∧
        ¬(0x40 ≤ op.toNat ∧ op.toNat ≤ 0x4F) := by decide

theorem witness_WideOperandsRefused :
    (facing [.present ⟨.port, [0x15, 0x0F, 0]⟩] .reset).port =
        .present ⟨.port, [0x15, 0x0F, 0]⟩ :: [] ∧ (0x0F : Byte).toNat < 16 ∧
      (facing [.present ⟨.port, [0x15, 0x10, 0]⟩] .reset).port =
        .present ⟨.port, [0x15, 0x10, 0]⟩ :: [] ∧ ¬(0x10 : Byte).toNat < 16 := by decide

theorem witness_StepRunsDecoded :
    (facing [.present ⟨.port, [0x04]⟩] .reset).port = .present ⟨.port, [0x04]⟩ :: [] ∧
      decode ⟨.port, [0x04]⟩ = .ok .stop ∧
      decode ⟨.port, [0x0A]⟩ = .error (.illegalOpcode 0x0A) ∧
      decode ⟨.stream, [0xFF]⟩ = .error .noFrame ∧
      (facing [.returns true] inUbx).port = .returns true :: [] ∧
      State.reset.port = [] := by decide +kernel

theorem witness_TableDriven : 8 ≤ 8 ∧ 8 ≤ 32 := by decide

theorem witness_ZeroResidueMsbFirst :
    ([0x47, 0xEA, 0x4B] : List Byte).length = 3 ∧ ([0x31, 0xC3] : List Byte).length = 2 ∧
      ([0xF4] : List Byte).length = 1 := by decide

theorem witness_ZeroResidueLsbFirst :
    ([0x88, 0x2D, 0xFD, 0x2D] : List Byte).length = 4 := by decide

/-- A BEGIN of a default table over this buffer operand. -/
def beginOver (buffer : BufferArg) : BeginArgs :=
  ⟨defaultTable, buffer, true, false, false, false, false, false⟩

/-- The failing operands, and a parse area of 0 and of 1 byte. -/
theorem witness_BeginResult :
    State.reset.window = .none ∧ (beginOver .null).table ≠ [] ∧
      (beginOver .null).eomPresent = true ∧
      ((beginOver (.area 0)).buffer = .area 0 ∧ ¬1 ≤ (0 : LenWord).toNat) ∧
      ((beginOver (.area 1)).buffer = .area 1 ∧ 1 ≤ (1 : LenWord).toNat) := by decide

theorem witness_StopResult :
    (machine usual).window = .none ∧ inUbx.window ≠ .none := by decide +kernel

theorem witness_ControlOperations :
    (machine usual).parse = some usual ∧ (machine usual).window = .none ∧
      State.reset.parse = none ∧ inUbx.window ≠ .none := by decide +kernel

theorem reset_inv : State.reset.Inv :=
  ⟨by simp [State.reset], fun _ => rfl, fun _ => rfl, by simp [State.reset]⟩

theorem usual_inv : usual.Inv := fresh_inv (by decide) (by decide)

theorem machine_inv : (machine usual).Inv :=
  ⟨by simp only [machine, Option.some.injEq]; rintro p rfl; exact ⟨usual_inv, trivial⟩,
    by simp [machine], fun _ => rfl, by simp [machine, State.reset]⟩

theorem inUbx_inv : inUbx.Inv := pushed_inv ubxU

theorem witness_LegalityTable :
    State.reset.allows (opClass (.push 0)) = false ∧
      (machine usual).allows (opClass (.push 0)) = true ∧ (machine usual).Inv ∧
      inUbx.allows (opClass (.getU8 0)) = true ∧ inUbx.Inv ∧
      State.reset.parse = none ∧ State.reset.window = .none :=
  ⟨by decide, by decide, machine_inv, by decide +kernel, inUbx_inv, rfl, rfl⟩

theorem witness_ReadOnlyOps :
    opClass (.xor8Upd 0 0) = .generator ∧
      exec (.xor8Upd 0x5A 0xA5) .reset = .next { State.reset with result := .bits 8 0xFF } ∧
      opClass (.getU8 4) = .reader ∧
      exec (.getU8 4) .reset = .next { State.reset with result := .refused } :=
  ⟨rfl, rfl, rfl, rfl⟩

theorem witness_WindowLocksState : inUbx.window ≠ .none ∧ inUbx.Inv :=
  ⟨by decide +kernel, inUbx_inv⟩

theorem witness_SetupFixed :
    (machine usual).parse = some usual ∧
      exec (.setIdCb false) (machine usual) =
        .next (machine { usual with invalidEn := false }) ∧
      opClass (.setIdCb false) ≠ .begins ∧
      hostReturn false { machine usual with window := .inInvalid none } =
        .next (machine usual) :=
  ⟨rfl, rfl, by decide, rfl⟩

/-- The first and the last entry of the default table, and a byte that no entry takes. -/
theorem witness_Dispatch :
    (machine usual).parse = some usual ∧ (machine usual).window = .none ∧
      usual.state = .firstByte ∧ usual.table[0]? = some .nmea ∧ usual.table[6]? = some .ubin ∧
      (∀ j < 6, ∀ k', usual.table[j]? = some k' → preamble k' ≠ 0xAA) ∧
      ∀ k ∈ usual.table, preamble k ≠ 0xFF := by
  refine ⟨rfl, rfl, rfl, rfl, rfl, ?_, by decide⟩
  exact (latches_of (p := usual) (i := 6) (k := .ubin) rfl).2

theorem witness_RescanIsDispatch :
    (pushed usual [0xB5, 0x63]).window = .inInvalid (some 0x63) ∧
      (pushed usual [0xB5, 0x63]).todo = [] ∧
      (pushed usual [0xB5, 0x63]).parse = some (parsed usual [0xB5, 0x63]) := by decide +kernel

/-- A byte that each rejecting state rejects, at the boundaries of its check, with the octets that lead
there. -/
def rejections : List (List Kind × List Byte × Byte × Cause) :=
  [(defaultTable, [0x24], 0x2C, .grammar),
    (defaultTable, 0x24 :: List.replicate 15 0x41, 0x41, .grammar),
    (defaultTable, [0x24, 0x41, 0x2C], 0x1F, .grammar),
    (defaultTable, [0x24, 0x41, 0x2C], 0x7F, .grammar),
    (defaultTable, [0x24, 0x41, 0x2C, 0x2A], 0x47, .grammar),
    (defaultTable, [0x24, 0x41, 0x2C, 0x2A, 0x34], 0x67, .grammar),
    (defaultTable, [0xD3], 0x04, .length), (defaultTable, [0xB5], 0x63, .grammar),
    ([.sbf], [0x24], 0x41, .grammar),
    ([.sbf], [0x24, 0x40, 0x00, 0x00, 0x34, 0x12, 0x04], 0x00, .length),
    ([.sbf], [0x24, 0x40, 0x00, 0x00, 0x34, 0x12, 0x0A], 0x00, .length),
    (defaultTable, [0xAA], 0x45, .grammar), (defaultTable, [0xAA, 0x44], 0xB6, .grammar),
    (defaultTable, [0x23], 0x2C, .grammar),
    (defaultTable, 0x23 :: List.replicate 15 0x41, 0x41, .grammar),
    (defaultTable, [0x23, 0x41, 0x2C], 0x7F, .grammar),
    (defaultTable, [0x23, 0x41, 0x2C, 0x2A], 0x5A, .grammar)]

theorem witness_RejectedByte :
    ∀ row ∈ rejections,
      let s := pushed (fresh row.1 64 false true true) row.2.1
      ∃ p, s.parse = some p ∧ s.window = .none ∧ p.Inv ∧ p.length < p.bufferLength ∧
        p.Rejects row.2.2.1 row.2.2.2 := by
  intro row hrow
  have h : ∀ row ∈ rejections,
      row.1 ≠ [] ∧
        (pushed (fresh row.1 64 false true true) row.2.1).parse =
          some (parsed (fresh row.1 64 false true true) row.2.1) ∧
        (pushed (fresh row.1 64 false true true) row.2.1).window = .none ∧
        (parsed (fresh row.1 64 false true true) row.2.1).length <
          (parsed (fresh row.1 64 false true true) row.2.1).bufferLength ∧
        @decide _ (rejectsDec (parsed (fresh row.1 64 false true true) row.2.1)
          row.2.2.1 row.2.2.2) = true := by decide +kernel
  obtain ⟨h1, h2, h3, h4, h5⟩ := h row hrow
  exact ⟨_, h2, h3, parsed_inv row.2.1 _ h2 h1, h4, @of_decide_eq_true _ (rejectsDec _ _ _) h5⟩

/-- The first eight octets of frame U in a buffer of eight bytes, with and without the callback. -/
theorem witness_TooLong :
    ∀ invalid : Bool,
      let s := pushed (fresh defaultTable 8 false invalid) (ubxU.take 8)
      ∃ p, s.parse = some p ∧ s.window = .none ∧ p.Inv ∧ p.state.inFrame = true ∧
        p.length = p.bufferLength ∧ p.invalidEn = invalid := by
  intro invalid
  have h : ∀ invalid : Bool,
      let s := pushed (fresh defaultTable 8 false invalid) (ubxU.take 8)
      let p := parsed (fresh defaultTable 8 false invalid) (ubxU.take 8)
      s.parse = some p ∧ s.window = .none ∧ p.state.inFrame = true ∧
        p.length = p.bufferLength ∧ p.invalidEn = invalid := by decide +kernel
  obtain ⟨h1, h2, h3⟩ := h invalid
  exact ⟨_, h1, h2, parsed_inv _ _ h1, h3⟩

/-- The three states, each with the byte it consumes and one it does not. -/
theorem witness_LineTerminators :
    (machine { usual with state := .lineTerm }).parse =
        some { usual with state := .lineTerm } ∧
      (machine { usual with state := .lineTerm }).window = .none ∧
      (({ usual with state := .crThenLf } : ParseState).state = .crThenLf ∧
        (0x0A : Byte) = 0x0A ∧ (0x0D : Byte) ≠ 0x0A) ∧
      (({ usual with state := .lfThenCr } : ParseState).state = .lfThenCr ∧
        (0x0D : Byte) = 0x0D ∧ (0x0A : Byte) ≠ 0x0D) := by decide

theorem witness_WindowReturn :
    (machine usual).window = .none ∧
      (inUbx.parse = some (parsed usual ubxU) ∧ inUbx.window = .inEom false) ∧
      (inNmea.parse = some (parsed usual nmeaN0) ∧ inNmea.window = .inEom true) ∧
      (pushed usual [0xFF]).window = .inInvalid none := by decide +kernel

theorem witness_PushNIsPushes :
    State.reset.parse = none ∧ (machine usual).parse = some usual ∧
      (machine usual).window = .none ∧
      exec (.push 0xB5) (machine usual) = .next (pushed usual [0xB5]) ∧
      inUbx.window ≠ .none ∧
      hostReturn false { inUbx with todo := [] } =
        .next
          { inUbx with
            parse := some { parsed usual ubxU with state := .firstByte, active := 7 }
            window := .none } :=
  ⟨rfl, rfl, rfl, rfl, by decide +kernel, rfl⟩

theorem witness_FrameIsItsOctets : (encode (.frameUbx 6 8 2 (ubxU.drop 6))).space = .stream := by
  decide

/-- A PUSH that writes the buffer, one that delivers a text frame, and a return that rescues one. -/
theorem witness_BufferWrites :
    (machine usual).Inv ∧ (machine usual).parse = some usual ∧ (machine usual).window = .none ∧
      exec (.push 0xB5) (machine usual) = .next (pushed usual [0xB5]) ∧
      (pushed usual [0xB5]).parse = some (parsed usual [0xB5]) ∧
      (pushed asking nmeaS2).Inv ∧ (pushed asking nmeaS2).window = .inBadCrc 0x30 true ∧
      (pushed asking nmeaS2).todo = [] ∧
      (pushed asking nmeaS2).parse = some (parsed asking nmeaS2) :=
  ⟨machine_inv, rfl, rfl, rfl, rfl, pushed_inv nmeaS2, by decide +kernel, by decide +kernel,
    by decide +kernel⟩

theorem witness_PushEventLists :
    (machine usual).Inv ∧ (machine usual).parse = some usual ∧
      (machine usual).window = .none := ⟨machine_inv, rfl, rfl⟩

theorem witness_ByteAccounting :
    (machine usual).Inv ∧ (machine usual).parse = some usual ∧ usual.invalidEn = true ∧
      (machine usual).window = .none ∧
      exec (.push 0xB5) (machine usual) = .next (pushed usual [0xB5]) ∧
      inUbx.Inv ∧ inUbx.window ≠ .none ∧ inUbx.todo = [] :=
  ⟨machine_inv, rfl, rfl, rfl, rfl, inUbx_inv, by decide +kernel, by decide +kernel⟩

/-- Scenario S2 with the bad-CRC callback: the last digit raises BAD_CRC. -/
theorem witness_DeclinedIsNoCallback :
    (pushed asking (nmeaS2.take 10)).Inv ∧
      (pushed asking (nmeaS2.take 10)).parse = some (parsed asking (nmeaS2.take 10)) ∧
      (pushed asking (nmeaS2.take 10)).window = .none ∧
      (after (.push 0x30) (pushed asking (nmeaS2.take 10))).map (·.window) =
        some (.inBadCrc 0x30 true) :=
  ⟨pushed_inv _, by decide +kernel, by decide +kernel, by decide +kernel⟩

/-- A binary frame; a text frame with room for its trailer; one without. -/
theorem witness_RescueOrDrop :
    ((pushed asking [0xD3, 0x00, 0x00, 0x47, 0xEA, 0x4C]).Inv ∧
      (pushed asking [0xD3, 0x00, 0x00, 0x47, 0xEA, 0x4C]).window = .inBadCrc 0x4C false ∧
      (pushed asking [0xD3, 0x00, 0x00, 0x47, 0xEA, 0x4C]).todo = []) ∧
    ((pushed (fresh defaultTable 14 true true) nmeaS2).Inv ∧
      (pushed (fresh defaultTable 14 true true) nmeaS2).window = .inBadCrc 0x30 true ∧
      (parsed (fresh defaultTable 14 true true) nmeaS2).length + 3 ≤
        (parsed (fresh defaultTable 14 true true) nmeaS2).bufferLength) ∧
    ((pushed (fresh defaultTable 13 true true) nmeaS2).Inv ∧
      (pushed (fresh defaultTable 13 true true) nmeaS2).window = .inBadCrc 0x30 true ∧
      (parsed (fresh defaultTable 13 true true) nmeaS2).bufferLength <
        (parsed (fresh defaultTable 13 true true) nmeaS2).length + 3) :=
  ⟨⟨pushed_inv _, by decide +kernel, by decide +kernel⟩,
    ⟨pushed_inv _, by decide +kernel, by decide +kernel⟩,
    ⟨pushed_inv _, by decide +kernel, by decide +kernel⟩⟩

theorem witness_PowerOnReset :
    (machine usual).window = .none ∧
      exec .stop (machine usual) = .next { machine usual with parse := none } ∧
      exec (.beginParser (beginOver .null)) .reset =
        .next { State.reset with result := .error } ∧
      State.reset.parse = none ∧ State.reset.window = .none ∧ opClass (.push 0) ≠ .begins ∧
      opClass (.push 0) ≠ .generator :=
  ⟨rfl, rfl, rfl, rfl, rfl, by decide, by decide⟩

/-- A step that latches a recogniser. -/
theorem witness_StepKeepsInv :
    (machine usual).Inv ∧
      step (facing [.present ⟨.port, [0x02, 0xB5]⟩] (machine usual)) =
        .next (pushed usual [0xB5]) := ⟨machine_inv, rfl⟩

theorem witness_StepAnswers : inUbx.Inv := inUbx_inv

/-- Inside a frame of each kind the running checksum covers it. -/
theorem witness_RunningChecksum :
    ∀ octets ∈ [nmeaN0.take 10, uhashH1.take 13, rtcmR1.take 9, ubxU.take 9, spartnP4.take 20,
        ubinX1.take 27],
      (pushed usual octets).Inv ∧ (pushed usual octets).window = .none ∧
        (parsed usual octets).ChecksumCovers := by
  intro octets ho
  have h : ∀ octets ∈ [nmeaN0.take 10, uhashH1.take 13, rtcmR1.take 9, ubxU.take 9,
      spartnP4.take 20, ubinX1.take 27],
      (pushed usual octets).window = .none ∧
        @decide _ (coversDec (parsed usual octets)) = true := by decide +kernel
  exact ⟨pushed_inv octets, (h octets ho).1, @of_decide_eq_true _ (coversDec _) (h octets ho).2⟩

/-- A PUSH that delivers a frame, and one that asks about a bad CRC. -/
theorem witness_DeliveredFramesCheck :
    ((pushed usual (ubxU.take 9)).Inv ∧ (pushed usual (ubxU.take 9)).window = .none ∧
      (parsed usual (ubxU.take 9)).ChecksumCovers ∧
      (after (.push 0x27) (pushed usual (ubxU.take 9))).map (·.events) =
        some ((pushed usual (ubxU.take 9)).events ++ [.eom 3 ubxU])) ∧
    ((pushed asking (nmeaS2.take 10)).Inv ∧
      (parsed asking (nmeaS2.take 10)).ChecksumCovers ∧
      (after (.push 0x30) (pushed asking (nmeaS2.take 10))).map (·.events) =
        some ((pushed asking (nmeaS2.take 10)).events ++ [.badCrc 0])) := by
  have h : @decide _ (coversDec (parsed usual (ubxU.take 9))) = true ∧
      @decide _ (coversDec (parsed asking (nmeaS2.take 10))) = true := by decide +kernel
  exact ⟨⟨pushed_inv _, by decide +kernel, @of_decide_eq_true _ (coversDec _) h.1,
      by decide +kernel⟩,
    ⟨pushed_inv _, @of_decide_eq_true _ (coversDec _) h.2, by decide +kernel⟩⟩

/-- The search state of every whole-frame statement. -/
theorem searching_usual :
    (machine usual).parse = some usual ∧ (machine usual).window = .none ∧
      usual.state = .firstByte := ⟨rfl, rfl, rfl⟩

theorem witness_FrameRtcm :
    usual.Latches 2 .rtcm ∧ ([0x43, 0x50, 0x00, 0xAB] : List Byte).length = (4 : BitVec 10).toNat ∧
      ([0xD6, 0x70, 0xAC] : List Byte).length = 3 ∧ rtcmR1.length ≤ usual.bufferLength :=
  ⟨latches_of rfl, rfl, rfl, by decide⟩

theorem witness_FrameUbx :
    usual.Latches 3 .ubx ∧ ([0xE8, 0x03] : List Byte).length = (2 : BitVec 16).toNat ∧
      ubxU.length ≤ usual.bufferLength := ⟨latches_of rfl, rfl, by decide⟩

theorem witness_FrameSbf :
    sbfFirst.Latches 0 .sbf ∧ (28 : BitVec 16).toNat % 4 = 0 ∧
      8 + (sbfB7.drop 8).length = (28 : BitVec 16).toNat ∧
      sbfB7.length ≤ sbfFirst.bufferLength := ⟨latches_of rfl, rfl, rfl, by decide⟩

theorem witness_FrameSpartn :
    usual.Latches 5 .spartn ∧
      ([0x30, 0x00, 0x00, 0x00, 0x00, 0x10] : List Byte).length =
        (if (0x30 : Byte).getLsbD 3 then 6 else 4) + (if (1 : BitVec 1) = 1 then 2 else 0) ∧
      ([0xA5] : List Byte).length = (1 : BitVec 10).toNat ∧
      ([1, 2, 3, 4, 5, 6, 7, 8] : List Byte).length =
        (embeddedLen ((0x10 : Byte).extractLsb' 3 3) ((0x10 : Byte).extractLsb' 0 3)).toNat ∧
      ([0xD0, 0x86, 0xA9, 0x9D] : List Byte).length = (3 : BitVec 2).toNat + 1 ∧
      spartnP4.length ≤ usual.bufferLength :=
  ⟨latches_of rfl, by decide, rfl, by decide, rfl, by decide⟩

/-- Vector P3: the header's CRC should be 9. -/
theorem witness_SpartnHeaderFails :
    ∃ p r, (pushed usual [0x73, 0x00, 0x01]).parse = some p ∧
      (pushed usual [0x73, 0x00, 0x01]).window = .none ∧ p.Inv ∧ p.Progress ∧
      p.length < p.bufferLength ∧ p.state = .spartnHdr3 ∧ p.sp = some (.spartn r) ∧
      r.frameCount = 2 ∧ p.buffer.read 1 = some 0x00 ∧ p.buffer.read 2 = some 0x01 ∧
      spHdrCrc 0x00 0x01 0x08 ≠ (0x08 : Byte).extractLsb' 0 4 := by
  have h := pushed_inv (table := defaultTable) (n := 64) (badCrc := false) (invalid := true)
    (abort := false) [0x73, 0x00, 0x01]
  have hp : (pushed usual [0x73, 0x00, 0x01]).parse =
      some (parsed usual [0x73, 0x00, 0x01]) := by decide +kernel
  exact ⟨parsed usual [0x73, 0x00, 0x01], ⟨2, 0, 0, 0, 2, 0, 0, 0, 0, 0, 0, 0⟩, hp,
    by decide +kernel, (h.parseOk _ hp).1, (h.parseOk _ hp).2, by decide +kernel,
    by decide +kernel, by decide +kernel, rfl, by decide +kernel, by decide +kernel,
    by decide +kernel⟩

theorem witness_FrameUbin :
    usual.Latches 6 .ubin ∧ (List.replicate 16 (0 : Byte)).length = 16 ∧
      ([] : List Byte).length = (0 : BitVec 16).toNat ∧
      ([0xA5, 0x8B, 0x8A, 0x25] : List Byte).length = 4 ∧ ubinX1.length ≤ usual.bufferLength :=
  ⟨latches_of rfl, rfl, rfl, rfl, by decide⟩

/-- Good digits with room (14 bytes) and without (13), and bad digits (vectors D6, D5, S2). -/
theorem witness_FrameNmea :
    usual.Latches 0 .nmea ∧ 1 ≤ ([0x47, 0x50, 0x47, 0x47, 0x41] : List Byte).length ∧
      ([0x47, 0x50, 0x47, 0x47, 0x41] : List Byte).length ≤ 15 ∧
      (∀ c ∈ ([0x47, 0x50, 0x47, 0x47, 0x41] : List Byte), isAlnum c = true) ∧
      0x2A ∉ ([0x31] : List Byte) ∧ usual.abortNpNmea = false ∧ isHex 0x34 = true ∧
      isHex 0x42 = true ∧ nmeaN0.length ≤ 13 ∧
      hexNumber [0x34, 0x42] = some (xor8Block (nmeaN0.drop 1 |>.take 7)).toNat ∧
      13 < nmeaN0.length + 3 ∧ nmeaN0.length + 3 ≤ 14 ∧
      hexNumber [0x30, 0x30] ≠ some (xor8Block (nmeaN0.drop 1 |>.take 7)).toNat :=
  ⟨latches_of rfl, by decide, by decide, by decide, by decide, rfl, by decide, by decide,
    by decide, by decide, by decide, by decide, by decide⟩

/-- A `MODE` name and another (vectors H1, H7), good and bad digits, with room and without. -/
theorem witness_FrameUhash :
    usual.Latches 1 .uhash ∧ usual.abortNpUhash = false ∧
      (([0x4D, 0x4F, 0x44, 0x45] : List Byte) <:+: [0x4D, 0x4F, 0x44, 0x45] ∧
        hexNumber [0x35, 0x33] = some (xor8Block (uhashH1.drop 1 |>.take 10)).toNat ∧
        hexNumber [0x35, 0x34] ≠ some (xor8Block (uhashH1.drop 1 |>.take 10)).toNat) ∧
      (¬([0x4D, 0x4F, 0x44, 0x45] : List Byte) <:+: [0x4D, 0x4F, 0x44] ∧
        hexNumber [0x37, 0x63, 0x36, 0x38, 0x39, 0x61, 0x31, 0x62] =
          some (crc32rBlock [0x4D, 0x4F, 0x44, 0x2C, 0x31]).toNat) ∧
      16 < uhashH1.length + 3 ∧ uhashH1.length + 3 ≤ 17 ∧
      ∀ c ∈ ([0x35, 0x33] : List Byte), isHex c = true :=
  ⟨latches_of rfl, rfl, by decide, by decide +kernel, by decide, by decide, by decide⟩

theorem shows_inUbx : inUbx.Shows (parsed usual ubxU) :=
  ⟨by decide +kernel, .inl ⟨false, by decide +kernel⟩⟩

/-- Frame U, an offset at the last byte and one past it. -/
theorem witness_UnsignedAccessors :
    inUbx.Shows (parsed usual ubxU) ∧ (parsed usual ubxU).Inv ∧
      (parsed usual ubxU).table[(parsed usual ubxU).active]? = some .ubx ∧
      (parsed usual ubxU).length = 6 + (3 : LenWord).toNat + 1 ∧
      (parsed usual ubxU).length < 6 + (4 : LenWord).toNat + 1 :=
  ⟨shows_inUbx, parsed_inv ubxU _ shows_inUbx.1, by decide +kernel, by decide +kernel,
    by decide +kernel⟩

theorem witness_SignedAccessors :
    inUbx.Shows (parsed usual ubxU) ∧ (parsed usual ubxU).Inv ∧
      (parsed usual ubxU).table[(parsed usual ubxU).active]? = some .ubx :=
  ⟨shows_inUbx, parsed_inv ubxU _ shows_inUbx.1, by decide +kernel⟩

theorem witness_StringAccessors :
    inUbx.Shows (parsed usual ubxU) ∧ (parsed usual ubxU).Inv ∧
      (parsed usual ubxU).table[(parsed usual ubxU).active]? = some .ubx ∧
      (parsed usual ubxU).length ≤ 6 + (4 : LenWord).toNat ∧
      6 + (3 : LenWord).toNat < (parsed usual ubxU).length :=
  ⟨shows_inUbx, parsed_inv ubxU _ shows_inUbx.1, by decide +kernel, by decide +kernel,
    by decide +kernel⟩

/-- An IN_BAD_CRC window of an NMEA frame. -/
theorem witness_RawVariantsCoincide :
    (pushed asking nmeaS2).Shows (parsed asking nmeaS2) ∧
      (parsed asking nmeaS2).table[(parsed asking nmeaS2).active]? = some .nmea :=
  ⟨⟨by decide +kernel, .inr ⟨0x30, true, by decide +kernel⟩⟩, by decide +kernel⟩

/-- The scratch record of an NMEA frame. -/
def nmeaOf : Option Scratch → NmeaRec
  | some (.nmea r) => r
  | _ => ⟨0, 0⟩

/-- The scratch record of a Unicore-hash frame. -/
def uhashOf : Option Scratch → UhashRec
  | some (.uhash r) => r
  | _ => ⟨0, 0, 0, 0⟩

theorem witness_TextNames :
    inNmea.Shows (parsed usual nmeaN0) ∧
      (parsed usual nmeaN0).table[(parsed usual nmeaN0).active]? = some .nmea ∧
      (parsed usual nmeaN0).sp = some (.nmea (nmeaOf (parsed usual nmeaN0).sp)) ∧
      inUhash.Shows (parsed usual uhashH1) ∧
      (parsed usual uhashH1).table[(parsed usual uhashH1).active]? = some .uhash ∧
      (parsed usual uhashH1).sp = some (.uhash (uhashOf (parsed usual uhashH1).sp)) :=
  ⟨⟨by decide +kernel, .inl ⟨true, by decide +kernel⟩⟩, by decide +kernel, by decide +kernel,
    ⟨by decide +kernel, .inl ⟨true, by decide +kernel⟩⟩, by decide +kernel, by decide +kernel⟩

theorem shows_inRtcm : inRtcm.Shows (parsed usual rtcmR1) :=
  ⟨by decide +kernel, .inl ⟨false, by decide +kernel⟩⟩

theorem witness_RtcmMsgId :
    inRtcm.Shows (parsed usual rtcmR1) ∧
      (parsed usual rtcmR1).table[(parsed usual rtcmR1).active]? = some .rtcm ∧
      (parsed usual rtcmR1).sp = some (.rtcm ⟨0xD670AC, 0, 1077⟩) :=
  ⟨shows_inRtcm, by decide +kernel, by decide +kernel⟩

/-- The last field that fits the frame of ten bytes, and one bit more. -/
theorem witness_RtcmBitFields :
    inRtcm.Shows (parsed usual rtcmR1) ∧ inRtcm.Inv ∧
      (parsed usual rtcmR1).table[(parsed usual rtcmR1).active]? = some .rtcm ∧
      24 + (0 : LenWord).toNat + (56 : BitVec 8).toNat ≤ 8 * (parsed usual rtcmR1).length ∧
      8 * (parsed usual rtcmR1).length < 24 + (0 : LenWord).toNat + (57 : BitVec 8).toNat ∧
      64 < (65 : BitVec 8).toNat :=
  ⟨shows_inRtcm, pushed_inv rtcmR1, by decide +kernel, by decide +kernel, by decide +kernel,
    by decide⟩

theorem witness_UbxQueries :
    inUbx.Shows (parsed usual ubxU) ∧
      (parsed usual ubxU).table[(parsed usual ubxU).active]? = some .ubx ∧
      (parsed usual ubxU).sp = some (.ubx ⟨0, 6, 8, 2, 0xFB, 0x27⟩) :=
  ⟨shows_inUbx, by decide +kernel, by decide +kernel⟩

theorem witness_SbfQueries :
    inSbf.Shows (parsed sbfFirst sbfB7) ∧ (parsed sbfFirst sbfB7).Inv ∧
      (parsed sbfFirst sbfB7).table[(parsed sbfFirst sbfB7).active]? = some .sbf ∧
      (parsed sbfFirst sbfB7).sp = some (.sbf ⟨0x94FE, 0x94FE, 4097, 0, 28, 0⟩) := by
  have h : inSbf.parse = some (parsed sbfFirst sbfB7) := by decide +kernel
  exact ⟨⟨h, .inl ⟨false, by decide +kernel⟩⟩, parsed_inv sbfB7 _ h, by decide +kernel,
    by decide +kernel⟩

theorem witness_SpartnQueries :
    inSpartn.Shows (parsed usual spartnP4) ∧
      (parsed usual spartnP4).table[(parsed usual spartnP4).active]? = some .spartn ∧
      (parsed usual spartnP4).sp =
        some (.spartn ⟨4, 4, 7, 120, 1, 1, 3, 0xE, 3, 0, 2, 8⟩) :=
  ⟨⟨by decide +kernel, .inl ⟨false, by decide +kernel⟩⟩, by decide +kernel, by decide +kernel⟩

theorem witness_WrongKindRefused :
    inUbx.Shows (parsed usual ubxU) ∧
      (parsed usual ubxU).table[(parsed usual ubxU).active]? = some .ubx ∧
      Kind.ubx ≠ Kind.nmea ∧ (machine usual).window = .none ∧
      (pushed usual [0xFF]).window = .inInvalid none ∧
      exec .nmeaName .reset = .next { State.reset with result := .refused } :=
  ⟨shows_inUbx, by decide +kernel, by decide, rfl, by decide +kernel, rfl⟩

end Sys2Proof.Tests
end

section
/-! PROOF. What an operation can do: one inversion lemma each for `exec`, `runBytes`, the host's return
and `step` (41_dispatch.md R121 to R125, R134, R135, R140; 60_exceptions.md R360). Every invariant below
is derived from these. -/

namespace Sys2Proof.Machine

/-! ### Operations -/

/-- What a control operation writes into the ParseState (41_dispatch.md R134, R135). -/
inductive Controls (p : ParseState) : Instr → ParseState → Prop where
  | setIdCb (en : Bool) : Controls p (.setIdCb en) { p with invalidEn := en }
  | dbgEn : Controls p .dbgEn { p with dbgEn := true }
  | dbgDis : Controls p .dbgDis { p with dbgEn := false }
  | errEn : Controls p .errEn { p with errEn := true }
  | errDis : Controls p .errDis { p with errEn := false }

/-- What carrying out an instruction can do to the machine: answer a result and change nothing else
(the generators, the readers and every refusal), begin, stop, write a control flag, or run bytes. -/
inductive Executes (s : State) : Instr → State → Prop where
  | answers {i : Instr} (r : Result) : Executes s i (s.answer r)
  | begins {a : BeginArgs} (hw : s.window = .none) : Executes s (.beginParser a) (beginParser a s)
  | stops (hw : s.window = .none) :
      Executes s .stop { s with parse := none, result := .nothing }
  | writes {i : Instr} {p q : ParseState} (hp : s.parse = some p) (hw : s.window = .none)
      (hc : Controls p i q) : Executes s i { s with parse := some q, result := .nothing }
  | runs {i : Instr} {p : ParseState} {bytes : List Byte} {t : State} (hp : s.parse = some p)
      (hw : s.window = .none) (hr : runBytes bytes s = .next t) : Executes s i t

theorem Executes.of_answer {i : Instr} {s t : State} (h : t = s.answer t.result) :
    Executes s i t := h ▸ .answers _

theorem Executes.of_begin {a : BeginArgs} {s t : State} (h : execBegin a s = .next t) :
    Executes s (.beginParser a) t := by
  unfold execBegin at h
  split_ifs at h with hw <;> cases h
  · exact .begins hw
  · exact .answers _

theorem Executes.of_stop {s t : State} (h : execStop s = .next t) : Executes s .stop t := by
  unfold execStop at h
  split_ifs at h with hw <;> cases h
  · exact .stops hw
  · exact .answers _

theorem Executes.of_control {i : Instr} {s t : State} {write : ParseState → ParseState}
    (hi : ∀ p, Controls p i (write p)) (h : control s write = .next t) : Executes s i t := by
  unfold control at h
  split at h <;> cases h
  · exact .writes ‹_› ‹_› (hi _)
  · exact .answers _

theorem Executes.of_pushOctets {i : Instr} {bytes : List Byte} {s t : State}
    (h : pushOctets bytes s = .next t) : Executes s i t := by
  unfold pushOctets at h
  split_ifs at h with hl
  · obtain ⟨p, hp⟩ := Option.isSome_iff_exists.mp hl.1
    exact .runs hp hl.2 h
  · cases h
    exact .answers _

/-- Everything that carrying out an instruction can do. -/
theorem exec_executes {i : Instr} {s t : State} (h : exec i s = .next t) : Executes s i t := by
  cases i with
  | beginParser a => exact .of_begin h
  | stop => exact .of_stop h
  | setIdCb en => exact .of_control (fun _ => .setIdCb en) h
  | dbgEn => exact .of_control (fun _ => .dbgEn) h
  | dbgDis => exact .of_control (fun _ => .dbgDis) h
  | errEn => exact .of_control (fun _ => .errEn) h
  | errDis => exact .of_control (fun _ => .errDis) h
  | push _ | pushN _ | frameNmea _ | frameUhash _ | frameRtcm _ _ | frameUbx _ _ _ _
  | frameSbf _ _ _ _ _ | frameSpartn _ _ _ _ _ _ | frameUbin _ _ _ _ _ =>
    exact .of_pushOctets h
  | xor8Upd _ _ | crc24qUpd _ _ | fl8Upd _ _ _ | ccitt16Upd _ _ | crc32rUpd _ _ | spCrc4Upd _ _
  | spCrc8Upd _ _ | spCrc16Upd _ _ | spCrc24Upd _ _ | spCrc32Upd _ _ =>
    cases h
    exact .answers _
  | getU8 _ | getU16 _ | getU32 _ | getU64 _ | getI8 _ | getI16 _ | getI32 _ | getI64 _ | getF32 _
  | getF64 _ | getStr _ | getU8No _ | getU16No _ | getU32No _ | getU64No _ | getI8No _ | getI16No _
  | getI32No _ | getI64No _ | getF32No _ | getF64No _ | getStrNo _ =>
    exact .of_answer (accessor_readOnly h)
  | nmeaName | uhashName | rtcmMsgId | rtcmGetU _ _ | rtcmGetS _ _ | ubxClass | ubxId | ubxNum
  | sbfId | sbfRev | sbfIsNmea | sbfIsRtcm | sbfEncPtr | sbfEncLen | spartnType | spartnSubtype =>
    exact .of_answer (query_readOnly h)

/-! ### Runs of bytes -/

/-- A run of bytes: a stretch that raises nothing, and then it is over, or one more byte raises an event
whose window suspends it (41_dispatch.md R125, 60_exceptions.md R359). -/
theorem runBytes_cases {bytes : List Byte} {s t : State} {p : ParseState} (hp : s.parse = some p)
    (h : runBytes bytes s = .next t) :
    ∃ done q, QuietRun p done q ∧
      (t = { s with parse := some q, todo := [], result := .nothing } ∨
        ∃ b rest q' e w, byteStep q b = .ok ⟨q', some (e, w)⟩ ∧
          t = { s with
            parse := some q', window := w, todo := rest, events := s.events ++ [e]
            result := .nothing }) := by
  induction bytes generalizing s p with
  | nil =>
    cases h
    exact ⟨[], p, .nil p, .inl (by rw [← hp])⟩
  | cons b bytes ih =>
    cases hb : byteStep p b with
    | error f => simp [runBytes, hp, hb] at h
    | ok turn =>
      obtain ⟨q, _ | ⟨e, w⟩⟩ := turn
      · rw [runBytes_quiet bytes hp hb] at h
        obtain ⟨done, q', hrun, ht⟩ := ih rfl h
        exact ⟨b :: done, q', .cons hb hrun, ht⟩
      · rw [runBytes_raise bytes hp hb] at h
        cases h
        exact ⟨[], p, .nil p, .inr ⟨b, bytes, q, e, w, hb, rfl⟩⟩

/-- What every quiet byte step keeps, a quiet run keeps. -/
theorem QuietRun.keeps {I : ParseState → Prop}
    (hstep : ∀ p b q, I p → byteStep p b = .ok ⟨q, none⟩ → I q) {p q : ParseState}
    {bytes : List Byte} (hrun : QuietRun p bytes q) (hp : I p) : I q := by
  induction hrun with
  | nil => exact hp
  | cons hb _ ih => exact ih (hstep _ _ _ hp hb)

/-! ### The host's return and the step -/

/-- What a return from an open window does: the rest of the PUSH raises nothing and the waiting bytes
run, or it raises the next event (60_exceptions.md R360). -/
theorem hostReturn_cases {answer : Bool} {s t : State} (h : hostReturn answer s = .next t) :
    t = s.refuse ∨
      ∃ p, s.parse = some p ∧ s.window ≠ .none ∧
        ((∃ q, afterWindow answer p s.window = .ok ⟨q, none⟩ ∧
            runBytes s.todo { s with parse := some q, window := .none } = .next t) ∨
          ∃ q e w, afterWindow answer p s.window = .ok ⟨q, some (e, w)⟩ ∧
            t = { s with
              parse := some q, window := w, events := s.events ++ [e], result := .nothing }) := by
  unfold hostReturn at h
  split_ifs at h with hw
  · cases h
    exact .inl rfl
  split at h
  · cases h
  rename_i p hp
  refine .inr ⟨p, hp, hw, ?_⟩
  split at h
  · cases h
  · exact .inl ⟨_, ‹_›, h⟩
  · cases h
    exact .inr ⟨_, _, _, ‹_›, rfl⟩

/-- A record presented is an instruction carried out, or is refused: octets that begin no frame are
pushed as PUSHN pushes them (log 5). -/
theorem runRecord_cases {r : Record} {s t : State} (h : runRecord r s = .next t) :
    t = s.refuse ∨ ∃ i, exec i s = .next t := by
  unfold runRecord runUndecoded at h
  split at h
  · exact .inr ⟨_, h⟩
  split at h
  · cases h
    exact .inl rfl
  · exact .inr ⟨.pushN r.bytes, h⟩

/-- What a step does: nothing when the port is empty; else it carries out the record presented (a record
that is no instruction is refused, as any instruction may be), or the host's return. -/
theorem step_cases {s t : State} (h : step s = .next t) :
    t = s ∨ (∃ rest i, Executes (s.take rest) i t) ∨
      ∃ rest answer, hostReturn answer { s with port := rest } = .next t := by
  unfold step at h
  split at h
  · cases h
    exact .inl rfl
  · rename_i r rest _
    refine .inr (.inl ⟨rest, ?_⟩)
    rcases runRecord_cases h with rfl | ⟨i, hi⟩
    · exact ⟨.stop, .answers _⟩
    · exact ⟨i, exec_executes hi⟩
  · exact .inr (.inr ⟨_, _, h⟩)

end Sys2Proof.Machine
end

section
/-! PROOF. Every step keeps the invariant of the machine (10_state.md R36, section 8). -/

namespace Sys2Proof.Machine

/-! ### The parse area that BEGIN leaves -/

theorem le_foldl_max {α : Type} (size : α → Nat) (xs : List α) (m : Nat) :
    m ≤ xs.foldl (fun m x => max m (size x)) m := by
  induction xs generalizing m with
  | nil => exact le_refl m
  | cons x xs ih => exact (le_max_left m (size x)).trans (ih _)

/-- The largest minimum parse area of a table with an entry is at least 1 (41_dispatch.md R121). -/
theorem one_le_tableMax_minParseArea {table : List Kind} (h : table ≠ []) :
    1 ≤ tableMax Config.minParseArea table := by
  cases table with
  | nil => exact absurd rfl h
  | cons k ks =>
    have hk : 1 ≤ max 0 (Config.minParseArea k) := by simp [Config.minParseArea]
    exact hk.trans (le_foldl_max Config.minParseArea ks _)

/-- A parse area has room for a byte and is no larger than BEGIN's operand (41_dispatch.md R121). -/
theorem parseArea_size {table : List Kind} {buffer : BufferArg} {n : Nat} (ht : table ≠ [])
    (h : parseArea table buffer = some n) : 1 ≤ n ∧ n < 2 ^ lenW := by
  have hleast := one_le_tableMax_minParseArea ht
  cases buffer with
  | null => cases h
  | total size =>
    have hsize := size.isLt
    simp only [parseArea] at h
    split_ifs at h with hroom
    simp only [Option.some.injEq] at h
    omega
  | area size =>
    have hsize := size.isLt
    simp only [parseArea] at h
    split_ifs at h with hzero
    simp only [Option.some.injEq] at h
    omega

/-- The ParseState that BEGIN creates (10_state.md R37). -/
theorem freshParse_inv {a : BeginArgs} {n : Nat} (ht : a.table ≠ [])
    (hn : 1 ≤ n ∧ n < 2 ^ lenW) : (freshParse a n).Inv where
  tableNonempty := ht
  areaSize := hn
  lengthBound := Nat.zero_le n
  canonical := .nil
  inside := nofun
  filled := nofun
  activeBound := le_refl _
  searching := iff_of_true rfl rfl
  latched := fun h => absurd h (lt_irrefl _)
  fields := nofun
  crcBits := rfl

/-! ### The invariant and the operations -/

/-- The control flags speak of no field of the invariant. -/
theorem ParseState.Inv.withFlags {p : ParseState} (h : p.Inv) (x y z : Bool) :
    ParseState.Inv { p with invalidEn := x, dbgEn := y, errEn := z } where
  tableNonempty := h.tableNonempty
  areaSize := h.areaSize
  lengthBound := h.lengthBound
  canonical := h.canonical
  inside := h.inside
  filled := h.filled
  activeBound := h.activeBound
  searching := h.searching
  latched := h.latched
  fields := h.fields
  crcBits := h.crcBits

/-- A control operation writes flags only. -/
theorem Controls.eq_withFlags {p q : ParseState} {i : Instr} (h : Controls p i q) :
    ∃ x y z, q = { p with invalidEn := x, dbgEn := y, errEn := z } := by
  cases h <;> exact ⟨_, _, _, rfl⟩

/-- The invariant does not speak of the result or the port, and holds of fewer events. -/
theorem State.Inv.of_same {s t : State} (h : s.Inv) (hp : t.parse = s.parse)
    (hw : t.window = s.window) (ht : t.todo = s.todo) (he : t.events ⊆ s.events) : t.Inv where
  parseOk := by rw [hp, hw]; exact h.parseOk
  unconfigured := by rw [hp, hw]; exact h.unconfigured
  waiting := by rw [hw, ht]; exact h.waiting
  payloads := fun c bs hm => h.payloads c bs (he hm)

theorem State.Inv.answer {s : State} (h : s.Inv) (r : Result) : (s.answer r).Inv :=
  h.of_same rfl rfl rfl (List.Subset.refl _)

theorem State.Inv.take {s : State} (h : s.Inv) (rest : List HostAction) : (s.take rest).Inv :=
  h.of_same rfl rfl rfl (by
    rw [State.take_events]
    split_ifs
    · exact List.nil_subset _
    · exact List.Subset.refl _)

/-- A new ParseState with no window open, or none. -/
theorem State.Inv.of_parse {s t : State} (h : s.Inv) (hw : t.window = .none) (ht : t.todo = [])
    (he : t.events = s.events) (hp : ∀ p, t.parse = some p → p.Inv ∧ p.Progress) : t.Inv where
  parseOk := by rw [hw]; exact hp
  unconfigured := fun _ => hw
  waiting := fun _ => ht
  payloads := he ▸ h.payloads

/-- BEGIN meets the invariant, whether it creates a ParseState or fails (41_dispatch.md R121, R122). -/
theorem State.Inv.beginParser {s : State} (h : s.Inv) (hw : s.window = .none) (a : BeginArgs) :
    (beginParser a s).Inv := by
  unfold Machine.beginParser
  split
  · rename_i n hn
    split_ifs at hn with hbad
    refine h.of_parse rfl (h.waiting hw) rfl fun p hp => ?_
    cases hp
    exact ⟨freshParse_inv (fun he => hbad (.inl he))
      (parseArea_size (fun he => hbad (.inl he)) hn), trivial⟩
  · exact h.of_parse hw (h.waiting hw) rfl fun _ hp => nomatch hp

/-- The frame in progress, when no window is open. -/
theorem State.Inv.idle {s : State} (h : s.Inv) {p : ParseState} (hp : s.parse = some p)
    (hw : s.window = .none) : p.Inv ∧ p.Progress := by
  have := h.parseOk p hp
  rwa [hw] at this

/-- A run of bytes from a state of the invariant ends in one. -/
theorem runBytes_inv {bytes : List Byte} {s t : State} {p : ParseState} (hp : s.parse = some p)
    (hi : p.Inv ∧ p.Progress) (hw : s.window = .none)
    (h : runBytes bytes s = .next t)
    (he : ∀ c bs, Event.invalidData c bs ∈ s.events → bs ≠ []) : t.Inv := by
  obtain ⟨t', ht', hinv⟩ := runBytes_safe bytes hp hi.1 hi.2 hw he
  rw [h] at ht'
  cases ht'
  exact hinv

/-- Every operation keeps the invariant. -/
theorem Executes.inv {i : Instr} {s t : State} (h : s.Inv) (hx : Executes s i t) : t.Inv := by
  cases hx with
  | answers r => exact h.answer r
  | begins hw => exact h.beginParser hw _
  | stops hw => exact h.of_parse hw (h.waiting hw) rfl fun _ hp => nomatch hp
  | writes hp hw hc =>
    obtain ⟨x, y, z, rfl⟩ := hc.eq_withFlags
    obtain ⟨hi, hpr⟩ := h.idle hp hw
    refine h.of_parse hw (h.waiting hw) rfl fun q hq => ?_
    cases hq
    exact ⟨hi.withFlags x y z, hpr⟩
  | runs hp hw hr => exact runBytes_inv hp (h.idle hp hw) hw hr h.payloads

/-- What follows the host's return in a state of the invariant. -/
theorem State.Inv.afterWindow {s : State} (h : s.Inv) {p : ParseState} (hp : s.parse = some p)
    (hw : s.window ≠ .none) {answer : Bool} {turn : Turn}
    (ht : afterWindow answer p s.window = .ok turn) : turn.Good := by
  obtain ⟨hi, hf⟩ := h.parseOk p hp
  obtain ⟨turn', ht', hg⟩ := afterWindow_safe hi hw hf answer
  rw [ht] at ht'
  cases ht'
  exact hg

/-- The host's return keeps the invariant (60_exceptions.md R360). -/
theorem hostReturn_inv {answer : Bool} {s t : State} (hr : hostReturn answer s = .next t)
    (h : s.Inv) : t.Inv := by
  rcases hostReturn_cases hr with rfl | ⟨p, hp, hw, ⟨q, hq, hrun⟩ | ⟨q, e, w, hq, rfl⟩⟩
  · exact h.answer .refused
  · exact runBytes_inv rfl (h.afterWindow hp hw hq) rfl hrun h.payloads
  · obtain ⟨hi, hne, hfits, hpay⟩ := h.afterWindow hp hw hq
    refine ⟨fun q' hq' => ?_, nofun, fun hn => absurd hn hne, fun c bs hm => ?_⟩
    · cases hq'
      exact ⟨hi, hfits⟩
    · rw [List.mem_append, List.mem_singleton] at hm
      exact hm.elim (h.payloads c bs) fun he => hpay c bs he.symm

/-- Settles O34: every step keeps `State.Inv`, by what a step can do (`step_cases`). -/
theorem stepKeepsInv : Obligations.StepKeepsInv := by
  intro s t h hs
  rcases step_cases hs with rfl | ⟨rest, i, hx⟩ | ⟨rest, answer, hr⟩
  · exact h
  · exact hx.inv (h.take rest)
  · exact hostReturn_inv hr (h.of_same rfl rfl rfl (List.Subset.refl _))

end Sys2Proof.Machine
end

section
/-! PROOF. The turns that a procedure of a PUSH may end in: the rules for what the handlers of
42_nmea.md to 48_unicore_hash.md are built from, for any property of a turn. A fault ends in no turn. -/

namespace Sys2Proof.Machine

/-- Every turn that the procedure may end in has the property. -/
def Ends (r : Except Fault Turn) (P : Turn → Prop) : Prop := ∀ t, r = .ok t → P t

section
variable {P : Turn → Prop}

theorem Ends.error (f : Fault) : Ends (.error f) P := fun _ h => nomatch h

theorem Ends.quiet {q : ParseState} (h : P ⟨q, none⟩) : Ends (quiet q) P := by
  rintro t ⟨⟩
  exact h

theorem Ends.raise {q : ParseState} {e : Event} {w : Window} (h : P ⟨q, some (e, w)⟩) :
    Ends (raise q e w) P := by
  rintro t ⟨⟩
  exact h

theorem Ends.ite {c : Prop} [Decidable c] {x y : Except Fault Turn} (hx : c → Ends x P)
    (hy : ¬c → Ends y P) : Ends (if c then x else y) P := by
  split_ifs with h
  · exact hx h
  · exact hy h

/-! ### A handler that reads its kind's record -/

theorem Ends.withNmea {p : ParseState} {f : NmeaRec → Except Fault Turn}
    (h : ∀ r, p.sp = some (.nmea r) → Ends (f r) P) : Ends (withNmea p f) P := by
  unfold Machine.withNmea
  split
  · exact h _ ‹_›
  · exact .error _

theorem Ends.withUhash {p : ParseState} {f : UhashRec → Except Fault Turn}
    (h : ∀ r, p.sp = some (.uhash r) → Ends (f r) P) : Ends (withUhash p f) P := by
  unfold Machine.withUhash
  split
  · exact h _ ‹_›
  · exact .error _

theorem Ends.withRtcm {p : ParseState} {f : RtcmRec → Except Fault Turn}
    (h : ∀ r, p.sp = some (.rtcm r) → Ends (f r) P) : Ends (withRtcm p f) P := by
  unfold Machine.withRtcm
  split
  · exact h _ ‹_›
  · exact .error _

theorem Ends.withUbx {p : ParseState} {f : UbxRec → Except Fault Turn}
    (h : ∀ r, p.sp = some (.ubx r) → Ends (f r) P) : Ends (withUbx p f) P := by
  unfold Machine.withUbx
  split
  · exact h _ ‹_›
  · exact .error _

theorem Ends.withSbf {p : ParseState} {f : SbfRec → Except Fault Turn}
    (h : ∀ r, p.sp = some (.sbf r) → Ends (f r) P) : Ends (withSbf p f) P := by
  unfold Machine.withSbf
  split
  · exact h _ ‹_›
  · exact .error _

theorem Ends.withSpartn {p : ParseState} {f : SpartnRec → Except Fault Turn}
    (h : ∀ r, p.sp = some (.spartn r) → Ends (f r) P) : Ends (withSpartn p f) P := by
  unfold Machine.withSpartn
  split
  · exact h _ ‹_›
  · exact .error _

theorem Ends.withUbin {p : ParseState} {f : UbinRec → Except Fault Turn}
    (h : ∀ r, p.sp = some (.ubin r) → Ends (f r) P) : Ends (withUbin p f) P := by
  unfold Machine.withUbin
  split
  · exact h _ ‹_›
  · exact .error _

end

end Sys2Proof.Machine
end

section
/-! PROOF. The table, the buffer size and the control flags are written only by the operations named
(10_state.md R12, R13, R21): no byte of the input stream writes them. -/

namespace Sys2Proof.Machine

theorem ParseState.SameSetup.refl (p : ParseState) : p.SameSetup p :=
  ⟨rfl, rfl, rfl, rfl, rfl, rfl, rfl, rfl, rfl⟩

theorem ParseState.SameSetup.trans {p q r : ParseState} (h : p.SameSetup q)
    (h' : q.SameSetup r) : p.SameSetup r := by
  obtain ⟨h1, h2, h3, h4, h5, h6, h7, h8, h9⟩ := h
  obtain ⟨g1, g2, g3, g4, g5, g6, g7, g8, g9⟩ := h'
  exact ⟨g1.trans h1, g2.trans h2, g3.trans h3, g4.trans h4, g5.trans h5, g6.trans h6,
    g7.trans h7, g8.trans h8, g9.trans h9⟩

/-- The procedure leaves the configuration and the control flags of `p`. -/
abbrev KeepsSetup (p : ParseState) (r : Except Fault Turn) : Prop :=
  Ends r fun t => p.SameSetup t.p

/-! ### The shared procedures -/

section
variable {p : ParseState} {b : Byte}

theorem firstByte_keepsSetup : KeepsSetup p (firstByte p b) := by
  unfold firstByte
  split
  · exact .quiet (.refl p)
  · exact .ite (fun _ => .raise (.refl p)) fun _ => .quiet (.refl p)

theorem fail_keepsSetup {c : Cause} : KeepsSetup p (fail c p b) := by
  refine .ite (fun _ => ?_) fun _ => firstByte_keepsSetup
  split
  · exact .raise (.refl p)
  · exact .error _

theorem failTooLong_keepsSetup : KeepsSetup p (failTooLong p b) := by
  refine .ite (fun _ => ?_) fun _ => firstByte_keepsSetup
  split
  · exact .raise (.refl p)
  · exact .error _

theorem deliver_keepsSetup : KeepsSetup p (deliver p) := by
  unfold deliver
  split
  · exact .raise (.refl p)
  · exact .error _

theorem textDeliver_keepsSetup : KeepsSetup p (textDeliver p b) := by
  refine .ite (fun _ => fail_keepsSetup) fun _ => ?_
  split
  · exact .raise (.refl p)
  · exact .error _

theorem complete_keepsSetup {text : Bool} : KeepsSetup p (complete text p b) :=
  .ite (fun _ => textDeliver_keepsSetup) fun _ => deliver_keepsSetup

theorem softCrc_keepsSetup {text : Bool} : KeepsSetup p (softCrc text p b) :=
  .ite (fun _ => .raise (.refl p)) fun _ => fail_keepsSetup

theorem conclude_keepsSetup {good text : Bool} : KeepsSetup p (conclude good text p b) :=
  .ite (fun _ => complete_keepsSetup) fun _ => softCrc_keepsSetup

theorem rtcmContinue_keepsSetup {r : RtcmRec} {next : PState} :
    KeepsSetup p (rtcmContinue p r next) :=
  .ite (fun _ => .quiet (.refl p)) fun _ => .quiet (.refl p)

theorem sbfFinish_keepsSetup {r : SbfRec} : KeepsSetup p (sbfFinish p r b) :=
  .ite (fun _ => deliver_keepsSetup) fun _ => fail_keepsSetup

theorem afterPayload_keepsSetup {r : SpartnRec} : KeepsSetup p (afterPayload p r) :=
  .quiet (.refl p)

end

/-! ### The line-terminator states and NMEA -/

section
variable (p : ParseState) (b : Byte)

theorem lineTerm_keepsSetup : KeepsSetup p (lineTerm p b) :=
  .ite (fun _ => .quiet (.refl p)) fun _ =>
    .ite (fun _ => .quiet (.refl p)) fun _ => firstByte_keepsSetup

theorem crThenLf_keepsSetup : KeepsSetup p (crThenLf p b) :=
  .ite (fun _ => .quiet (.refl p)) fun _ => firstByte_keepsSetup

theorem lfThenCr_keepsSetup : KeepsSetup p (lfThenCr p b) :=
  .ite (fun _ => .quiet (.refl p)) fun _ => firstByte_keepsSetup

theorem nmeaNameStep_keepsSetup : KeepsSetup p (nmeaNameStep p b) :=
  .withNmea fun _ _ => .ite (fun _ => .quiet (.refl p)) fun _ =>
    .ite (fun _ => .quiet (.refl p)) fun _ => fail_keepsSetup

theorem nmeaBodyStep_keepsSetup : KeepsSetup p (nmeaBodyStep p b) :=
  .ite (fun _ => .quiet (.refl p)) fun _ =>
    .ite (fun _ => fail_keepsSetup) fun _ => .quiet (.refl p)

theorem nmeaChecksumHiStep_keepsSetup : KeepsSetup p (nmeaChecksumHiStep p b) :=
  .ite (fun _ => .quiet (.refl p)) fun _ => fail_keepsSetup

theorem nmeaChecksumLoStep_keepsSetup : KeepsSetup p (nmeaChecksumLoStep p b) := by
  refine .ite (fun _ => ?_) fun _ => fail_keepsSetup
  split
  · exact .error _
  split
  · exact .error _
  · exact conclude_keepsSetup

/-! ### RTCM -/

theorem rtcmLengthHiStep_keepsSetup : KeepsSetup p (rtcmLengthHiStep p b) :=
  .withRtcm fun _ _ => .ite (fun _ => .quiet (.refl p)) fun _ => fail_keepsSetup

theorem rtcmLengthLoStep_keepsSetup : KeepsSetup p (rtcmLengthLoStep p b) :=
  .withRtcm fun _ _ => rtcmContinue_keepsSetup

theorem rtcmMsgIdHiStep_keepsSetup : KeepsSetup p (rtcmMsgIdHiStep p b) :=
  .withRtcm fun _ _ => rtcmContinue_keepsSetup

theorem rtcmMsgIdLoStep_keepsSetup : KeepsSetup p (rtcmMsgIdLoStep p b) :=
  .withRtcm fun _ _ => rtcmContinue_keepsSetup

theorem rtcmDataStep_keepsSetup : KeepsSetup p (rtcmDataStep p b) :=
  .withRtcm fun _ _ => rtcmContinue_keepsSetup

theorem rtcmCrcStep_keepsSetup : KeepsSetup p (rtcmCrcStep p b) :=
  .withRtcm fun _ _ =>
    .ite (fun _ => conclude_keepsSetup) fun _ => .quiet (.refl p)

/-! ### UBX -/

theorem ubxSync2Step_keepsSetup : KeepsSetup p (ubxSync2Step p b) :=
  .ite (fun _ => .quiet (.refl p)) fun _ => fail_keepsSetup

theorem ubxClassStep_keepsSetup : KeepsSetup p (ubxClassStep p b) :=
  .withUbx fun _ _ => .quiet (.refl p)

theorem ubxIdStep_keepsSetup : KeepsSetup p (ubxIdStep p b) :=
  .withUbx fun _ _ => .quiet (.refl p)

theorem ubxLengthLoStep_keepsSetup : KeepsSetup p (ubxLengthLoStep p b) :=
  .withUbx fun _ _ => .quiet (.refl p)

theorem ubxLengthHiStep_keepsSetup : KeepsSetup p (ubxLengthHiStep p b) :=
  .withUbx fun _ _ => .quiet (.refl p)

theorem ubxPayloadStep_keepsSetup : KeepsSetup p (ubxPayloadStep p b) :=
  .withUbx fun _ _ => .quiet (.refl p)

theorem ubxCkAStep_keepsSetup : KeepsSetup p (ubxCkAStep p) := .quiet (.refl p)

theorem ubxCkBStep_keepsSetup : KeepsSetup p (ubxCkBStep p b) := by
  refine .withUbx fun _ _ => ?_
  split
  · exact .error _
  · exact conclude_keepsSetup

/-! ### SBF -/

theorem sbfPreamble2Step_keepsSetup : KeepsSetup p (sbfPreamble2Step p b) :=
  .ite (fun _ => .quiet (.refl p)) fun _ => fail_keepsSetup

theorem sbfCrc1Step_keepsSetup : KeepsSetup p (sbfCrc1Step p b) :=
  .withSbf fun _ _ => .quiet (.refl p)

theorem sbfCrc2Step_keepsSetup : KeepsSetup p (sbfCrc2Step p b) :=
  .withSbf fun _ _ => .quiet (.refl p)

theorem sbfId1Step_keepsSetup : KeepsSetup p (sbfId1Step p b) :=
  .withSbf fun _ _ => .quiet (.refl p)

theorem sbfId2Step_keepsSetup : KeepsSetup p (sbfId2Step p b) :=
  .withSbf fun _ _ => .quiet (.refl p)

theorem sbfLengthLoStep_keepsSetup : KeepsSetup p (sbfLengthLoStep p b) :=
  .withSbf fun _ _ => .quiet (.refl p)

theorem sbfLengthHiStep_keepsSetup : KeepsSetup p (sbfLengthHiStep p b) :=
  .withSbf fun _ _ => .ite
    (fun _ => .ite (fun _ => sbfFinish_keepsSetup) fun _ => .quiet (.refl p))
    fun _ => fail_keepsSetup

theorem sbfBodyStep_keepsSetup : KeepsSetup p (sbfBodyStep p b) :=
  .withSbf fun _ _ =>
    .ite (fun _ => sbfFinish_keepsSetup) fun _ => .quiet (.refl p)

/-! ### SPARTN -/

theorem spartnHdr3Step_keepsSetup : KeepsSetup p (spartnHdr3Step p b) := by
  refine .withSpartn fun _ _ => .ite (fun _ => .quiet (.refl p)) fun _ =>
    .ite (fun _ => .quiet (.refl p)) fun _ => ?_
  split
  · exact .ite (fun _ => .quiet (.refl p)) fun _ => fail_keepsSetup
  all_goals exact .error _

theorem spartnExtHdrStep_keepsSetup : KeepsSetup p (spartnExtHdrStep p b) :=
  .withSpartn fun _ _ => .ite
    (fun _ => .ite (fun _ => .quiet (.refl p)) fun _ => afterPayload_keepsSetup)
    fun _ => .quiet (.refl p)

theorem spartnPayloadStep_keepsSetup : KeepsSetup p (spartnPayloadStep p) :=
  .withSpartn fun _ _ =>
    .ite (fun _ => afterPayload_keepsSetup) fun _ => .quiet (.refl p)

theorem spartnEmbeddedStep_keepsSetup : KeepsSetup p (spartnEmbeddedStep p) :=
  .withSpartn fun _ _ => .ite (fun _ => .quiet (.refl p)) fun _ => .quiet (.refl p)

theorem spartnCrcStep_keepsSetup : KeepsSetup p (spartnCrcStep p b) := by
  refine .withSpartn fun _ _ => .ite (fun _ => ?_) fun _ => .quiet (.refl p)
  split
  · exact conclude_keepsSetup
  all_goals exact .error _

/-! ### Unicore binary -/

theorem ubinSync2Step_keepsSetup : KeepsSetup p (ubinSync2Step p b) :=
  .ite (fun _ => .quiet (.refl p)) fun _ => fail_keepsSetup

theorem ubinSync3Step_keepsSetup : KeepsSetup p (ubinSync3Step p b) :=
  .withUbin fun _ _ => .ite (fun _ => .quiet (.refl p)) fun _ => fail_keepsSetup

theorem ubinReadHeaderStep_keepsSetup : KeepsSetup p (ubinReadHeaderStep p b) := by
  refine .withUbin fun _ _ => .ite (fun _ => ?_) fun _ => .quiet (.refl p)
  split
  · exact .ite (fun _ => .quiet (.refl p)) fun _ => .quiet (.refl p)
  all_goals exact .error _

theorem ubinReadBodyStep_keepsSetup : KeepsSetup p (ubinReadBodyStep p b) :=
  .withUbin fun _ _ => .ite (fun _ => .quiet (.refl p)) fun _ => .quiet (.refl p)

theorem ubinReadCrcStep_keepsSetup : KeepsSetup p (ubinReadCrcStep p b) := by
  refine .withUbin fun _ _ => .ite (fun _ => ?_) fun _ => .quiet (.refl p)
  split
  · exact conclude_keepsSetup
  · exact .error _

/-! ### Unicore hash -/

theorem uhashComma_keepsSetup (r : UhashRec) : KeepsSetup p (uhashComma p r b) := by
  refine .ite (fun _ => ?_) fun _ => .quiet (.refl p)
  split
  · exact .quiet (.refl p)
  · exact .error _

theorem uhashNameStep_keepsSetup : KeepsSetup p (uhashNameStep p b) :=
  .withUhash fun r _ => .ite (fun _ => uhashComma_keepsSetup p b r) fun _ =>
    .ite (fun _ => .quiet (.refl p)) fun _ => fail_keepsSetup

theorem uhashBodyStep_keepsSetup : KeepsSetup p (uhashBodyStep p b) :=
  .withUhash fun _ _ => .ite (fun _ => .quiet (.refl p)) fun _ =>
    .ite (fun _ => fail_keepsSetup) fun _ =>
      .ite (fun _ => .quiet (.refl p)) fun _ => .quiet (.refl p)

theorem uhashChecksumStep_keepsSetup : KeepsSetup p (uhashChecksumStep p b) := by
  refine .withUhash fun _ _ => .ite
    (fun _ => .ite (fun _ => ?_) fun _ => .quiet (.refl p)) fun _ => fail_keepsSetup
  split
  · exact .error _
  split
  · exact .error _
  · exact conclude_keepsSetup

/-! ### The byte step, the host's return and runs -/

theorem handler_keepsSetup : KeepsSetup p (handler p b) := by
  unfold handler
  cases p.state with
  | firstByte => exact firstByte_keepsSetup
  | lineTerm => exact lineTerm_keepsSetup p b
  | crThenLf => exact crThenLf_keepsSetup p b
  | lfThenCr => exact lfThenCr_keepsSetup p b
  | nmeaNameThenFirstComma => exact nmeaNameStep_keepsSetup p b
  | nmeaFindAsterisk => exact nmeaBodyStep_keepsSetup p b
  | nmeaChecksumHi => exact nmeaChecksumHiStep_keepsSetup p b
  | nmeaChecksumLo => exact nmeaChecksumLoStep_keepsSetup p b
  | rtcmLengthHi => exact rtcmLengthHiStep_keepsSetup p b
  | rtcmLengthLo => exact rtcmLengthLoStep_keepsSetup p b
  | rtcmMsgIdHi => exact rtcmMsgIdHiStep_keepsSetup p b
  | rtcmMsgIdLo => exact rtcmMsgIdLoStep_keepsSetup p b
  | rtcmData => exact rtcmDataStep_keepsSetup p b
  | rtcmCrc => exact rtcmCrcStep_keepsSetup p b
  | ubxSync2 => exact ubxSync2Step_keepsSetup p b
  | ubxClass => exact ubxClassStep_keepsSetup p b
  | ubxId => exact ubxIdStep_keepsSetup p b
  | ubxLengthLo => exact ubxLengthLoStep_keepsSetup p b
  | ubxLengthHi => exact ubxLengthHiStep_keepsSetup p b
  | ubxPayload => exact ubxPayloadStep_keepsSetup p b
  | ubxCkA => exact ubxCkAStep_keepsSetup p
  | ubxCkB => exact ubxCkBStep_keepsSetup p b
  | sbfPreamble2 => exact sbfPreamble2Step_keepsSetup p b
  | sbfCrc1 => exact sbfCrc1Step_keepsSetup p b
  | sbfCrc2 => exact sbfCrc2Step_keepsSetup p b
  | sbfId1 => exact sbfId1Step_keepsSetup p b
  | sbfId2 => exact sbfId2Step_keepsSetup p b
  | sbfLengthLo => exact sbfLengthLoStep_keepsSetup p b
  | sbfLengthHi => exact sbfLengthHiStep_keepsSetup p b
  | sbfBody => exact sbfBodyStep_keepsSetup p b
  | spartnHdr3 => exact spartnHdr3Step_keepsSetup p b
  | spartnExtHdr => exact spartnExtHdrStep_keepsSetup p b
  | spartnPayload => exact spartnPayloadStep_keepsSetup p
  | spartnEmbedded => exact spartnEmbeddedStep_keepsSetup p
  | spartnCrc => exact spartnCrcStep_keepsSetup p b
  | ubinSync2 => exact ubinSync2Step_keepsSetup p b
  | ubinSync3 => exact ubinSync3Step_keepsSetup p b
  | ubinReadHeader => exact ubinReadHeaderStep_keepsSetup p b
  | ubinReadBody => exact ubinReadBodyStep_keepsSetup p b
  | ubinReadCrc => exact ubinReadCrcStep_keepsSetup p b
  | uhashNameThenFirstComma => exact uhashNameStep_keepsSetup p b
  | uhashFindAsterisk => exact uhashBodyStep_keepsSetup p b
  | uhashChecksumByte => exact uhashChecksumStep_keepsSetup p b

/-- No byte of the input stream writes the configuration (10_state.md R12, R13, R21). -/
theorem byteStep_keepsSetup : KeepsSetup p (byteStep p b) := by
  unfold byteStep
  split
  · exact firstByte_keepsSetup
  · exact lineTerm_keepsSetup p b
  · exact crThenLf_keepsSetup p b
  · exact lfThenCr_keepsSetup p b
  · exact .ite (fun _ => failTooLong_keepsSetup) fun _ => handler_keepsSetup (p.append b) b

theorem afterWindow_keepsSetup (answer : Bool) (w : Window) :
    KeepsSetup p (afterWindow answer p w) := by
  unfold afterWindow
  split
  · exact .quiet (.refl p)
  · exact .quiet (.refl p)
  · exact .quiet (.refl p)
  · exact .quiet (.refl p)
  · exact firstByte_keepsSetup
  · exact .ite (fun _ => complete_keepsSetup) fun _ => fail_keepsSetup

end

/-- A run of bytes writes none of the configuration. -/
theorem runBytes_sameSetup {bytes : List Byte} {s t : State} {p q : ParseState}
    (hp : s.parse = some p) (hq : t.parse = some q) (h : runBytes bytes s = .next t) :
    p.SameSetup q := by
  obtain ⟨done, p', hrun, ht⟩ := runBytes_cases hp h
  have hsame : p.SameSetup p' :=
    hrun.keeps (fun p' b q' hp' hb => hp'.trans (byteStep_keepsSetup p' b _ hb)) (.refl p)
  rcases ht with rfl | ⟨b, rest, q', e, w, hb, rfl⟩
  · cases hq
    exact hsame
  · cases hq
    exact hsame.trans (byteStep_keepsSetup p' b _ hb)

/-- A host's return writes none of the configuration. -/
theorem hostReturn_sameSetup {answer : Bool} {s t : State} {p q : ParseState}
    (hp : s.parse = some p) (hq : t.parse = some q) (h : hostReturn answer s = .next t) :
    p.SameSetup q := by
  rcases hostReturn_cases h with rfl | ⟨p', hp', -, ⟨r, hr, hrun⟩ | ⟨r, e, w, hr, rfl⟩⟩
  · cases hp.symm.trans hq
    exact .refl p
  · cases hp.symm.trans hp'
    exact (afterWindow_keepsSetup p _ _ _ hr).trans (runBytes_sameSetup rfl hq hrun)
  · cases hp.symm.trans hp'
    cases hq
    exact afterWindow_keepsSetup p _ _ _ hr

/-! ### The operations -/

/-- What an instruction other than BEGIN may have done to the configuration: the flags that SETIDCB,
DBGEN, DBGDIS, ERREN and ERRDIS write, each by those alone (10_state.md R12, R13, R21). -/
def ParseState.SetupAfter (p : ParseState) (i : Instr) (q : ParseState) : Prop :=
  q.table = p.table ∧ q.bufferLength = p.bufferLength ∧ q.badCrcEn = p.badCrcEn ∧
    q.abortNpNmea = p.abortNpNmea ∧ q.abortNpUhash = p.abortNpUhash ∧ q.verbose = p.verbose ∧
    (q.invalidEn ≠ p.invalidEn → i = .setIdCb q.invalidEn) ∧
    (q.dbgEn ≠ p.dbgEn → i = if q.dbgEn then .dbgEn else .dbgDis) ∧
    (q.errEn ≠ p.errEn → i = if q.errEn then .errEn else .errDis)

theorem ParseState.SameSetup.setupAfter {p q : ParseState} (h : p.SameSetup q) (i : Instr) :
    p.SetupAfter i q := by
  obtain ⟨htable, hlen, hbad, hinvalid, hnmea, huhash, hdbg, herr, hverbose⟩ := h
  exact ⟨htable, hlen, hbad, hnmea, huhash, hverbose, fun hne => absurd hinvalid hne,
    fun hne => absurd hdbg hne, fun hne => absurd herr hne⟩

theorem Controls.setupAfter {p q : ParseState} {i : Instr} (h : Controls p i q) :
    p.SetupAfter i q := by
  cases h with
  | setIdCb en => exact ⟨rfl, rfl, rfl, rfl, rfl, rfl, fun _ => rfl, absurd rfl, absurd rfl⟩
  | dbgEn => exact ⟨rfl, rfl, rfl, rfl, rfl, rfl, absurd rfl, fun _ => rfl, absurd rfl⟩
  | dbgDis => exact ⟨rfl, rfl, rfl, rfl, rfl, rfl, absurd rfl, fun _ => rfl, absurd rfl⟩
  | errEn => exact ⟨rfl, rfl, rfl, rfl, rfl, rfl, absurd rfl, absurd rfl, fun _ => rfl⟩
  | errDis => exact ⟨rfl, rfl, rfl, rfl, rfl, rfl, absurd rfl, absurd rfl, fun _ => rfl⟩

theorem Executes.setupAfter {i : Instr} {s t : State} {p q : ParseState} (hx : Executes s i t)
    (hp : s.parse = some p) (hq : t.parse = some q) (hi : opClass i ≠ .begins) :
    p.SetupAfter i q := by
  cases hx with
  | answers r =>
    cases hp.symm.trans hq
    exact (ParseState.SameSetup.refl p).setupAfter i
  | begins hw => exact absurd rfl hi
  | stops hw => cases hq
  | writes hp' hw hc =>
    cases hp.symm.trans hp'
    cases hq
    exact hc.setupAfter
  | runs hp' hw hr => exact (runBytes_sameSetup hp hq hr).setupAfter i

/-- Settles O18, by what an instruction (`exec_executes`) and a host's return can do. -/
theorem setupFixed : Obligations.SetupFixed := fun _ _ _ _ hp hq =>
  ⟨fun _ h hi => (exec_executes h).setupAfter hp hq hi, fun _ h => hostReturn_sameSetup hp hq h⟩

end Sys2Proof.Machine
end

section
/-! PROOF. The bytes of a frame in progress when one more is stored, and what one more covered byte does
to each checksum (10_state.md R14, R17; 40_generators.md R93). -/

namespace Sys2Proof.Machine

/-! ### The bytes of the frame in progress -/

@[simp] theorem ParseState.frameBytes_goto (p : ParseState) (st : PState) :
    (p.goto st).frameBytes = p.frameBytes := rfl
@[simp] theorem ParseState.frameBytes_setSp (p : ParseState) (r : Scratch) :
    (p.setSp r).frameBytes = p.frameBytes := rfl
@[simp] theorem ParseState.frameBytes_setCrc (p : ParseState) (v : BitVec 32) :
    (p.setCrc v).frameBytes = p.frameBytes := rfl
@[simp] theorem ParseState.frameBytes_latch (p : ParseState) (i : Nat) (k : Kind) (b : Byte) :
    (p.latch i k b).frameBytes = p.frameBytes := rfl

@[simp] theorem ParseState.frameBytes_restart (p : ParseState) (b : Byte) :
    (p.restart b).frameBytes = [b] := by
  simp [ParseState.frameBytes, Memory.readMany]

theorem ParseState.frameBytes_eq {p : ParseState} {bs : List Byte}
    (h : p.buffer.readMany 0 p.length = some bs) : p.frameBytes = bs := by
  rw [ParseState.frameBytes, h, Option.getD_some]

/-- Every byte of the frame in progress is stored (10_state.md R14). -/
theorem ParseState.Inv.readMany_frame {p : ParseState} (h : p.Inv) :
    p.buffer.readMany 0 p.length = some p.frameBytes := by
  obtain ⟨bs, hbs⟩ := Memory.readMany_isSome (m := p.buffer) (i := 0) (n := p.length)
    fun j hj => by simpa using h.filled j hj
  rw [ParseState.frameBytes_eq hbs, hbs]

@[simp] theorem ParseState.Inv.frameBytes_length {p : ParseState} (h : p.Inv) :
    p.frameBytes.length = p.length :=
  (Memory.readMany_eq_some.mp h.readMany_frame).1

/-- The next byte of a frame is stored behind those before it (41_dispatch.md R124). -/
theorem ParseState.Inv.readMany_append {p : ParseState} (h : p.Inv) (b : Byte) :
    (p.append b).buffer.readMany 0 (p.append b).length = some (p.frameBytes ++ [b]) := by
  refine Memory.readMany_succ ?_ (by simp)
  rw [← h.readMany_frame]
  exact Memory.readMany_congr fun j hj => Memory.read_write_other _ _ (by omega)

theorem ParseState.Inv.frameBytes_append {p : ParseState} (h : p.Inv) (b : Byte) :
    (p.append b).frameBytes = p.frameBytes ++ [b] :=
  ParseState.frameBytes_eq (h.readMany_append b)

/-- The covered part of a frame, with the next byte behind it. -/
theorem ParseState.Inv.drop_frameBytes_append {p : ParseState} (h : p.Inv) (b : Byte) {n : Nat}
    (hn : n ≤ p.length) : (p.append b).frameBytes.drop n = p.frameBytes.drop n ++ [b] := by
  rw [h.frameBytes_append, List.drop_append_of_le_length (by rwa [h.frameBytes_length])]

/-- What is read back up to the end of the frame: its last bytes. -/
theorem ParseState.Inv.slice_append {p : ParseState} (h : p.Inv) {b : Byte} {a : Nat}
    {bs : List Byte} (hs : (p.append b).slice a (p.append b).length = .ok bs) :
    bs = (p.append b).frameBytes.drop a := by
  obtain ⟨hlen, hread⟩ := ParseState.slice_eq_ok.mp hs
  obtain ⟨hfl, hfr⟩ := Memory.readMany_eq_some.mp (h.readMany_append b)
  rw [h.frameBytes_append]
  refine List.ext_getElem? fun j => ?_
  rw [List.getElem?_drop]
  rcases Nat.lt_or_ge j ((p.append b).length - a) with hj | hj
  · rw [← hread j hj, ← hfr (a + j) (by omega), Nat.zero_add]
  · rw [List.getElem?_eq_none (by omega), List.getElem?_eq_none (by omega)]

/-! ### One more covered byte -/

theorem xor8Block_append (bs : List Byte) (b : Byte) :
    xor8Block (bs ++ [b]) = xor8Block bs ^^^ b := by
  simp [xor8Block, xor8]

theorem fl8Block_append (bs : List Byte) (b : Byte) :
    fl8Block (bs ++ [b]) = fl8 (fl8Block bs).1 (fl8Block bs).2 b := by
  simp [fl8Block]

/-- A block with no final XOR, one byte longer (40_generators.md R93). -/
theorem block_append {w : Nat} (upd : BitVec w → Byte → BitVec w) {params : CrcParams w}
    (hx : params.xorOut = 0) (bs : List Byte) (b : Byte) :
    block upd params (bs ++ [b]) = upd (block upd params bs) b := by
  simp [block, hx]

theorem crc24qBlock_append (bs : List Byte) (b : Byte) :
    crc24qBlock (bs ++ [b]) = crc24q (crc24qBlock bs) b := block_append crc24q rfl bs b

theorem ccitt16Block_append (bs : List Byte) (b : Byte) :
    ccitt16Block (bs ++ [b]) = ccitt16 (ccitt16Block bs) b := block_append ccitt16 rfl bs b

theorem crc32rBlock_append (bs : List Byte) (b : Byte) :
    crc32rBlock (bs ++ [b]) = crc32r (crc32rBlock bs) b := block_append crc32r rfl bs b

/-- The accumulator's folds carry the checksum of `bs` to that of one byte more. -/
theorem foldXor_covers {c : BitVec 32} {bs : List Byte} (h : c = (xor8Block bs).setWidth 32)
    (b : Byte) : c ^^^ b.setWidth 32 = (xor8Block (bs ++ [b])).setWidth 32 := by
  rw [h, xor8Block_append, BitVec.setWidth_xor]

theorem foldCrc24q_covers {c : BitVec 32} {bs : List Byte}
    (h : c = (crc24qBlock bs).setWidth 32) (b : Byte) :
    (crc24q (c.setWidth 24) b).setWidth 32 = (crc24qBlock (bs ++ [b])).setWidth 32 := by
  rw [h, crc24qBlock_append, BitVec.setWidth_setWidth_of_le _ (by omega), BitVec.setWidth_eq]

theorem foldCcitt16_covers {c : BitVec 32} {bs : List Byte}
    (h : c = (ccitt16Block bs).setWidth 32) (b : Byte) :
    (ccitt16 (c.setWidth 16) b).setWidth 32 = (ccitt16Block (bs ++ [b])).setWidth 32 := by
  rw [h, ccitt16Block_append, BitVec.setWidth_setWidth_of_le _ (by omega), BitVec.setWidth_eq]

theorem foldCrc32r_covers {c : BitVec 32} {bs : List Byte} (h : c = crc32rBlock bs) (b : Byte) :
    crc32r c b = crc32rBlock (bs ++ [b]) := by
  rw [h, crc32rBlock_append]

/-! ### The star of a text frame -/

/-- The star itself, just stored: what it covers is the frame before it, less the preamble. -/
theorem hasStar_zero {frame : List Byte} (h : 1 ≤ frame.length) : hasStar (frame ++ [0x2A]) 0 := by
  simp [hasStar, h]

theorem starred_zero (frame : List Byte) (b : Byte) :
    starred (frame ++ [b]) 0 = frame.drop 1 := by
  simp [starred]

/-- One more octet behind the star. -/
theorem hasStar_append {frame : List Byte} {n : Nat} (h : hasStar frame n) (b : Byte) :
    hasStar (frame ++ [b]) (n + 1) := by
  obtain ⟨hlen, hstar⟩ := h
  refine ⟨by simpa using hlen, ?_⟩
  rw [List.length_append, List.length_singleton, Nat.add_sub_add_right,
    List.getElem?_append_left (by omega), hstar]

theorem starred_append {frame : List Byte} {n : Nat} (h : hasStar frame n) (b : Byte) :
    starred (frame ++ [b]) (n + 1) = starred frame n := by
  have hlen := h.1
  rw [starred, starred, List.length_append, List.length_singleton, Nat.add_sub_add_right,
    List.take_append_of_le_length (by omega)]

/-! ### The name of a Unicore-hash frame -/

/-- A comma ends the name (48_unicore_hash.md R281). -/
theorem frameName_comma {frame : List Byte} (h1 : 1 ≤ frame.length)
    (h : (frame.drop 1).all isAlnum = true) : frameName (frame ++ [0x2C]) = frame.drop 1 := by
  have hname : ∀ c ∈ frame.drop 1, (c != 0x2C) = true := fun c hc => by
    have hal := List.all_eq_true.mp h c hc
    rw [bne_iff_ne]
    rintro rfl
    exact absurd hal (by decide)
  rw [frameName, List.drop_append_of_le_length h1, List.takeWhile_append_of_pos hname]
  simp

/-- What follows the first comma is no part of the name. -/
theorem frameName_append {frame : List Byte} (h : 0x2C ∈ frame.drop 1) (b : Byte) :
    frameName (frame ++ [b]) = frameName frame := by
  have h1 : 1 ≤ frame.length := by
    have := List.length_pos_of_mem h
    rw [List.length_drop] at this
    omega
  have hshort : ((frame.drop 1).takeWhile fun c => c != 0x2C).length ≠ (frame.drop 1).length := by
    intro he
    have hall := List.takeWhile_prefix (l := frame.drop 1) (fun c : Byte => c != 0x2C)
    rw [← hall.eq_of_length he] at h
    simpa using List.mem_takeWhile_imp h
  rw [frameName, List.drop_append_of_le_length h1, List.takeWhile_append, if_neg hshort, frameName]

/-- The comma stays where it is. -/
theorem comma_mem_append {frame : List Byte} (h : 0x2C ∈ frame.drop 1) (b : Byte) :
    0x2C ∈ (frame ++ [b]).drop 1 := by
  rw [List.drop_append]
  exact List.mem_append_left _ h

theorem nameChars_setIfInBounds (name : Vector Byte 16) (len : BitVec 8) (c : Byte) :
    nameChars (name.setIfInBounds len.toNat c) len = nameChars name len := by
  rw [nameChars, Vector.toList_setIfInBounds, List.take_set_of_le (le_refl _), nameChars]

/-- A name one character longer (48_unicore_hash.md R281). -/
theorem nameChars_push (name : Vector Byte 16) {len : BitVec 8} (h : len.toNat < 15) (c : Byte) :
    nameChars (name.setIfInBounds len.toNat c) (len + 1) = nameChars name len ++ [c] := by
  have hlen : (len + 1).toNat = len.toNat + 1 := by bv_omega
  have hsize : len.toNat < (name.toList.set len.toNat c).length := by simp; omega
  rw [nameChars, nameChars, hlen, Vector.toList_setIfInBounds,
    List.take_succ_eq_append_getElem hsize, List.take_set_of_le (le_refl _), List.getElem_set_self]

/-- A Unicore-hash checksum over one byte more (48_unicore_hash.md R282). -/
theorem uhashChecksum_append (digits : Nat) (bs : List Byte) (b : Byte) :
    uhashChecksum digits (bs ++ [b]) =
      if digits = 2 then uhashChecksum digits bs ^^^ b.setWidth 32
      else crc32r (uhashChecksum digits bs) b := by
  unfold uhashChecksum
  split_ifs
  · exact (foldXor_covers rfl b).symm
  · exact (foldCrc32r_covers rfl b).symm

end Sys2Proof.Machine
end

section
/-! PROOF. The running checksum covers exactly the bytes its protocol covers, and every step keeps this
(10_state.md R17, R18; 42_nmea.md to 48_unicore_hash.md). A turn that opens a window owes nothing: when
the window closes the frame has ended. -/

namespace Sys2Proof.Machine

/-- What is kept from one byte of the input stream to the next. -/
structure ParseState.Sound (p : ParseState) : Prop where
  inv : p.Inv
  progress : p.Progress
  covers : p.ChecksumCovers

/-- A procedure that raises nothing leaves a running checksum that covers what it should. -/
abbrev Covered (r : Except Fault Turn) : Prop :=
  Ends r fun t => t.raised = none → t.p.ChecksumCovers

theorem quiet_covered {q : ParseState} (h : q.ChecksumCovers) : Covered (quiet q) :=
  .quiet fun _ => h

theorem raise_covered {q : ParseState} {e : Event} {w : Window} : Covered (raise q e w) :=
  .raise fun h => nomatch h

/-! ### The shared procedures: each raises, or begins a frame, or leaves none in progress -/

/-- Nothing is owed where no frame is in progress. -/
theorem checksumCovers_of_not_inFrame {p : ParseState} (h : p.state.inFrame = false) :
    p.ChecksumCovers := by
  unfold ParseState.ChecksumCovers
  revert h
  cases p.state <;> rintro ⟨⟩ <;> trivial

/-- A frame begins with its preamble folded or not, as its protocol says (41_dispatch.md R127). -/
theorem latch_covers (p : ParseState) (i : Nat) (k : Kind) (b : Byte) :
    ((p.restart b).latch i k b).ChecksumCovers := by
  cases k with
  | nmea => simp [ParseState.ChecksumCovers, firstState, acceptCrc, xor8Block]
  | rtcm =>
    simp [ParseState.ChecksumCovers, firstState, acceptCrc, crc24qBlock, block, generatorParams]
  | ubx => simp [ParseState.ChecksumCovers, firstState, Scratch.zero]
  | sbf => simp [ParseState.ChecksumCovers, firstState, acceptCrc]
  | spartn => trivial
  | ubin =>
    simp [ParseState.ChecksumCovers, firstState, acceptCrc, crc32rBlock, block, generatorParams]
  | uhash =>
    simp [ParseState.ChecksumCovers, firstState, acceptCrc, Scratch.zero, nameChars, crc32rBlock,
      block, generatorParams]

section
variable {p : ParseState} {b : Byte}

theorem firstByte_covered : Covered (firstByte p b) := by
  unfold firstByte
  split
  · exact quiet_covered (latch_covers p _ _ b)
  · exact .ite (fun _ => raise_covered) fun _ =>
      quiet_covered (checksumCovers_of_not_inFrame rfl)

theorem fail_covered {c : Cause} : Covered (fail c p b) := by
  refine .ite (fun _ => ?_) fun _ => firstByte_covered
  split
  · exact raise_covered
  · exact .error _

theorem failTooLong_covered : Covered (failTooLong p b) := by
  refine .ite (fun _ => ?_) fun _ => firstByte_covered
  split
  · exact raise_covered
  · exact .error _

theorem deliver_covered : Covered (deliver p) := by
  unfold deliver
  split
  · exact raise_covered
  · exact .error _

theorem textDeliver_covered : Covered (textDeliver p b) := by
  refine .ite (fun _ => fail_covered) fun _ => ?_
  split
  · exact raise_covered
  · exact .error _

theorem complete_covered {text : Bool} : Covered (complete text p b) :=
  .ite (fun _ => textDeliver_covered) fun _ => deliver_covered

theorem conclude_covered {good text : Bool} : Covered (conclude good text p b) :=
  .ite (fun _ => complete_covered) fun _ =>
    .ite (fun _ => raise_covered) fun _ => fail_covered

theorem sbfFinish_covered {r : SbfRec} : Covered (sbfFinish p r b) :=
  .ite (fun _ => deliver_covered) fun _ => fail_covered

theorem lineTerm_covered : Covered (lineTerm p b) :=
  .ite (fun _ => quiet_covered (checksumCovers_of_not_inFrame rfl)) fun _ =>
    .ite (fun _ => quiet_covered (checksumCovers_of_not_inFrame rfl)) fun _ => firstByte_covered

theorem crThenLf_covered : Covered (crThenLf p b) :=
  .ite (fun _ => quiet_covered (checksumCovers_of_not_inFrame rfl)) fun _ => firstByte_covered

theorem lfThenCr_covered : Covered (lfThenCr p b) :=
  .ite (fun _ => quiet_covered (checksumCovers_of_not_inFrame rfl)) fun _ => firstByte_covered

/-- In a state of one kind the preamble is stored. -/
theorem ParseState.Sound.one_le (h : p.Sound) {k : Kind} (hs : p.state.owners = [k]) :
    1 ≤ p.length :=
  (h.inv.latched_of_state hs).2.2.1

/-- A `'*'` stored in a text frame: it covers what stood before it (42_nmea.md R153). -/
theorem ParseState.Sound.star (h : p.Sound) (h1 : 1 ≤ p.length) :
    hasStar (p.append 0x2A).frameBytes 0 ∧
      starred (p.append 0x2A).frameBytes 0 = p.frameBytes.drop 1 := by
  rw [h.inv.frameBytes_append]
  exact ⟨hasStar_zero (by rwa [h.inv.frameBytes_length]), starred_zero _ _⟩

/-- A digit stored behind the `'*'`. -/
theorem ParseState.Sound.digit (h : p.Sound) {n : Nat} (hstar : hasStar p.frameBytes n) (b : Byte) :
    hasStar (p.append b).frameBytes (n + 1) ∧
      starred (p.append b).frameBytes (n + 1) = starred p.frameBytes n := by
  rw [h.inv.frameBytes_append]
  exact ⟨hasStar_append hstar b, starred_append hstar b⟩

/-! ### NMEA -/

theorem checksumCovers_nmea
    (hs : p.state = .nmeaNameThenFirstComma ∨ p.state = .nmeaFindAsterisk) :
    p.ChecksumCovers ↔ p.crc = (xor8Block (p.frameBytes.drop 1)).setWidth 32 := by
  rcases hs with hs | hs <;> simp only [ParseState.ChecksumCovers, hs]

theorem checksumCovers_nmeaHi (hs : p.state = .nmeaChecksumHi) :
    p.ChecksumCovers ↔ hasStar p.frameBytes 0 ∧
      p.crc = (xor8Block (starred p.frameBytes 0)).setWidth 32 := by
  simp only [ParseState.ChecksumCovers, hs]

theorem checksumCovers_nmeaLo (hs : p.state = .nmeaChecksumLo) :
    p.ChecksumCovers ↔ hasStar p.frameBytes 1 ∧
      p.crc = (xor8Block (starred p.frameBytes 1)).setWidth 32 := by
  simp only [ParseState.ChecksumCovers, hs]

/-- The byte just stored, folded. -/
theorem ParseState.Sound.nmea_fold (h : p.Sound)
    (hs : p.state = .nmeaNameThenFirstComma ∨ p.state = .nmeaFindAsterisk) (b : Byte) :
    p.crc ^^^ b.setWidth 32 = (xor8Block ((p.append b).frameBytes.drop 1)).setWidth 32 := by
  have h1 := h.one_le (k := .nmea) (by rcases hs with hs | hs <;> rw [hs] <;> rfl)
  rw [h.inv.drop_frameBytes_append b h1]
  exact foldXor_covers ((checksumCovers_nmea hs).mp h.covers) b

theorem nmeaNameStep_covered (h : p.Sound) (hs : p.state = .nmeaNameThenFirstComma) :
    Covered (nmeaNameStep (p.append b) b) :=
  .withNmea fun _ _ =>
    .ite (fun _ => quiet_covered ((checksumCovers_nmea (.inr rfl)).mpr (h.nmea_fold (.inl hs) b)))
      fun _ => .ite
        (fun _ => quiet_covered
          ((checksumCovers_nmea (.inl (by exact hs))).mpr (h.nmea_fold (.inl hs) b)))
        fun _ => fail_covered

theorem nmeaBodyStep_covered (h : p.Sound) (hs : p.state = .nmeaFindAsterisk) :
    Covered (nmeaBodyStep (p.append b) b) := by
  refine .ite (fun hb => quiet_covered ((checksumCovers_nmeaHi rfl).mpr ?_)) fun _ =>
    .ite (fun _ => fail_covered) fun _ =>
      quiet_covered ((checksumCovers_nmea (.inr (by exact hs))).mpr (h.nmea_fold (.inr hs) b))
  subst hb
  obtain ⟨hstar, hcov⟩ := h.star (h.one_le (k := .nmea) (by rw [hs]; rfl))
  refine ⟨hstar, ((checksumCovers_nmea (.inr hs)).mp h.covers).trans ?_⟩
  rw [← hcov]
  rfl

theorem nmeaChecksumHiStep_covered (h : p.Sound) (hs : p.state = .nmeaChecksumHi) :
    Covered (nmeaChecksumHiStep (p.append b) b) := by
  refine .ite (fun _ => quiet_covered ((checksumCovers_nmeaLo rfl).mpr ?_)) fun _ => fail_covered
  obtain ⟨hstar, hcrc⟩ := (checksumCovers_nmeaHi hs).mp h.covers
  obtain ⟨hstar', hcov⟩ := h.digit hstar b
  exact ⟨hstar', by simpa [hcov] using hcrc⟩

theorem nmeaChecksumLoStep_covered : Covered (nmeaChecksumLoStep p b) := by
  refine .ite (fun _ => ?_) fun _ => fail_covered
  split
  · exact .error _
  split
  · exact .error _
  · exact conclude_covered

/-! ### RTCM -/

theorem checksumCovers_rtcm (hs : p.state.owners = [.rtcm]) :
    p.ChecksumCovers ↔ p.crc = (crc24qBlock p.frameBytes).setWidth 32 := by
  unfold ParseState.ChecksumCovers
  revert hs
  cases p.state <;> rintro ⟨⟩ <;> rfl

/-- The byte just stored, folded. -/
theorem ParseState.Sound.rtcm_fold (h : p.Sound) (hs : p.state.owners = [.rtcm]) (b : Byte) :
    (crc24q (p.crc.setWidth 24) b).setWidth 32 =
      (crc24qBlock (p.append b).frameBytes).setWidth 32 := by
  rw [h.inv.frameBytes_append]
  exact foldCrc24q_covers ((checksumCovers_rtcm hs).mp h.covers) b

/-- The end of an RTCM payload state, with the byte folded. -/
theorem rtcmContinue_covered (h : p.Sound) (hs : p.state.owners = [.rtcm]) {r : RtcmRec}
    {next : PState} (hnext : next.owners = [.rtcm]) :
    Covered (rtcmContinue ((p.append b).foldCrc24q b) r next) :=
  .ite (fun _ => quiet_covered ((checksumCovers_rtcm rfl).mpr (h.rtcm_fold hs b))) fun _ =>
    quiet_covered ((checksumCovers_rtcm hnext).mpr (h.rtcm_fold hs b))

theorem rtcmLengthHiStep_covered (h : p.Sound) (hs : p.state = .rtcmLengthHi) :
    Covered (rtcmLengthHiStep (p.append b) b) :=
  .withRtcm fun _ _ => .ite
    (fun _ => quiet_covered ((checksumCovers_rtcm rfl).mpr (h.rtcm_fold (by rw [hs]; rfl) b)))
    fun _ => fail_covered

theorem rtcmLengthLoStep_covered (h : p.Sound) (hs : p.state = .rtcmLengthLo) :
    Covered (rtcmLengthLoStep (p.append b) b) :=
  .withRtcm fun _ _ => rtcmContinue_covered h (by rw [hs]; rfl) rfl

theorem rtcmMsgIdHiStep_covered (h : p.Sound) (hs : p.state = .rtcmMsgIdHi) :
    Covered (rtcmMsgIdHiStep (p.append b) b) :=
  .withRtcm fun _ _ => rtcmContinue_covered h (by rw [hs]; rfl) rfl

theorem rtcmMsgIdLoStep_covered (h : p.Sound) (hs : p.state = .rtcmMsgIdLo) :
    Covered (rtcmMsgIdLoStep (p.append b) b) :=
  .withRtcm fun _ _ => rtcmContinue_covered h (by rw [hs]; rfl) rfl

theorem rtcmDataStep_covered (h : p.Sound) (hs : p.state = .rtcmData) :
    Covered (rtcmDataStep (p.append b) b) :=
  .withRtcm fun _ _ => rtcmContinue_covered h (by rw [hs]; rfl) rfl

theorem rtcmCrcStep_covered (h : p.Sound) (hs : p.state = .rtcmCrc) :
    Covered (rtcmCrcStep (p.append b) b) :=
  have ho : p.state.owners = [.rtcm] := by rw [hs]; rfl
  .withRtcm fun _ _ => .ite (fun _ => conclude_covered) fun _ =>
    quiet_covered ((checksumCovers_rtcm (by exact ho)).mpr (h.rtcm_fold ho b))

/-! ### UBX -/

/-- The states of a UBX frame between its sync bytes and its first checksum byte (44_ubx.md R193 to
R198): the sums are those of all bytes after the sync bytes. -/
def PState.ubxSummed : PState → Bool
  | .ubxClass | .ubxId | .ubxLengthLo | .ubxLengthHi | .ubxPayload | .ubxCkA => true
  | _ => false

theorem checksumCovers_ubxSync2 (hs : p.state = .ubxSync2) :
    p.ChecksumCovers ↔ ∀ r, p.sp = some (.ubx r) → p.length = 1 ∧ (r.ckA, r.ckB) = (0, 0) := by
  simp only [ParseState.ChecksumCovers, hs]
  rcases p.sp with _ | _ | _ | _ | _ | _ | _ | _ <;> simp

theorem checksumCovers_ubx (hs : p.state.ubxSummed = true) :
    p.ChecksumCovers ↔ ∀ r, p.sp = some (.ubx r) →
      2 ≤ p.length ∧ (r.ckA, r.ckB) = fl8Block (p.frameBytes.drop 2) := by
  unfold ParseState.ChecksumCovers
  revert hs
  cases p.state <;> rintro ⟨⟩ <;>
    rcases p.sp with _ | _ | _ | _ | _ | _ | _ | _ <;> simp

theorem checksumCovers_ubxCkB (hs : p.state = .ubxCkB) :
    p.ChecksumCovers ↔ ∀ r, p.sp = some (.ubx r) →
      3 ≤ p.length ∧ (r.ckA, r.ckB) = fl8Block (p.frameBytes.dropLast.drop 2) := by
  simp only [ParseState.ChecksumCovers, hs]
  rcases p.sp with _ | _ | _ | _ | _ | _ | _ | _ <;> simp

theorem ubxSync2Step_covered (h : p.Sound) (hs : p.state = .ubxSync2) :
    Covered (ubxSync2Step (p.append b) b) := by
  refine .ite (fun _ => quiet_covered ((checksumCovers_ubx rfl).mpr fun r hr => ?_))
    fun _ => fail_covered
  obtain ⟨hlen, hsums⟩ := (checksumCovers_ubxSync2 hs).mp h.covers r hr
  have hnone : (p.append b).frameBytes.drop 2 = [] :=
    List.drop_eq_nil_of_le (by simp [h.inv.frameBytes_append, h.inv.frameBytes_length, hlen])
  exact ⟨by simp [hlen], by simp [hnone, hsums, fl8Block]⟩

/-- A UBX byte summed: whatever else of the record is written, and to whichever state of the frame it
leads. -/
theorem ubx_fold_covered (h : p.Sound) (hs : p.state.ubxSummed = true) {r r' : UbxRec}
    (hr : p.sp = some (.ubx r)) (hck : (r'.ckA, r'.ckB) = fl8 r.ckA r.ckB b) {st : PState}
    (hst : st.ubxSummed = true) :
    Covered (quiet (((p.append b).setSp (.ubx r')).goto st)) := by
  refine quiet_covered ((checksumCovers_ubx hst).mpr fun r'' hr'' => ?_)
  cases hr''
  obtain ⟨hlen, hsums⟩ := (checksumCovers_ubx hs).mp h.covers r hr
  refine ⟨Nat.le_succ_of_le hlen, ?_⟩
  rw [hck, ParseState.frameBytes_goto, ParseState.frameBytes_setSp,
    h.inv.drop_frameBytes_append b hlen, fl8Block_append, ← hsums]

theorem ubxClassStep_covered (h : p.Sound) (hs : p.state = .ubxClass) :
    Covered (ubxClassStep (p.append b) b) :=
  .withUbx fun _ hr => ubx_fold_covered h (by rw [hs]; rfl) hr rfl rfl

theorem ubxIdStep_covered (h : p.Sound) (hs : p.state = .ubxId) :
    Covered (ubxIdStep (p.append b) b) :=
  .withUbx fun _ hr => ubx_fold_covered h (by rw [hs]; rfl) hr rfl rfl

theorem ubxLengthLoStep_covered (h : p.Sound) (hs : p.state = .ubxLengthLo) :
    Covered (ubxLengthLoStep (p.append b) b) :=
  .withUbx fun _ hr => ubx_fold_covered h (by rw [hs]; rfl) hr rfl rfl

theorem ubxLengthHiStep_covered (h : p.Sound) (hs : p.state = .ubxLengthHi) :
    Covered (ubxLengthHiStep (p.append b) b) :=
  .withUbx fun _ hr => ubx_fold_covered h (by rw [hs]; rfl) hr rfl (by split_ifs <;> rfl)

theorem ubxPayloadStep_covered (h : p.Sound) (hs : p.state = .ubxPayload) :
    Covered (ubxPayloadStep (p.append b) b) :=
  .withUbx fun _ hr => ubx_fold_covered h (by rw [hs]; rfl) hr rfl (by split_ifs <;> rfl)

theorem ubxCkAStep_covered (h : p.Sound) (hs : p.state = .ubxCkA) :
    Covered (ubxCkAStep (p.append b)) := by
  refine quiet_covered ((checksumCovers_ubxCkB rfl).mpr fun r hr => ?_)
  obtain ⟨hlen, hsums⟩ := (checksumCovers_ubx (by rw [hs]; rfl)).mp h.covers r hr
  refine ⟨Nat.succ_le_succ hlen, ?_⟩
  rw [ParseState.frameBytes_goto, h.inv.frameBytes_append, List.dropLast_concat, hsums]

theorem ubxCkBStep_covered : Covered (ubxCkBStep p b) := by
  refine .withUbx fun _ _ => ?_
  split
  · exact .error _
  · exact conclude_covered

/-! ### SBF -/

/-- The states of an SBF frame behind its CRC field (45_sbf.md R215 to R219). -/
def PState.sbfFolded : PState → Bool
  | .sbfId1 | .sbfId2 | .sbfLengthLo | .sbfLengthHi | .sbfBody => true
  | _ => false

theorem checksumCovers_sbfPreamble2 (hs : p.state = .sbfPreamble2) :
    p.ChecksumCovers ↔ p.length = 1 ∧ p.crc = 0 := by
  simp only [ParseState.ChecksumCovers, hs]

theorem checksumCovers_sbfCrc1 (hs : p.state = .sbfCrc1) :
    p.ChecksumCovers ↔ p.length = 2 ∧ p.crc = 0 := by
  simp only [ParseState.ChecksumCovers, hs]

theorem checksumCovers_sbfCrc2 (hs : p.state = .sbfCrc2) :
    p.ChecksumCovers ↔ ∀ r, p.sp = some (.sbf r) →
      p.length = 3 ∧ p.crc = 0 ∧ r.expectedCrc.toNat = leNat (p.frameBytes.drop 2) := by
  simp only [ParseState.ChecksumCovers, hs]
  rcases p.sp with _ | _ | _ | _ | _ | _ | _ | _ <;> simp

theorem checksumCovers_sbf (hs : p.state.sbfFolded = true) :
    p.ChecksumCovers ↔ ∀ r, p.sp = some (.sbf r) →
      4 ≤ p.length ∧ p.crc = (ccitt16Block (p.frameBytes.drop 4)).setWidth 32 ∧
        r.expectedCrc.toNat = leNat ((p.frameBytes.drop 2).take 2) := by
  unfold ParseState.ChecksumCovers
  revert hs
  cases p.state <;> rintro ⟨⟩ <;>
    rcases p.sp with _ | _ | _ | _ | _ | _ | _ | _ <;> simp

theorem sbfPreamble2Step_covered (h : p.Sound) (hs : p.state = .sbfPreamble2) :
    Covered (sbfPreamble2Step (p.append b) b) := by
  refine .ite (fun _ => quiet_covered ((checksumCovers_sbfCrc1 rfl).mpr ?_)) fun _ => fail_covered
  obtain ⟨hlen, hcrc⟩ := (checksumCovers_sbfPreamble2 hs).mp h.covers
  exact ⟨by simp [hlen], hcrc⟩

/-- The low byte of the frame's CRC is kept. -/
theorem sbfCrc1Step_covered (h : p.Sound) (hs : p.state = .sbfCrc1) :
    Covered (sbfCrc1Step (p.append b) b) := by
  refine .withSbf fun r _ => quiet_covered ((checksumCovers_sbfCrc2 rfl).mpr fun r' hr' => ?_)
  cases hr'
  obtain ⟨hlen, hcrc⟩ := (checksumCovers_sbfCrc1 hs).mp h.covers
  have hlast : (p.append b).frameBytes.drop 2 = [b] := by
    rw [h.inv.drop_frameBytes_append b hlen.ge,
      List.drop_eq_nil_of_le (by rw [h.inv.frameBytes_length]; exact hlen.le), List.nil_append]
  have hb := b.isLt
  exact ⟨by simp [hlen], hcrc, by simp [hlast, leNat]; omega⟩

/-- The frame's CRC, the second byte the more significant (45_sbf.md R213, R214). -/
theorem leNat_pair (lo : BitVec 16) (a b : Byte) (h : lo.toNat = leNat [a]) :
    (lo ||| b.setWidth 16 <<< 8).toNat = leNat [a, b] := by
  have ha := a.isLt
  have hb := b.isLt
  simp only [leNat, Nat.mul_zero, Nat.add_zero] at h ⊢
  rw [BitVec.toNat_or, BitVec.toNat_shiftLeft, BitVec.toNat_setWidth, h, Nat.lor_comm,
    Nat.shiftLeft_eq, Nat.mod_eq_of_lt (by omega), Nat.mod_eq_of_lt (by omega),
    ← Nat.shiftLeft_eq, ← Nat.shiftLeft_add_eq_or_of_lt ha, Nat.shiftLeft_eq]
  omega

theorem sbfCrc2Step_covered (h : p.Sound) (hs : p.state = .sbfCrc2) :
    Covered (sbfCrc2Step (p.append b) b) := by
  refine .withSbf fun r hr => quiet_covered ((checksumCovers_sbf rfl).mpr fun r' hr' => ?_)
  cases hr'
  obtain ⟨hlen, hcrc, hlo⟩ := (checksumCovers_sbfCrc2 hs).mp h.covers r hr
  obtain ⟨a, ha⟩ := List.length_eq_one_iff.mp
    (show (p.frameBytes.drop 2).length = 1 by rw [List.length_drop, h.inv.frameBytes_length, hlen])
  have hpair : (p.append b).frameBytes.drop 2 = [a, b] := by
    rw [h.inv.drop_frameBytes_append b (by omega), ha, List.singleton_append]
  have hnone : (p.append b).frameBytes.drop 4 = [] :=
    List.drop_eq_nil_of_le (by simp [h.inv.frameBytes_append, h.inv.frameBytes_length, hlen])
  rw [ha] at hlo
  refine ⟨by simp [hlen], ?_, ?_⟩
  · simpa [hnone, ccitt16Block, block, generatorParams] using hcrc
  · simpa [hpair] using leNat_pair _ a b hlo

/-- An SBF byte folded: whatever else of the record is written, and to whichever state of the frame it
leads. -/
theorem sbf_fold_covered (h : p.Sound) (hs : p.state.sbfFolded = true) {r r' : SbfRec}
    (hr : p.sp = some (.sbf r)) {q : ParseState}
    (hframe : q.length = p.length + 1 ∧ q.frameBytes = (p.append b).frameBytes)
    (hcrc : q.crc = (ccitt16 (p.crc.setWidth 16) b).setWidth 32) (hr' : q.sp = some (.sbf r'))
    (hexp : r'.expectedCrc = r.expectedCrc) (hs' : q.state.sbfFolded = true) :
    Covered (quiet q) := by
  refine quiet_covered ((checksumCovers_sbf hs').mpr fun r'' hr'' => ?_)
  cases hr'.symm.trans hr''
  obtain ⟨hlen, hold, hkept⟩ := (checksumCovers_sbf hs).mp h.covers r hr
  obtain ⟨hqlen, hbytes⟩ := hframe
  have hfield : ((p.append b).frameBytes.drop 2).take 2 = (p.frameBytes.drop 2).take 2 := by
    rw [h.inv.drop_frameBytes_append b (by omega), List.take_append_of_le_length
      (by rw [List.length_drop, h.inv.frameBytes_length]; omega)]
  refine ⟨by omega, ?_, by rw [hexp, hkept, hbytes, hfield]⟩
  rw [hcrc, hbytes, h.inv.drop_frameBytes_append b hlen]
  exact foldCcitt16_covers hold b

theorem sbfId1Step_covered (h : p.Sound) (hs : p.state = .sbfId1) :
    Covered (sbfId1Step (p.append b) b) :=
  .withSbf fun _ hr => sbf_fold_covered h (by rw [hs]; rfl) hr ⟨rfl, rfl⟩ rfl rfl rfl rfl

theorem sbfId2Step_covered (h : p.Sound) (hs : p.state = .sbfId2) :
    Covered (sbfId2Step (p.append b) b) :=
  .withSbf fun _ hr => sbf_fold_covered h (by rw [hs]; rfl) hr ⟨rfl, rfl⟩ rfl rfl rfl rfl

theorem sbfLengthLoStep_covered (h : p.Sound) (hs : p.state = .sbfLengthLo) :
    Covered (sbfLengthLoStep (p.append b) b) :=
  .withSbf fun _ hr => sbf_fold_covered h (by rw [hs]; rfl) hr ⟨rfl, rfl⟩ rfl rfl rfl rfl

theorem sbfLengthHiStep_covered (h : p.Sound) (hs : p.state = .sbfLengthHi) :
    Covered (sbfLengthHiStep (p.append b) b) :=
  .withSbf fun _ hr => .ite
    (fun _ => .ite (fun _ => sbfFinish_covered) fun _ =>
      sbf_fold_covered h (by rw [hs]; rfl) hr ⟨rfl, rfl⟩ rfl rfl rfl rfl)
    fun _ => fail_covered

theorem sbfBodyStep_covered (h : p.Sound) (hs : p.state = .sbfBody) :
    Covered (sbfBodyStep (p.append b) b) :=
  have hf : p.state.sbfFolded = true := by rw [hs]; rfl
  .withSbf fun _ hr => .ite (fun _ => sbfFinish_covered) fun _ =>
    sbf_fold_covered h hf hr ⟨rfl, rfl⟩ rfl rfl rfl hf

/-! ### SPARTN -/

/-- The states of a SPARTN frame between its header and its CRC (46_spartn.md R233 to R235). -/
def PState.spartnInner : PState → Bool
  | .spartnExtHdr | .spartnPayload | .spartnEmbedded => true
  | _ => false

theorem checksumCovers_spartn (hs : p.state.spartnInner = true) :
    p.ChecksumCovers ↔ ∀ r, p.sp = some (.spartn r) →
      4 ≤ p.length ∧ p.frameBytes[3]?.map (·.extractLsb' 4 2) = some r.crcType := by
  unfold ParseState.ChecksumCovers
  revert hs
  cases p.state <;> rintro ⟨⟩ <;>
    rcases p.sp with _ | _ | _ | _ | _ | _ | _ | _ <;> simp

theorem checksumCovers_spartnCrc (hs : p.state = .spartnCrc) :
    p.ChecksumCovers ↔ ∀ r, p.sp = some (.spartn r) →
      4 + r.frameCount.toNat ≤ p.length ∧
        p.frameBytes[3]?.map (·.extractLsb' 4 2) = some r.crcType := by
  simp only [ParseState.ChecksumCovers, hs]
  rcases p.sp with _ | _ | _ | _ | _ | _ | _ | _ <;> simp

theorem checksumCovers_spartnHdr3 (hs : p.state = .spartnHdr3) : p.ChecksumCovers := by
  simp only [ParseState.ChecksumCovers, hs]

theorem SpartnRec.extCount_crcType (r : SpartnRec) (b : Byte) :
    (r.extCount b).crcType = r.crcType := by
  unfold SpartnRec.extCount
  split_ifs <;> rfl

theorem SpartnRec.extLast_crcType (r : SpartnRec) (b : Byte) :
    (r.extLast b).crcType = r.crcType := by
  unfold SpartnRec.extLast
  split_ifs <;> rfl

/-- The CRC type is read from the third header byte and kept (46_spartn.md R232). -/
theorem spartnHdr3Step_covered (h : p.Sound) (hs : p.state = .spartnHdr3) :
    Covered (spartnHdr3Step (p.append b) b) := by
  refine .withSpartn fun r hr => .ite
    (fun _ => quiet_covered (checksumCovers_spartnHdr3 hs)) fun h1 => .ite
    (fun _ => quiet_covered (checksumCovers_spartnHdr3 hs)) fun h2 => ?_
  have hlen : p.length = 3 := by
    have hp := h.progress
    simp only [ParseState.Progress, hs] at hp
    obtain ⟨hle, hlen⟩ := hp r hr
    bv_omega
  split
  · refine .ite (fun _ => quiet_covered ((checksumCovers_spartn rfl).mpr fun r' hr' => ?_))
      fun _ => fail_covered
    cases hr'
    have h3 : (p.append b).frameBytes[3]? = some b := by
      rw [h.inv.frameBytes_append, ← hlen, ← h.inv.frameBytes_length, List.getElem?_concat_length]
    exact ⟨by simp [hlen], by simp [h3, SpartnRec.header3]⟩
  all_goals exact .error _

/-- A SPARTN byte stored: the CRC type is still that of the header. -/
theorem ParseState.Sound.spartn_crcType (h : p.Sound) {t : BitVec 2} (hlen : 4 ≤ p.length)
    (ht : p.frameBytes[3]?.map (·.extractLsb' 4 2) = some t) (b : Byte) :
    (p.append b).frameBytes[3]?.map (·.extractLsb' 4 2) = some t := by
  rw [h.inv.frameBytes_append,
    List.getElem?_append_left (by rw [h.inv.frameBytes_length]; omega), ht]

/-- A byte of a SPARTN frame between header and CRC: it stays there, or the CRC phase begins. -/
theorem spartn_advance_covered (h : p.Sound) (hs : p.state.spartnInner = true)
    {r r' : SpartnRec} (hr : p.sp = some (.spartn r)) {q : ParseState}
    (hframe : q.length = p.length + 1 ∧ q.frameBytes = (p.append b).frameBytes)
    (hr' : q.sp = some (.spartn r')) (ht : r'.crcType = r.crcType)
    (hs' : q.state.spartnInner = true ∨ q.state = .spartnCrc ∧ r'.frameCount = 0) :
    Covered (quiet q) := by
  obtain ⟨hlen, htype⟩ := (checksumCovers_spartn hs).mp h.covers r hr
  obtain ⟨hqlen, hbytes⟩ := hframe
  have htype' : q.frameBytes[3]?.map (·.extractLsb' 4 2) = some r'.crcType := by
    rw [hbytes, ht]
    exact h.spartn_crcType hlen htype b
  refine quiet_covered ?_
  rcases hs' with hs' | ⟨hs', hzero⟩
  · refine (checksumCovers_spartn hs').mpr fun r'' hr'' => ?_
    cases hr'.symm.trans hr''
    exact ⟨by omega, htype'⟩
  · refine (checksumCovers_spartnCrc hs').mpr fun r'' hr'' => ?_
    cases hr'.symm.trans hr''
    exact ⟨by simp [hzero]; omega, htype'⟩

theorem afterPayload_covered (h : p.Sound) (hs : p.state.spartnInner = true) {r r' : SpartnRec}
    (hr : p.sp = some (.spartn r)) (ht : r'.crcType = r.crcType) :
    Covered (afterPayload (p.append b) r') := by
  unfold afterPayload
  split_ifs
  · exact spartn_advance_covered h hs hr ⟨rfl, rfl⟩ rfl ht (.inl rfl)
  · exact spartn_advance_covered h hs hr ⟨rfl, rfl⟩ rfl ht (.inr ⟨rfl, rfl⟩)

theorem spartnExtHdrStep_covered (h : p.Sound) (hs : p.state = .spartnExtHdr) :
    Covered (spartnExtHdrStep (p.append b) b) := by
  have hi : p.state.spartnInner = true := by rw [hs]; rfl
  refine .withSpartn fun r hr => ?_
  have hcount := r.extCount_crcType b
  have hlast := ((r.extCount b).extLast_crcType b).trans hcount
  exact .ite
    (fun _ => .ite
      (fun _ => spartn_advance_covered h hi hr ⟨rfl, rfl⟩ rfl hlast (.inl rfl))
      fun _ => afterPayload_covered h hi hr hlast)
    fun _ => spartn_advance_covered h hi hr ⟨rfl, rfl⟩ rfl hcount (.inl hi)

theorem spartnPayloadStep_covered (h : p.Sound) (hs : p.state = .spartnPayload) :
    Covered (spartnPayloadStep (p.append b)) :=
  have hi : p.state.spartnInner = true := by rw [hs]; rfl
  .withSpartn fun _ hr => .ite (fun _ => afterPayload_covered h hi hr rfl) fun _ =>
    spartn_advance_covered h hi hr ⟨rfl, rfl⟩ rfl rfl (.inl hi)

theorem spartnEmbeddedStep_covered (h : p.Sound) (hs : p.state = .spartnEmbedded) :
    Covered (spartnEmbeddedStep (p.append b)) :=
  have hi : p.state.spartnInner = true := by rw [hs]; rfl
  .withSpartn fun _ hr => .ite
    (fun _ => spartn_advance_covered h hi hr ⟨rfl, rfl⟩ rfl rfl (.inr ⟨rfl, rfl⟩))
    fun _ => spartn_advance_covered h hi hr ⟨rfl, rfl⟩ rfl rfl (.inl hi)

theorem spartnCrcStep_covered (h : p.Sound) (hs : p.state = .spartnCrc) :
    Covered (spartnCrcStep (p.append b) b) := by
  refine .withSpartn fun r hr => .ite (fun _ => ?_) fun _ =>
    quiet_covered ((checksumCovers_spartnCrc (by exact hs)).mpr fun r' hr' => ?_)
  · split
    · exact conclude_covered
    all_goals exact .error _
  · cases hr'
    obtain ⟨hlen, htype⟩ := (checksumCovers_spartnCrc hs).mp h.covers r hr
    have hcount : (r.frameCount + 1).toNat ≤ r.frameCount.toNat + 1 := by bv_omega
    exact ⟨by simp; omega, h.spartn_crcType (by omega) htype b⟩

/-! ### Unicore binary -/

/-- The states of a Unicore-binary frame before its CRC (47_unicore_binary.md R262 to R265). -/
def PState.ubinFolded : PState → Bool
  | .ubinSync2 | .ubinSync3 | .ubinReadHeader | .ubinReadBody => true
  | _ => false

theorem checksumCovers_ubin (hs : p.state.ubinFolded = true) :
    p.ChecksumCovers ↔ p.crc = crc32rBlock p.frameBytes := by
  unfold ParseState.ChecksumCovers
  revert hs
  cases p.state <;> rintro ⟨⟩ <;> rfl

theorem checksumCovers_ubinReadCrc (hs : p.state = .ubinReadCrc) :
    p.ChecksumCovers ↔ ∀ r, p.sp = some (.ubin r) →
      r.bytesRemaining.toNat ≤ 4 ∧ 4 ≤ p.length + r.bytesRemaining.toNat ∧
        r.savedCrc = crc32rBlock (p.frameBytes.take (p.length + r.bytesRemaining.toNat - 4)) := by
  simp only [ParseState.ChecksumCovers, hs]
  rcases p.sp with _ | _ | _ | _ | _ | _ | _ | _ <;> simp

/-- The byte just stored, folded. -/
theorem ParseState.Sound.ubin_fold (h : p.Sound) (hs : p.state.ubinFolded = true) (b : Byte) :
    crc32r p.crc b = crc32rBlock (p.append b).frameBytes := by
  rw [h.inv.frameBytes_append]
  exact foldCrc32r_covers ((checksumCovers_ubin hs).mp h.covers) b

/-- The whole of the frame so far is covered when the CRC phase begins (47_unicore_binary.md R267). -/
theorem enterUbinCrc_covered (h : p.Sound) (hs : p.state.ubinFolded = true) (r : UbinRec) :
    Covered (quiet (enterUbinCrc ((p.append b).foldCrc32r b) r)) := by
  refine quiet_covered ((checksumCovers_ubinReadCrc rfl).mpr fun r' hr' => ?_)
  cases hr'
  refine ⟨le_refl 4, Nat.le_add_left _ _, (h.ubin_fold hs b).trans ?_⟩
  congr 1
  refine (List.take_of_length_le ?_).symm
  simp [enterUbinCrc, h.inv.frameBytes_append, h.inv.frameBytes_length]

theorem ubinSync2Step_covered (h : p.Sound) (hs : p.state = .ubinSync2) :
    Covered (ubinSync2Step (p.append b) b) :=
  .ite (fun _ => quiet_covered ((checksumCovers_ubin rfl).mpr (h.ubin_fold (by rw [hs]; rfl) b)))
    fun _ => fail_covered

theorem ubinSync3Step_covered (h : p.Sound) (hs : p.state = .ubinSync3) :
    Covered (ubinSync3Step (p.append b) b) :=
  .withUbin fun _ _ => .ite
    (fun _ => quiet_covered ((checksumCovers_ubin rfl).mpr (h.ubin_fold (by rw [hs]; rfl) b)))
    fun _ => fail_covered

theorem ubinReadHeaderStep_covered (h : p.Sound) (hs : p.state = .ubinReadHeader) :
    Covered (ubinReadHeaderStep (p.append b) b) := by
  have hf : p.state.ubinFolded = true := by rw [hs]; rfl
  refine .withUbin fun r _ => .ite (fun _ => ?_) fun _ =>
    quiet_covered ((checksumCovers_ubin (by exact hf)).mpr (h.ubin_fold hf b))
  split
  · exact .ite (fun _ => enterUbinCrc_covered h hf _) fun _ =>
      quiet_covered ((checksumCovers_ubin rfl).mpr (h.ubin_fold hf b))
  all_goals exact .error _

theorem ubinReadBodyStep_covered (h : p.Sound) (hs : p.state = .ubinReadBody) :
    Covered (ubinReadBodyStep (p.append b) b) :=
  have hf : p.state.ubinFolded = true := by rw [hs]; rfl
  .withUbin fun _ _ => .ite (fun _ => enterUbinCrc_covered h hf _) fun _ =>
    quiet_covered ((checksumCovers_ubin (by exact hf)).mpr (h.ubin_fold hf b))

/-- A CRC byte is stored, not folded: what is covered stays (47_unicore_binary.md R266). -/
theorem ubinReadCrcStep_covered (h : p.Sound) (hs : p.state = .ubinReadCrc) :
    Covered (ubinReadCrcStep (p.append b) b) := by
  refine .withUbin fun r hr => .ite (fun _ => ?_) fun _ =>
    quiet_covered ((checksumCovers_ubinReadCrc (by exact hs)).mpr fun r' hr' => ?_)
  · split
    · exact conclude_covered
    · exact .error _
  · cases hr'
    obtain ⟨hle, hge, hsaved⟩ := (checksumCovers_ubinReadCrc hs).mp h.covers r hr
    have hp := h.progress
    simp only [ParseState.Progress, hs] at hp
    have hsub := toNat_sub_one (by omega) (hp r hr)
    have hone := hp r hr
    have hsum : (p.append b).length + (r.bytesRemaining - 1).toNat =
        p.length + r.bytesRemaining.toNat := by
      rw [hsub, ParseState.append_length]
      omega
    refine ⟨by simp only; omega, by simp only [ParseState.setSp_length]; omega, ?_⟩
    simp only [ParseState.setSp_length, ParseState.frameBytes_setSp]
    rw [hsum, h.inv.frameBytes_append,
      List.take_append_of_le_length (by rw [h.inv.frameBytes_length]; omega), hsaved]

/-! ### Unicore hash -/

theorem checksumCovers_uhashName (hs : p.state = .uhashNameThenFirstComma) :
    p.ChecksumCovers ↔ ∀ r, p.sp = some (.uhash r) →
      p.crc = crc32rBlock (p.frameBytes.drop 1) ∧
        p.frameBytes.drop 1 = nameChars r.sentenceName r.nameLen ∧
        (p.frameBytes.drop 1).all isAlnum = true := by
  simp only [ParseState.ChecksumCovers, hs]
  rcases p.sp with _ | _ | _ | _ | _ | _ | _ | _ <;> simp

theorem checksumCovers_uhashBody (hs : p.state = .uhashFindAsterisk) :
    p.ChecksumCovers ↔ ∀ r, p.sp = some (.uhash r) →
      r.checksumBytes.toNat = uhashDigits (frameName p.frameBytes) ∧
        0x2C ∈ p.frameBytes.drop 1 ∧
        p.crc = uhashChecksum r.checksumBytes.toNat (p.frameBytes.drop 1) := by
  simp only [ParseState.ChecksumCovers, hs]
  rcases p.sp with _ | _ | _ | _ | _ | _ | _ | _ <;> simp

theorem checksumCovers_uhashChecksum (hs : p.state = .uhashChecksumByte) :
    p.ChecksumCovers ↔ ∀ r, p.sp = some (.uhash r) →
      r.checksumBytes.toNat = uhashDigits (frameName p.frameBytes) ∧
        0x2C ∈ p.frameBytes.drop 1 ∧
        hasStar p.frameBytes (r.checksumBytes.toNat - r.bytesRemaining.toNat) ∧
        p.crc = uhashChecksum r.checksumBytes.toNat
          (starred p.frameBytes (r.checksumBytes.toNat - r.bytesRemaining.toNat)) := by
  simp only [ParseState.ChecksumCovers, hs]
  rcases p.sp with _ | _ | _ | _ | _ | _ | _ | _ <;> simp

/-- One more byte behind the name: the name and the comma stay. -/
theorem ParseState.Sound.uhash_named (h : p.Sound) (hcomma : 0x2C ∈ p.frameBytes.drop 1)
    (b : Byte) : frameName (p.append b).frameBytes = frameName p.frameBytes ∧
      0x2C ∈ (p.append b).frameBytes.drop 1 := by
  rw [h.inv.frameBytes_append]
  exact ⟨frameName_append hcomma b, comma_mem_append hcomma b⟩

/-- The comma: the name is complete and chooses the checksum (48_unicore_hash.md R281). -/
theorem uhashComma_covered (h : p.Sound) (hs : p.state = .uhashNameThenFirstComma) {r : UhashRec}
    (hr : p.sp = some (.uhash r)) : Covered (uhashComma (p.append 0x2C) r 0x2C) := by
  obtain ⟨hcrc, hname, hall⟩ := (checksumCovers_uhashName hs).mp h.covers r hr
  have h1 := h.one_le (k := .uhash) (by rw [hs]; rfl)
  have hcovered := h.inv.drop_frameBytes_append 0x2C h1
  have hframe : frameName (p.append 0x2C).frameBytes = nameChars r.sentenceName r.nameLen := by
    rw [h.inv.frameBytes_append, frameName_comma (by rwa [h.inv.frameBytes_length]) hall, hname]
  have hcomma : 0x2C ∈ (p.append 0x2C).frameBytes.drop 1 := by
    rw [hcovered]
    exact List.mem_append_right _ (List.mem_singleton_self _)
  refine .ite (fun hmode => ?_) fun hmode => quiet_covered ?_
  · split
    · rename_i covered hslice
      rw [h.inv.slice_append hslice]
      refine quiet_covered ((checksumCovers_uhashBody rfl).mpr fun r' hr' => ?_)
      cases hr'
      rw [nameChars_setIfInBounds, ← hframe] at hmode
      refine ⟨?_, hcomma, rfl⟩
      exact (if_pos hmode).symm
    · exact .error _
  · refine (checksumCovers_uhashBody rfl).mpr fun r' hr' => ?_
    cases hr'
    rw [nameChars_setIfInBounds, ← hframe] at hmode
    refine ⟨(if_neg hmode).symm, hcomma, ?_⟩
    refine (foldCrc32r_covers hcrc 0x2C).trans ?_
    rw [← hcovered]
    rfl

theorem uhashNameStep_covered (h : p.Sound) (hs : p.state = .uhashNameThenFirstComma) :
    Covered (uhashNameStep (p.append b) b) := by
  refine .withUhash fun r hr => .ite (fun hb => ?_) fun _ => .ite
    (fun hb => quiet_covered ((checksumCovers_uhashName (by exact hs)).mpr fun r' hr' => ?_))
    fun _ => fail_covered
  · obtain ⟨rfl, -⟩ := hb
    exact uhashComma_covered h hs hr
  · cases hr'
    obtain ⟨hcrc, hname, hall⟩ := (checksumCovers_uhashName hs).mp h.covers r hr
    obtain ⟨halnum, hroom⟩ := hb
    have hcovered := h.inv.drop_frameBytes_append b (h.one_le (k := .uhash) (by rw [hs]; rfl))
    refine ⟨(foldCrc32r_covers hcrc b).trans ?_, ?_, ?_⟩
    · rw [← hcovered]
      rfl
    · rw [nameChars_push _ hroom, ← hname, ← hcovered]
      rfl
    · simpa [hcovered, halnum] using hall

theorem uhashBodyStep_covered (h : p.Sound) (hs : p.state = .uhashFindAsterisk) :
    Covered (uhashBodyStep (p.append b) b) := by
  refine .withUhash fun r hr => ?_
  obtain ⟨hdigits, hcomma, hcrc⟩ := (checksumCovers_uhashBody hs).mp h.covers r hr
  obtain ⟨hname, hcomma'⟩ := h.uhash_named hcomma b
  have h1 := h.one_le (k := .uhash) (by rw [hs]; rfl)
  have hsum := uhashChecksum_append r.checksumBytes.toNat (p.frameBytes.drop 1) b
  rw [← h.inv.drop_frameBytes_append b h1, ← hcrc] at hsum
  refine .ite (fun hb => quiet_covered ((checksumCovers_uhashChecksum rfl).mpr fun r' hr' => ?_))
    fun _ => .ite (fun _ => fail_covered) fun _ => .ite
      (fun h2 => quiet_covered ((checksumCovers_uhashBody (by exact hs)).mpr fun r' hr' => ?_))
      fun h2 => quiet_covered ((checksumCovers_uhashBody (by exact hs)).mpr fun r' hr' => ?_)
  · subst hb
    cases hr'
    obtain ⟨hstar, hcov⟩ := h.star h1
    simp only [Nat.sub_self]
    exact ⟨hdigits.trans (congrArg uhashDigits hname).symm, hcomma', hstar,
      hcrc.trans (congrArg _ hcov).symm⟩
  · cases hr.symm.trans hr'
    rw [if_pos (by rw [h2]; rfl)] at hsum
    exact ⟨hdigits.trans (congrArg uhashDigits hname).symm, hcomma', hsum.symm⟩
  · cases hr.symm.trans hr'
    have hne : r.checksumBytes.toNat ≠ 2 := fun he => h2 (BitVec.eq_of_toNat_eq he)
    rw [if_neg hne] at hsum
    exact ⟨hdigits.trans (congrArg uhashDigits hname).symm, hcomma', hsum.symm⟩

theorem uhashChecksumStep_covered (h : p.Sound) (hs : p.state = .uhashChecksumByte) :
    Covered (uhashChecksumStep (p.append b) b) := by
  refine .withUhash fun r hr => .ite (fun _ => .ite (fun _ => ?_) fun _ =>
    quiet_covered ((checksumCovers_uhashChecksum (by exact hs)).mpr fun r' hr' => ?_))
    fun _ => fail_covered
  · split
    · exact .error _
    split
    · exact .error _
    · exact conclude_covered
  · cases hr'
    obtain ⟨hdigits, hcomma, hstar, hcrc⟩ := (checksumCovers_uhashChecksum hs).mp h.covers r hr
    have hp := h.progress
    simp only [ParseState.Progress, hs] at hp
    obtain ⟨hone, hle, -⟩ := hp r hr
    obtain ⟨hname, hcomma'⟩ := h.uhash_named hcomma b
    obtain ⟨hstar', hcov⟩ := h.digit hstar b
    have hcount : r.checksumBytes.toNat - (r.bytesRemaining - 1).toNat =
        r.checksumBytes.toNat - r.bytesRemaining.toNat + 1 := by
      rw [toNat_sub_one (by omega) hone]
      omega
    simp only [hcount]
    exact ⟨hdigits.trans (congrArg uhashDigits hname).symm, hcomma', hstar',
      hcrc.trans (congrArg _ hcov).symm⟩

/-! ### The byte step, runs and the host's return -/

theorem handler_covered (h : p.Sound) (hf : p.state.inFrame = true) :
    Covered (handler (p.append b) b) := by
  unfold handler
  rw [ParseState.append_state]
  cases hs : p.state with
  | firstByte | lineTerm | crThenLf | lfThenCr =>
    rw [hs] at hf
    cases hf
  | nmeaNameThenFirstComma => exact nmeaNameStep_covered h hs
  | nmeaFindAsterisk => exact nmeaBodyStep_covered h hs
  | nmeaChecksumHi => exact nmeaChecksumHiStep_covered h hs
  | nmeaChecksumLo => exact nmeaChecksumLoStep_covered
  | rtcmLengthHi => exact rtcmLengthHiStep_covered h hs
  | rtcmLengthLo => exact rtcmLengthLoStep_covered h hs
  | rtcmMsgIdHi => exact rtcmMsgIdHiStep_covered h hs
  | rtcmMsgIdLo => exact rtcmMsgIdLoStep_covered h hs
  | rtcmData => exact rtcmDataStep_covered h hs
  | rtcmCrc => exact rtcmCrcStep_covered h hs
  | ubxSync2 => exact ubxSync2Step_covered h hs
  | ubxClass => exact ubxClassStep_covered h hs
  | ubxId => exact ubxIdStep_covered h hs
  | ubxLengthLo => exact ubxLengthLoStep_covered h hs
  | ubxLengthHi => exact ubxLengthHiStep_covered h hs
  | ubxPayload => exact ubxPayloadStep_covered h hs
  | ubxCkA => exact ubxCkAStep_covered h hs
  | ubxCkB => exact ubxCkBStep_covered
  | sbfPreamble2 => exact sbfPreamble2Step_covered h hs
  | sbfCrc1 => exact sbfCrc1Step_covered h hs
  | sbfCrc2 => exact sbfCrc2Step_covered h hs
  | sbfId1 => exact sbfId1Step_covered h hs
  | sbfId2 => exact sbfId2Step_covered h hs
  | sbfLengthLo => exact sbfLengthLoStep_covered h hs
  | sbfLengthHi => exact sbfLengthHiStep_covered h hs
  | sbfBody => exact sbfBodyStep_covered h hs
  | spartnHdr3 => exact spartnHdr3Step_covered h hs
  | spartnExtHdr => exact spartnExtHdrStep_covered h hs
  | spartnPayload => exact spartnPayloadStep_covered h hs
  | spartnEmbedded => exact spartnEmbeddedStep_covered h hs
  | spartnCrc => exact spartnCrcStep_covered h hs
  | ubinSync2 => exact ubinSync2Step_covered h hs
  | ubinSync3 => exact ubinSync3Step_covered h hs
  | ubinReadHeader => exact ubinReadHeaderStep_covered h hs
  | ubinReadBody => exact ubinReadBodyStep_covered h hs
  | ubinReadCrc => exact ubinReadCrcStep_covered h hs
  | uhashNameThenFirstComma => exact uhashNameStep_covered h hs
  | uhashFindAsterisk => exact uhashBodyStep_covered h hs
  | uhashChecksumByte => exact uhashChecksumStep_covered h hs

theorem byteStep_covered (h : p.Sound) : Covered (byteStep p b) := by
  by_cases hf : p.state.inFrame = true
  · rw [byteStep_inFrame hf]
    exact .ite (fun _ => failTooLong_covered) fun _ => handler_covered h hf
  · cases hs : p.state with
    | firstByte => rw [byteStep_firstByte hs]; exact firstByte_covered
    | lineTerm => rw [byteStep_lineTerm hs]; exact lineTerm_covered
    | crThenLf => rw [byteStep_crThenLf hs]; exact crThenLf_covered
    | lfThenCr => rw [byteStep_lfThenCr hs]; exact lfThenCr_covered
    | _ => exact absurd (by rw [hs]; rfl) hf

/-- A byte that raises nothing keeps all that is kept from byte to byte. -/
theorem ParseState.Sound.byteStep {q : ParseState} (h : p.Sound)
    (hb : byteStep p b = .ok ⟨q, none⟩) : q.Sound := by
  obtain ⟨turn, ht, hgood⟩ := byteStep_safe h.inv h.progress b
  rw [hb] at ht
  cases ht
  obtain ⟨hinv, hprogress⟩ := hgood
  exact ⟨hinv, hprogress, byteStep_covered h _ hb rfl⟩

/-- After the host's return no frame is in progress, or one has just begun. -/
theorem afterWindow_covered {w : Window} (hw : w ≠ .none) (hf : w.Fits p) (answer : Bool) :
    Covered (afterWindow answer p w) := by
  match w, hw, hf with
  | .inEom true, _, _ => exact quiet_covered (checksumCovers_of_not_inFrame rfl)
  | .inEom false, _, _ => exact quiet_covered (checksumCovers_of_not_inFrame rfl)
  | .inInvalid Option.none, _, hf =>
    exact quiet_covered (checksumCovers_of_not_inFrame (by rw [show p.state = _ from hf]; rfl))
  | .inInvalid (some _), _, _ => exact firstByte_covered
  | .inBadCrc _ _, _, _ => exact .ite (fun _ => complete_covered) fun _ => fail_covered

end

/-- When a run of bytes ends with no window open, the running checksum covers what it should. -/
theorem runBytes_covers {bytes : List Byte} {s t : State} {p q : ParseState}
    (hp : s.parse = some p) (h : p.Sound) (hr : runBytes bytes s = .next t)
    (hq : t.parse = some q) (hw : t.window = .none) : q.ChecksumCovers := by
  obtain ⟨done, p', hrun, ht⟩ := runBytes_cases hp hr
  have hp' : p'.Sound := hrun.keeps (fun _ _ _ h hb => h.byteStep hb) h
  rcases ht with rfl | ⟨b, rest, q', e, w, hb, rfl⟩
  · cases hq
    exact hp'.covers
  · obtain ⟨turn, ht, hgood⟩ := byteStep_safe hp'.inv hp'.progress b
    rw [hb] at ht
    cases ht
    obtain ⟨-, hne, -⟩ := hgood
    exact absurd hw hne

theorem Executes.covers {i : Instr} {s t : State} {q : ParseState} (hx : Executes s i t)
    (hs : ∀ p, s.parse = some p → s.window = .none → p.Sound) (hq : t.parse = some q)
    (hw : t.window = .none) : q.ChecksumCovers := by
  cases hx with
  | answers r => exact (hs q hq hw).covers
  | begins hw' =>
    unfold beginParser at hq
    split at hq
    · cases hq
      trivial
    · cases hq
  | stops hw' => cases hq
  | writes hp hw' hc =>
    obtain ⟨x, y, z, rfl⟩ := hc.eq_withFlags
    cases hq
    exact (hs _ hp hw').covers
  | runs hp hw' hr => exact runBytes_covers hp (hs _ hp hw') hr hq hw

theorem hostReturn_covers {answer : Bool} {s t : State} {q : ParseState}
    (hr : hostReturn answer s = .next t) (h : s.Inv)
    (hs : ∀ p, s.parse = some p → s.window = .none → p.Sound) (hq : t.parse = some q)
    (hw : t.window = .none) :
    q.ChecksumCovers := by
  rcases hostReturn_cases hr with rfl | ⟨p, hp, hw', ⟨p', hp', hrun⟩ | ⟨p', e, w, hp', rfl⟩⟩
  · exact (hs q hq hw).covers
  · obtain ⟨hinv, hprogress⟩ := h.afterWindow hp hw' hp'
    have hcovers := afterWindow_covered hw' (h.parseOk p hp).2 answer _ hp' rfl
    exact runBytes_covers rfl ⟨hinv, hprogress, hcovers⟩ hrun hq hw
  · obtain ⟨-, hne, -⟩ := h.afterWindow hp hw' hp'
    exact absurd hw hne

/-- Settles O36: what a step can do (`step_cases`), each byte of a run by its state's handler. -/
theorem runningChecksum : Obligations.RunningChecksum := by
  intro s t h hcov hstep q hq hw
  have hs : ∀ p, s.parse = some p → s.window = .none → p.Sound := fun p hp hw' =>
    ⟨(h.idle hp hw').1, (h.idle hp hw').2, hcov p hp hw'⟩
  rcases step_cases hstep with rfl | ⟨rest, i, hx⟩ | ⟨rest, answer, hr⟩
  · exact hcov q hq hw
  · exact hx.covers hs hq hw
  · exact hostReturn_covers hr (h.of_same rfl rfl rfl (List.Subset.refl _)) hs hq hw

end Sys2Proof.Machine
end

section
/-! PROOF. What a handler of 42_nmea.md to 48_unicore_hash.md can do, whatever its state: it goes on
inside its frame, or it hands the frame to one of the shared procedures (41_dispatch.md R124, R129,
R130; 60_exceptions.md R352 to R354); and what one PUSH and one return of the host do with that. -/

namespace Sys2Proof.Machine

/-- `q` is `p` but for the state, the accumulator and the record: the frame's bytes, the latched entry
and the configuration stay. -/
def ParseState.SameFrame (p q : ParseState) : Prop :=
  q = { p with state := q.state, crc := q.crc, sp := q.sp }

theorem ParseState.SameFrame.trans {p q r : ParseState} (h : p.SameFrame q) (h' : q.SameFrame r) :
    p.SameFrame r :=
  Eq.trans h' (by rw [h])

/-- The turns a handler may end in, once `b` has been appended to the frame of `p`. -/
inductive FrameTurn (p : ParseState) (b : Byte) : Turn → Prop where
  | onward {q : ParseState} (h : p.SameFrame q) (hf : q.state.inFrame = true) :
      FrameTurn p b ⟨q, none⟩
  | failed {q : ParseState} {c : Cause} {t : Turn} (h : p.SameFrame q) (ht : fail c q b = .ok t) :
      FrameTurn p b t
  | concluded {q : ParseState} {good text : Bool} {t : Turn} (h : p.SameFrame q)
      (ht : conclude good text q b = .ok t) : FrameTurn p b t
  | delivered {q : ParseState} {t : Turn} (h : p.SameFrame q) (ht : deliver q = .ok t) :
      FrameTurn p b t

/-- The procedure does what a handler with `b` appended can do. -/
abbrev HandlesFrame (p : ParseState) (b : Byte) (r : Except Fault Turn) : Prop :=
  Ends r (FrameTurn p b)

section
variable {p : ParseState} {b : Byte}

theorem quiet_handles {q : ParseState} (h : p.SameFrame q) (hf : q.state.inFrame = true) :
    HandlesFrame p b (quiet q) :=
  .quiet (.onward h hf)

theorem fail_handles {q : ParseState} {c : Cause} (h : p.SameFrame q) :
    HandlesFrame p b (fail c q b) :=
  fun _ ht => .failed h ht

theorem conclude_handles {q : ParseState} {good text : Bool} (h : p.SameFrame q) :
    HandlesFrame p b (conclude good text q b) :=
  fun _ ht => .concluded h ht

theorem deliver_handles {q : ParseState} (h : p.SameFrame q) :
    HandlesFrame p b (deliver q) :=
  fun _ ht => .delivered h ht

/-! ### NMEA -/

theorem nmeaNameStep_handles (hf : p.state.inFrame = true) :
    HandlesFrame p b (nmeaNameStep p b) :=
  .withNmea fun _ _ => .ite (fun _ => quiet_handles rfl rfl) fun _ =>
    .ite (fun _ => quiet_handles rfl hf) fun _ => fail_handles rfl

theorem nmeaBodyStep_handles (hf : p.state.inFrame = true) :
    HandlesFrame p b (nmeaBodyStep p b) :=
  .ite (fun _ => quiet_handles rfl rfl) fun _ =>
    .ite (fun _ => fail_handles rfl) fun _ => quiet_handles rfl hf

theorem nmeaChecksumHiStep_handles : HandlesFrame p b (nmeaChecksumHiStep p b) :=
  .ite (fun _ => quiet_handles rfl rfl) fun _ => fail_handles rfl

theorem nmeaChecksumLoStep_handles : HandlesFrame p b (nmeaChecksumLoStep p b) := by
  refine .ite (fun _ => ?_) fun _ => fail_handles rfl
  split
  · exact .error _
  split
  · exact .error _
  · exact conclude_handles rfl

/-! ### RTCM -/

theorem rtcmContinue_handles {q : ParseState} {r : RtcmRec} {next : PState} (h : p.SameFrame q)
    (hnext : next.inFrame = true) : HandlesFrame p b (rtcmContinue q r next) :=
  .ite (fun _ => quiet_handles (h.trans rfl) rfl) fun _ => quiet_handles (h.trans rfl) hnext

theorem rtcmLengthHiStep_handles : HandlesFrame p b (rtcmLengthHiStep p b) :=
  .withRtcm fun _ _ => .ite (fun _ => quiet_handles rfl rfl) fun _ => fail_handles rfl

theorem rtcmLengthLoStep_handles : HandlesFrame p b (rtcmLengthLoStep p b) :=
  .withRtcm fun _ _ => rtcmContinue_handles rfl rfl

theorem rtcmMsgIdHiStep_handles : HandlesFrame p b (rtcmMsgIdHiStep p b) :=
  .withRtcm fun _ _ => rtcmContinue_handles rfl rfl

theorem rtcmMsgIdLoStep_handles : HandlesFrame p b (rtcmMsgIdLoStep p b) :=
  .withRtcm fun _ _ => rtcmContinue_handles rfl rfl

theorem rtcmDataStep_handles : HandlesFrame p b (rtcmDataStep p b) :=
  .withRtcm fun _ _ => rtcmContinue_handles rfl rfl

theorem rtcmCrcStep_handles (hf : p.state.inFrame = true) :
    HandlesFrame p b (rtcmCrcStep p b) :=
  .withRtcm fun _ _ => .ite (fun _ => conclude_handles rfl) fun _ => quiet_handles rfl hf

/-! ### UBX -/

theorem ubxSync2Step_handles : HandlesFrame p b (ubxSync2Step p b) :=
  .ite (fun _ => quiet_handles rfl rfl) fun _ => fail_handles rfl

theorem ubxClassStep_handles : HandlesFrame p b (ubxClassStep p b) :=
  .withUbx fun _ _ => quiet_handles rfl rfl

theorem ubxIdStep_handles : HandlesFrame p b (ubxIdStep p b) :=
  .withUbx fun _ _ => quiet_handles rfl rfl

theorem ubxLengthLoStep_handles : HandlesFrame p b (ubxLengthLoStep p b) :=
  .withUbx fun _ _ => quiet_handles rfl rfl

theorem ubxLengthHiStep_handles : HandlesFrame p b (ubxLengthHiStep p b) :=
  .withUbx fun _ _ => quiet_handles rfl (by rw [ParseState.goto_state]; split <;> rfl)

theorem ubxPayloadStep_handles : HandlesFrame p b (ubxPayloadStep p b) :=
  .withUbx fun _ _ => quiet_handles rfl (by rw [ParseState.goto_state]; split <;> rfl)

theorem ubxCkAStep_handles : HandlesFrame p b (ubxCkAStep p) := quiet_handles rfl rfl

theorem ubxCkBStep_handles : HandlesFrame p b (ubxCkBStep p b) := by
  refine .withUbx fun _ _ => ?_
  split
  · exact .error _
  · exact conclude_handles rfl

/-! ### SBF -/

theorem sbfFinish_handles {q : ParseState} {r : SbfRec} (h : p.SameFrame q) :
    HandlesFrame p b (sbfFinish q r b) :=
  .ite (fun _ => deliver_handles (h.trans rfl)) fun _ => fail_handles (h.trans rfl)

theorem sbfPreamble2Step_handles : HandlesFrame p b (sbfPreamble2Step p b) :=
  .ite (fun _ => quiet_handles rfl rfl) fun _ => fail_handles rfl

theorem sbfCrc1Step_handles : HandlesFrame p b (sbfCrc1Step p b) :=
  .withSbf fun _ _ => quiet_handles rfl rfl

theorem sbfCrc2Step_handles : HandlesFrame p b (sbfCrc2Step p b) :=
  .withSbf fun _ _ => quiet_handles rfl rfl

theorem sbfId1Step_handles : HandlesFrame p b (sbfId1Step p b) :=
  .withSbf fun _ _ => quiet_handles rfl rfl

theorem sbfId2Step_handles : HandlesFrame p b (sbfId2Step p b) :=
  .withSbf fun _ _ => quiet_handles rfl rfl

theorem sbfLengthLoStep_handles : HandlesFrame p b (sbfLengthLoStep p b) :=
  .withSbf fun _ _ => quiet_handles rfl rfl

theorem sbfLengthHiStep_handles : HandlesFrame p b (sbfLengthHiStep p b) :=
  .withSbf fun _ _ => .ite
    (fun _ => .ite (fun _ => sbfFinish_handles rfl) fun _ => quiet_handles rfl rfl)
    fun _ => fail_handles rfl

theorem sbfBodyStep_handles (hf : p.state.inFrame = true) :
    HandlesFrame p b (sbfBodyStep p b) :=
  .withSbf fun _ _ => .ite (fun _ => sbfFinish_handles rfl) fun _ => quiet_handles rfl hf

/-! ### SPARTN -/

theorem afterPayload_handles {r : SpartnRec} : HandlesFrame p b (afterPayload p r) :=
  quiet_handles rfl (by rw [ParseState.goto_state]; split <;> rfl)

theorem spartnHdr3Step_handles (hf : p.state.inFrame = true) :
    HandlesFrame p b (spartnHdr3Step p b) := by
  refine .withSpartn fun _ _ => .ite (fun _ => quiet_handles rfl hf) fun _ =>
    .ite (fun _ => quiet_handles rfl hf) fun _ => ?_
  split
  · exact .ite (fun _ => quiet_handles rfl rfl) fun _ => fail_handles rfl
  all_goals exact .error _

theorem spartnExtHdrStep_handles (hf : p.state.inFrame = true) :
    HandlesFrame p b (spartnExtHdrStep p b) :=
  .withSpartn fun _ _ => .ite
    (fun _ => .ite (fun _ => quiet_handles rfl rfl) fun _ => afterPayload_handles)
    fun _ => quiet_handles rfl hf

theorem spartnPayloadStep_handles (hf : p.state.inFrame = true) :
    HandlesFrame p b (spartnPayloadStep p) :=
  .withSpartn fun _ _ => .ite (fun _ => afterPayload_handles) fun _ => quiet_handles rfl hf

theorem spartnEmbeddedStep_handles (hf : p.state.inFrame = true) :
    HandlesFrame p b (spartnEmbeddedStep p) :=
  .withSpartn fun _ _ => .ite (fun _ => quiet_handles rfl rfl) fun _ => quiet_handles rfl hf

theorem spartnCrcStep_handles (hf : p.state.inFrame = true) :
    HandlesFrame p b (spartnCrcStep p b) := by
  refine .withSpartn fun _ _ => .ite (fun _ => ?_) fun _ => quiet_handles rfl hf
  split
  · exact conclude_handles rfl
  all_goals exact .error _

/-! ### Unicore binary -/

theorem ubinSync2Step_handles : HandlesFrame p b (ubinSync2Step p b) :=
  .ite (fun _ => quiet_handles rfl rfl) fun _ => fail_handles rfl

theorem ubinSync3Step_handles : HandlesFrame p b (ubinSync3Step p b) :=
  .withUbin fun _ _ => .ite (fun _ => quiet_handles rfl rfl) fun _ => fail_handles rfl

theorem ubinReadHeaderStep_handles (hf : p.state.inFrame = true) :
    HandlesFrame p b (ubinReadHeaderStep p b) := by
  refine .withUbin fun _ _ => .ite (fun _ => ?_) fun _ => quiet_handles rfl hf
  split
  · exact .ite (fun _ => quiet_handles rfl rfl) fun _ => quiet_handles rfl rfl
  all_goals exact .error _

theorem ubinReadBodyStep_handles (hf : p.state.inFrame = true) :
    HandlesFrame p b (ubinReadBodyStep p b) :=
  .withUbin fun _ _ => .ite (fun _ => quiet_handles rfl rfl) fun _ => quiet_handles rfl hf

theorem ubinReadCrcStep_handles (hf : p.state.inFrame = true) :
    HandlesFrame p b (ubinReadCrcStep p b) := by
  refine .withUbin fun _ _ => .ite (fun _ => ?_) fun _ => quiet_handles rfl hf
  split
  · exact conclude_handles rfl
  · exact .error _

/-! ### Unicore hash -/

theorem uhashComma_handles {r : UhashRec} : HandlesFrame p b (uhashComma p r b) := by
  refine .ite (fun _ => ?_) fun _ => quiet_handles rfl rfl
  split
  · exact quiet_handles rfl rfl
  · exact .error _

theorem uhashNameStep_handles (hf : p.state.inFrame = true) :
    HandlesFrame p b (uhashNameStep p b) :=
  .withUhash fun _ _ => .ite (fun _ => uhashComma_handles) fun _ =>
    .ite (fun _ => quiet_handles rfl hf) fun _ => fail_handles rfl

theorem uhashBodyStep_handles (hf : p.state.inFrame = true) :
    HandlesFrame p b (uhashBodyStep p b) :=
  .withUhash fun _ _ => .ite (fun _ => quiet_handles rfl rfl) fun _ =>
    .ite (fun _ => fail_handles rfl) fun _ =>
      .ite (fun _ => quiet_handles rfl hf) fun _ => quiet_handles rfl hf

theorem uhashChecksumStep_handles (hf : p.state.inFrame = true) :
    HandlesFrame p b (uhashChecksumStep p b) := by
  refine .withUhash fun _ _ => .ite
    (fun _ => .ite (fun _ => ?_) fun _ => quiet_handles rfl hf) fun _ => fail_handles rfl
  split
  · exact .error _
  split
  · exact .error _
  · exact conclude_handles rfl

/-! ### Every state in which a frame is in progress -/

/-- What the handler of any state can do (41_dispatch.md R124). -/
theorem handler_handles (hf : p.state.inFrame = true) : HandlesFrame p b (handler p b) := by
  unfold handler
  cases hs : p.state with
  | firstByte | lineTerm | crThenLf | lfThenCr =>
    rw [hs] at hf
    cases hf
  | nmeaNameThenFirstComma => exact nmeaNameStep_handles hf
  | nmeaFindAsterisk => exact nmeaBodyStep_handles hf
  | nmeaChecksumHi => exact nmeaChecksumHiStep_handles
  | nmeaChecksumLo => exact nmeaChecksumLoStep_handles
  | rtcmLengthHi => exact rtcmLengthHiStep_handles
  | rtcmLengthLo => exact rtcmLengthLoStep_handles
  | rtcmMsgIdHi => exact rtcmMsgIdHiStep_handles
  | rtcmMsgIdLo => exact rtcmMsgIdLoStep_handles
  | rtcmData => exact rtcmDataStep_handles
  | rtcmCrc => exact rtcmCrcStep_handles hf
  | ubxSync2 => exact ubxSync2Step_handles
  | ubxClass => exact ubxClassStep_handles
  | ubxId => exact ubxIdStep_handles
  | ubxLengthLo => exact ubxLengthLoStep_handles
  | ubxLengthHi => exact ubxLengthHiStep_handles
  | ubxPayload => exact ubxPayloadStep_handles
  | ubxCkA => exact ubxCkAStep_handles
  | ubxCkB => exact ubxCkBStep_handles
  | sbfPreamble2 => exact sbfPreamble2Step_handles
  | sbfCrc1 => exact sbfCrc1Step_handles
  | sbfCrc2 => exact sbfCrc2Step_handles
  | sbfId1 => exact sbfId1Step_handles
  | sbfId2 => exact sbfId2Step_handles
  | sbfLengthLo => exact sbfLengthLoStep_handles
  | sbfLengthHi => exact sbfLengthHiStep_handles
  | sbfBody => exact sbfBodyStep_handles hf
  | spartnHdr3 => exact spartnHdr3Step_handles hf
  | spartnExtHdr => exact spartnExtHdrStep_handles hf
  | spartnPayload => exact spartnPayloadStep_handles hf
  | spartnEmbedded => exact spartnEmbeddedStep_handles hf
  | spartnCrc => exact spartnCrcStep_handles hf
  | ubinSync2 => exact ubinSync2Step_handles
  | ubinSync3 => exact ubinSync3Step_handles
  | ubinReadHeader => exact ubinReadHeaderStep_handles hf
  | ubinReadBody => exact ubinReadBodyStep_handles hf
  | ubinReadCrc => exact ubinReadCrcStep_handles hf
  | uhashNameThenFirstComma => exact uhashNameStep_handles hf
  | uhashFindAsterisk => exact uhashBodyStep_handles hf
  | uhashChecksumByte => exact uhashChecksumStep_handles hf

end

/-! ### One PUSH and one return of the host -/

/-- The machine after a turn with no byte waiting: with no window open, or with the window of the
event raised. -/
def State.afterTurn (s : State) (turn : Turn) : State :=
  match turn.raised with
  | none => { s with parse := some turn.p, window := .none, todo := [], result := .nothing }
  | some (e, w) => s.raised turn.p e w

@[simp] theorem State.afterTurn_parse (s : State) (turn : Turn) :
    (s.afterTurn turn).parse = some turn.p := by
  unfold State.afterTurn
  split <;> rfl

theorem State.afterTurn_window {turn : Turn} {e : Event} {w : Window} (s : State)
    (h : turn.raised = some (e, w)) : (s.afterTurn turn).window = w := by
  simp [State.afterTurn, h]

/-- What PUSH does where it is legal: one byte step (41_dispatch.md R124). -/
theorem exec_push_turn {s t : State} {p : ParseState} {b : Byte} (hp : s.parse = some p)
    (hw : s.window = .none) (h : exec (.push b) s = .next t) :
    ∃ turn, byteStep p b = .ok turn ∧ t = s.afterTurn turn := by
  have hrun : runBytes [b] s = .next t := (pushOctets_run [b] hw hp).symm.trans h
  cases hb : byteStep p b with
  | error f => simp [runBytes, hp, hb] at hrun
  | ok turn =>
    obtain ⟨q, _ | ⟨e, w⟩⟩ := turn
    · rw [runBytes_quiet [] hp hb] at hrun
      cases hrun
      exact ⟨_, rfl, by rw [State.afterTurn, hw]⟩
    · rw [runBytes_raise [] hp hb] at hrun
      cases hrun
      exact ⟨_, rfl, rfl⟩

/-- What the host's return does when no byte of a PUSHN waits (60_exceptions.md R360). -/
theorem hostReturn_turn {answer : Bool} {s t : State} {p : ParseState} (hp : s.parse = some p)
    (hw : s.window ≠ .none) (htodo : s.todo = []) (h : hostReturn answer s = .next t) :
    ∃ turn, afterWindow answer p s.window = .ok turn ∧ t = s.afterTurn turn := by
  simp only [hostReturn, hw, if_false, hp] at h
  cases ha : afterWindow answer p s.window with
  | error f => simp [ha] at h
  | ok turn =>
    obtain ⟨q, _ | ⟨e, w⟩⟩ := turn
    · simp only [ha, htodo, runBytes_nil] at h
      cases h
      exact ⟨_, rfl, rfl⟩
    · simp only [ha] at h
      cases h
      exact ⟨_, rfl, by simp [State.afterTurn, State.raised, htodo]⟩

end Sys2Proof.Machine
end

section
/-! PROOF. Which bytes of the buffer PUSH and the host's return write (20_memory.md section 1,
R41). -/

namespace Sys2Proof.Machine

/-! ### Reads that a write changes -/

theorem Memory.of_read_write_ne {m : Memory} {i a : Nat} {b : Byte}
    (h : (m.write i b).read a ≠ m.read a) : a = i ∧ (m.write i b).read a = some b := by
  by_cases ha : a = i
  · exact ⟨ha, by rw [ha, Memory.read_write_same]⟩
  · exact absurd (Memory.read_write_other m b ha) h

/-- Address `a` is one of the three of the text trailer at `i`, and `v` is what stands there
(41_dispatch.md R130). -/
def IsTrailer (i a : Nat) (v : Option Byte) : Prop :=
  a = i ∧ v = some 0x0D ∨ a = i + 1 ∧ v = some 0x0A ∨ a = i + 2 ∧ v = some 0x00

theorem IsTrailer.lt {i a : Nat} {v : Option Byte} (h : IsTrailer i a v) : a < i + 3 := by
  unfold IsTrailer at h
  omega

theorem ParseState.of_read_trailer_ne {p : ParseState} {a : Nat}
    (h : p.trailer.buffer.read a ≠ p.buffer.read a) :
    IsTrailer p.length a (p.trailer.buffer.read a) := by
  simp only [ParseState.trailer_buffer, Memory.read_write] at h ⊢
  split_ifs at h ⊢ with h2 h1 h0
  · exact .inr (.inr ⟨h2, rfl⟩)
  · exact .inr (.inl ⟨h1, rfl⟩)
  · exact .inl ⟨h0, rfl⟩
  · exact absurd rfl h

/-! ### What the shared procedures write -/

/-- The buffer is as it was, or has `b` at index 0, which is all that `FIRST_BYTE` writes of it
(41_dispatch.md R126). -/
def RestartsBuffer (p : ParseState) (b : Byte) (t : Turn) : Prop :=
  t.p.buffer = p.buffer ∨ t.p.buffer = p.buffer.write 0 b

/-- The same, or the buffer has the trailer of the text frame that is delivered
(41_dispatch.md R130). -/
inductive CompletesBuffer (p : ParseState) (b : Byte) (t : Turn) : Prop where
  | restarted (h : RestartsBuffer p b t)
  | trailed {e : Event} (hroom : p.length + 3 ≤ p.bufferLength)
      (hraised : t.raised = some (e, .inEom true)) (h : t.p.buffer = p.trailer.buffer)

section
variable {p : ParseState} {b : Byte}

theorem firstByte_restarts : Ends (firstByte p b) (RestartsBuffer p b) := by
  unfold firstByte
  split
  · exact .quiet (.inr rfl)
  · exact .ite (fun _ => .raise (.inr rfl)) fun _ => .quiet (.inr rfl)

theorem fail_restarts {c : Cause} : Ends (fail c p b) (RestartsBuffer p b) := by
  refine .ite (fun _ => ?_) fun _ => firstByte_restarts
  split
  · exact .raise (.inl rfl)
  · exact .error _

theorem failTooLong_restarts : Ends (failTooLong p b) (RestartsBuffer p b) := by
  refine .ite (fun _ => ?_) fun _ => firstByte_restarts
  split
  · exact .raise (.inl rfl)
  · exact .error _

theorem lineTerm_restarts : Ends (lineTerm p b) (RestartsBuffer p b) :=
  .ite (fun _ => .quiet (.inl rfl)) fun _ =>
    .ite (fun _ => .quiet (.inl rfl)) fun _ => firstByte_restarts

theorem crThenLf_restarts : Ends (crThenLf p b) (RestartsBuffer p b) :=
  .ite (fun _ => .quiet (.inl rfl)) fun _ => firstByte_restarts

theorem lfThenCr_restarts : Ends (lfThenCr p b) (RestartsBuffer p b) :=
  .ite (fun _ => .quiet (.inl rfl)) fun _ => firstByte_restarts

theorem fail_completes {c : Cause} : Ends (fail c p b) (CompletesBuffer p b) :=
  fun _ ht => .restarted (fail_restarts _ ht)

theorem deliver_completes : Ends (deliver p) (CompletesBuffer p b) := by
  unfold deliver
  split
  · exact .raise (.restarted (.inl rfl))
  · exact .error _

theorem textDeliver_completes : Ends (textDeliver p b) (CompletesBuffer p b) := by
  refine .ite (fun _ => fail_completes) fun hroom => ?_
  split
  · exact .raise (.trailed (Nat.le_of_not_lt hroom) rfl rfl)
  · exact .error _

theorem complete_completes {text : Bool} : Ends (complete text p b) (CompletesBuffer p b) :=
  .ite (fun _ => textDeliver_completes) fun _ => deliver_completes

theorem conclude_completes {good text : Bool} :
    Ends (conclude good text p b) (CompletesBuffer p b) :=
  .ite (fun _ => complete_completes) fun _ =>
    .ite (fun _ => .raise (.restarted (.inl rfl))) fun _ => fail_completes

/-- What is written does not depend on the state, the accumulator or the record. -/
theorem CompletesBuffer.of_sameFrame {q : ParseState} {t : Turn} (h : p.SameFrame q)
    (ht : CompletesBuffer q b t) : CompletesBuffer p b t := by
  rw [h] at ht
  cases ht with
  | restarted hm => exact .restarted hm
  | trailed hroom hraised hm => exact .trailed hroom hraised hm

theorem FrameTurn.completes {t : Turn} (ht : FrameTurn p b t) : CompletesBuffer p b t := by
  cases ht with
  | onward h hf => exact .of_sameFrame h (.restarted (.inl rfl))
  | failed h ht => exact .of_sameFrame h (fail_completes _ ht)
  | concluded h ht => exact .of_sameFrame h (conclude_completes _ ht)
  | delivered h ht => exact .of_sameFrame h (deliver_completes _ ht)

/-! ### The byte step and what follows a window -/

/-- PUSH stores its byte first if a frame is in progress and there is room (41_dispatch.md R124). -/
theorem byteStep_writes {t : Turn} (ht : byteStep p b = .ok t) :
    RestartsBuffer p b t ∨
      p.state.inFrame = true ∧ p.length < p.bufferLength ∧ CompletesBuffer (p.append b) b t := by
  by_cases hf : p.state.inFrame = true
  · rw [byteStep_inFrame hf] at ht
    split_ifs at ht with hfull
    · exact .inl (failTooLong_restarts _ ht)
    · have hturn : FrameTurn (p.append b) b t := handler_handles (p := p.append b) hf _ ht
      exact .inr ⟨hf, Nat.lt_of_not_le hfull, hturn.completes⟩
  · left
    cases hs : p.state with
    | firstByte => exact firstByte_restarts _ (byteStep_firstByte hs b ▸ ht)
    | lineTerm => exact lineTerm_restarts _ (byteStep_lineTerm hs b ▸ ht)
    | crThenLf => exact crThenLf_restarts _ (byteStep_crThenLf hs b ▸ ht)
    | lfThenCr => exact lfThenCr_restarts _ (byteStep_lfThenCr hs b ▸ ht)
    | _ => exact absurd (by rw [hs]; rfl) hf

/-- After a window only the byte that the window holds can be written, or the trailer of the rescued
frame (60_exceptions.md R352 to R354, R360). -/
theorem afterWindow_writes {answer : Bool} {w : Window} {t : Turn}
    (ht : afterWindow answer p w = .ok t) :
    t.p.buffer = p.buffer ∨
      ∃ b, (w = .inInvalid (some b) ∨ ∃ text, w = .inBadCrc b text) ∧ CompletesBuffer p b t := by
  match w with
  | .none | .inEom true | .inEom false | .inInvalid none =>
    cases ht
    exact .inl rfl
  | .inInvalid (some b) => exact .inr ⟨b, .inl rfl, .restarted (firstByte_restarts _ ht)⟩
  | .inBadCrc b text =>
    have hends : Ends (afterWindow answer p (.inBadCrc b text)) (CompletesBuffer p b) :=
      .ite (fun _ => complete_completes) fun _ => fail_completes
    exact .inr ⟨b, .inr ⟨text, rfl⟩, hends _ ht⟩

/-! ### The bytes that changed -/

theorem RestartsBuffer.changed {t : Turn} {a : Nat} (h : RestartsBuffer p b t)
    (hne : t.p.buffer.read a ≠ p.buffer.read a) : a = 0 ∧ t.p.buffer.read a = some b := by
  rcases h with h | h <;> rw [h] at hne ⊢
  · exact absurd rfl hne
  · exact Memory.of_read_write_ne hne

/-- A byte changed is inside the parse area, and is index 0 or one of the trailer. -/
theorem CompletesBuffer.changed {t : Turn} {a : Nat} (h : CompletesBuffer p b t)
    (harea : 0 < p.bufferLength) (hne : t.p.buffer.read a ≠ p.buffer.read a) :
    a < p.bufferLength ∧
      (a = 0 ∧ t.p.buffer.read a = some b ∨
        (∃ e, t.raised = some (e, .inEom true)) ∧
          IsTrailer p.length a (t.p.buffer.read a)) := by
  cases h with
  | restarted h =>
    obtain ⟨rfl, hread⟩ := h.changed hne
    exact ⟨harea, .inl ⟨rfl, hread⟩⟩
  | trailed hroom hraised h =>
    rw [h] at hne ⊢
    have htrailer := ParseState.of_read_trailer_ne hne
    have hend := htrailer.lt
    exact ⟨by omega, .inr ⟨⟨_, hraised⟩, htrailer⟩⟩

/-- A byte that PUSH changes: index 0, the place of the byte stored, or one of the trailer behind
it. -/
theorem byteStep_changed {t : Turn} {a : Nat} (ht : byteStep p b = .ok t)
    (harea : 0 < p.bufferLength) (hne : t.p.buffer.read a ≠ p.buffer.read a) :
    a < p.bufferLength ∧
      (a = 0 ∧ t.p.buffer.read a = some b ∨
        p.state.inFrame = true ∧ a = p.length ∧ t.p.buffer.read a = some b ∨
        (∃ e, t.raised = some (e, .inEom true)) ∧
          IsTrailer (p.length + 1) a (t.p.buffer.read a)) := by
  rcases byteStep_writes ht with h | ⟨hf, hroom, h⟩
  · obtain ⟨rfl, hread⟩ := h.changed hne
    exact ⟨harea, .inl ⟨rfl, hread⟩⟩
  · by_cases hstored : t.p.buffer.read a = (p.append b).buffer.read a
    · rw [hstored] at hne ⊢
      obtain ⟨rfl, hread⟩ := Memory.of_read_write_ne hne
      exact ⟨hroom, .inr (.inl ⟨hf, rfl, hread⟩)⟩
    · obtain ⟨hlt, hwhich⟩ := h.changed harea hstored
      exact ⟨hlt, hwhich.imp_right .inr⟩

end

/-- Settles O27: PUSH by its byte step (`byteStep_changed`), the host's return by what follows the
window (`afterWindow_writes`). -/
theorem bufferWrites : Obligations.BufferWrites := by
  intro s t p q hinv hp hq
  have harea : 0 < p.bufferLength := (hinv.parseOk p hp).1.areaSize.1
  refine ⟨fun b hw hx a hne => ?_, fun answer hw htodo hr a hne => ?_⟩
  · obtain ⟨turn, hturn, rfl⟩ := exec_push_turn hp hw hx
    cases (State.afterTurn_parse s turn).symm.trans hq
    obtain ⟨hlt, hwhich⟩ := byteStep_changed hturn harea hne
    exact ⟨hlt, hwhich.imp_right (.imp_right
      fun ⟨⟨_, he⟩, htrailer⟩ => ⟨s.afterTurn_window he, htrailer⟩)⟩
  · obtain ⟨turn, hturn, rfl⟩ := hostReturn_turn hp hw htodo hr
    cases (State.afterTurn_parse s turn).symm.trans hq
    rcases afterWindow_writes hturn with hsame | ⟨b, hheld, h⟩
    · exact absurd (by rw [hsame]) hne
    · obtain ⟨hlt, hwhich⟩ := h.changed harea hne
      exact ⟨hlt, hwhich.imp (fun ⟨h0, hread⟩ => ⟨h0, b, hread, hheld⟩)
        fun ⟨⟨_, he⟩, htrailer⟩ => ⟨s.afterTurn_window he, htrailer⟩⟩

end Sys2Proof.Machine
end

section
/-! PROOF. A record whose operation code stands in no table is no instruction, and the port refuses it
(30_encoding.md R73 to R78). -/

namespace Sys2Proof.Machine

/-- The operation codes of the tables of 30_encoding.md R73 to R76. -/
def ListedCode (code : Nat) : Prop :=
  (0x01 ≤ code ∧ code ≤ 0x09) ∨ (0x10 ≤ code ∧ code ≤ 0x19) ∨ (0x20 ≤ code ∧ code ≤ 0x2A) ∨
    (0x30 ≤ code ∧ code ≤ 0x3A) ∨ (0x40 ≤ code ∧ code ≤ 0x4F)

/-- Each code that `decodeArgs` gives an operation is listed, so an unlisted one meets its last arm. -/
theorem decodeArgs_of_not_listed {op : Byte} (args : List Byte) (h : ¬ListedCode op.toNat) :
    decodeArgs op args = .error (.illegalOpcode op) := by
  unfold ListedCode at h
  unfold decodeArgs
  split
  pick_goal -1
  · rfl
  all_goals omega

theorem decode_port_of_not_listed {op : Byte} (args : List Byte) (h : ¬ListedCode op.toNat) :
    decode ⟨.port, op :: args⟩ = .error (.illegalOpcode op) :=
  decodeArgs_of_not_listed args h

/-- A record at the port that is no instruction is taken and refused. -/
theorem step_of_port_undecoded {s : State} {bytes : List Byte} {rest : List HostAction}
    {e : DecodeError} (hport : s.port = .present ⟨.port, bytes⟩ :: rest)
    (hdecode : decode ⟨.port, bytes⟩ = .error e) : step s = .next (s.take rest).refuse := by
  simp only [step, hport, runRecord, hdecode, runUndecoded]

/-- Taking an action from the port adds no event. -/
theorem State.take_events_subset (s : State) (rest : List HostAction) :
    (s.take rest).events ⊆ s.events := by
  rw [State.take_events]
  split
  · exact List.nil_subset _
  · exact List.Subset.refl _

/-- Settles O4: an unlisted code decodes to no instruction (`decode_port_of_not_listed`), so its record
is taken and refused, and neither changes more than the port, the event list and the result. -/
theorem illegalOpcodesRefused : Obligations.IllegalOpcodesRefused := by
  intro op args rest s hport hlifecycle hgenerator haccessor haccessorNo hquery
  have hcode : ¬ListedCode op.toNat := by
    rintro (h | h | h | h | h) <;> contradiction
  exact ⟨(s.take rest).refuse, step_of_port_undecoded hport (decode_port_of_not_listed args hcode),
    rfl, rfl, rfl, fun _ he => s.take_events_subset rest he, rfl⟩

end Sys2Proof.Machine
end

section
/-! PROOF. The two sum generators: their update in the arithmetic of 40_generators.md R94 and R96, and
what carrying them out changes. -/

namespace Sys2Proof.Machine

/-- The sum of two bytes wraps modulo 256. -/
theorem byte_add_eq_ofNat (x y : Byte) :
    x + y = BitVec.ofNat 8 ((x.toNat + y.toNat) % 256) :=
  BitVec.eq_of_toNat_eq (by simp)

theorem fl8_fst (ckA ckB b : Byte) :
    (fl8 ckA ckB b).1 = BitVec.ofNat 8 ((ckA.toNat + b.toNat) % 256) :=
  byte_add_eq_ofNat ckA b

/-- The second sum of FL8 takes in the new first sum `ckA + b`, not `ckA` (40_generators.md R96). -/
theorem fl8_snd (ckA ckB b : Byte) :
    (fl8 ckA ckB b).2 =
      BitVec.ofNat 8 ((ckB.toNat + (ckA.toNat + b.toNat) % 256) % 256) := by
  have hnew : (ckA + b).toNat = (ckA.toNat + b.toNat) % 256 := BitVec.toNat_add ckA b
  rw [← hnew]
  exact byte_add_eq_ofNat ckB (ckA + b)

theorem exec_xor8Upd (acc b : Byte) (s : State) :
    exec (.xor8Upd acc b) s = .next (s.answer (.bits 8 (xor8 acc b))) := rfl

theorem exec_fl8Upd (ckA ckB b : Byte) (s : State) :
    exec (.fl8Upd ckA ckB b) s =
      .next (s.answer (.sums (fl8 ckA ckB b).1 (fl8 ckA ckB b).2)) := rfl

/-- Settles O7: each operation answers its update and writes the result alone (`exec_xor8Upd`,
`exec_fl8Upd`); the two sums are `fl8_fst` and `fl8_snd`. -/
theorem sumGenerators : Obligations.SumGenerators := by
  intro acc ckA ckB b s
  refine ⟨exec_xor8Upd acc b s, ?_, rfl, rfl⟩
  rw [exec_fl8Upd, fl8_fst, fl8_snd, State.answer]

end Sys2Proof.Machine
end

section
/-! PROOF. One PUSH as the turn of its byte step, and what `FIRST_BYTE` and the line-terminator
states make of it (41_dispatch.md R124, R126 to R128, R131 to R133). -/

namespace Sys2Proof.Machine

section
variable {s : State} {p : ParseState} {b : Byte}

/-! ### A PUSH by its byte step -/

theorem exec_push_eq_runBytes (hp : s.parse = some p) (hw : s.window = .none) :
    exec (.push b) s = runBytes [b] s :=
  pushOctets_run [b] hw hp

theorem exec_push_of_quiet {q : ParseState} (hp : s.parse = some p) (hw : s.window = .none)
    (h : byteStep p b = quiet q) :
    exec (.push b) s = .next { s with parse := some q, todo := [], result := .nothing } := by
  rw [exec_push_eq_runBytes hp hw, runBytes_quiet [] hp h, runBytes_nil]

theorem exec_push_of_raise {q : ParseState} {e : Event} {w : Window} (hp : s.parse = some p)
    (hw : s.window = .none) (h : byteStep p b = raise q e w) :
    exec (.push b) s = .next (s.raised q e w) := by
  rw [exec_push_eq_runBytes hp hw, runBytes_raise [] hp h, State.raised]

/-- A run looks at the ParseState only through its byte steps. -/
theorem runBytes_cons_of_byteStep_eq {q : ParseState} (bs : List Byte) (hp : s.parse = some p)
    (h : byteStep p b = byteStep q b) :
    runBytes (b :: bs) s = runBytes (b :: bs) { s with parse := some q } := by
  simp [runBytes, hp, h]

/-- `FIRST_BYTE` sets the state itself, so it does not matter which state calls it. -/
theorem firstByte_goto (st : PState) : firstByte (p.goto st) b = firstByte p b := rfl

/-- A state that hands its byte on to `FIRST_BYTE` dispatches it as a PUSH in `FIRST_BYTE` does. -/
theorem exec_push_eq_redispatch (hp : s.parse = some p) (hw : s.window = .none)
    (h : byteStep p b = firstByte p b) : exec (.push b) s = s.redispatch p b := by
  have hsame : byteStep p b = byteStep (p.goto .firstByte) b := by
    rw [h, byteStep_firstByte (p.goto_state _), firstByte_goto]
  calc exec (.push b) s
      = runBytes [b] s := exec_push_eq_runBytes hp hw
    _ = runBytes [b] { s with parse := some (p.goto .firstByte) } :=
        runBytes_cons_of_byteStep_eq [] hp hsame
    _ = s.redispatch p b :=
        (exec_push_eq_runBytes (s := { s with parse := some (p.goto .firstByte) }) rfl hw).symm

/-! ### `FIRST_BYTE` -/

/-- `FIRST_BYTE` stores its byte at index 0 and no other. -/
theorem ParseState.restart_holds : p.Holds (p.restart b) [b] := by
  intro a
  rw [ParseState.restart_buffer, Memory.read_write]
  by_cases ha : a = 0 <;> simp [ha]

theorem ParseState.restart_latch_holds {i : Nat} {k : Kind} :
    p.Holds ((p.restart b).latch i k b) [b] :=
  ParseState.restart_holds (p := p) (b := b)

/-- A PUSH in state `FIRST_BYTE` of the preamble of an entry that is the first to have it. -/
theorem exec_push_latches {i : Nat} {k : Kind} (hp : s.parse = some p) (hw : s.window = .none)
    (hs : p.state = .firstByte) (hl : p.Latches i k) :
    exec (.push (preamble k)) s =
      .next
        { s with
          parse := some ((p.restart (preamble k)).latch i k (preamble k)), todo := []
          result := .nothing } :=
  exec_push_of_quiet hp hw ((byteStep_firstByte hs _).trans (firstByte_latch hl))

/-- A PUSH in state `FIRST_BYTE` of a byte that is no entry's preamble. -/
theorem exec_push_unaccepted (hp : s.parse = some p) (hw : s.window = .none)
    (hs : p.state = .firstByte) (hnone : ∀ k ∈ p.table, preamble k ≠ b) :
    exec (.push b) s =
      if p.invalidEn then
        .next (s.raised (p.restart b) (.invalidData .noParser [b]) (.inInvalid none))
      else .next { s with parse := some (p.restart b), todo := [], result := .nothing } := by
  have hstep := (byteStep_firstByte hs b).trans (firstByte_unaccepted hnone)
  split_ifs with hi
  · exact exec_push_of_raise hp hw (hstep.trans (if_pos hi))
  · exact exec_push_of_quiet hp hw (hstep.trans (if_neg hi))

end

/-- Settles O19: the statement's tables are the model's `preamble`, `firstState` and `acceptCrc`,
and its two clauses are `exec_push_latches` and `exec_push_unaccepted`. -/
theorem dispatch : Obligations.Dispatch := by
  unfold Obligations.Dispatch
  intro code first crc s p b hp hw hs
  have hcode (k : Kind) : code k = preamble k := by cases k <;> rfl
  have hfirst (k : Kind) : first k = firstState k := by cases k <;> rfl
  have hcrc (k : Kind) : crc k = acceptCrc (preamble k) k := by cases k <;> rfl
  constructor
  · intro i k hi hb hbefore
    simp only [hcode] at hb hbefore
    subst hb
    refine ⟨_, ParseState.restart_latch_holds, ?_, exec_push_latches hp hw hs ⟨hi, hbefore⟩⟩
    rw [hfirst, hcrc]
    rfl
  · intro hnone
    simp only [hcode] at hnone
    exact ⟨_, ParseState.restart_holds, rfl, exec_push_unaccepted hp hw hs hnone⟩

/-! ### The line-terminator states -/

/-- Settles O23: of each state's bytes, those it consumes leave a quiet turn
(`exec_push_of_quiet`) and the others go on to `FIRST_BYTE` (`exec_push_eq_redispatch`). -/
theorem lineTerminators : Obligations.LineTerminators := by
  intro s p b hp hw
  refine ⟨fun hs => ?_, ?_, ?_⟩
  · have hstep : byteStep p b = lineTerm p b := byteStep_lineTerm hs b
    split_ifs with hcr hlf
    · exact exec_push_of_quiet hp hw (hstep.trans (if_pos hcr))
    · exact exec_push_of_quiet hp hw (hstep.trans ((if_neg hcr).trans (if_pos hlf)))
    · exact exec_push_eq_redispatch hp hw (hstep.trans ((if_neg hcr).trans (if_neg hlf)))
  · rintro (⟨hs, hlf⟩ | ⟨hs, hcr⟩)
    · exact exec_push_of_quiet hp hw ((byteStep_crThenLf hs b).trans (if_pos hlf))
    · exact exec_push_of_quiet hp hw ((byteStep_lfThenCr hs b).trans (if_pos hcr))
  · rintro (⟨hs, hlf⟩ | ⟨hs, hcr⟩)
    · exact exec_push_eq_redispatch hp hw ((byteStep_crThenLf hs b).trans (if_neg hlf))
    · exact exec_push_eq_redispatch hp hw ((byteStep_lfThenCr hs b).trans (if_neg hcr))

end Sys2Proof.Machine
end

section
/-! PROOF. The lifecycle and control operations (41_dispatch.md R121 to R123, R134, R135): when
BEGIN builds a ParseState and when it fails, and what STOP and the control operations write. -/

namespace Sys2Proof.Machine

/-! ### BEGIN -/

/-- The largest size over a table, folded from either end. -/
theorem tableMax_eq_foldr (size : Kind → Nat) (table : List Kind) :
    tableMax size table = (table.map size).foldr max 0 := by
  rw [tableMax, ← List.foldl_map, List.foldl_eq_foldr]

theorem exec_begin_fails {a : BeginArgs} {s : State} (hw : s.window = .none)
    (h : (a.table = [] ∨ a.eomPresent = false) ∨ parseArea a.table a.buffer = none) :
    exec (.beginParser a) s = .next { s with parse := none, result := .error } := by
  have hnone : (if a.table = [] ∨ a.eomPresent = false then none
      else parseArea a.table a.buffer) = none := by
    rw [ite_eq_left_iff]
    exact fun hgood => h.resolve_left hgood
  calc exec (.beginParser a) s
      = .next (beginParser a s) := if_pos hw
    _ = .next { s with parse := none, result := .error } := by rw [beginParser, hnone]

theorem exec_begin_builds {a : BeginArgs} {s : State} {n : Nat} (hw : s.window = .none)
    (ht : a.table ≠ []) (he : a.eomPresent = true) (hn : parseArea a.table a.buffer = some n) :
    exec (.beginParser a) s =
      .next { s with parse := some (freshParse a n), result := .ok } := by
  calc exec (.beginParser a) s
      = .next (beginParser a s) := if_pos hw
    _ = .next { s with parse := some (freshParse a n), result := .ok } := by
        simp [beginParser, ht, he, hn, hw]

/-- Settles O12: the statement's parse area is the model's (`tableMax_eq_foldr`), and BEGIN builds
exactly where there is one, the table has an entry and the EOM callback is present
(`exec_begin_builds`, `exec_begin_fails`). -/
theorem beginResult : Obligations.BeginResult := by
  intro a s hw most area failed
  have hmost (size : Kind → Nat) : most size = tableMax size a.table :=
    (tableMax_eq_foldr size a.table).symm
  have harea : area = parseArea a.table a.buffer := by
    unfold area
    cases a.buffer with
    | null => rfl
    | total n => simp only [hmost, parseArea, Nat.sub_sub]
    | area n =>
      by_cases hn : n.toNat = 0
      · simp [parseArea, hn]
      · simp [parseArea, hn, Nat.one_le_iff_ne_zero]
  rw [harea]
  exact ⟨fun hbad => exec_begin_fails hw (.inl hbad), fun ht he =>
    ⟨fun hnone => exec_begin_fails hw (.inr hnone), fun _ hn => exec_begin_builds hw ht he hn⟩⟩

/-! ### STOP -/

theorem exec_stop_legal {s : State} (hw : s.window = .none) :
    exec .stop s = .next { s with parse := none, result := .nothing } := if_pos hw

theorem exec_stop_refused {s : State} (hw : s.window ≠ .none) : exec .stop s = .next s.refuse :=
  if_neg hw

/-- Settles O13: with no window open STOP takes the ParseState away (`exec_stop_legal`), inside
one it is refused (`exec_stop_refused`). -/
theorem stopResult : Obligations.StopResult :=
  fun _ => ⟨exec_stop_legal, exec_stop_refused, rfl⟩

/-! ### The control operations -/

/-- The control operations are the writes of `Controls`, each carried out where `control` is
legal. -/
theorem exec_of_controls {i : Instr} {s : State} {p q : ParseState} (hc : Controls p i q)
    (hp : s.parse = some p) (hw : s.window = .none) :
    exec i s = .next { s with parse := some q, result := .nothing } := by
  cases hc <;> exact control_legal hp hw _

/-- Settles O14: each operation writes what `Controls` says of it (`exec_of_controls`), and is
refused where `control` is (`control_refused`). -/
theorem controlOperations : Obligations.ControlOperations := by
  intro s
  refine ⟨fun p en hp hw => ?legal, fun hbad i hi => ?refused, fun _ => rfl, rfl, rfl, rfl, rfl⟩
  case legal =>
    exact ⟨exec_of_controls (.setIdCb en) hp hw, exec_of_controls .dbgEn hp hw,
      exec_of_controls .dbgDis hp hw, exec_of_controls .errEn hp hw,
      exec_of_controls .errDis hp hw⟩
  case refused =>
    simp only [List.mem_cons, List.not_mem_nil, or_false] at hi
    rcases hi with rfl | rfl | rfl | rfl | rfl | rfl <;> exact control_refused hbad _

end Sys2Proof.Machine
end

section
/-! PROOF. The forms of the operations that write no state: a generator answers its value, an
accessor goes through `accessor`, a query through `query` (40_generators.md R108; 49_accessors.md
R300, R329). -/

namespace Sys2Proof.Machine

theorem exec_of_generator {i : Instr} (h : opClass i = .generator) (s : State) :
    ∃ r, exec i s = .next (s.answer r) := by
  cases i with
  | xor8Upd _ _ | crc24qUpd _ _ | fl8Upd _ _ _ | ccitt16Upd _ _ | crc32rUpd _ _ | spCrc4Upd _ _
  | spCrc8Upd _ _ | spCrc16Upd _ _ | spCrc24Upd _ _ | spCrc32Upd _ _ => exact ⟨_, rfl⟩
  | _ => cases h

/-- Every instruction of the reader row is one of the two forms of Machine/Operands.lean. -/
theorem exec_of_reader {i : Instr} (h : opClass i = .reader) :
    (∃ value, exec i = (accessor · value)) ∨ ∃ k value, exec i = (query k · value) := by
  cases i with
  | getU8 _ | getU16 _ | getU32 _ | getU64 _ | getI8 _ | getI16 _ | getI32 _ | getI64 _ | getF32 _
  | getF64 _ | getStr _ | getU8No _ | getU16No _ | getU32No _ | getU64No _ | getI8No _ | getI16No _
  | getI32No _ | getI64No _ | getF32No _ | getF64No _ | getStrNo _ => exact .inl ⟨_, rfl⟩
  | nmeaName | uhashName | rtcmMsgId | rtcmGetU _ _ | rtcmGetS _ _ | ubxClass | ubxId | ubxNum
  | sbfId | sbfRev | sbfIsNmea | sbfIsRtcm | sbfEncPtr | sbfEncLen | spartnType | spartnSubtype =>
    exact .inr ⟨_, _, rfl⟩
  | _ => cases h

/-- Settles O16: a generator answers (`exec_of_generator`), and each of the two forms of a reader
(`exec_of_reader`) changes the result alone. -/
theorem readOnlyOps : Obligations.ReadOnlyOps := by
  intro i s t hclass h
  rcases hclass with hgen | hread
  · obtain ⟨r, hr⟩ := exec_of_generator hgen s
    cases hr.symm.trans h
    rfl
  · rcases exec_of_reader hread with ⟨value, hform⟩ | ⟨k, value, hform⟩
    · exact accessor_readOnly (hform ▸ h)
    · exact query_readOnly (hform ▸ h)

/-- A window that shows a ParseState is one in which the frame may be read. -/
theorem State.Shows.readable {s : State} {p : ParseState} (h : s.Shows p) : s.readable = some p :=
  State.readable_of_window h.2 h.1

/-- Settles O57: each row's instruction is a `query` of the row's kind, so the three clauses are
`query_otherKind`, `query_refused` and `query_readOnly`. -/
theorem wrongKindRefused : Obligations.WrongKindRefused := by
  intro start width s p k row hrow
  have hform : ∃ value, exec row.1 = (query row.2 · value) := by
    simp only [List.mem_cons, List.not_mem_nil, or_false] at hrow
    rcases hrow with rfl | rfl | rfl | rfl | rfl | rfl | rfl | rfl | rfl | rfl | rfl | rfl | rfl |
      rfl | rfl | rfl <;> exact ⟨_, rfl⟩
  obtain ⟨value, hform⟩ := hform
  rw [hform]
  exact ⟨fun hs hk hne => query_otherKind hs.readable hk hne value,
    fun hw => query_refused (State.readable_none hw) row.2 value, fun _ => query_readOnly⟩

end Sys2Proof.Machine
end

section
/-! PROOF. The payload accessors in a window: the bytes of the frame slice that one reads, their
little-endian value, and the string that a zero byte ends (49_accessors.md R300 to R304, R309 to
R312). -/

namespace Sys2Proof.Machine

/-! ### The bytes of the frame slice -/

/-- The `n` bytes of the buffer from `a` on; one that has no value stands as 0. -/
def ParseState.bytesFrom (p : ParseState) (a n : Nat) : List Byte :=
  (List.range n).map fun i => (p.buffer.read (a + i)).getD 0

@[simp] theorem ParseState.length_bytesFrom (p : ParseState) (a n : Nat) :
    (p.bytesFrom a n).length = n := by
  simp [ParseState.bytesFrom]

theorem ParseState.getElem_bytesFrom (p : ParseState) {a n i : Nat}
    (hi : i < (p.bytesFrom a n).length) :
    (p.bytesFrom a n)[i] = (p.buffer.read (a + i)).getD 0 := by
  simp [ParseState.bytesFrom]

theorem ParseState.take_bytesFrom (p : ParseState) (a : Nat) {m n : Nat} (h : m ≤ n) :
    (p.bytesFrom a n).take m = p.bytesFrom a m := by
  rw [ParseState.bytesFrom, ← List.map_take, List.take_range, Nat.min_eq_left h,
    ParseState.bytesFrom]

/-- A stored byte, by its value. -/
theorem ParseState.Inv.read_eq {p : ParseState} (h : p.Inv) {i : Nat} (hi : i < p.length) :
    p.buffer.read i = some ((p.buffer.read i).getD 0) := by
  obtain ⟨b, hb⟩ := Option.isSome_iff_exists.mp (h.filled i hi)
  rw [hb, Option.getD_some]

/-- Inside the frame slice every byte has a value (10_state.md R14), so a slice of it is read. -/
theorem ParseState.Inv.slice_eq {p : ParseState} (h : p.Inv) {a b : Nat} (hb : b ≤ p.length) :
    p.slice a b = .ok (p.bytesFrom a (b - a)) := by
  refine ParseState.slice_eq_ok.mpr ⟨p.length_bytesFrom a (b - a), fun j hj => ?_⟩
  rw [h.read_eq (by omega), List.getElem?_eq_getElem (by simpa using hj), p.getElem_bytesFrom]

/-- An access in full: refused past the frame slice, otherwise the bytes from `ea` on
(49_accessors.md R300 items 3, 4 and 6). -/
theorem ParseState.Inv.access_eq {p : ParseState} (h : p.Inv) {k : Kind}
    (hk : p.table[p.active]? = some k) (raw : Bool) (offset : LenWord) (n : Nat)
    (form : List Byte → Result) :
    let ea := (if raw then 0 else payloadOffset k) + offset.toNat
    p.access raw offset n form =
      .ok (if p.length < ea + n then .refused else form (p.bytesFrom ea n)) := by
  intro ea
  have hbase := ParseState.base_eq hk raw
  split_ifs with hfit
  · exact ParseState.access_refused hbase hfit form
  · have hslice := h.slice_eq (a := ea) (b := ea + n) (by omega)
    rw [Nat.add_sub_cancel_left] at hslice
    simp only [ParseState.access, hbase]
    rw [if_neg hfit, hslice]

theorem leNat_bytesFrom (p : ParseState) (a n : Nat) :
    leNat (p.bytesFrom a n) =
      ((List.range n).map fun i => ((p.buffer.read (a + i)).getD 0).toNat * 2 ^ (8 * i)).sum := by
  rw [leNat_eq_sum, ParseState.bytesFrom, List.length_map, List.length_range]
  congr 1
  refine List.map_congr_left fun i hi => ?_
  simp [List.mem_range.mp hi, Nat.pow_mul]

/-! ### The unsigned and raw-bit accessors -/

/-- An accessor in a window that shows `p`, where its value does not stop. -/
theorem accessor_answers {s : State} {p : ParseState} {value : ParseState → Except Fault Result}
    {r : Result} (hs : s.Shows p) (h : value p = .ok r) :
    accessor s value = .next (s.answer r) := by
  rw [accessor_readable hs.readable, h, State.deliverResult]

/-- Settles O47: each row's instruction is an `access` of the row's width read as bits, which is
`ParseState.Inv.access_eq` with the little-endian sum of `leNat_bytesFrom`. -/
theorem unsignedAccessors : Obligations.UnsignedAccessors := by
  intro row hrow code instr raw n s p k offset hs hi hk ea value
  have hform : (encode (instr offset)).bytes.head? = some code ∧
      exec (instr offset) = (accessor · (·.access raw offset n (asBits (8 * n)))) := by
    simp only [List.mem_cons, List.not_mem_nil, or_false] at hrow
    rcases hrow with rfl | rfl | rfl | rfl | rfl | rfl | rfl | rfl | rfl | rfl | rfl | rfl <;>
      exact ⟨rfl, rfl⟩
  obtain ⟨hcode, hexec⟩ := hform
  have hvalue : asBits (8 * n) (p.bytesFrom ea n) = .bits (8 * n) (BitVec.ofNat (8 * n) value) := by
    rw [asBits, memValue, leNat_bytesFrom]
  refine ⟨hcode, ?_⟩
  rw [hexec, ← hvalue]
  exact accessor_answers hs (hi.access_eq hk raw offset n _)

/-! ### The string accessors -/

/-- `untilNul` takes the bytes before the least index that is the end or holds 0. -/
theorem untilNul_eq_take (bs : List Byte) :
    ∃ m ≤ bs.length, untilNul bs = bs.take m ∧ (∀ hm : m < bs.length, bs[m] = 0) ∧
      ∀ i < m, ∀ hi : i < bs.length, bs[i] ≠ 0 := by
  refine ⟨bs.findIdx fun b => !(b != 0), List.findIdx_le_length,
    List.takeWhile_eq_take_findIdx_not, fun hm => ?_, fun i hi _ => ?_⟩
  · simpa using List.findIdx_getElem (w := hm)
  · simpa using List.not_of_lt_findIdx hi

theorem untilNul_bytesFrom (p : ParseState) (a n : Nat) :
    ∃ m ≤ n, untilNul (p.bytesFrom a n) = p.bytesFrom a m ∧
      (m < n → (p.buffer.read (a + m)).getD 0 = 0) ∧
      ∀ i < m, (p.buffer.read (a + i)).getD 0 ≠ 0 := by
  obtain ⟨m, hm, htake, hnul, hother⟩ := untilNul_eq_take (p.bytesFrom a n)
  simp only [p.length_bytesFrom, p.getElem_bytesFrom] at hm hnul hother
  exact ⟨m, hm, htake.trans (p.take_bytesFrom a hm), hnul,
    fun i hi => hother i hi (Nat.lt_of_lt_of_le hi hm)⟩

/-- A string access inside the frame slice (49_accessors.md R311). -/
theorem ParseState.Inv.accessStr_eq {p : ParseState} (h : p.Inv) {raw : Bool} {base : Nat}
    {offset : LenWord} (hb : p.base raw = .ok base) :
    p.accessStr raw offset =
      .ok (if p.length ≤ base + offset.toNat then .refused
        else .bytes (untilNul (p.bytesFrom (base + offset.toNat)
          (p.length - (base + offset.toNat))))) := by
  simp only [ParseState.accessStr, hb, h.slice_eq (le_refl _)]
  split_ifs <;> rfl

/-- Settles O49: each row's instruction is an `accessStr`, and the end of the string is the index
that `untilNul_bytesFrom` gives. -/
theorem stringAccessors : Obligations.StringAccessors := by
  intro row hrow code instr raw s p k offset hs hi hk ea
  have hform : (encode (instr offset)).bytes.head? = some code ∧
      exec (instr offset) = (accessor · (·.accessStr raw offset)) := by
    simp only [List.mem_cons, List.not_mem_nil, or_false] at hrow
    rcases hrow with rfl | rfl <;> exact ⟨rfl, rfl⟩
  obtain ⟨hcode, hexec⟩ := hform
  have hvalue := hi.accessStr_eq (offset := offset) (ParseState.base_eq hk raw)
  rw [hexec]
  refine ⟨hcode, fun hpast => ?_, fun hin => ?_⟩
  · exact accessor_answers hs (hvalue.trans (by rw [if_pos hpast]))
  · obtain ⟨m, hm, htake, hnul, hother⟩ := untilNul_bytesFrom p ea (p.length - ea)
    refine ⟨ea + m, by omega, by omega, ?_, fun i hle hlt hzero => ?_, ?_⟩
    · rcases Nat.lt_or_ge m (p.length - ea) with hlt | hge
      · exact .inr (by rw [hi.read_eq (by omega), hnul hlt])
      · exact .inl (by omega)
    · refine hother (i - ea) (by omega) ?_
      rw [Nat.add_sub_cancel' hle, hzero, Option.getD_some]
    · rw [Nat.add_sub_cancel_left]
      refine accessor_answers hs (hvalue.trans ?_)
      rw [if_neg (by omega), htake, ParseState.bytesFrom]

end Sys2Proof.Machine
end

section
/-! PROOF. The queries in a window that shows a frame of their kind: each answers from the frame's
record, and the SBF queries also from the frame's bytes 14, 16 and 17 (49_accessors.md R313, R314,
R318 to R328). -/

namespace Sys2Proof.Machine

/-- A query in a window that shows a frame of its kind, where its value does not stop. -/
theorem query_answers {s : State} {p : ParseState} {k : Kind} {record : Scratch}
    {value : ParseState → Scratch → Except Fault Result} {r : Result} (hs : s.Shows p)
    (hk : p.table[p.active]? = some k) (hsp : p.sp = some record) (h : value p record = .ok r) :
    query k s value = .next (s.answer r) := by
  rw [query_value hs.readable hk hsp, h, State.deliverResult]

/-- Settles O51: both names are read from the record (`query_answers`). -/
theorem textNames : Obligations.TextNames := fun _ _ hs =>
  ⟨fun _ hk hsp => query_answers hs hk hsp rfl, fun _ hk hsp => query_answers hs hk hsp rfl,
    rfl, rfl⟩

/-- One byte above another, as a shift and an or (49_accessors.md R320). -/
theorem byte_append_eq_or (hi lo : Byte) :
    hi ++ lo = (hi.setWidth 16 <<< 8) ||| lo.setWidth 16 := by
  rw [BitVec.append_def, BitVec.shiftLeftZeroExtend_eq, BitVec.setWidth'_eq]

/-- Settles O54: class and id are read from the record (`query_answers`); the two appended are the
statement's shift and or (`byte_append_eq_or`). -/
theorem ubxQueries : Obligations.UbxQueries := by
  intro s p r hs hk hsp
  refine ⟨query_answers hs hk hsp rfl, query_answers hs hk hsp rfl, ?_, rfl, rfl, rfl⟩
  rw [← byte_append_eq_or]
  exact query_answers hs hk hsp rfl

/-- Settles O56: both fields are read from the record (`query_answers`). -/
theorem spartnQueries : Obligations.SpartnQueries := fun _ _ _ hs hk hsp =>
  ⟨query_answers hs hk hsp rfl, query_answers hs hk hsp rfl, rfl, rfl⟩

/-! ### The SBF queries that read the frame -/

/-- The encapsulation test: byte 14 is looked at only in a frame that has it, and there it has a
value (49_accessors.md R323, R324). -/
theorem sbfEncapsulates_eq {p : ParseState} (h : p.Inv) (r : SbfRec) (code : Byte) :
    sbfEncapsulates p r code =
      .ok (.bit
        (decide (r.blockId = 4097 ∧ 14 < p.length ∧ p.buffer.read 14 = some code))) := by
  unfold sbfEncapsulates sbfEncapsulation
  split_ifs with hc
  · obtain ⟨hid, hlen⟩ := hc
    have hread := h.read_eq hlen
    rw [ParseState.byteAt_of_read hread, hread]
    simp [hid, hlen, beq_eq_decide]
  · simp only [← and_assoc, hc, false_and, decide_false]

theorem leNat_bytesFrom_two (p : ParseState) (a : Nat) :
    leNat (p.bytesFrom a 2) =
      ((p.buffer.read a).getD 0).toNat + ((p.buffer.read (a + 1)).getD 0).toNat * 2 ^ 8 := by
  rw [leNat_bytesFrom]
  simp [List.range_succ]

/-- Settles O55: each query answers from the record (`query_answers`); the encapsulation tests are
`sbfEncapsulates_eq`, and the length is the slice of bytes 16 and 17. -/
theorem sbfQueries : Obligations.SbfQueries := by
  intro s p r hs hi hk hsp
  refine ⟨query_answers hs hk hsp rfl, query_answers hs hk hsp rfl,
    query_answers hs hk hsp (sbfEncapsulates_eq hi r 4),
    query_answers hs hk hsp (sbfEncapsulates_eq hi r 2), query_answers hs hk hsp ?pointer,
    query_answers hs hk hsp ?length, rfl, rfl, rfl, rfl, rfl, rfl⟩
  case pointer => exact (apply_ite Except.ok _ _ _).symm
  case length =>
    by_cases hshort : r.blockId ≠ 4097 ∨ p.length < 18
    · exact (if_pos hshort).trans (congrArg Except.ok (if_pos hshort).symm)
    · refine (if_neg hshort).trans ?_
      rw [if_neg hshort, hi.slice_eq (by omega), ← leNat_bytesFrom_two]
      rfl

end Sys2Proof.Machine
end

section
/-! PROOF. Where the legality table refuses an instruction, and what a reader answers in a state of
the invariant (41_dispatch.md R140; 49_accessors.md R300, R316, R329). -/

namespace Sys2Proof.Machine

/-! ### Refusals -/

/-- Where the table refuses the readers there is no frame to read. -/
theorem State.readable_of_not_allowed {s : State} (h : s.allows .reader = false) :
    s.readable = none := by
  rw [State.allows, Bool.and_eq_false_iff] at h
  cases hw : s.window with
  | none => exact State.readable_none (.inl hw)
  | inInvalid _ => exact State.readable_none (.inr ⟨_, hw⟩)
  | inEom _ | inBadCrc _ _ =>
    have hp : s.parse = none := by simpa [State.configured, hw] using h
    simp [State.readable, hw, hp]

/-- Where the table refuses PUSH and the control operations. -/
theorem State.of_not_running {s : State}
    (h : (s.configured && decide (s.window = .none)) = false) :
    s.parse = none ∨ s.window ≠ .none := by
  rcases Bool.and_eq_false_iff.mp h with hp | hw
  · exact .inl (Option.not_isSome_iff_eq_none.mp (Bool.eq_false_iff.mp hp))
  · exact .inr (of_decide_eq_false hw)

theorem exec_reader_refused {i : Instr} {s : State} (hc : opClass i = .reader)
    (h : s.readable = none) : exec i s = .next s.refuse := by
  rcases exec_of_reader hc with ⟨value, hform⟩ | ⟨k, value, hform⟩
  · exact (congrFun hform s).trans (accessor_refused h value)
  · exact (congrFun hform s).trans (query_refused h k value)

/-- An instruction that the legality table refuses changes the result alone
(41_dispatch.md R140). -/
theorem exec_of_not_allowed {i : Instr} {s : State} (h : s.allows (opClass i) = false) :
    exec i s = .next s.refuse := by
  cases i with
  | beginParser _ | stop => exact if_neg (of_decide_eq_false h)
  | setIdCb _ | dbgEn | dbgDis | errEn | errDis => exact control_refused (State.of_not_running h) _
  | push _ | pushN _ | frameNmea _ | frameUhash _ | frameRtcm _ _ | frameUbx _ _ _ _
  | frameSbf _ _ _ _ _ | frameSpartn _ _ _ _ _ _ | frameUbin _ _ _ _ _ =>
    exact pushOctets_refused _ (State.of_not_running h)
  | xor8Upd _ _ | crc24qUpd _ _ | fl8Upd _ _ _ | ccitt16Upd _ _ | crc32rUpd _ _ | spCrc4Upd _ _
  | spCrc8Upd _ _ | spCrc16Upd _ _ | spCrc24Upd _ _ | spCrc32Upd _ _ => cases h
  | _ => exact exec_reader_refused rfl (State.readable_of_not_allowed h)

/-! ### Readers -/

/-- What a reader may rely on in a state of the invariant: the frame it reads has an active entry,
and the scratch record is of that entry's kind (49_accessors.md R300 item 1). -/
theorem State.Inv.readable {s : State} (h : s.Inv) {p : ParseState} (hr : s.readable = some p) :
    p.Inv ∧ ∃ k r, p.table[p.active]? = some k ∧ p.sp = some r ∧ r.kind = k := by
  have hwindow : s.parse = some p ∧ ∃ k, p.table[p.active]? = some k := by
    unfold State.readable at hr
    split at hr
    case h_1 text hw =>
      obtain ⟨-, hfits⟩ := h.parseOk p hr
      rw [hw] at hfits
      obtain ⟨k, hk, -⟩ := hfits
      exact ⟨hr, k, hk⟩
    case h_2 b text hw =>
      obtain ⟨-, hfits⟩ := h.parseOk p hr
      rw [hw] at hfits
      obtain ⟨-, -, -, k, hk, -⟩ := hfits
      exact ⟨hr, k, hk⟩
    all_goals cases hr
  obtain ⟨hp, k, hk⟩ := hwindow
  obtain ⟨hinv, -⟩ := h.parseOk p hp
  obtain ⟨k', ⟨hk', -⟩, -, -, -, hsp⟩ := hinv.latched (List.getElem?_eq_some_iff.mp hk).1
  obtain ⟨r, hsp, hkind⟩ := Option.map_eq_some_iff.mp hsp
  exact ⟨hinv, k', r, hk', hsp, hkind⟩

/-- An accessor answers in every state of the invariant, if its value does not stop on an active
frame. -/
theorem State.Inv.accessor_answers {s : State} (h : s.Inv)
    {value : ParseState → Except Fault Result}
    (hv : ∀ p k, p.Inv → p.table[p.active]? = some k → ∃ r, value p = .ok r) :
    ∃ r, accessor s value = .next (s.answer r) := by
  cases hs : s.readable with
  | none => exact ⟨.refused, accessor_refused hs value⟩
  | some p =>
    obtain ⟨hp, k, -, hk, -, -⟩ := h.readable hs
    obtain ⟨r, hr⟩ := hv p k hp hk
    exact ⟨r, by rw [accessor_readable hs, hr, State.deliverResult]⟩

/-- A query answers in every state of the invariant, if its value does not stop on a record of its
kind. -/
theorem State.Inv.query_answers {s : State} (h : s.Inv) {k : Kind}
    {value : ParseState → Scratch → Except Fault Result}
    (hv : ∀ p record, p.Inv → record.kind = k → ∃ r, value p record = .ok r) :
    ∃ r, query k s value = .next (s.answer r) := by
  cases hs : s.readable with
  | none => exact ⟨.refused, query_refused hs k value⟩
  | some p =>
    obtain ⟨hp, k', record, hk', hsp, hkind⟩ := h.readable hs
    by_cases hsame : k' = k
    · subst hsame
      obtain ⟨r, hr⟩ := hv p record hp hkind
      exact ⟨r, by rw [query_value hs hk' hsp, hr, State.deliverResult]⟩
    · exact ⟨.refused, query_otherKind hs hk' hsame value⟩

theorem State.Inv.access_answers {s : State} (h : s.Inv) (raw : Bool) (offset : LenWord) (n : Nat)
    (form : List Byte → Result) :
    ∃ r, accessor s (·.access raw offset n form) = .next (s.answer r) :=
  h.accessor_answers fun _ _ hp hk => ⟨_, hp.access_eq hk raw offset n form⟩

theorem State.Inv.accessStr_answers {s : State} (h : s.Inv) (raw : Bool) (offset : LenWord) :
    ∃ r, accessor s (·.accessStr raw offset) = .next (s.answer r) :=
  h.accessor_answers fun _ _ hp hk => ⟨_, hp.accessStr_eq (ParseState.base_eq hk raw)⟩

/-- A payload bit inside the frame slice has a value (49_accessors.md R316). -/
theorem ParseState.Inv.payloadBit_answers {p : ParseState} (h : p.Inv) {k : Nat}
    (hk : 24 + k < 8 * p.length) : ∃ bit, p.payloadBit k = .ok bit :=
  ⟨_, by rw [ParseState.payloadBit, ParseState.byteAt_of_read (h.read_eq (by omega))]⟩

theorem ParseState.Inv.bitField_answers {p : ParseState} (h : p.Inv) {start width : Nat}
    (hfit : 24 + start + width ≤ 8 * p.length) (v : BitVec 64) :
    ∃ field, p.bitField start width v = .ok field := by
  induction width generalizing start v with
  | zero => exact ⟨v, rfl⟩
  | succ width ih =>
    obtain ⟨bit, hbit⟩ := h.payloadBit_answers (k := start) (by omega)
    simp only [ParseState.bitField, hbit]
    exact ih (by omega) _

theorem ParseState.Inv.rtcmField_answers {p : ParseState} (h : p.Inv) (start width : Nat)
    (form : BitVec 64 → Result) : ∃ r, p.rtcmField start width form = .ok r := by
  unfold ParseState.rtcmField
  split_ifs with hout
  · exact ⟨_, rfl⟩
  · obtain ⟨field, hfield⟩ := h.bitField_answers (start := start) (width := width) (by omega) 0
    exact ⟨form field, by rw [hfield]⟩

/-- In a state of the invariant every reader answers, and writes the result alone. -/
theorem State.Inv.reader_answers {s : State} (h : s.Inv) {i : Instr} (hc : opClass i = .reader) :
    ∃ r, exec i s = .next (s.answer r) := by
  cases i with
  | getStr offset | getStrNo offset => exact h.accessStr_answers _ offset
  | getU8 offset | getU16 offset | getU32 offset | getU64 offset | getI8 offset | getI16 offset
  | getI32 offset | getI64 offset | getF32 offset | getF64 offset | getU8No offset
  | getU16No offset | getU32No offset | getU64No offset | getI8No offset | getI16No offset
  | getI32No offset | getI64No offset | getF32No offset | getF64No offset =>
    exact h.access_answers _ offset _ _
  | nmeaName => exact h.query_answers fun | _, .nmea _, _, _ => ⟨_, rfl⟩
  | uhashName => exact h.query_answers fun | _, .uhash _, _, _ => ⟨_, rfl⟩
  | rtcmMsgId => exact h.query_answers fun | _, .rtcm _, _, _ => ⟨_, rfl⟩
  | rtcmGetU start width | rtcmGetS start width =>
    exact h.query_answers fun _ _ hp _ => hp.rtcmField_answers start.toNat width.toNat _
  | ubxClass | ubxId | ubxNum => exact h.query_answers fun | _, .ubx _, _, _ => ⟨_, rfl⟩
  | sbfId | sbfRev => exact h.query_answers fun | _, .sbf _, _, _ => ⟨_, rfl⟩
  | sbfIsNmea | sbfIsRtcm =>
    exact h.query_answers fun | _, .sbf r, hp, _ => ⟨_, sbfEncapsulates_eq hp r _⟩
  | sbfEncPtr =>
    exact h.query_answers fun | _, .sbf _, _, _ => ⟨_, (apply_ite Except.ok _ _ _).symm⟩
  | sbfEncLen =>
    refine h.query_answers fun | p, .sbf r, hp, _ => ?_
    by_cases hshort : r.blockId ≠ sbfEncapsulation ∨ p.length < 18
    · exact ⟨_, if_pos hshort⟩
    · exact ⟨_, (if_neg hshort).trans (by rw [hp.slice_eq (by omega)])⟩
  | spartnType | spartnSubtype => exact h.query_answers fun | _, .spartn _, _, _ => ⟨_, rfl⟩
  | _ => cases hc

end Sys2Proof.Machine
end

section
/-! PROOF. What the machine does inside a window and unconfigured (10_state.md section 7;
70_reset_and_hazards.md R380, R385, R387). -/

namespace Sys2Proof.Machine

/-- Settles O17: a generator and a reader answer (`exec_of_generator`, `State.Inv.reader_answers`),
and inside a window the legality table refuses every other row (`exec_of_not_allowed`). -/
theorem windowLocksState : Obligations.WindowLocksState := by
  intro i s hw h
  have hrefused (hnot : s.allows (opClass i) = false) :
      ∃ r, exec i s = .next { s with result := r } ∧
        (opClass i ≠ .generator → opClass i ≠ .reader → r = .refused) :=
    ⟨.refused, exec_of_not_allowed hnot, fun _ _ => rfl⟩
  cases hc : opClass i with
  | generator =>
    obtain ⟨r, hr⟩ := exec_of_generator hc s
    exact ⟨r, hr, fun hne => absurd rfl hne⟩
  | reader =>
    obtain ⟨r, hr⟩ := h.reader_answers hc
    exact ⟨r, hr, fun _ hne => absurd rfl hne⟩
  | begins | stop | push | control =>
    rw [hc] at hrefused
    exact hrefused (by simp [State.allows, hw])

/-- A BEGIN that answers `error` leaves no ParseState and no window (41_dispatch.md R122). -/
theorem exec_begin_error {a : BeginArgs} {s t : State} (h : exec (.beginParser a) s = .next t)
    (he : t.result = .error) : t.parse = none ∧ t.window = .none := by
  by_cases hw : s.window = .none
  · by_cases hfails : (a.table = [] ∨ a.eomPresent = false) ∨ parseArea a.table a.buffer = none
    · cases (exec_begin_fails hw hfails).symm.trans h
      exact ⟨rfl, hw⟩
    · simp only [not_or, Bool.not_eq_false] at hfails
      obtain ⟨⟨htable, heom⟩, harea⟩ := hfails
      obtain ⟨n, hn⟩ := Option.ne_none_iff_exists'.mp harea
      cases (exec_begin_builds hw htable heom hn).symm.trans h
      cases he
  · have hnot : s.allows (opClass (.beginParser a)) = false := decide_eq_false hw
    cases (exec_of_not_allowed hnot).symm.trans h
    cases he

/-- Settles O32: reset by its definition, STOP by `exec_stop_legal`, a failed BEGIN by
`exec_begin_error`; in an unconfigured core with no window STOP finds nothing to take away, and the
legality table refuses every other row (`exec_of_not_allowed`). -/
theorem powerOnReset : Obligations.PowerOnReset := by
  refine ⟨rfl, rfl, rfl, rfl, fun s t hw h => ?stop, fun _ _ _ => exec_begin_error,
    fun i s hp hw hbegins hgen => ?idle⟩
  case stop =>
    cases (exec_stop_legal hw).symm.trans h
    exact ⟨rfl, hw⟩
  case idle =>
    have hrefused (hnot : s.allows (opClass i) = false) :
        ∃ r, exec i s = .next { s with result := r } :=
      ⟨.refused, exec_of_not_allowed hnot⟩
    cases hc : opClass i with
    | begins => exact absurd hc hbegins
    | generator => exact absurd hc hgen
    | stop =>
      cases i with
      | stop => exact ⟨.nothing, by rw [exec_stop_legal hw, ← hp]⟩
      | _ => cases hc
    | push | control | reader =>
      rw [hc] at hrefused
      exact hrefused (by simp [State.allows, State.configured, hp])

end Sys2Proof.Machine
end

section
/-! PROOF. The bad-CRC query and the core that cannot ask it: where the byte step raises BAD_CRC,
the same step without the callback fails the frame, which is what the host's answer `false` makes of it
(60_exceptions.md R354, R356; 70_reset_and_hazards.md R387). -/

namespace Sys2Proof.Machine

/-! ### A core without the bad-CRC callback -/

/-- The ParseState of a core whose host has registered no bad-CRC callback. -/
def ParseState.unasked (p : ParseState) : ParseState := { p with badCrcEn := false }

@[simp] theorem ParseState.unasked_state (p : ParseState) : p.unasked.state = p.state := rfl
@[simp] theorem ParseState.unasked_table (p : ParseState) : p.unasked.table = p.table := rfl
@[simp] theorem ParseState.unasked_length (p : ParseState) : p.unasked.length = p.length := rfl
@[simp] theorem ParseState.unasked_crc (p : ParseState) : p.unasked.crc = p.crc := rfl
@[simp] theorem ParseState.unasked_sp (p : ParseState) : p.unasked.sp = p.sp := rfl
@[simp] theorem ParseState.unasked_invalidEn (p : ParseState) :
    p.unasked.invalidEn = p.invalidEn := rfl
@[simp] theorem ParseState.unasked_byteAt (p : ParseState) (i : Nat) :
    p.unasked.byteAt i = p.byteAt i := rfl
@[simp] theorem ParseState.unasked_slice (p : ParseState) (i j : Nat) :
    p.unasked.slice i j = p.slice i j := rfl
@[simp] theorem ParseState.unasked_setSp (p : ParseState) (r : Scratch) :
    p.unasked.setSp r = (p.setSp r).unasked := rfl

theorem ParseState.unasked_asked {p q : ParseState} (h : q = p.unasked)
    (hen : p.badCrcEn = true) : { q with badCrcEn := true } = p := by
  rw [h, ← hen]
  rfl

/-- The turn of a core without the bad-CRC callback. -/
def Turn.unasked (t : Turn) : Turn := ⟨t.p.unasked, t.raised⟩

/-- `FIRST_BYTE` does not look at the bad-CRC callback (41_dispatch.md R126). -/
theorem firstByte_unasked (p : ParseState) (b : Byte) :
    firstByte p.unasked b = (firstByte p b).map Turn.unasked := by
  unfold firstByte
  rw [ParseState.unasked_table, ParseState.unasked_invalidEn]
  split
  · rfl
  · split_ifs <;> rfl

/-- FAIL does not look at the bad-CRC callback (60_exceptions.md R352). -/
theorem fail_unasked (c : Cause) (p : ParseState) (b : Byte) :
    fail c p.unasked b = (fail c p b).map Turn.unasked := by
  unfold fail
  rw [ParseState.unasked_invalidEn, ParseState.unasked_length, ParseState.unasked_slice]
  split_ifs
  · split <;> rfl
  · exact firstByte_unasked p b

/-! ### Procedures that ask nothing -/

/-- The turn does not wait for the host's answer to BAD_CRC. -/
def AsksNothing (t : Turn) : Prop := ∀ e b text, t.raised ≠ some (e, .inBadCrc b text)

section
variable {p q : ParseState} {b : Byte}

theorem quiet_asksNothing : Ends (quiet q) AsksNothing := .quiet nofun

theorem firstByte_asksNothing : Ends (firstByte q b) AsksNothing := by
  unfold firstByte
  split
  · exact quiet_asksNothing
  · exact .ite (fun _ => .raise nofun) fun _ => quiet_asksNothing

theorem fail_asksNothing {c : Cause} : Ends (fail c q b) AsksNothing := by
  refine .ite (fun _ => ?_) fun _ => firstByte_asksNothing
  split
  · exact .raise nofun
  · exact .error _

theorem failTooLong_asksNothing : Ends (failTooLong q b) AsksNothing := by
  refine .ite (fun _ => ?_) fun _ => firstByte_asksNothing
  split
  · exact .raise nofun
  · exact .error _

theorem deliver_asksNothing : Ends (deliver q) AsksNothing := by
  unfold deliver
  split
  · exact .raise nofun
  · exact .error _

theorem textDeliver_asksNothing : Ends (textDeliver q b) AsksNothing := by
  refine .ite (fun _ => fail_asksNothing) fun _ => ?_
  split
  · exact .raise nofun
  · exact .error _

theorem complete_asksNothing {text : Bool} : Ends (complete text q b) AsksNothing :=
  .ite (fun _ => textDeliver_asksNothing) fun _ => deliver_asksNothing

theorem rtcmContinue_asksNothing {r : RtcmRec} {next : PState} :
    Ends (rtcmContinue q r next) AsksNothing :=
  .ite (fun _ => quiet_asksNothing) fun _ => quiet_asksNothing

/-- SBF never consults the bad-CRC callback (45_sbf.md R220). -/
theorem sbfFinish_asksNothing {r : SbfRec} : Ends (sbfFinish q r b) AsksNothing :=
  .ite (fun _ => deliver_asksNothing) fun _ => fail_asksNothing

theorem uhashComma_asksNothing {r : UhashRec} : Ends (uhashComma q r b) AsksNothing := by
  refine .ite (fun _ => ?_) fun _ => quiet_asksNothing
  split
  · exact quiet_asksNothing
  · exact .error _

theorem spartnHdr3Step_asksNothing : Ends (spartnHdr3Step q b) AsksNothing := by
  refine .withSpartn fun _ _ => .ite (fun _ => quiet_asksNothing) fun _ =>
    .ite (fun _ => quiet_asksNothing) fun _ => ?_
  split
  · exact .ite (fun _ => quiet_asksNothing) fun _ => fail_asksNothing
  all_goals exact .error _

theorem ubinReadHeaderStep_asksNothing : Ends (ubinReadHeaderStep q b) AsksNothing := by
  refine .withUbin fun _ _ => .ite (fun _ => ?_) fun _ => quiet_asksNothing
  split
  · exact .ite (fun _ => quiet_asksNothing) fun _ => quiet_asksNothing
  all_goals exact .error _

/-! ### Where a question is asked -/

/-- Wherever `x` asks the host about the frame of `p`, `x'` fails that frame by its checksum. -/
def AsksOrFails (p : ParseState) (x x' : Except Fault Turn) : Prop :=
  ∀ q e b text, x = .ok ⟨q, some (e, .inBadCrc b text)⟩ →
    e = .badCrc p.active ∧ x' = fail .checksum q.unasked b

section
variable {x x' y y' : Except Fault Turn}

theorem Ends.asksOrFails (h : Ends x AsksNothing) : AsksOrFails p x x' :=
  fun _ e b text hx => absurd rfl (h _ hx e b text)

theorem AsksOrFails.ite {c : Prop} [Decidable c] (hx : AsksOrFails p x x')
    (hy : AsksOrFails p y y') : AsksOrFails p (if c then x else y) (if c then x' else y') := by
  split_ifs
  · exact hx
  · exact hy

/-- SOFT_CRC is the one procedure that asks (60_exceptions.md R354, R356). -/
theorem conclude_asksOrFails {good text : Bool} (ha : q.active = p.active) :
    AsksOrFails p (conclude good text q b) (conclude good text q.unasked b) := by
  refine .ite complete_asksNothing.asksOrFails ?_
  by_cases hen : q.badCrcEn = true
  · intro q' e b' text' h
    have hask : softCrc text q b = raise q (.badCrc q.active) (.inBadCrc b text) := if_pos hen
    cases hask.symm.trans h
    exact ⟨by rw [ha], rfl⟩
  · have hfail : softCrc text q b = fail .checksum q b := if_neg hen
    rw [hfail]
    exact fail_asksNothing.asksOrFails

/-! ### The six states that give a verdict -/

theorem nmeaChecksumLoStep_asksOrFails :
    AsksOrFails p (nmeaChecksumLoStep p b) (nmeaChecksumLoStep p.unasked b) := by
  refine .ite ?_ fail_asksNothing.asksOrFails
  simp only [ParseState.unasked_length, ParseState.unasked_byteAt, ParseState.unasked_crc]
  split
  · exact (Ends.error _).asksOrFails
  split
  · exact (Ends.error _).asksOrFails
  · exact conclude_asksOrFails rfl

theorem rtcmCrcStep_asksOrFails :
    AsksOrFails p (rtcmCrcStep p b) (rtcmCrcStep p.unasked b) := by
  unfold rtcmCrcStep withRtcm
  rw [ParseState.unasked_sp]
  split
  · exact .ite (conclude_asksOrFails rfl) quiet_asksNothing.asksOrFails
  · exact (Ends.error _).asksOrFails

theorem ubxCkBStep_asksOrFails : AsksOrFails p (ubxCkBStep p b) (ubxCkBStep p.unasked b) := by
  unfold ubxCkBStep withUbx
  simp only [ParseState.unasked_sp, ParseState.unasked_length, ParseState.unasked_byteAt]
  split
  · split
    · exact (Ends.error _).asksOrFails
    · exact conclude_asksOrFails rfl
  · exact (Ends.error _).asksOrFails

theorem spartnCrcStep_asksOrFails :
    AsksOrFails p (spartnCrcStep p b) (spartnCrcStep p.unasked b) := by
  unfold spartnCrcStep withSpartn
  simp only [ParseState.unasked_sp, ParseState.unasked_setSp, ParseState.unasked_length,
    ParseState.unasked_slice]
  split
  · refine .ite ?_ quiet_asksNothing.asksOrFails
    split
    · exact conclude_asksOrFails rfl
    all_goals exact (Ends.error _).asksOrFails
  · exact (Ends.error _).asksOrFails

theorem ubinReadCrcStep_asksOrFails :
    AsksOrFails p (ubinReadCrcStep p b) (ubinReadCrcStep p.unasked b) := by
  unfold ubinReadCrcStep withUbin
  simp only [ParseState.unasked_sp, ParseState.unasked_setSp, ParseState.unasked_length,
    ParseState.unasked_slice]
  split
  · refine .ite ?_ quiet_asksNothing.asksOrFails
    split
    · exact conclude_asksOrFails rfl
    · exact (Ends.error _).asksOrFails
  · exact (Ends.error _).asksOrFails

theorem uhashChecksumStep_asksOrFails :
    AsksOrFails p (uhashChecksumStep p b) (uhashChecksumStep p.unasked b) := by
  unfold uhashChecksumStep withUhash
  simp only [ParseState.unasked_sp, ParseState.unasked_setSp, ParseState.unasked_length,
    ParseState.unasked_slice, ParseState.unasked_crc]
  split
  · refine .ite (.ite ?_ quiet_asksNothing.asksOrFails) fail_asksNothing.asksOrFails
    split
    · exact (Ends.error _).asksOrFails
    split
    · exact (Ends.error _).asksOrFails
    · exact conclude_asksOrFails rfl
  · exact (Ends.error _).asksOrFails

end

/-! ### Every state -/

/-- The states whose byte completes a frame that has a verdict the host may be asked about
(60_exceptions.md R354). -/
def PState.givesVerdict : PState → Bool
  | .nmeaChecksumLo | .rtcmCrc | .ubxCkB | .spartnCrc | .ubinReadCrc | .uhashChecksumByte => true
  | _ => false

theorem handler_asksNothing (hf : p.state.inFrame = true)
    (hv : p.state.givesVerdict = false) : Ends (handler p b) AsksNothing := by
  unfold handler
  cases hs : p.state with
  | firstByte | lineTerm | crThenLf | lfThenCr =>
    rw [hs] at hf
    cases hf
  | nmeaChecksumLo | rtcmCrc | ubxCkB | spartnCrc | ubinReadCrc | uhashChecksumByte =>
    rw [hs] at hv
    cases hv
  | nmeaChecksumHi | ubxSync2 | sbfPreamble2 | ubinSync2 =>
    exact .ite (fun _ => quiet_asksNothing) fun _ => fail_asksNothing
  | nmeaNameThenFirstComma =>
    exact .withNmea fun _ _ => .ite (fun _ => quiet_asksNothing) fun _ =>
      .ite (fun _ => quiet_asksNothing) fun _ => fail_asksNothing
  | nmeaFindAsterisk =>
    exact .ite (fun _ => quiet_asksNothing) fun _ =>
      .ite (fun _ => fail_asksNothing) fun _ => quiet_asksNothing
  | rtcmLengthHi =>
    exact .withRtcm fun _ _ => .ite (fun _ => quiet_asksNothing) fun _ => fail_asksNothing
  | rtcmLengthLo | rtcmMsgIdHi | rtcmMsgIdLo | rtcmData =>
    exact .withRtcm fun _ _ => rtcmContinue_asksNothing
  | ubxClass | ubxId | ubxLengthLo | ubxLengthHi | ubxPayload =>
    exact .withUbx fun _ _ => quiet_asksNothing
  | ubxCkA => exact quiet_asksNothing
  | sbfCrc1 | sbfCrc2 | sbfId1 | sbfId2 | sbfLengthLo =>
    exact .withSbf fun _ _ => quiet_asksNothing
  | sbfLengthHi =>
    exact .withSbf fun _ _ => .ite
      (fun _ => .ite (fun _ => sbfFinish_asksNothing) fun _ => quiet_asksNothing)
      fun _ => fail_asksNothing
  | sbfBody =>
    exact .withSbf fun _ _ =>
      .ite (fun _ => sbfFinish_asksNothing) fun _ => quiet_asksNothing
  | spartnHdr3 => exact spartnHdr3Step_asksNothing
  | spartnExtHdr =>
    exact .withSpartn fun _ _ => .ite
      (fun _ => .ite (fun _ => quiet_asksNothing) fun _ => quiet_asksNothing)
      fun _ => quiet_asksNothing
  | spartnPayload | spartnEmbedded =>
    exact .withSpartn fun _ _ =>
      .ite (fun _ => quiet_asksNothing) fun _ => quiet_asksNothing
  | ubinSync3 =>
    exact .withUbin fun _ _ => .ite (fun _ => quiet_asksNothing) fun _ => fail_asksNothing
  | ubinReadHeader => exact ubinReadHeaderStep_asksNothing
  | ubinReadBody =>
    exact .withUbin fun _ _ => .ite (fun _ => quiet_asksNothing) fun _ => quiet_asksNothing
  | uhashNameThenFirstComma =>
    exact .withUhash fun _ _ => .ite (fun _ => uhashComma_asksNothing) fun _ =>
      .ite (fun _ => quiet_asksNothing) fun _ => fail_asksNothing
  | uhashFindAsterisk =>
    exact .withUhash fun _ _ => .ite (fun _ => quiet_asksNothing) fun _ =>
      .ite (fun _ => fail_asksNothing) fun _ =>
        .ite (fun _ => quiet_asksNothing) fun _ => quiet_asksNothing

theorem handler_asksOrFails (hf : p.state.inFrame = true) :
    AsksOrFails p (handler p b) (handler p.unasked b) := by
  by_cases hv : p.state.givesVerdict = true
  · unfold handler
    rw [ParseState.unasked_state]
    cases hs : p.state with
    | nmeaChecksumLo => exact nmeaChecksumLoStep_asksOrFails
    | rtcmCrc => exact rtcmCrcStep_asksOrFails
    | ubxCkB => exact ubxCkBStep_asksOrFails
    | spartnCrc => exact spartnCrcStep_asksOrFails
    | ubinReadCrc => exact ubinReadCrcStep_asksOrFails
    | uhashChecksumByte => exact uhashChecksumStep_asksOrFails
    | _ =>
      rw [hs] at hv
      cases hv
  · exact (handler_asksNothing hf (Bool.eq_false_iff.mpr hv)).asksOrFails

/-- The byte step asks only inside a frame, by its state's handler (41_dispatch.md R124). -/
theorem byteStep_asksOrFails : AsksOrFails p (byteStep p b) (byteStep p.unasked b) := by
  cases hs : p.state with
  | firstByte =>
    rw [byteStep_firstByte hs]
    exact firstByte_asksNothing.asksOrFails
  | lineTerm =>
    rw [byteStep_lineTerm hs]
    exact (Ends.ite (fun _ => quiet_asksNothing) fun _ =>
      .ite (fun _ => quiet_asksNothing) fun _ => firstByte_asksNothing).asksOrFails
  | crThenLf =>
    rw [byteStep_crThenLf hs]
    exact (Ends.ite (fun _ => quiet_asksNothing) fun _ => firstByte_asksNothing).asksOrFails
  | lfThenCr =>
    rw [byteStep_lfThenCr hs]
    exact (Ends.ite (fun _ => quiet_asksNothing) fun _ => firstByte_asksNothing).asksOrFails
  | _ =>
    have hf : p.state.inFrame = true := by rw [hs]; rfl
    rw [byteStep_inFrame hf, byteStep_inFrame (p := p.unasked) hf]
    exact .ite failTooLong_asksNothing.asksOrFails (handler_asksOrFails (p := p.append b) hf)

end

/-! ### The answer `false` -/

theorem exec_push_eq_afterTurn {s : State} {p : ParseState} {b : Byte} {turn : Turn}
    (hp : s.parse = some p) (hw : s.window = .none) (h : byteStep p b = .ok turn) :
    exec (.push b) s = .next (s.afterTurn turn) := by
  obtain ⟨q, _ | ⟨e, w⟩⟩ := turn
  · rw [exec_push_of_quiet hp hw h, State.afterTurn, hw]
  · exact exec_push_of_raise hp hw h

theorem hostReturn_eq_afterTurn {answer : Bool} {s : State} {p : ParseState} {turn : Turn}
    (hp : s.parse = some p) (hw : s.window ≠ .none) (htodo : s.todo = [])
    (h : afterWindow answer p s.window = .ok turn) :
    hostReturn answer s = .next (s.afterTurn turn) := by
  obtain ⟨q, _ | ⟨e, w⟩⟩ := turn
  · simp only [hostReturn, hw, if_false, hp, h, htodo, runBytes_nil, State.afterTurn]
  · simp only [hostReturn, hw, if_false, hp, h, htodo, State.afterTurn, State.raised]

/-- What the machine after a turn has of the machine before it, and what of the turn. -/
theorem State.afterTurn_eq (turn : Turn) :
    ∃ w new, ∀ (s : State) (q : ParseState), s.afterTurn ⟨q, turn.raised⟩ =
      { s with
        parse := some q, window := w, todo := [], events := s.events ++ new
        result := .nothing } := by
  obtain ⟨_, _ | ⟨e, w⟩⟩ := turn
  · exact ⟨.none, [], fun s q => by simp [State.afterTurn]⟩
  · exact ⟨w, [e], fun _ _ => rfl⟩

/-- A PUSH that raises BAD_CRC asks about the frame it has completed, and the same PUSH without the
callback fails that frame. -/
theorem exec_push_asks {s t : State} {p : ParseState} {b b' : Byte} {text : Bool}
    (hp : s.parse = some p) (hw : s.window = .none) (h : exec (.push b) s = .next t)
    (ht : t.window = .inBadCrc b' text) :
    ∃ q, t = s.raised q (.badCrc p.active) (.inBadCrc b' text) ∧
      byteStep p.unasked b = fail .checksum q.unasked b' := by
  obtain ⟨⟨q, raised⟩, hstep, rfl⟩ := exec_push_turn hp hw h
  cases raised with
  | none => cases ht
  | some ew =>
    obtain ⟨e, w⟩ := ew
    cases (State.afterTurn_window s rfl).symm.trans ht
    obtain ⟨rfl, hfails⟩ := byteStep_asksOrFails _ _ _ _ hstep
    exact ⟨q, rfl, hfails⟩

/-- Settles O30: both cores fail the same frame (`exec_push_asks`), the one when the host has
answered, and FAIL does not look at the callback (`fail_unasked`). -/
theorem declinedIsNoCallback : Obligations.DeclinedIsNoCallback := by
  intro s t p b b' text h hp hw hpush ht
  obtain ⟨q, rfl, hstep⟩ := exec_push_asks hp hw hpush ht
  have hinv := (exec_executes hpush).inv h
  obtain ⟨hq, hen, hlen, -⟩ := hinv.parseOk q rfl
  obtain ⟨⟨q', raised⟩, hfail, -⟩ := fail_safe hq hlen .checksum b'
  have hen' : q'.badCrcEn = true := by
    obtain ⟨-, -, hsame, -⟩ := fail_keepsSetup _ hfail
    exact hsame.trans hen
  rw [fail_unasked, hfail] at hstep
  obtain ⟨w, new, hafter⟩ := State.afterTurn_eq ⟨q', raised⟩
  refine ⟨q'.unasked, w, new, ?_, ?_⟩
  · exact (exec_push_eq_afterTurn (s := { s with parse := some p.unasked }) rfl hw hstep).trans
      (congrArg Host.Outcome.next (hafter _ _))
  · have hanswer : afterWindow false q (.inBadCrc b' text) = .ok ⟨q', raised⟩ := hfail
    have hwindow : (s.raised q (.badCrc p.active) (.inBadCrc b' text)).window ≠ .none := nofun
    rw [ParseState.unasked_asked rfl hen',
      hostReturn_eq_afterTurn (State.raised_parse ..) hwindow rfl hanswer]
    refine congrArg Host.Outcome.next ((hafter _ _).trans ?_)
    rw [State.raised_events, List.append_assoc]
    rfl

end Sys2Proof.Machine
end

section
/-! PROOF. The text formats of the input stream as a split of their octets: name, comma, body, star and
digits (30_encoding.md R62, R69). -/

namespace Sys2Proof.Machine

/-- A byte string is cut at the first `c`. -/
theorem cutAt_eq_some {c : Byte} {xs before after : List Byte} :
    cutAt c xs = some (before, after) ↔ xs = before ++ c :: after ∧ c ∉ before := by
  induction xs generalizing before with
  | nil => simp [cutAt]
  | cons x xs ih =>
    by_cases hx : x = c
    · subst hx
      cases before with
      | nil => simp [cutAt]
      | cons y ys =>
        simp only [cutAt, if_pos, Option.some.injEq, Prod.mk.injEq, List.nil_eq, List.cons_append,
          List.cons.injEq, List.mem_cons, not_or]
        exact ⟨fun h => absurd h.1 (List.cons_ne_nil _ _),
          fun h => absurd h.1.1 h.2.1⟩
    · cases before with
      | nil => simp [cutAt, hx]
      | cons y ys =>
        simp only [cutAt, hx, if_false, Option.map_eq_some_iff, Prod.exists, Prod.mk.injEq,
          List.cons.injEq, List.cons_append, List.mem_cons, not_or]
        constructor
        · rintro ⟨ys', after', hcut, ⟨rfl, rfl⟩, rfl⟩
          obtain ⟨rfl, hmem⟩ := ih.mp hcut
          exact ⟨⟨rfl, rfl⟩, Ne.symm hx, hmem⟩
        · rintro ⟨⟨rfl, rfl⟩, -, hmem⟩
          exact ⟨ys, after, ih.mpr ⟨rfl, hmem⟩, ⟨rfl, rfl⟩, rfl⟩

theorem comma_not_alnum : isAlnum 0x2C = false := by decide

theorem comma_not_mem_name {name : List Byte} (h : ∀ c ∈ name, isAlnum c = true) :
    (0x2C : Byte) ∉ name := fun hmem => by
  have := h _ hmem
  rw [comma_not_alnum] at this
  cases this

theorem nameOk_iff {name : List Byte} :
    nameOk name = true ↔
      1 ≤ name.length ∧ name.length ≤ 15 ∧ ∀ c ∈ name, isAlnum c = true := by
  simp [nameOk, and_assoc]

/-- The check of a text format is the split of its octets. -/
theorem textFormatOk_iff {digits : List Byte → Nat} {rest : List Byte} :
    textFormatOk digits rest = true ↔
      ∃ name body ds : List Byte, rest = name ++ 0x2C :: (body ++ 0x2A :: ds) ∧
        1 ≤ name.length ∧ name.length ≤ 15 ∧ (∀ c ∈ name, isAlnum c = true) ∧ 0x2A ∉ body ∧
        ds.length = digits name ∧ ∀ c ∈ ds, isHex c = true := by
  constructor
  · intro h
    unfold textFormatOk at h
    split at h
    · cases h
    rename_i name r hname
    split at h
    · cases h
    rename_i body ds hbody
    obtain ⟨rfl, -⟩ := cutAt_eq_some.mp hname
    obtain ⟨rfl, hstar⟩ := cutAt_eq_some.mp hbody
    simp only [Bool.and_eq_true, nameOk_iff, beq_iff_eq, List.all_eq_true] at h
    obtain ⟨⟨⟨hmin, hmax, halnum⟩, hlen⟩, hhex⟩ := h
    exact ⟨name, body, ds, rfl, hmin, hmax, halnum, hstar, hlen, hhex⟩
  · rintro ⟨name, body, ds, rfl, hmin, hmax, halnum, hstar, hlen, hhex⟩
    have hname := cutAt_eq_some (after := body ++ 0x2A :: ds).mpr ⟨rfl, comma_not_mem_name halnum⟩
    have hbody := cutAt_eq_some (after := ds).mpr ⟨rfl, hstar⟩
    have hok := nameOk_iff.mpr ⟨hmin, hmax, halnum⟩
    simp only [textFormatOk, hname, hbody, hok, hlen, beq_self_eq_true, Bool.true_and,
      List.all_eq_true]
    exact hhex

/-- `CONTAINS_MODE` is occurrence of the four bytes next to one another (48_unicore_hash.md R284). -/
theorem occursIn_iff {pat s : List Byte} : occursIn pat s = true ↔ pat <:+: s := by
  have hprefix (s : List Byte) : startsWith pat s = true ↔ pat <+: s := by
    rw [startsWith, beq_iff_eq, List.prefix_iff_eq_take, eq_comm]
  induction s with
  | nil => rw [occursIn, hprefix, List.prefix_nil, List.infix_nil]
  | cons c cs ih =>
    rw [occursIn, Bool.or_eq_true, hprefix, List.infix_cons_iff]
    exact or_congr_right ih

theorem uhashDigits_eq (name : List Byte) :
    uhashDigits name = if [0x4D, 0x4F, 0x44, 0x45] <:+: name then 2 else 8 :=
  if_congr occursIn_iff rfl rfl

/-- Settles O46: both checks are a `textFormatOk`, with two digits or as many as the name asks for. -/
theorem textFormatsSplit : Obligations.TextFormatsSplit := by
  intro rest
  refine ⟨textFormatOk_iff, ?_⟩
  simp only [← uhashDigits_eq]
  exact textFormatOk_iff

end Sys2Proof.Machine
end

section
/-! PROOF. The decoder and the encoder are inverse to each other: each reader of operand bytes accepts
exactly the bytes the encoder writes (log 2), and so do the frame formats' headers
(30_encoding.md R62 to R69, R72 to R77). -/

namespace Sys2Proof.Machine

/-! ### A value and its bytes -/

theorem byteOf_zero (x : Byte) : byteOf x 0 = x := BitVec.extractLsb'_eq_self

theorem byteOf_append_zero {n : Nat} (x : BitVec n) (y : Byte) : byteOf (x ++ y) 0 = y :=
  BitVec.extractLsb'_append_eq_right

theorem byteOf_append_succ {n : Nat} (x : BitVec n) (y : Byte) (i : Nat) :
    byteOf (x ++ y) (i + 1) = byteOf x i := by
  rw [byteOf, byteOf, BitVec.extractLsb'_append_eq_of_le (by omega)]
  congr 1

theorem bytes16_append (v : BitVec 16) : byteOf v 1 ++ byteOf v 0 = v :=
  (BitVec.extractLsb'_append_extractLsb'_eq_extractLsb' rfl).trans BitVec.extractLsb'_eq_self

theorem bytes24_append (v : BitVec 24) : byteOf v 2 ++ byteOf v 1 ++ byteOf v 0 = v := by
  have hhigh : byteOf v 2 ++ byteOf v 1 = v.extractLsb' 8 16 :=
    BitVec.extractLsb'_append_extractLsb'_eq_extractLsb' rfl
  rw [hhigh]
  exact (BitVec.extractLsb'_append_extractLsb'_eq_extractLsb' rfl).trans BitVec.extractLsb'_eq_self

theorem bytes32_append (v : BitVec 32) :
    byteOf v 3 ++ byteOf v 2 ++ byteOf v 1 ++ byteOf v 0 = v := by
  have hhigh : byteOf v 3 ++ byteOf v 2 = v.extractLsb' 16 16 :=
    BitVec.extractLsb'_append_extractLsb'_eq_extractLsb' rfl
  have hupper : v.extractLsb' 16 16 ++ byteOf v 1 = v.extractLsb' 8 24 :=
    BitVec.extractLsb'_append_extractLsb'_eq_extractLsb' rfl
  rw [hhigh, hupper]
  exact (BitVec.extractLsb'_append_extractLsb'_eq_extractLsb' rfl).trans BitVec.extractLsb'_eq_self

theorem encodeLen_le32 (b0 b1 b2 b3 : Byte) : encodeLen (le32 b0 b1 b2 b3) = [b0, b1, b2, b3] := by
  simp [encodeLen, le32, byteOf_append_succ, byteOf_append_zero, byteOf_zero]

theorem le32_bytes (v : LenWord) : le32 (byteOf v 0) (byteOf v 1) (byteOf v 2) (byteOf v 3) = v :=
  bytes32_append v

/-! ### The readers of operand bytes -/

section
variable {args : List Byte} {i : Instr}

theorem noArgs_eq_ok {j : Instr} : noArgs j args = .ok i ↔ args = [] ∧ i = j := by
  cases args <;> simp [noArgs, eq_comm]

theorem byteArg_eq_ok {mk : Byte → Instr} :
    byteArg mk args = .ok i ↔ ∃ b, args = [b] ∧ i = mk b := by
  constructor
  · intro h
    match args, h with
    | [b], h => exact ⟨b, rfl, (Except.ok.inj h).symm⟩
  · rintro ⟨b, rfl, rfl⟩
    rfl

theorem bitArg_eq_ok {mk : Bool → Instr} :
    bitArg mk args = .ok i ↔ ∃ en : Bool, args = [if en then 1 else 0] ∧ i = mk en := by
  constructor
  · intro h
    match args, h with
    | [b], h =>
      simp only [bitArg] at h
      split_ifs at h with h0 h1
      · exact ⟨false, by simp [h0], (Except.ok.inj h).symm⟩
      · exact ⟨true, by simp [h1], (Except.ok.inj h).symm⟩
  · rintro ⟨_ | _, rfl, rfl⟩ <;> rfl

theorem acc8_eq_ok {mk : BitVec 8 → Byte → Instr} :
    acc8 mk args = .ok i ↔ ∃ acc b, args = [acc, b] ∧ i = mk acc b := by
  constructor
  · intro h
    match args, h with
    | [a, b], h => exact ⟨a, b, rfl, (Except.ok.inj h).symm⟩
  · rintro ⟨a, b, rfl, rfl⟩
    rfl

theorem fl8Args_eq_ok : fl8Args args = .ok i ↔ ∃ a b x, args = [a, b, x] ∧ i = .fl8Upd a b x := by
  constructor
  · intro h
    match args, h with
    | [a, b, x], h => exact ⟨a, b, x, rfl, (Except.ok.inj h).symm⟩
  · rintro ⟨a, b, x, rfl, rfl⟩
    rfl

/-- The 4-bit accumulator is the low half of a byte whose high half is 0 (40_generators.md R108). -/
theorem acc4_eq_ok {mk : BitVec 4 → Byte → Instr} :
    acc4 mk args = .ok i ↔ ∃ acc b, args = [acc.setWidth 8, b] ∧ i = mk acc b := by
  constructor
  · intro h
    match args, h with
    | [a, b], h =>
      simp only [acc4] at h
      split_ifs at h with hhigh
      have hlow : (a.extractLsb' 0 4).setWidth 8 = a := by
        clear h
        revert a
        decide
      exact ⟨_, b, by rw [hlow], (Except.ok.inj h).symm⟩
  · rintro ⟨acc, b, rfl, rfl⟩
    have hhigh : (acc.setWidth 8).extractLsb' 4 4 = 0 := by revert acc; decide
    have hlow : (acc.setWidth 8).extractLsb' 0 4 = acc := by revert acc; decide
    simp only [acc4, hhigh, hlow, if_pos]

theorem acc16_eq_ok {mk : BitVec 16 → Byte → Instr} :
    acc16 mk args = .ok i ↔ ∃ acc b, args = [byteOf acc 0, byteOf acc 1, b] ∧ i = mk acc b := by
  constructor
  · intro h
    match args, h with
    | [a0, a1, b], h =>
      exact ⟨a1 ++ a0, b, by rw [byteOf_append_zero, byteOf_append_succ, byteOf_zero],
        (Except.ok.inj h).symm⟩
  · rintro ⟨acc, b, rfl, rfl⟩
    rw [acc16, bytes16_append]

theorem acc24_eq_ok {mk : BitVec 24 → Byte → Instr} :
    acc24 mk args = .ok i ↔
      ∃ acc b, args = [byteOf acc 0, byteOf acc 1, byteOf acc 2, b] ∧ i = mk acc b := by
  constructor
  · intro h
    match args, h with
    | [a0, a1, a2, b], h =>
      exact ⟨a2 ++ a1 ++ a0, b,
        by simp only [byteOf_append_zero, byteOf_append_succ, byteOf_zero],
        (Except.ok.inj h).symm⟩
  · rintro ⟨acc, b, rfl, rfl⟩
    rw [acc24, bytes24_append]

theorem acc32_eq_ok {mk : BitVec 32 → Byte → Instr} :
    acc32 mk args = .ok i ↔
      ∃ acc b, args = [byteOf acc 0, byteOf acc 1, byteOf acc 2, byteOf acc 3, b] ∧
        i = mk acc b := by
  constructor
  · intro h
    match args, h with
    | [a0, a1, a2, a3, b], h =>
      exact ⟨a3 ++ a2 ++ a1 ++ a0, b,
        by simp only [byteOf_append_zero, byteOf_append_succ, byteOf_zero],
        (Except.ok.inj h).symm⟩
  · rintro ⟨acc, b, rfl, rfl⟩
    rw [acc32, bytes32_append]

theorem offsetArg_eq_ok {mk : LenWord → Instr} :
    offsetArg mk args = .ok i ↔ ∃ o, args = encodeLen o ∧ i = mk o := by
  constructor
  · intro h
    match args, h with
    | [o0, o1, o2, o3], h =>
      exact ⟨le32 o0 o1 o2 o3, (encodeLen_le32 ..).symm, (Except.ok.inj h).symm⟩
  · rintro ⟨o, rfl, rfl⟩
    rw [encodeLen, offsetArg, le32_bytes]

theorem bitfieldArgs_eq_ok {mk : LenWord → BitVec 8 → Instr} :
    bitfieldArgs mk args = .ok i ↔
      ∃ start width, args = encodeLen start ++ [width] ∧ i = mk start width := by
  constructor
  · intro h
    match args, h with
    | [s0, s1, s2, s3, w], h =>
      exact ⟨le32 s0 s1 s2 s3, w, by rw [encodeLen_le32]; rfl, (Except.ok.inj h).symm⟩
  · rintro ⟨start, width, rfl, rfl⟩
    simp only [encodeLen, List.cons_append, List.nil_append, bitfieldArgs, le32_bytes]

end

/-! ### BEGIN's operands -/

theorem kindOfCode_code (k : Kind) : kindOfCode k.code = .ok k := by
  cases k <;> rfl

theorem kindOfCode_eq_ok {c : Byte} {k : Kind} : kindOfCode c = .ok k ↔ c = k.code := by
  constructor
  · intro h
    unfold kindOfCode at h
    split at h <;> cases h <;> exact BitVec.eq_of_toNat_eq ‹_›
  · rintro rfl
    exact kindOfCode_code k

theorem decodeTable_eq_ok {codes : List Byte} {table : List Kind} :
    decodeTable codes = .ok table ↔ codes = table.map Kind.code := by
  induction codes generalizing table with
  | nil => cases table <;> simp [decodeTable]
  | cons c cs ih =>
    constructor
    · intro h
      simp only [decodeTable] at h
      split at h
      · rename_i k ks hk hks
        cases h
        rw [kindOfCode_eq_ok.mp hk, ih.mp hks, List.map_cons]
      · cases h
      · cases h
    · intro h
      cases table with
      | nil => cases h
      | cons k ks =>
        obtain ⟨rfl, rfl⟩ := List.cons.inj h
        simp only [decodeTable, kindOfCode_code, ih.mpr rfl]

theorem decodeBuffer_eq_ok {form : Byte} {size : LenWord} {buffer : BufferArg} :
    decodeBuffer form size = .ok buffer ↔ form :: encodeLen size = encodeBuffer buffer := by
  have hinj {v w : LenWord} (h : encodeLen v = encodeLen w) : v = w := by
    simp only [encodeLen, List.cons.injEq, and_true] at h
    obtain ⟨h0, h1, h2, h3⟩ := h
    rw [← le32_bytes v, ← le32_bytes w, h0, h1, h2, h3]
  constructor
  · intro h
    unfold decodeBuffer at h
    split at h
    · rename_i hform
      split_ifs at h with hsize
      cases h
      rw [show form = 0 from BitVec.eq_of_toNat_eq hform, hsize, encodeBuffer]
    · rename_i hform
      cases h
      rw [show form = 1 from BitVec.eq_of_toNat_eq hform, encodeBuffer]
    · rename_i hform
      cases h
      rw [show form = 2 from BitVec.eq_of_toNat_eq hform, encodeBuffer]
    · cases h
  · intro h
    cases buffer with
    | null =>
      obtain ⟨rfl, hsize⟩ := List.cons.inj h
      exact if_pos (hinj hsize)
    | total n | area n =>
      obtain ⟨rfl, hsize⟩ := List.cons.inj h
      rw [hinj hsize]
      rfl

/-- The flag byte and the six flags in it, its two upper bits 0 (41_dispatch.md R121). -/
theorem flags_of_bits {flags : Byte} (h : flags.extractLsb' 6 2 = 0) :
    (0 : BitVec 2) ++ BitVec.ofBool (flags.getLsbD 5) ++ BitVec.ofBool (flags.getLsbD 4) ++
      BitVec.ofBool (flags.getLsbD 3) ++ BitVec.ofBool (flags.getLsbD 2) ++
      BitVec.ofBool (flags.getLsbD 1) ++ BitVec.ofBool (flags.getLsbD 0) = flags := by
  revert flags
  decide

theorem bits_of_flags (a5 a4 a3 a2 a1 a0 : Bool) :
    let flags : Byte := (0 : BitVec 2) ++ BitVec.ofBool a5 ++ BitVec.ofBool a4 ++
      BitVec.ofBool a3 ++ BitVec.ofBool a2 ++ BitVec.ofBool a1 ++ BitVec.ofBool a0
    flags.extractLsb' 6 2 = 0 ∧ flags.getLsbD 0 = a0 ∧ flags.getLsbD 1 = a1 ∧
      flags.getLsbD 2 = a2 ∧ flags.getLsbD 3 = a3 ∧ flags.getLsbD 4 = a4 ∧
      flags.getLsbD 5 = a5 := by
  revert a5 a4 a3 a2 a1 a0
  decide

theorem decodeBegin_eq_ok {args : List Byte} {i : Instr} :
    decodeBegin args = .ok i ↔ ∃ a, args = encodeBegin a ∧ i = .beginParser a := by
  constructor
  · intro h
    match args, h with
    | form :: n0 :: n1 :: n2 :: n3 :: flags :: kinds, h =>
      simp only [decodeBegin] at h
      split at h
      · cases h
      · cases h
      · rename_i buffer table hbuffer htable
        split_ifs at h with hflags
        refine ⟨_, ?_, (Except.ok.inj h).symm⟩
        rw [decodeBuffer_eq_ok, encodeLen_le32] at hbuffer
        rw [encodeBegin, encodeFlags, ← hbuffer, decodeTable_eq_ok.mp htable, flags_of_bits hflags]
        rfl
  · rintro ⟨a, rfl, rfl⟩
    obtain ⟨form, size, hbuffer⟩ : ∃ form size, form :: encodeLen size = encodeBuffer a.buffer := by
      cases a.buffer <;> exact ⟨_, _, rfl⟩
    obtain ⟨hreserved, h0, h1, h2, h3, h4, h5⟩ := bits_of_flags a.abortNpUhash a.abortNpNmea
      a.debugSinkPresent a.errorSinkPresent a.badCrcPresent a.eomPresent
    have hread := decodeBuffer_eq_ok.mpr hbuffer
    rw [encodeBegin, ← hbuffer]
    simp only [encodeLen, List.cons_append, List.nil_append, decodeBegin, le32_bytes, hread,
      decodeTable_eq_ok.mpr rfl, encodeFlags, hreserved, if_pos, h0, h1, h2, h3, h4, h5]

/-! ### Operation records -/

/-- An operation code, by its number in the tables of 30_encoding.md R73 to R76. -/
theorem eq_portRecord_of_code {r : Record} {op : Byte} {n : Nat} {args : List Byte}
    (hop : op.toNat = n) (h : r = portRecord (BitVec.ofNat 8 n) args) : r = portRecord op args := by
  rw [h, ← hop, BitVec.ofNat_toNat, BitVec.setWidth_eq]

/-- Every row of the decoder's table reads back the row of the encoder's. -/
theorem encode_of_decodeArgs {op : Byte} {args : List Byte} {i : Instr}
    (h : decodeArgs op args = .ok i) : encode i = portRecord op args := by
  unfold decodeArgs at h
  split at h
  case h_1 hop =>
    obtain ⟨a, rfl, rfl⟩ := decodeBegin_eq_ok.mp h
    exact eq_portRecord_of_code hop rfl
  case h_2 hop =>
    obtain ⟨b, rfl, rfl⟩ := byteArg_eq_ok.mp h
    exact eq_portRecord_of_code hop rfl
  case h_3 hop =>
    cases h
    exact eq_portRecord_of_code hop rfl
  case h_5 hop =>
    obtain ⟨en, rfl, rfl⟩ := bitArg_eq_ok.mp h
    exact eq_portRecord_of_code hop rfl
  case h_10 hop | h_16 hop =>
    obtain ⟨acc, b, rfl, rfl⟩ := acc8_eq_ok.mp h
    exact eq_portRecord_of_code hop rfl
  case h_11 hop | h_18 hop =>
    obtain ⟨acc, b, rfl, rfl⟩ := acc24_eq_ok.mp h
    exact eq_portRecord_of_code hop rfl
  case h_12 hop =>
    obtain ⟨a, b, x, rfl, rfl⟩ := fl8Args_eq_ok.mp h
    exact eq_portRecord_of_code hop rfl
  case h_13 hop | h_17 hop =>
    obtain ⟨acc, b, rfl, rfl⟩ := acc16_eq_ok.mp h
    exact eq_portRecord_of_code hop rfl
  case h_14 hop | h_19 hop =>
    obtain ⟨acc, b, rfl, rfl⟩ := acc32_eq_ok.mp h
    exact eq_portRecord_of_code hop rfl
  case h_15 hop =>
    obtain ⟨acc, b, rfl, rfl⟩ := acc4_eq_ok.mp h
    exact eq_portRecord_of_code hop rfl
  case h_20 hop | h_21 hop | h_22 hop | h_23 hop | h_24 hop | h_25 hop | h_26 hop | h_27 hop
      | h_28 hop | h_29 hop | h_30 hop | h_31 hop | h_32 hop | h_33 hop | h_34 hop | h_35 hop
      | h_36 hop | h_37 hop | h_38 hop | h_39 hop | h_40 hop | h_41 hop =>
    obtain ⟨o, rfl, rfl⟩ := offsetArg_eq_ok.mp h
    exact eq_portRecord_of_code hop rfl
  case h_45 hop | h_46 hop =>
    obtain ⟨start, width, rfl, rfl⟩ := bitfieldArgs_eq_ok.mp h
    exact eq_portRecord_of_code hop rfl
  case h_4 hop | h_6 hop | h_7 hop | h_8 hop | h_9 hop | h_42 hop | h_43 hop | h_44 hop | h_47 hop
      | h_48 hop | h_49 hop | h_50 hop | h_51 hop | h_52 hop | h_53 hop | h_54 hop | h_55 hop
      | h_56 hop | h_57 hop =>
    obtain ⟨rfl, rfl⟩ := noArgs_eq_ok.mp h
    exact eq_portRecord_of_code hop rfl
  case h_58 => cases h

/-! ### The headers of the frame formats -/

/-- The length's two upper bits, with six reserved zero bits above them (30_encoding.md R63). -/
theorem rtcm_lengthHi (len : BitVec 10) :
    ((len.extractLsb' 8 2).setWidth 8).extractLsb' 2 6 = 0 ∧
      ((len.extractLsb' 8 2).setWidth 8).extractLsb' 0 2 = len.extractLsb' 8 2 := by
  generalize len.extractLsb' 8 2 = hi
  revert hi
  decide

theorem rtcm_length_append (len : BitVec 10) :
    len.extractLsb' 8 2 ++ len.extractLsb' 0 8 = len :=
  (BitVec.extractLsb'_append_extractLsb'_eq_extractLsb' rfl).trans BitVec.extractLsb'_eq_self

theorem rtcm_lengthHi_of_reserved {b : Byte} (h : b.extractLsb' 2 6 = 0) :
    (b.extractLsb' 0 2).setWidth 8 = b := by
  revert b
  decide

/-- ID and revision in their word (30_encoding.md R65). -/
theorem sbf_word_append (id : BitVec 13) (rev : BitVec 3) :
    let hi : Byte := rev ++ id.extractLsb' 8 5
    hi.extractLsb' 0 5 ++ id.extractLsb' 0 8 = id ∧ hi.extractLsb' 5 3 = rev := by
  refine ⟨?_, BitVec.extractLsb'_append_eq_left⟩
  rw [BitVec.extractLsb'_append_eq_right]
  exact (BitVec.extractLsb'_append_extractLsb'_eq_extractLsb' rfl).trans BitVec.extractLsb'_eq_self

theorem sbf_word_bytes (lo hi : Byte) :
    (hi.extractLsb' 0 5 ++ lo).extractLsb' 0 8 = lo ∧
      hi.extractLsb' 5 3 ++ (hi.extractLsb' 0 5 ++ lo).extractLsb' 8 5 = hi := by
  refine ⟨BitVec.extractLsb'_append_eq_right, ?_⟩
  rw [BitVec.extractLsb'_append_eq_left]
  exact (BitVec.extractLsb'_append_extractLsb'_eq_extractLsb' rfl).trans BitVec.extractLsb'_eq_self

/-- The fields of a SPARTN header, read back from its octets (30_encoding.md R66). -/
theorem spartn_fields_of_octets (m : BitVec 7) (l : BitVec 10) (e : BitVec 1) (t : BitVec 2)
    (c : BitVec 4) :
    (spartnH1 m l).extractLsb' 1 7 = m ∧
      (spartnH1 m l).extractLsb' 0 1 ++ spartnH2 l ++ (spartnH3 l e t c).extractLsb' 7 1 = l ∧
      (spartnH3 l e t c).extractLsb' 6 1 = e ∧ (spartnH3 l e t c).extractLsb' 4 2 = t ∧
      (spartnH3 l e t c).extractLsb' 0 4 = c := by
  refine ⟨BitVec.extractLsb'_append_eq_left, ?_, ?_, ?_, BitVec.extractLsb'_append_eq_right⟩
  · have h3 : (spartnH3 l e t c).extractLsb' 7 1 = l.extractLsb' 0 1 := by
      ext j hj
      simp only [spartnH3, BitVec.getElem_extractLsb', BitVec.getLsbD_append]
      simp [show ¬(7 + j < 4) by omega, show ¬(7 + j - 4 < 2) by omega,
        show ¬(7 + j - 4 - 2 < 1) by omega, show 7 + j - 4 - 2 - 1 = j by omega, hj]
    have hhigh : l.extractLsb' 9 1 ++ spartnH2 l = l.extractLsb' 1 9 :=
      BitVec.extractLsb'_append_extractLsb'_eq_extractLsb' rfl
    rw [h3, spartnH1, BitVec.extractLsb'_append_eq_right, hhigh]
    exact (BitVec.extractLsb'_append_extractLsb'_eq_extractLsb' rfl).trans
      BitVec.extractLsb'_eq_self
  · ext j hj
    simp only [spartnH3, BitVec.getElem_extractLsb', BitVec.getLsbD_append]
    simp [show ¬(6 + j < 4) by omega, show ¬(6 + j - 4 < 2) by omega,
      show 6 + j - 4 - 2 = j by omega, hj]
  · ext j hj
    simp only [spartnH3, BitVec.getElem_extractLsb', BitVec.getLsbD_append]
    simp [show ¬(4 + j < 4) by omega, show 4 + j - 4 = j by omega, hj]

theorem spartn_octets_of_fields (h1 h2 h3 : Byte) :
    let l : BitVec 10 := h1.extractLsb' 0 1 ++ h2 ++ h3.extractLsb' 7 1
    spartnH1 (h1.extractLsb' 1 7) l = h1 ∧ spartnH2 l = h2 ∧
      spartnH3 l (h3.extractLsb' 6 1) (h3.extractLsb' 4 2) (h3.extractLsb' 0 4) = h3 := by
  intro l
  have hhigh : l.extractLsb' 9 1 = h1.extractLsb' 0 1 := by
    rw [BitVec.extractLsb'_append_eq_of_le (by omega)]
    exact BitVec.extractLsb'_append_eq_left
  have hmid : l.extractLsb' 1 8 = h2 := by
    rw [BitVec.extractLsb'_append_eq_of_le (by omega)]
    exact BitVec.extractLsb'_append_eq_right
  have hlow : l.extractLsb' 0 1 = h3.extractLsb' 7 1 := BitVec.extractLsb'_append_eq_right
  refine ⟨?_, hmid, ?_⟩
  · rw [spartnH1, hhigh]
    exact (BitVec.extractLsb'_append_extractLsb'_eq_extractLsb' rfl).trans
      BitVec.extractLsb'_eq_self
  · have htop : h3.extractLsb' 7 1 ++ h3.extractLsb' 6 1 = h3.extractLsb' 6 2 :=
      BitVec.extractLsb'_append_extractLsb'_eq_extractLsb' rfl
    have hupper : h3.extractLsb' 6 2 ++ h3.extractLsb' 4 2 = h3.extractLsb' 4 4 :=
      BitVec.extractLsb'_append_extractLsb'_eq_extractLsb' rfl
    rw [spartnH3, hlow, htop, hupper]
    exact (BitVec.extractLsb'_append_extractLsb'_eq_extractLsb' rfl).trans
      BitVec.extractLsb'_eq_self

/-! ### Frames -/

section
variable {octets : List Byte} {i : Instr}

theorem decodeRtcm_eq_ok : decodeRtcm octets = .ok i ↔
    ∃ len rest, 0xD3 :: octets = rtcmOctets len rest ∧ i = .frameRtcm len rest := by
  constructor
  · intro h
    match octets, h with
    | b1 :: b2 :: rest, h =>
      simp only [decodeRtcm] at h
      split_ifs at h with hreserved
      refine ⟨_, rest, ?_, (Except.ok.inj h).symm⟩
      rw [rtcmOctets, BitVec.extractLsb'_append_eq_left, BitVec.extractLsb'_append_eq_right,
        rtcm_lengthHi_of_reserved hreserved]
    | [b1], h =>
      simp only [decodeRtcm] at h
      split_ifs at h
  · rintro ⟨len, rest, h, rfl⟩
    cases h
    obtain ⟨hreserved, hhi⟩ := rtcm_lengthHi len
    simp only [decodeRtcm, hreserved, hhi, if_pos, rtcm_length_append]

theorem decodeUbx_eq_ok : decodeUbx octets = .ok i ↔
    ∃ cls id len rest, 0xB5 :: 0x62 :: octets = ubxOctets cls id len rest ∧
      i = .frameUbx cls id len rest := by
  constructor
  · intro h
    match octets, h with
    | cls :: id :: l0 :: l1 :: rest, h =>
      exact ⟨cls, id, l1 ++ l0, rest,
        by rw [ubxOctets, byteOf_append_zero, byteOf_append_succ, byteOf_zero],
        (Except.ok.inj h).symm⟩
  · rintro ⟨cls, id, len, rest, h, rfl⟩
    cases h
    rw [decodeUbx, bytes16_append]

theorem decodeSbf_eq_ok : decodeSbf octets = .ok i ↔
    ∃ crc id rev len rest, 0x24 :: 0x40 :: octets = sbfOctets crc id rev len rest ∧
      i = .frameSbf crc id rev len rest := by
  constructor
  · intro h
    match octets, h with
    | c0 :: c1 :: i0 :: i1 :: l0 :: l1 :: rest, h =>
      obtain ⟨hlo, hhi⟩ := sbf_word_bytes i0 i1
      exact ⟨c1 ++ c0, i1.extractLsb' 0 5 ++ i0, i1.extractLsb' 5 3, l1 ++ l0, rest,
        by simp only [sbfOctets, byteOf_append_zero, byteOf_append_succ, byteOf_zero, hlo, hhi],
        (Except.ok.inj h).symm⟩
  · rintro ⟨crc, id, rev, len, rest, h, rfl⟩
    cases h
    obtain ⟨hid, hrev⟩ := sbf_word_append id rev
    simp only [decodeSbf, bytes16_append, hid, hrev]

theorem decodeSpartn_eq_ok : decodeSpartn octets = .ok i ↔
    ∃ m l e t c rest, 0x73 :: octets = spartnOctets m l e t c rest ∧
      i = .frameSpartn m l e t c rest := by
  constructor
  · intro h
    match octets, h with
    | h1 :: h2 :: h3 :: rest, h =>
      obtain ⟨e1, e2, e3⟩ := spartn_octets_of_fields h1 h2 h3
      exact ⟨_, _, _, _, _, rest, by rw [spartnOctets, e1, e2, e3], (Except.ok.inj h).symm⟩
  · rintro ⟨m, l, e, t, c, rest, h, rfl⟩
    cases h
    obtain ⟨hm, hl, he, ht, hc⟩ := spartn_fields_of_octets m l e t c
    simp only [decodeSpartn, hm, hl, he, ht, hc]

theorem decodeUbin_eq_ok : decodeUbin octets = .ok i ↔
    ∃ h3 h4 h5 len rest, 0xAA :: 0x44 :: 0xB5 :: octets = ubinOctets h3 h4 h5 len rest ∧
      i = .frameUbin h3 h4 h5 len rest := by
  constructor
  · intro h
    match octets, h with
    | h3 :: h4 :: h5 :: l0 :: l1 :: rest, h =>
      exact ⟨h3, h4, h5, l1 ++ l0, rest,
        by rw [ubinOctets, byteOf_append_zero, byteOf_append_succ, byteOf_zero],
        (Except.ok.inj h).symm⟩
  · rintro ⟨h3, h4, h5, len, rest, h, rfl⟩
    cases h
    rw [decodeUbin, bytes16_append]

/-- Every row of the decoder of frames reads back the row of the encoder's. -/
theorem encode_of_decodeFrame (h : decodeFrame octets = .ok i) :
    encode i = streamRecord octets := by
  cases octets with
  | nil => cases h
  | cons b0 bs =>
    simp only [decodeFrame] at h
    split at h
    case h_1 hb =>
      cases h
      rw [show b0 = 0x23 from BitVec.eq_of_toNat_eq hb]
      rfl
    case h_2 hb =>
      obtain rfl : b0 = 0x24 := BitVec.eq_of_toNat_eq hb
      split at h
      · split_ifs at h with h40
        · subst h40
          obtain ⟨crc, id, rev, len, rest, hoctets, rfl⟩ := decodeSbf_eq_ok.mp h
          rw [hoctets]
          rfl
        · cases h
          rfl
      · cases h
        rfl
    case h_3 hb =>
      obtain rfl : b0 = 0x73 := BitVec.eq_of_toNat_eq hb
      obtain ⟨m, l, e, t, c, rest, hoctets, rfl⟩ := decodeSpartn_eq_ok.mp h
      rw [hoctets]
      rfl
    case h_4 hb =>
      obtain rfl : b0 = 0xAA := BitVec.eq_of_toNat_eq hb
      split at h
      · split_ifs at h with hsync
        obtain ⟨rfl, rfl⟩ := hsync
        obtain ⟨h3, h4, h5, len, rest, hoctets, rfl⟩ := decodeUbin_eq_ok.mp h
        rw [hoctets]
        rfl
      · cases h
    case h_5 hb =>
      obtain rfl : b0 = 0xB5 := BitVec.eq_of_toNat_eq hb
      split at h
      · split_ifs at h with hsync
        subst hsync
        obtain ⟨cls, id, len, rest, hoctets, rfl⟩ := decodeUbx_eq_ok.mp h
        rw [hoctets]
        rfl
      · cases h
    case h_6 hb =>
      obtain rfl : b0 = 0xD3 := BitVec.eq_of_toNat_eq hb
      obtain ⟨len, rest, hoctets, rfl⟩ := decodeRtcm_eq_ok.mp h
      rw [hoctets]
      rfl
    case h_7 => cases h

end

/-- A name begins with an alphanumeric character, which is no SBF sync octet (30_encoding.md R62,
R65). -/
theorem head_ne_of_nmeaFormatOk {c : Byte} {rest : List Byte}
    (h : nmeaFormatOk (c :: rest) = true) : c ≠ 0x40 := by
  obtain ⟨name, body, ds, hrest, hmin, -, halnum, -⟩ := textFormatOk_iff.mp h
  cases name with
  | nil => cases hmin
  | cons c' name =>
    obtain ⟨rfl, -⟩ := List.cons.inj hrest
    have hc := halnum c List.mem_cons_self
    rintro rfl
    cases hc

theorem decodeFrame_nmea {rest : List Byte} (h : nmeaFormatOk rest = true) :
    decodeFrame (nmeaOctets rest) = .ok (.frameNmea rest) := by
  cases rest with
  | nil => rfl
  | cons c rest => exact if_neg (head_ne_of_nmeaFormatOk h)

/-- Settles O1: each reader of operand bytes, and each frame format's header, reads what the encoder
writes; only `FRAME.NMEA` needs its format, to be told from an SBF frame. -/
theorem decodeEncode : Obligations.DecodeEncode := by
  intro i hwf
  cases i with
  | beginParser a => exact decodeBegin_eq_ok.mpr ⟨a, rfl, rfl⟩
  | push b => exact byteArg_eq_ok.mpr ⟨b, rfl, rfl⟩
  | pushN bytes => rfl
  | setIdCb en => exact bitArg_eq_ok.mpr ⟨en, rfl, rfl⟩
  | xor8Upd acc b | spCrc8Upd acc b => exact acc8_eq_ok.mpr ⟨acc, b, rfl, rfl⟩
  | crc24qUpd acc b | spCrc24Upd acc b => exact acc24_eq_ok.mpr ⟨acc, b, rfl, rfl⟩
  | fl8Upd a b x => exact fl8Args_eq_ok.mpr ⟨a, b, x, rfl, rfl⟩
  | ccitt16Upd acc b | spCrc16Upd acc b => exact acc16_eq_ok.mpr ⟨acc, b, rfl, rfl⟩
  | crc32rUpd acc b | spCrc32Upd acc b => exact acc32_eq_ok.mpr ⟨acc, b, rfl, rfl⟩
  | spCrc4Upd acc b => exact acc4_eq_ok.mpr ⟨acc, b, rfl, rfl⟩
  | getU8 o | getU16 o | getU32 o | getU64 o | getI8 o | getI16 o | getI32 o | getI64 o | getF32 o
  | getF64 o | getStr o | getU8No o | getU16No o | getU32No o | getU64No o | getI8No o | getI16No o
  | getI32No o | getI64No o | getF32No o | getF64No o | getStrNo o =>
    exact offsetArg_eq_ok.mpr ⟨o, rfl, rfl⟩
  | rtcmGetU start width | rtcmGetS start width =>
    exact bitfieldArgs_eq_ok.mpr ⟨start, width, rfl, rfl⟩
  | frameNmea rest => exact decodeFrame_nmea hwf
  | frameUhash rest => rfl
  | frameRtcm len rest => exact decodeRtcm_eq_ok.mpr ⟨len, rest, rfl, rfl⟩
  | frameUbx cls id len rest => exact decodeUbx_eq_ok.mpr ⟨cls, id, len, rest, rfl, rfl⟩
  | frameSbf crc id rev len rest => exact decodeSbf_eq_ok.mpr ⟨crc, id, rev, len, rest, rfl, rfl⟩
  | frameSpartn m l e t c rest => exact decodeSpartn_eq_ok.mpr ⟨m, l, e, t, c, rest, rfl, rfl⟩
  | frameUbin h3 h4 h5 len rest => exact decodeUbin_eq_ok.mpr ⟨h3, h4, h5, len, rest, rfl, rfl⟩
  | stop | dbgEn | dbgDis | errEn | errDis | nmeaName | uhashName | rtcmMsgId | ubxClass | ubxId
  | ubxNum | sbfId | sbfRev | sbfIsNmea | sbfIsRtcm | sbfEncPtr | sbfEncLen | spartnType
  | spartnSubtype => exact noArgs_eq_ok.mpr ⟨rfl, rfl⟩

/-- Settles O2: operation records by `encode_of_decodeArgs`, frames by `encode_of_decodeFrame`. -/
theorem encodeDecode : Obligations.EncodeDecode := by
  rintro ⟨space, bytes⟩ i h
  cases space with
  | port =>
    cases bytes with
    | nil => cases h
    | cons op args => exact encode_of_decodeArgs h
  | stream => exact encode_of_decodeFrame h

/-- Settles O3: the nine records, read by the decoder. -/
theorem decodedWords : Obligations.DecodedWords :=
  ⟨rfl, rfl, rfl, rfl, rfl, rfl, rfl, rfl, rfl⟩

/-- A byte below 16 is its low half, and no other has a high half of 0. -/
theorem byte_halves_of_lt {acc : Byte} (h : acc.toNat < 16) :
    acc.extractLsb' 4 4 = 0 ∧ acc.extractLsb' 0 4 = acc.setWidth 4 := by
  revert acc
  decide

theorem byte_high_of_ge {acc : Byte} (h : ¬acc.toNat < 16) : acc.extractLsb' 4 4 ≠ 0 := by
  revert acc
  decide

/-- Settles O5: `acc4` looks at the high half of the accumulator's byte, which is 0 exactly below 16;
a record that does not decode is refused (`step_of_port_undecoded`). -/
theorem wideOperandsRefused : Obligations.WideOperandsRefused := by
  intro acc b rest s hport
  split_ifs with hacc
  · obtain ⟨hhigh, hlow⟩ := byte_halves_of_lt hacc
    have hdecode : decode ⟨.port, [0x15, acc, b]⟩ = .ok (.spCrc4Upd (acc.setWidth 4) b) :=
      (if_pos hhigh).trans (by rw [hlow])
    simp only [step, hport, runRecord, hdecode]
  · exact step_of_port_undecoded hport (if_neg (byte_high_of_ge hacc))

end Sys2Proof.Machine
end

section
/-! PROOF. Steps, runs of bytes and the host's return, put together from one another
(41_dispatch.md R124, R125; 60_exceptions.md R352, R353, R359, R360; logs 1, 5, 12). -/

namespace Sys2Proof.Machine

/-! ### The step and the frames of the stream -/

/-- Settles O6: the five arms of `step` and `runRecord`. -/
theorem stepRunsDecoded : Obligations.StepRunsDecoded := by
  intro s rest
  refine ⟨fun r i hport hdecode => ?decoded, fun bytes e hport hdecode => ?refused,
    fun bytes e hport hdecode => ?pushed, fun answer hport => ?returned, fun hport => ?idle⟩
  case decoded =>
    simp only [step, hport, runRecord, hdecode]
    rfl
  case refused => exact step_of_port_undecoded hport hdecode
  case pushed =>
    simp only [step, hport, runRecord, hdecode]
    rfl
  case returned => simp only [step, hport]
  case idle => simp only [step, hport]

/-- Settles O26: the seven frame arms of `exec` push what the encoder writes. -/
theorem frameIsItsOctets : Obligations.FrameIsItsOctets := by
  intro i s hstream
  cases i with
  | frameNmea _ | frameUhash _ | frameRtcm _ _ | frameUbx _ _ _ _ | frameSbf _ _ _ _ _
  | frameSpartn _ _ _ _ _ _ | frameUbin _ _ _ _ _ => rfl
  | _ => cases hstream

/-- Settles O33: with no ParseState there is nothing to keep. -/
theorem resetInv : Obligations.ResetInv := by
  have hnone (p : ParseState) (h : State.reset.parse = some p) : False := nomatch h
  exact
    { parseOk := fun p h => (hnone p h).elim
      unconfigured := fun _ => rfl
      waiting := fun _ => rfl
      payloads := fun _ _ h => absurd h List.not_mem_nil }

/-! ### Every raised event opens a window -/

/-- An event that the turn has raised opens a window. -/
def OpensWindow (t : Turn) : Prop := ∀ e w, t.raised = some (e, w) → w ≠ .none

section
variable {p : ParseState} {b : Byte}

theorem OpensWindow.raise {e : Event} {w : Window} (hw : w ≠ .none) :
    Ends (raise p e w) OpensWindow :=
  .raise fun _ _ h => by
    cases h
    exact hw

theorem quiet_opensWindow : Ends (quiet p) OpensWindow := .quiet nofun

theorem firstByte_opensWindow : Ends (firstByte p b) OpensWindow := by
  unfold firstByte
  split
  · exact quiet_opensWindow
  · exact .ite (fun _ => .raise nofun) fun _ => quiet_opensWindow

theorem fail_opensWindow {c : Cause} : Ends (fail c p b) OpensWindow := by
  refine .ite (fun _ => ?_) fun _ => firstByte_opensWindow
  split
  · exact .raise nofun
  · exact .error _

theorem failTooLong_opensWindow : Ends (failTooLong p b) OpensWindow := by
  refine .ite (fun _ => ?_) fun _ => firstByte_opensWindow
  split
  · exact .raise nofun
  · exact .error _

theorem deliver_opensWindow : Ends (deliver p) OpensWindow := by
  unfold deliver
  split
  · exact .raise nofun
  · exact .error _

theorem textDeliver_opensWindow : Ends (textDeliver p b) OpensWindow := by
  refine .ite (fun _ => fail_opensWindow) fun _ => ?_
  split
  · exact .raise nofun
  · exact .error _

theorem complete_opensWindow {text : Bool} : Ends (complete text p b) OpensWindow :=
  .ite (fun _ => textDeliver_opensWindow) fun _ => deliver_opensWindow

theorem conclude_opensWindow {good text : Bool} : Ends (conclude good text p b) OpensWindow :=
  .ite (fun _ => complete_opensWindow) fun _ =>
    .ite (fun _ => .raise nofun) fun _ => fail_opensWindow

theorem FrameTurn.opensWindow {t : Turn} (ht : FrameTurn p b t) : OpensWindow t := by
  cases ht with
  | onward _ _ => exact nofun
  | failed _ ht => exact fail_opensWindow _ ht
  | concluded _ ht => exact conclude_opensWindow _ ht
  | delivered _ ht => exact deliver_opensWindow _ ht

theorem byteStep_opensWindow : Ends (byteStep p b) OpensWindow := by
  cases hs : p.state with
  | firstByte =>
    rw [byteStep_firstByte hs]
    exact firstByte_opensWindow
  | lineTerm =>
    rw [byteStep_lineTerm hs]
    exact .ite (fun _ => quiet_opensWindow) fun _ =>
      .ite (fun _ => quiet_opensWindow) fun _ => firstByte_opensWindow
  | crThenLf =>
    rw [byteStep_crThenLf hs]
    exact .ite (fun _ => quiet_opensWindow) fun _ => firstByte_opensWindow
  | lfThenCr =>
    rw [byteStep_lfThenCr hs]
    exact .ite (fun _ => quiet_opensWindow) fun _ => firstByte_opensWindow
  | _ =>
    have hf : p.state.inFrame = true := by rw [hs]; rfl
    rw [byteStep_inFrame hf]
    exact .ite (fun _ => failTooLong_opensWindow) fun _ t ht =>
      FrameTurn.opensWindow (handler_handles (p := p.append b) hf t ht)

theorem afterWindow_opensWindow {answer : Bool} {w : Window} :
    Ends (afterWindow answer p w) OpensWindow := by
  match w with
  | .none | .inEom true | .inEom false | .inInvalid none => exact quiet_opensWindow
  | .inInvalid (some _) => exact firstByte_opensWindow
  | .inBadCrc _ _ => exact .ite (fun _ => complete_opensWindow) fun _ => fail_opensWindow

end

/-! ### What a run and a turn do not look at -/

/-- The two states are the same but for the waiting bytes and the result. -/
def State.SameBut (s s' : State) : Prop :=
  s' = { s with todo := s'.todo, result := s'.result }

/-- A run overwrites the waiting bytes and the result, and never looks at them. -/
theorem runBytes_of_sameBut {bytes : List Byte} {s s' : State} (h : s.SameBut s') :
    runBytes bytes s' = runBytes bytes s := by
  induction bytes generalizing s s' with
  | nil =>
    rw [h]
    rfl
  | cons b bs ih =>
    have hparse : s'.parse = s.parse := by rw [h]
    simp only [runBytes, hparse]
    split
    · rfl
    split
    · rfl
    · refine ih ?_
      rw [State.SameBut, h]
    · rw [h]

/-- A turn overwrites the ParseState, the window, the waiting bytes and the result. -/
theorem State.afterTurn_congr {s s' : State} (hport : s'.port = s.port)
    (hevents : s'.events = s.events) (turn : Turn) : s'.afterTurn turn = s.afterTurn turn := by
  unfold State.afterTurn State.raised
  rw [hport, hevents]

/-! ### PUSHN -/

/-- PUSHN where PUSH is legal, by its first byte. -/
theorem pushN_cons {s t : State} {p : ParseState} {b : Byte} (bytes : List Byte)
    (hp : s.parse = some p) (hw : s.window = .none) (h : exec (.push b) s = .next t) :
    exec (.pushN (b :: bytes)) s =
      if t.window = .none then exec (.pushN bytes) t else .next { t with todo := bytes } := by
  have hrun : exec (.pushN (b :: bytes)) s = runBytes (b :: bytes) s := pushOctets_run _ hw hp
  obtain ⟨⟨q, raised⟩, hstep, rfl⟩ := exec_push_turn hp hw h
  cases raised with
  | none =>
    have hclosed : (s.afterTurn ⟨q, none⟩).window = .none := rfl
    rw [hrun, runBytes_quiet bytes hp hstep, if_pos hclosed]
    have hsame : State.SameBut { s with parse := some q } (s.afterTurn ⟨q, none⟩) := by
      rw [State.SameBut, State.afterTurn, ← hw]
    exact (runBytes_of_sameBut hsame).symm.trans
      (pushOctets_run bytes hclosed (State.afterTurn_parse s _)).symm
  | some ew =>
    obtain ⟨e, w⟩ := ew
    have hopen : (s.afterTurn ⟨q, some (e, w)⟩).window ≠ .none :=
      byteStep_opensWindow _ hstep e w rfl
    rw [hrun, runBytes_raise bytes hp hstep, if_neg hopen]
    rfl

/-- A return after which nothing is raised: the waiting bytes run. -/
theorem hostReturn_of_quiet {s : State} {p q : ParseState} {answer : Bool} (hp : s.parse = some p)
    (hw : s.window ≠ .none) (h : afterWindow answer p s.window = quiet q) :
    hostReturn answer s = runBytes s.todo { s with parse := some q, window := .none } := by
  simp only [hostReturn, hw, if_false, hp, h, quiet]

/-- A return after which an event is raised: the waiting bytes go on waiting. -/
theorem hostReturn_of_raise {s : State} {p q : ParseState} {answer : Bool} {e : Event} {w : Window}
    (hp : s.parse = some p) (hw : s.window ≠ .none)
    (h : afterWindow answer p s.window = raise q e w) :
    hostReturn answer s = .next { s.raised q e w with todo := s.todo } := by
  simp only [hostReturn, hw, if_false, hp, h, raise, State.raised]

/-- A return where bytes wait, by the same return where none does. -/
theorem hostReturn_todo {s t : State} {answer : Bool} (hw : s.window ≠ .none)
    (h : hostReturn answer { s with todo := [] } = .next t) :
    hostReturn answer s =
      if t.window = .none then exec (.pushN s.todo) t else .next { t with todo := s.todo } := by
  cases hp : s.parse with
  | none => simp [hostReturn, hw, hp] at h
  | some p =>
    obtain ⟨⟨q, raised⟩, hturn, rfl⟩ := hostReturn_turn (s := { s with todo := [] }) hp hw rfl h
    replace hturn : afterWindow answer p s.window = .ok ⟨q, raised⟩ := hturn
    cases raised with
    | none =>
      have hsame : State.SameBut { s with parse := some q, window := .none }
          (State.afterTurn { s with todo := [] } ⟨q, none⟩) := rfl
      rw [hostReturn_of_quiet hp hw hturn]
      exact (runBytes_of_sameBut hsame).symm.trans
        ((pushOctets_run s.todo rfl (State.afterTurn_parse _ _)).symm.trans (if_pos rfl).symm)
    | some ew =>
      obtain ⟨e, w⟩ := ew
      have hopen : w ≠ .none := afterWindow_opensWindow _ hturn e w rfl
      rw [hostReturn_of_raise hp hw hturn]
      exact (if_neg hopen).symm

/-- Settles O25: the refusals by `pushOctets_refused`, a run by its first byte (`pushN_cons`), the
waiting bytes by `hostReturn_todo`. -/
theorem pushNIsPushes : Obligations.PushNIsPushes := by
  intro s
  refine ⟨fun h bytes => pushOctets_refused bytes h, fun p hp hw => ⟨?_, fun b bytes t h => ?_⟩,
    fun hw answer t h => hostReturn_todo hw h, fun _ => rfl⟩
  · exact pushOctets_run [] hw hp
  · exact pushN_cons bytes hp hw h

/-! ### The host's return -/

/-- Settles O24: what `afterWindow` leaves of the ParseState, and the waiting bytes pushed. -/
theorem windowReturn : Obligations.WindowReturn := by
  intro s answer
  refine ⟨fun hw => if_pos hw, fun p hp => ⟨fun hw => ?_, fun hw => ?_, fun hw => ?_⟩⟩
  · have hturn : afterWindow answer p s.window = quiet p.search := by rw [hw]; rfl
    rw [hostReturn_of_quiet hp (by rw [hw]; nofun) hturn]
    exact (pushOctets_run (p := p.search) s.todo rfl rfl).symm
  · have hturn : afterWindow answer p s.window = quiet (p.goto .lineTerm) := by rw [hw]; rfl
    rw [hostReturn_of_quiet hp (by rw [hw]; nofun) hturn]
    exact (pushOctets_run (p := p.goto .lineTerm) s.todo rfl rfl).symm
  · have hturn : afterWindow answer p s.window = quiet p := by rw [hw]; rfl
    rw [hostReturn_of_quiet hp (by rw [hw]; nofun) hturn, hp]
    exact (pushOctets_run (p := p) s.todo rfl rfl).symm

/-- `FIRST_BYTE` never stops. -/
theorem firstByte_answers (p : ParseState) (b : Byte) : ∃ turn, firstByte p b = .ok turn := by
  unfold firstByte
  split
  · exact ⟨_, rfl⟩
  · split_ifs <;> exact ⟨_, rfl⟩

/-- `FIRST_BYTE` run on `p` by the machine with no window open is a turn's. -/
theorem redispatch_eq_afterTurn {s : State} {p : ParseState} {b : Byte} {turn : Turn}
    (hw : s.window = .none) (h : firstByte p b = .ok turn) :
    s.redispatch p b = .next (s.afterTurn turn) := by
  have hstep : byteStep (p.goto .firstByte) b = .ok turn :=
    (byteStep_firstByte rfl b).trans ((firstByte_goto _).trans h)
  rw [State.redispatch]
  refine (exec_push_eq_afterTurn (s := { s with parse := some (p.goto .firstByte) }) rfl hw
    hstep).trans ?_
  exact congrArg Host.Outcome.next (State.afterTurn_congr rfl rfl turn)

/-- A redispatch does not look at the ParseState, the window, the waiting bytes or the result of the
machine it runs in. -/
theorem State.redispatch_congr {s s' : State} (hw : s.window = .none) (hw' : s'.window = .none)
    (hport : s'.port = s.port) (hevents : s'.events = s.events) (p : ParseState) (b : Byte) :
    s'.redispatch p b = s.redispatch p b := by
  obtain ⟨turn, h⟩ := firstByte_answers p b
  rw [redispatch_eq_afterTurn hw h, redispatch_eq_afterTurn hw' h,
    State.afterTurn_congr hport hevents]

/-- Settles O20: after the window of a failure `FIRST_BYTE` runs on the byte the window holds. -/
theorem rescanIsDispatch : Obligations.RescanIsDispatch := by
  intro s p b answer hp hw htodo
  obtain ⟨turn, h⟩ := firstByte_answers p b
  have hopen : s.window ≠ .none := by rw [hw]; nofun
  have hturn : afterWindow answer p s.window = .ok turn := by rw [hw]; exact h
  rw [hostReturn_eq_afterTurn hp hopen htodo hturn,
    redispatch_eq_afterTurn (s := { s with window := .none }) rfl h]
  exact congrArg Host.Outcome.next (State.afterTurn_congr rfl rfl turn)

/-- Settles O22: with the buffer full the byte step is `FAIL_TOO_LONG`, and the return from its window
dispatches the byte (`rescanIsDispatch`). -/
theorem tooLong : Obligations.TooLong := by
  intro s p b hp hw hinv hf hfull
  have hstep : byteStep p b = failTooLong p b :=
    (byteStep_inFrame hf b).trans (if_pos hfull.ge)
  have hslice : p.slice 0 p.length = .ok p.frameBytes :=
    ParseState.slice_of_readMany hinv.readMany_frame
  refine ⟨hinv.frameBytes_length.trans hfull, fun hen => ⟨?_, fun answer => ?_⟩, fun hen => ?_⟩
  · refine exec_push_of_raise hp hw (hstep.trans ?_)
    rw [failTooLong, if_pos hen, hslice]
  · rw [rescanIsDispatch _ p b answer rfl rfl rfl]
    exact State.redispatch_congr
      (s := { s with events := s.events ++ [.invalidData .tooLong p.frameBytes] })
      (s' := { s.raised p _ _ with window := .none }) hw rfl rfl rfl p b
  · refine exec_push_eq_redispatch hp hw (hstep.trans ?_)
    rw [failTooLong, if_neg (by simp [hen])]

/-! ### Nothing stops the machine -/

/-- A generator's answer is a value. -/
theorem exec_generator_value {i : Instr} (h : opClass i = .generator) (s : State) :
    ∃ r, exec i s = .next (s.answer r) ∧ r ≠ .refused := by
  cases i with
  | xor8Upd _ _ | crc24qUpd _ _ | fl8Upd _ _ _ | ccitt16Upd _ _ | crc32rUpd _ _ | spCrc4Upd _ _
  | spCrc8Upd _ _ | spCrc16Upd _ _ | spCrc24Upd _ _ | spCrc32Upd _ _ => exact ⟨_, rfl, nofun⟩
  | _ => cases h

/-- The two parts of being configured with no window open. -/
theorem State.of_running {s : State} (h : (s.configured && decide (s.window = .none)) = true) :
    (∃ p, s.parse = some p) ∧ s.window = .none := by
  obtain ⟨hp, hw⟩ := Bool.and_eq_true_iff.mp h
  exact ⟨Option.isSome_iff_exists.mp hp, of_decide_eq_true hw⟩

/-- A run of bytes where PUSH is legal goes on, and leaves no result. -/
theorem State.Inv.pushOctets_answers {s : State} (h : s.Inv) (bytes : List Byte)
    (hrun : (s.configured && decide (s.window = .none)) = true) :
    ∃ t, pushOctets bytes s = .next t ∧ t.result ≠ .refused := by
  obtain ⟨⟨p, hp⟩, hw⟩ := State.of_running hrun
  obtain ⟨hinv, hprogress⟩ := h.idle hp hw
  obtain ⟨t, ht, -⟩ := runBytes_safe bytes hp hinv hprogress hw h.payloads
  refine ⟨t, (pushOctets_run bytes hw hp).trans ht, ?_⟩
  obtain ⟨done, q, -, rfl | ⟨_, _, _, _, _, -, -, rfl⟩⟩ := runBytes_cases hp ht <;> nofun

/-- An operation that the legality table lets run goes on; none but a reader is then refused. -/
theorem State.Inv.exec_allowed {s : State} (h : s.Inv) {i : Instr}
    (ha : s.allows (opClass i) = true) :
    ∃ t, exec i s = .next t ∧ (opClass i ≠ .reader → t.result ≠ .refused) := by
  have hcontrol {write : ParseState → ParseState}
      (hrun : (s.configured && decide (s.window = .none)) = true) :
      ∃ t, control s write = .next t ∧ t.result ≠ .refused := by
    obtain ⟨⟨p, hp⟩, hw⟩ := State.of_running hrun
    exact ⟨_, control_legal hp hw write, nofun⟩
  by_cases hgen : opClass i = .generator
  · obtain ⟨r, hr, hne⟩ := exec_generator_value hgen s
    exact ⟨_, hr, fun _ => hne⟩
  by_cases hread : opClass i = .reader
  · obtain ⟨r, hr⟩ := h.reader_answers hread
    exact ⟨_, hr, fun hne => absurd hread hne⟩
  cases i with
  | beginParser a =>
    refine ⟨Machine.beginParser a s, if_pos (of_decide_eq_true ha), fun _ => ?_⟩
    unfold Machine.beginParser
    split <;> nofun
  | stop => exact ⟨_, exec_stop_legal (of_decide_eq_true ha), fun _ => nofun⟩
  | setIdCb _ | dbgEn | dbgDis | errEn | errDis =>
    obtain ⟨t, ht, hr⟩ := hcontrol ha
    exact ⟨t, ht, fun _ => hr⟩
  | push _ | pushN _ | frameNmea _ | frameUhash _ | frameRtcm _ _ | frameUbx _ _ _ _
  | frameSbf _ _ _ _ _ | frameSpartn _ _ _ _ _ _ | frameUbin _ _ _ _ _ =>
    obtain ⟨t, ht, hr⟩ := h.pushOctets_answers _ ha
    exact ⟨t, ht, fun _ => hr⟩
  | xor8Upd _ _ | crc24qUpd _ _ | fl8Upd _ _ _ | ccitt16Upd _ _ | crc32rUpd _ _ | spCrc4Upd _ _
  | spCrc8Upd _ _ | spCrc16Upd _ _ | spCrc24Upd _ _ | spCrc32Upd _ _ => exact absurd rfl hgen
  | _ => exact absurd rfl hread

/-- Settles O15: what the table refuses by `exec_of_not_allowed`, what it lets run by
`State.Inv.exec_allowed`, STOP of an unconfigured core by `exec_stop_legal`. -/
theorem legalityTable : Obligations.LegalityTable := fun i s =>
  ⟨exec_of_not_allowed, fun ha h => h.exec_allowed ha, fun hp hw => by
    rw [exec_stop_legal hw, ← hp]⟩

theorem State.Inv.exec_answers {s : State} (h : s.Inv) (i : Instr) : ∃ t, exec i s = .next t := by
  cases ha : s.allows (opClass i) with
  | false => exact ⟨_, exec_of_not_allowed ha⟩
  | true =>
    obtain ⟨t, ht, -⟩ := h.exec_allowed ha
    exact ⟨t, ht⟩

/-- In a state of the invariant the host's return always goes on (60_exceptions.md R360). -/
theorem State.Inv.hostReturn_answers {s : State} (h : s.Inv) (answer : Bool) :
    ∃ t, hostReturn answer s = .next t := by
  by_cases hw : s.window = .none
  · exact ⟨_, if_pos hw⟩
  cases hp : s.parse with
  | none => exact absurd (h.unconfigured hp) hw
  | some p =>
    obtain ⟨hinv, hfits⟩ := h.parseOk p hp
    obtain ⟨⟨q, raised⟩, hturn, hgood⟩ := afterWindow_safe hinv hw hfits answer
    cases raised with
    | none =>
      obtain ⟨t, ht, -⟩ := runBytes_safe s.todo (s := { s with parse := some q, window := .none })
        rfl hgood.1 hgood.2 rfl h.payloads
      exact ⟨t, (hostReturn_of_quiet hp hw hturn).trans ht⟩
    | some ew => exact ⟨_, hostReturn_of_raise hp hw hturn⟩

/-- Settles O35: an instruction by `State.Inv.exec_answers`, bytes that are none are refused or pushed,
a return by `State.Inv.hostReturn_answers`. -/
theorem stepAnswers : Obligations.StepAnswers := by
  intro s h
  unfold step
  split
  · exact ⟨s, rfl⟩
  · rename_i r rest hport
    have htake := h.take rest
    unfold runRecord
    split
    · exact htake.exec_answers _
    · unfold runUndecoded
      split
      · exact ⟨_, rfl⟩
      · exact htake.exec_answers (.pushN r.bytes)
  · rename_i answer rest hport
    have hrest : State.Inv { s with port := rest } :=
      h.of_same rfl rfl rfl (List.Subset.refl _)
    exact hrest.hostReturn_answers answer

end Sys2Proof.Machine
end

section
/-! PROOF. The bit-serial engines of 40_generators.md section 2 as linear maps: the table-driven form, and
the zero residue of a message followed by its own CRC (section 5). -/

namespace Sys2Proof.Machine

/-! ### Eight shifts -/

theorem times8_eq_foldl {α : Type} (f : α → α) (x : α) :
    (List.range 8).foldl (fun r _ => f r) x = times8 f x := rfl

/-- The map respects exclusive or, as both engines' shifts do. -/
def XorLinear {w : Nat} (f : BitVec w → BitVec w) : Prop := ∀ x y, f (x ^^^ y) = f x ^^^ f y

/-- No value but 0 is brought to 0. -/
def OnlyZeroToZero {w : Nat} (f : BitVec w → BitVec w) : Prop := ∀ x, f x = 0 → x = 0

theorem XorLinear.zero {w : Nat} {f : BitVec w → BitVec w} (h : XorLinear f) : f 0 = 0 := by
  have h0 := h 0 0
  rwa [BitVec.xor_self, BitVec.xor_self] at h0

theorem XorLinear.times8 {w : Nat} {f : BitVec w → BitVec w} (h : XorLinear f) :
    XorLinear (times8 f) := fun x y => by
  have hxor (x y : BitVec w) : f (x ^^^ y) = f x ^^^ f y := h x y
  simp only [Machine.times8, hxor]

theorem OnlyZeroToZero.times8 {w : Nat} {f : BitVec w → BitVec w} (h : OnlyZeroToZero f) :
    OnlyZeroToZero (times8 f) := fun _ hx =>
  h _ (h _ (h _ (h _ (h _ (h _ (h _ (h _ hx)))))))

/-! ### One shift of each engine -/

/-- A polynomial taken in twice is none. -/
theorem xor_xor_cancel {w : Nat} (x y poly : BitVec w) :
    (x ^^^ poly) ^^^ (y ^^^ poly) = x ^^^ y := by
  rw [BitVec.xor_comm y, ← BitVec.xor_assoc, BitVec.xor_assoc x, BitVec.xor_self, BitVec.xor_zero]

section
variable {w : Nat} (poly : BitVec w)

theorem nrShift_linear : XorLinear (nrShift poly) := fun x y => by
  unfold nrShift
  rw [BitVec.msb_xor, BitVec.shiftLeft_xor_distrib]
  cases x.msb <;> cases y.msb <;> simp only [Bool.xor_false, Bool.xor_true, Bool.not_false,
    Bool.not_true, if_true, Bool.false_eq_true, if_false]
  case true.true => exact (xor_xor_cancel ..).symm
  all_goals ac_rfl

theorem rfShift_linear : XorLinear (rfShift poly) := fun x y => by
  unfold rfShift
  rw [BitVec.getLsbD_xor, BitVec.ushiftRight_xor_distrib]
  cases x.getLsbD 0 <;> cases y.getLsbD 0 <;> simp only [Bool.xor_false, Bool.xor_true,
    Bool.not_false, Bool.not_true, if_true, Bool.false_eq_true, if_false]
  case true.true => exact (xor_xor_cancel ..).symm
  all_goals ac_rfl

/-- Where the bit that a shift to the right dropped was 0, the non-reflected engine shifts back. -/
theorem nrShift_ushiftRight {y : BitVec w} {k : Nat} (h : y.getLsbD k = false) :
    nrShift poly (y >>> (k + 1)) = y >>> k := by
  have hmsb : (y >>> (k + 1)).msb = false := by simp
  rw [nrShift, hmsb, if_neg Bool.false_ne_true]
  ext j hj
  cases j with
  | zero => simpa using h.symm
  | succ j => simp [Nat.add_assoc, Nat.add_comm 1]

/-- Where the bit that a shift to the left dropped was 0, the reflected engine shifts back. -/
theorem rfShift_shiftLeft {y : BitVec w} {k : Nat} (h : ∀ j, w ≤ j + (k + 1) → y.getLsbD j = false) :
    rfShift poly (y <<< (k + 1)) = y <<< k := by
  have hlsb : (y <<< (k + 1)).getLsbD 0 = false := by simp
  rw [rfShift, hlsb, if_neg Bool.false_ne_true]
  ext j hj
  rw [BitVec.getElem_ushiftRight, BitVec.getElem_shiftLeft, BitVec.getLsbD_shiftLeft]
  by_cases hjk : j < k
  · simp [hjk, show 1 + j < k + 1 by omega]
  · by_cases htop : 1 + j < w
    · simp [hjk, htop, show ¬1 + j < k + 1 by omega, show 1 + j - (k + 1) = j - k by omega,
        BitVec.getLsbD_eq_getElem (show j - k < w by omega)]
    · have hzero := h (j - k) (by omega)
      rw [BitVec.getLsbD_eq_getElem (by omega)] at hzero
      simp [hjk, htop, hzero]

/-- Eight shifts where the low 8 bits are 0. -/
theorem times8_nrShift {y : BitVec w} (h : ∀ k < 8, y.getLsbD k = false) :
    times8 (nrShift poly) (y >>> 8) = y := by
  have hback (k : Nat) (hk : k < 8) : nrShift poly (y >>> (k + 1)) = y >>> k :=
    nrShift_ushiftRight poly (h k hk)
  rw [times8, hback 7 (by omega), hback 6 (by omega), hback 5 (by omega), hback 4 (by omega),
    hback 3 (by omega), hback 2 (by omega), hback 1 (by omega), hback 0 (by omega),
    BitVec.ushiftRight_zero]

/-- Eight shifts where the high 8 bits are 0. -/
theorem times8_rfShift {y : BitVec w} (h : ∀ j, w ≤ j + 8 → y.getLsbD j = false) :
    times8 (rfShift poly) (y <<< 8) = y := by
  have hback (k : Nat) (hk : k < 8) : rfShift poly (y <<< (k + 1)) = y <<< k :=
    rfShift_shiftLeft poly fun j hj => h j (by omega)
  rw [times8, hback 7 (by omega), hback 6 (by omega), hback 5 (by omega), hback 4 (by omega),
    hback 3 (by omega), hback 2 (by omega), hback 1 (by omega), hback 0 (by omega),
    BitVec.shiftLeft_zero]

/-- A non-reflected polynomial with its constant term loses nothing. -/
theorem nrShift_onlyZero (hp : poly.getLsbD 0 = true) : OnlyZeroToZero (nrShift poly) := by
  intro x h
  have hlow : (nrShift poly x).getLsbD 0 = x.msb := by
    unfold nrShift
    split_ifs with hmsb <;> simp [hmsb, hp]
  have hmsb : x.msb = false := by rw [← hlow, h, BitVec.ofNat_eq_ofNat, BitVec.getLsbD_zero]
  rw [nrShift, hmsb, if_neg Bool.false_ne_true] at h
  ext j hj
  by_cases htop : j + 1 < w
  · have hbit := congrArg (·.getLsbD (j + 1)) h
    simpa [htop, hj] using hbit
  · rw [BitVec.msb_eq_getLsbD_last, show w - 1 = j by omega,
      BitVec.getLsbD_eq_getElem hj] at hmsb
    simpa using hmsb

/-- A reflected polynomial with its constant term loses nothing. -/
theorem rfShift_onlyZero (hp : poly.msb = true) : OnlyZeroToZero (rfShift poly) := by
  intro x h
  have hhigh : (rfShift poly x).msb = x.getLsbD 0 := by
    unfold rfShift
    split_ifs with hlsb <;> simp [hlsb, hp]
  have hlsb : x.getLsbD 0 = false := by rw [← hhigh, h, BitVec.ofNat_eq_ofNat, BitVec.msb_zero]
  rw [rfShift, hlsb, if_neg Bool.false_ne_true] at h
  ext j hj
  cases j with
  | zero => simpa [hj] using hlsb
  | succ j =>
    have hbit := congrArg (·.getLsbD j) h
    simpa [Nat.add_comm 1, hj] using hbit

end

/-! ### The generators and the table-driven form -/

/-- A non-reflected engine written as a fold, with the bit that leaves named by its index. -/
theorem nrUpd_eq_foldl {w : Nat} (poly acc : BitVec w) (b : Byte) :
    (List.range 8).foldl (fun r _ => if r.getLsbD (w - 1) then (r <<< 1) ^^^ poly else r <<< 1)
      (acc ^^^ (b.setWidth w <<< (w - 8))) = nrUpd poly acc b := by
  have hshift (r : BitVec w) :
      (if r.getLsbD (w - 1) then (r <<< 1) ^^^ poly else r <<< 1) = nrShift poly r := by
    rw [nrShift, BitVec.msb_eq_getLsbD_last]
  simp only [hshift, times8_eq_foldl]
  rfl

/-- Settles O8: a generator answers its engine's update, which is the statement's fold of eight
shifts. -/
theorem crcGenerators : Obligations.CrcGenerators := by
  unfold Obligations.CrcGenerators
  intro nonReflected reflected a4 a8 a16 a24 a32 b s
  have hnr (w : Nat) (poly acc : BitVec w) (b : Byte) :
      nonReflected w poly acc b = nrUpd poly acc b := nrUpd_eq_foldl poly acc b
  simp only [hnr]
  exact ⟨rfl, rfl, rfl, rfl, rfl, rfl, rfl, rfl⟩

/-- Settles O9: both engines are linear, and the part of the accumulator that eight shifts leave
untouched comes back shifted (`times8_nrShift`, `times8_rfShift`). -/
theorem tableDriven : Obligations.TableDriven := by
  refine ⟨fun w poly acc b hw => ?_, fun w poly acc b hw => ?_, fun poly acc b => ?_⟩
  · have hsplit : acc ^^^ (b.setWidth w <<< (w - 8)) =
        ((acc <<< 8) >>> 8) ^^^
          (0 ^^^ ((((acc >>> (w - 8)).setWidth 8 ^^^ b).setWidth w) <<< (w - 8))) := by
      ext j hj
      simp only [BitVec.getElem_xor, BitVec.getElem_ushiftRight, BitVec.getElem_shiftLeft,
        BitVec.getLsbD_shiftLeft, BitVec.getElem_setWidth, BitVec.getLsbD_setWidth,
        BitVec.getLsbD_xor, BitVec.getLsbD_ushiftRight]
      by_cases htop : j < w - 8
      · simp [htop, show 8 + j < w by omega, hj]
      · simp [htop, show ¬8 + j < w by omega, show j - (w - 8) < 8 by omega,
          show w - 8 + (j - (w - 8)) = j by omega, BitVec.getLsbD_eq_getElem hj]
    rw [nrUpd, hsplit, (nrShift_linear poly).times8, times8_nrShift]
    · rfl
    · intro k hk
      simp [hk]
  · have hsplit : acc ^^^ b.setWidth w =
        ((acc >>> 8) <<< 8) ^^^ (0 ^^^ (acc.setWidth 8 ^^^ b).setWidth w) := by
      ext j hj
      simp only [BitVec.getElem_xor, BitVec.getElem_ushiftRight, BitVec.getElem_shiftLeft,
        BitVec.getElem_setWidth, BitVec.getLsbD_setWidth, BitVec.getLsbD_xor]
      by_cases hlow : j < 8
      · simp [hlow, BitVec.getLsbD_eq_getElem hj]
      · simp [hlow, show 8 + (j - 8) = j by omega, BitVec.getLsbD_eq_getElem hj]
    rw [rfUpd, hsplit, (rfShift_linear poly).times8, times8_rfShift]
    · rfl
    · intro j hj
      simp [BitVec.getLsbD_of_ge acc (8 + j) (by omega)]
  · simp [rfUpd4]

/-! ### Zero residue, most significant byte first -/

/-- The bytes of a trailer from the top of the accumulator down, as the non-reflected engine takes them
in. -/
def fromTop (w : Nat) : List Byte → BitVec w
  | [] => 0
  | b :: bs => (b.setWidth w <<< (w - 8)) ^^^ (fromTop w bs >>> 8)

/-- What the bytes do not reach is 0. -/
theorem fromTop_low {w : Nat} {bs : List Byte} {k : Nat} (h : k + 8 * bs.length < w) :
    (fromTop w bs).getLsbD k = false := by
  induction bs generalizing k with
  | nil => simp [fromTop]
  | cons b bs ih =>
    rw [List.length_cons] at h
    have hrest := ih (k := 8 + k) (by omega)
    simp [fromTop, hrest, show k < w - 8 by omega]

/-- A trailer that fits the accumulator is taken in as if it stood there at once. -/
theorem foldl_nrUpd {w : Nat} (poly acc : BitVec w) {bs : List Byte} (h : 8 * bs.length ≤ w) :
    bs.foldl (nrUpd poly) acc = (times8 (nrShift poly))^[bs.length] (acc ^^^ fromTop w bs) := by
  induction bs generalizing acc with
  | nil => simp [fromTop]
  | cons b bs ih =>
    rw [List.length_cons] at h
    have hlow : times8 (nrShift poly) (fromTop w bs >>> 8) = fromTop w bs :=
      times8_nrShift poly fun k hk => fromTop_low (by omega)
    rw [List.foldl_cons, ih _ (by omega), List.length_cons, Function.iterate_succ_apply, fromTop,
      ← BitVec.xor_assoc, (nrShift_linear poly).times8, hlow, nrUpd]

theorem iterate_eq_zero {w : Nat} {f : BitVec w → BitVec w} (hl : XorLinear f)
    (hz : OnlyZeroToZero f) (n : Nat) (x : BitVec w) : f^[n] x = 0 ↔ x = 0 := by
  induction n generalizing x with
  | zero => rfl
  | succ n ih =>
    rw [Function.iterate_succ_apply, ih]
    exact ⟨hz x, fun h => by rw [h, hl.zero]⟩

/-- The residue is 0 exactly when the trailer is what the accumulator holds. -/
theorem foldl_nrUpd_eq_zero {w : Nat} {poly : BitVec w} (hp : poly.getLsbD 0 = true)
    (acc : BitVec w) {bs : List Byte} (h : 8 * bs.length ≤ w) :
    bs.foldl (nrUpd poly) acc = 0 ↔ fromTop w bs = acc := by
  rw [foldl_nrUpd poly acc h, iterate_eq_zero (nrShift_linear poly).times8
    (nrShift_onlyZero poly hp).times8, BitVec.ofNat_eq_ofNat, BitVec.xor_eq_zero_iff, eq_comm]

theorem getLsbD_fromTop_cons {w j : Nat} (b : Byte) (bs : List Byte) (hj : j < w) :
    (fromTop w (b :: bs)).getLsbD j =
      if j < w - 8 then (fromTop w bs).getLsbD (8 + j) else b.getLsbD (j - (w - 8)) := by
  split_ifs with h
  · simp [fromTop, h]
  · simp [fromTop, h, hj, BitVec.getLsbD_of_ge (fromTop w bs) (8 + j) (by omega)]

theorem fromTop_eight (a : Byte) : fromTop 8 [a] = a := by
  simp [fromTop]

theorem fromTop_sixteen (a b : Byte) : fromTop 16 [a, b] = a ++ b := by
  refine BitVec.eq_of_getLsbD_eq fun j hj => ?_
  rw [BitVec.getLsbD_append, getLsbD_fromTop_cons a _ hj]
  by_cases h : j < 8
  · rw [if_pos h, if_pos h, getLsbD_fromTop_cons b _ (by omega), if_neg (by omega),
      show 8 + j - (16 - 8) = j by omega]
  · rw [if_neg h, if_neg h]

theorem fromTop_twentyFour (a b c : Byte) : fromTop 24 [a, b, c] = a ++ b ++ c := by
  refine BitVec.eq_of_getLsbD_eq fun j hj => ?_
  rw [BitVec.getLsbD_append, BitVec.getLsbD_append, getLsbD_fromTop_cons a _ hj]
  by_cases hlow : j < 8
  · rw [if_pos (by omega), if_pos hlow, getLsbD_fromTop_cons b _ (by omega), if_pos (by omega),
      getLsbD_fromTop_cons c _ (by omega), if_neg (by omega),
      show 8 + (8 + j) - (24 - 8) = j by omega]
  by_cases hmid : j < 16
  · rw [if_pos hmid, if_neg hlow, if_pos (by omega), getLsbD_fromTop_cons b _ (by omega),
      if_neg (by omega), show 8 + j - (24 - 8) = j - 8 by omega]
  · rw [if_neg hmid, if_neg hlow, if_neg (by omega), show j - 8 - 8 = j - (24 - 8) by omega]

/-- A value is its bytes, most significant first: one byte, two, three. -/
theorem eq_beBytes_one {a : Byte} {v : BitVec 8} : fromTop 8 [a] = v ↔ [a] = beBytes v 1 := by
  rw [fromTop_eight, show beBytes v 1 = [v] from congrArg (fun b => [b]) (byteOf_zero v)]
  exact ⟨fun h => by rw [h], fun h => (List.cons.inj h).1⟩

theorem eq_beBytes_two {a b : Byte} {v : BitVec 16} :
    fromTop 16 [a, b] = v ↔ [a, b] = beBytes v 2 := by
  have hv : beBytes v 2 = [byteOf v 1, byteOf v 0] := rfl
  rw [fromTop_sixteen, hv]
  constructor
  · rintro rfl
    rw [byteOf_append_succ, byteOf_append_zero, byteOf_zero]
  · intro h
    simp only [List.cons.injEq, and_true] at h
    rw [h.1, h.2, bytes16_append]

theorem eq_beBytes_three {a b c : Byte} {v : BitVec 24} :
    fromTop 24 [a, b, c] = v ↔ [a, b, c] = beBytes v 3 := by
  have hv : beBytes v 3 = [byteOf v 2, byteOf v 1, byteOf v 0] := rfl
  rw [fromTop_twentyFour, hv]
  constructor
  · rintro rfl
    simp only [byteOf_append_succ, byteOf_append_zero, byteOf_zero]
  · intro h
    simp only [List.cons.injEq, and_true] at h
    obtain ⟨ha, hb, hc⟩ := h
    rw [ha, hb, hc, bytes24_append]

/-- A block with initial value and final XOR 0 is the fold from 0 (40_generators.md R93). -/
theorem block_eq_foldl {w : Nat} {upd : BitVec w → Byte → BitVec w} {params : CrcParams w}
    (hi : params.init = 0) (hx : params.xorOut = 0) (bytes : List Byte) :
    block upd params bytes = bytes.foldl upd 0 := by
  rw [block, hi, hx, BitVec.ofNat_eq_ofNat, BitVec.xor_zero]

/-- Folding a message and a trailer of the generator's size gives 0 exactly when the trailer holds the
message's CRC. -/
theorem nr_zero_residue {w : Nat} {params : CrcParams w} (hp : params.poly.getLsbD 0 = true)
    (hi : params.init = 0) (hx : params.xorOut = 0) (message : List Byte) {trailer : List Byte}
    (h : 8 * trailer.length ≤ w) :
    (message ++ trailer).foldl (nrUpd params.poly) 0 = 0 ↔
      fromTop w trailer = block (nrUpd params.poly) params message := by
  rw [List.foldl_append, foldl_nrUpd_eq_zero hp _ h, block_eq_foldl hi hx]

/-- The same for a generator of one byte, of two and of three. -/
theorem nr_zero_residue_one {params : CrcParams 8} (hp : params.poly.getLsbD 0 = true)
    (hi : params.init = 0) (hx : params.xorOut = 0) (message : List Byte) {trailer : List Byte}
    (h : trailer.length = 1) :
    (message ++ trailer).foldl (nrUpd params.poly) 0 = 0 ↔
      trailer = beBytes (block (nrUpd params.poly) params message) 1 := by
  obtain ⟨a, rfl⟩ := List.length_eq_one_iff.mp h
  exact (nr_zero_residue hp hi hx message (by simp)).trans eq_beBytes_one

theorem nr_zero_residue_two {params : CrcParams 16} (hp : params.poly.getLsbD 0 = true)
    (hi : params.init = 0) (hx : params.xorOut = 0) (message : List Byte) {trailer : List Byte}
    (h : trailer.length = 2) :
    (message ++ trailer).foldl (nrUpd params.poly) 0 = 0 ↔
      trailer = beBytes (block (nrUpd params.poly) params message) 2 := by
  obtain ⟨a, b, rfl⟩ := List.length_eq_two.mp h
  exact (nr_zero_residue hp hi hx message (by simp)).trans eq_beBytes_two

theorem nr_zero_residue_three {params : CrcParams 24} (hp : params.poly.getLsbD 0 = true)
    (hi : params.init = 0) (hx : params.xorOut = 0) (message : List Byte) {trailer : List Byte}
    (h : trailer.length = 3) :
    (message ++ trailer).foldl (nrUpd params.poly) 0 = 0 ↔
      trailer = beBytes (block (nrUpd params.poly) params message) 3 := by
  obtain ⟨a, b, c, rfl⟩ := List.length_eq_three.mp h
  exact (nr_zero_residue hp hi hx message (by simp)).trans eq_beBytes_three

/-- Settles O10: each generator's polynomial has its constant term. -/
theorem zeroResidueMsbFirst : Obligations.ZeroResidueMsbFirst := fun message _ =>
  ⟨nr_zero_residue_three (params := generatorParams.crc24q) rfl rfl rfl message,
    nr_zero_residue_two (params := generatorParams.ccitt16) rfl rfl rfl message,
    nr_zero_residue_one (params := generatorParams.spCrc8) rfl rfl rfl message,
    nr_zero_residue_two (params := generatorParams.spCrc16) rfl rfl rfl message,
    nr_zero_residue_three (params := generatorParams.spCrc24) rfl rfl rfl message⟩

/-! ### Zero residue, least significant byte first -/

/-- The bytes of a trailer from the bottom of the accumulator up, as the reflected engine takes them
in. -/
def fromBottom (w : Nat) : List Byte → BitVec w
  | [] => 0
  | b :: bs => b.setWidth w ^^^ (fromBottom w bs <<< 8)

theorem getLsbD_fromBottom_cons {w j : Nat} (b : Byte) (bs : List Byte) (hj : j < w) :
    (fromBottom w (b :: bs)).getLsbD j =
      if j < 8 then b.getLsbD j else (fromBottom w bs).getLsbD (j - 8) := by
  split_ifs with h
  · simp [fromBottom, h, hj]
  · simp [fromBottom, h, hj, BitVec.getLsbD_of_ge b j (by omega),
      BitVec.getLsbD_eq_getElem (x := fromBottom w bs) (show j - 8 < w by omega)]

/-- What the bytes do not reach is 0. -/
theorem fromBottom_high {w : Nat} {bs : List Byte} {k : Nat} (h : 8 * bs.length ≤ k) :
    (fromBottom w bs).getLsbD k = false := by
  by_cases hk : k < w
  · induction bs generalizing k with
    | nil => simp [fromBottom]
    | cons b bs ih =>
      rw [List.length_cons] at h
      rw [getLsbD_fromBottom_cons b bs hk, if_neg (by omega), ih (by omega) (by omega)]
  · exact BitVec.getLsbD_of_ge _ _ (by omega)

/-- A trailer that fits the accumulator is taken in as if it stood there at once. -/
theorem foldl_rfUpd {w : Nat} (poly acc : BitVec w) {bs : List Byte} (h : 8 * bs.length ≤ w) :
    bs.foldl (rfUpd poly) acc = (times8 (rfShift poly))^[bs.length] (acc ^^^ fromBottom w bs) := by
  induction bs generalizing acc with
  | nil => simp [fromBottom]
  | cons b bs ih =>
    rw [List.length_cons] at h
    have hhigh : times8 (rfShift poly) (fromBottom w bs <<< 8) = fromBottom w bs :=
      times8_rfShift poly fun k hk => fromBottom_high (by omega)
    rw [List.foldl_cons, ih _ (by omega), List.length_cons, Function.iterate_succ_apply, fromBottom,
      ← BitVec.xor_assoc, (rfShift_linear poly).times8, hhigh, rfUpd]

theorem fromBottom_thirtyTwo (a b c d : Byte) :
    fromBottom 32 [a, b, c, d] = d ++ c ++ b ++ a := by
  refine BitVec.eq_of_getLsbD_eq fun j hj => ?_
  rw [BitVec.getLsbD_append, BitVec.getLsbD_append, BitVec.getLsbD_append,
    getLsbD_fromBottom_cons a _ hj, getLsbD_fromBottom_cons b _ (by omega),
    getLsbD_fromBottom_cons c _ (by omega), getLsbD_fromBottom_cons d _ (by omega)]
  split_ifs with h1 h2 h3 h4
  · rfl
  · rfl
  · rfl
  · rfl
  · omega

/-- A value is its four bytes, least significant first. -/
theorem eq_leBytes_four {a b c d : Byte} {v : BitVec 32} :
    fromBottom 32 [a, b, c, d] = v ↔ [a, b, c, d] = leBytes v 4 := by
  have hv : leBytes v 4 = [byteOf v 0, byteOf v 1, byteOf v 2, byteOf v 3] := rfl
  rw [fromBottom_thirtyTwo, hv]
  constructor
  · rintro rfl
    simp only [byteOf_append_succ, byteOf_append_zero, byteOf_zero]
  · intro h
    simp only [List.cons.injEq, and_true] at h
    obtain ⟨ha, hb, hc, hd⟩ := h
    rw [ha, hb, hc, hd, bytes32_append]

/-- Settles O11: the trailer is taken in as one value (`foldl_rfUpd`), and shifts of the reflected
engine bring no other value to 0. -/
theorem zeroResidueLsbFirst : Obligations.ZeroResidueLsbFirst := by
  intro message trailer h
  obtain ⟨a, b, c, d, rfl⟩ := List.length_eq_four.mp h
  have hlinear := (rfShift_linear generatorParams.crc32r.poly).times8
  have honly := (rfShift_onlyZero generatorParams.crc32r.poly rfl).times8
  have hresidue (acc : BitVec 32) :
      [a, b, c, d].foldl crc32r acc = 0 ↔ fromBottom 32 [a, b, c, d] = acc := by
    rw [show [a, b, c, d].foldl crc32r acc = _ from foldl_rfUpd _ acc (by simp),
      iterate_eq_zero hlinear honly, BitVec.ofNat_eq_ofNat, BitVec.xor_eq_zero_iff, eq_comm]
  rw [List.foldl_append, hresidue, ← eq_leBytes_four, crc32rBlock, block_eq_foldl rfl rfl]

end Sys2Proof.Machine
end

section
/-! PROOF. The signed accessors, the raw variants, and the RTCM queries in a window that shows a frame
(49_accessors.md R305 to R308, R312, R315 to R317). -/

namespace Sys2Proof.Machine

/-! ### The signed accessors -/

theorem leNat_lt (bs : List Byte) : leNat bs < 2 ^ (8 * bs.length) := by
  induction bs with
  | nil => simp [leNat]
  | cons b bs ih =>
    have hb := b.isLt
    rw [leNat, List.length_cons, Nat.mul_succ, Nat.pow_add]
    omega

/-- A number of `w` bits read as two's complement (G12; log 24). -/
theorem toInt_ofNat_of_lt {w v : Nat} (hw : 1 ≤ w) (hv : v < 2 ^ w) :
    (BitVec.ofNat w v).toInt = if v < 2 ^ (w - 1) then (v : Int) else (v : Int) - 2 ^ w := by
  have hpow : 2 ^ w = 2 * 2 ^ (w - 1) := by
    rw [← Nat.pow_succ', Nat.succ_eq_add_one, show w - 1 + 1 = w by omega]
  rw [BitVec.toInt_eq_toNat_cond, BitVec.toNat_ofNat, Nat.mod_eq_of_lt hv]
  refine if_congr (by omega) rfl ?_
  push_cast
  rfl

/-- Settles O48: each row's instruction is an `access` of the row's width, its value the little-endian
sum (`leNat_bytesFrom`) read as two's complement. -/
theorem signedAccessors : Obligations.SignedAccessors := by
  intro row hrow code instr raw n s p k offset hs hi hk ea value
  have hform : (encode (instr offset)).bytes.head? = some code ∧ 1 ≤ n ∧
      exec (instr offset) = (accessor · (·.access raw offset n (asSigned (8 * n)))) := by
    simp only [List.mem_cons, List.not_mem_nil, or_false] at hrow
    rcases hrow with rfl | rfl | rfl | rfl | rfl | rfl | rfl | rfl <;>
      exact ⟨rfl, by decide, rfl⟩
  obtain ⟨hcode, hn, hexec⟩ := hform
  have hsum : leNat (p.bytesFrom ea n) = value := leNat_bytesFrom p ea n
  have hlt : value < 2 ^ (8 * n) := by
    rw [← hsum]
    simpa using leNat_lt (p.bytesFrom ea n)
  have hvalue : asSigned (8 * n) (p.bytesFrom ea n) =
      .signed (8 * n)
        (if value < 2 ^ (8 * n - 1) then (value : Int) else (value : Int) - 2 ^ (8 * n)) := by
    rw [asSigned, memValue, hsum, toInt_ofNat_of_lt (by omega) hlt]
  refine ⟨hcode, ?_⟩
  rw [hexec, ← hvalue]
  exact accessor_answers hs (hi.access_eq hk raw offset n _)

/-! ### The raw variants -/

/-- Of a kind without a payload offset the plain base is the raw one. -/
theorem ParseState.base_plain_eq_raw {p : ParseState} {k : Kind} (hk : p.table[p.active]? = some k)
    (h : payloadOffset k = 0) : p.base false = p.base true := by
  rw [ParseState.base_eq hk, ParseState.base_eq hk]
  simp [h]

/-- An accessor looks at its variant only through the base. -/
theorem accessor_access_congr {s : State} {p : ParseState} (hs : s.Shows p)
    (h : p.base false = p.base true) (offset : LenWord) (n : Nat) (form : List Byte → Result) :
    accessor s (·.access false offset n form) = accessor s (·.access true offset n form) := by
  rw [accessor_readable hs.readable, accessor_readable hs.readable]
  simp only [ParseState.access, h]

theorem accessor_accessStr_congr {s : State} {p : ParseState} (hs : s.Shows p)
    (h : p.base false = p.base true) (offset : LenWord) :
    accessor s (·.accessStr false offset) = accessor s (·.accessStr true offset) := by
  rw [accessor_readable hs.readable, accessor_readable hs.readable]
  simp only [ParseState.accessStr, h]

/-- Settles O50: of every kind but UBX the payload offset is 0, and an accessor looks at its variant
only through the base. -/
theorem rawVariantsCoincide : Obligations.RawVariantsCoincide := by
  have hoffset (k : Kind) : payloadOffset k = if k = .ubx then 6 else 0 := by cases k <;> rfl
  refine ⟨hoffset, fun s p k offset hs hk hne pair hpair => ?_⟩
  have hbase : p.base false = p.base true :=
    ParseState.base_plain_eq_raw hk ((hoffset k).trans (if_neg hne))
  simp only [List.mem_cons, List.not_mem_nil, or_false] at hpair
  rcases hpair with rfl | rfl | rfl | rfl | rfl | rfl | rfl | rfl | rfl | rfl | rfl
  case inr.inr.inr.inr.inr.inr.inr.inr.inr.inr => exact accessor_accessStr_congr hs hbase offset
  all_goals exact accessor_access_congr hs hbase offset _ _

/-! ### The RTCM queries -/

/-- Settles O52: the record's 16-bit field cut to its 12 bits (`query_answers`). -/
theorem rtcmMsgId : Obligations.RtcmMsgId := by
  intro s p r hs hk hsp
  have hvalue : r.messageId.setWidth 12 = BitVec.ofNat 12 r.messageId.toNat :=
    BitVec.eq_of_toNat_eq (by simp)
  rw [← hvalue]
  exact query_answers hs hk hsp rfl

/-- Bit `k` of the payload in `buffer` (49_accessors.md R316); a byte without a value stands as 0. -/
def ParseState.bitAt (p : ParseState) (k : Nat) : Bool :=
  ((p.buffer.read (3 + k / 8)).getD 0).getLsbD (7 - k % 8)

theorem ParseState.Inv.payloadBit_eq {p : ParseState} (h : p.Inv) {k : Nat}
    (hk : 24 + k < 8 * p.length) : p.payloadBit k = .ok (p.bitAt k) := by
  rw [ParseState.payloadBit, ParseState.byteAt_of_read (h.read_eq (by omega)), ParseState.bitAt]

/-- A bit field inside the frame slice: its bits shifted in one after the other, the first ending
highest, below what stood in `v`. -/
theorem ParseState.Inv.bitField_eq {p : ParseState} (h : p.Inv) {start width : Nat}
    (hfit : 24 + start + width ≤ 8 * p.length) (v : BitVec 64) :
    ∃ field, p.bitField start width v = .ok field ∧
      ∀ j < 64, field.getLsbD j =
        if j < width then p.bitAt (start + (width - 1 - j)) else v.getLsbD (j - width) := by
  induction width generalizing start v with
  | zero => exact ⟨v, rfl, fun j _ => by simp⟩
  | succ width ih =>
    have hbit := h.payloadBit_eq (k := start) (by omega)
    simp only [ParseState.bitField, hbit]
    obtain ⟨field, hfield, hbits⟩ := ih (start := start + 1) (by omega)
      ((v <<< 1) ||| (BitVec.ofBool (p.bitAt start)).setWidth 64)
    refine ⟨field, hfield, fun j hj => ?_⟩
    rw [hbits j hj]
    rcases Nat.lt_trichotomy j width with hlt | rfl | hgt
    · rw [if_pos hlt, if_pos (by omega),
        show start + 1 + (width - 1 - j) = start + (width + 1 - 1 - j) by omega]
    · rw [if_neg (by omega), if_pos (by omega)]
      simp
    · rw [if_neg (by omega), if_neg (by omega)]
      simp [show j - width < 64 by omega, show j - width - 1 = j - (width + 1) by omega,
        show ¬j - width = 0 by omega,
        BitVec.getLsbD_eq_getElem (x := v) (show j - (width + 1) < 64 by omega)]

/-- The bit field of an RTCM query, in full: zero above the width. -/
theorem ParseState.Inv.rtcmField_eq {p : ParseState} (h : p.Inv) {start width : Nat}
    (hmin : 1 ≤ width) (hmax : width ≤ 64) (hfit : 24 + start + width ≤ 8 * p.length) :
    ∃ v : BitVec 64,
      (∀ j < 64, v.getLsbD j =
        (decide (j < width) && p.bitAt (start + (width - 1 - j)))) ∧
      ∀ form : BitVec 64 → Result, p.rtcmField start width form = .ok (form v) := by
  obtain ⟨v, hv, hbits⟩ := h.bitField_eq hfit 0
  refine ⟨v, fun j hj => ?_, fun form => ?_⟩
  · rw [hbits j hj]
    by_cases hj' : j < width <;> simp [hj']
  · rw [ParseState.rtcmField, if_neg (by omega), hv]

/-- A field of `width` bits with nothing above it, read as two's complement. -/
theorem toInt_setWidth_field {v : BitVec 64} {width : Nat} (hmin : 1 ≤ width)
    (hhigh : ∀ j, width ≤ j → v.getLsbD j = false) :
    (v.setWidth width).toInt =
      if v.getLsbD (width - 1) then (v.toNat : Int) - 2 ^ width else (v.toNat : Int) := by
  have hlt : v.toNat < 2 ^ width := Nat.lt_pow_two_of_testBit _ fun j hj => hhigh j hj
  have hmsb : (v.setWidth width).msb = v.getLsbD (width - 1) := by
    rw [BitVec.msb_eq_getLsbD_last, BitVec.getLsbD_setWidth]
    simp [show width - 1 < width by omega]
  rw [BitVec.toInt_eq_msb_cond, hmsb, BitVec.toNat_setWidth, Nat.mod_eq_of_lt hlt]
  push_cast
  rfl

/-- Settles O53: both queries read one bit field (`ParseState.Inv.rtcmField_eq`), the signed one as two's
complement (`toInt_setWidth_field`). -/
theorem rtcmBitFields : Obligations.RtcmBitFields := by
  intro s p start width hs hinv hk bit
  obtain ⟨hp, k, r, -, hsp, -⟩ := hinv.readable hs.readable
  refine ⟨fun hout => ?_, fun hmin hmax hfit => ?_⟩
  · have hbad : width.toNat = 0 ∨ 64 < width.toNat ∨
        8 * p.length < 24 + start.toNat + width.toNat :=
      hout.imp_left fun h0 => by rw [h0]; rfl
    exact ⟨query_answers hs hk hsp (if_pos hbad), query_answers hs hk hsp (if_pos hbad)⟩
  · obtain ⟨v, hbits, hfield⟩ := hp.rtcmField_eq hmin hmax hfit
    have hhigh (j : Nat) (hj : width.toNat ≤ j) : v.getLsbD j = false := by
      by_cases h64 : j < 64
      · rw [hbits j h64, decide_eq_false (by omega), Bool.false_and]
      · exact BitVec.getLsbD_of_ge _ _ (by omega)
    have hfirst : v.getLsbD (width.toNat - 1) = bit start.toNat := by
      rw [hbits _ (by omega), decide_eq_true (by omega), Bool.true_and, Nat.sub_self, Nat.add_zero]
      rfl
    refine ⟨v, hbits, query_answers hs hk hsp (hfield _), ?_⟩
    rw [← hfirst, ← toInt_setWidth_field hmin hhigh]
    exact query_answers hs hk hsp (hfield _)

end Sys2Proof.Machine
end

section
/-! PROOF. What the machine makes of a procedure's end, and the failures: a byte that a state rejects, a
SPARTN header that fails its CRC, and the host's two answers to BAD_CRC (60_exceptions.md R352 to R360;
41_dispatch.md R129, R130). -/

namespace Sys2Proof.Machine

/-! ### The end of a procedure -/

/-- What the machine, with no byte waiting, makes of the end of a procedure of a PUSH. -/
def State.finish (s : State) : Except Fault Turn → Host.Outcome State Fault Refusal
  | .ok turn => .next (s.afterTurn turn)
  | .error f => .fault f

theorem exec_push_eq_finish {s : State} {p : ParseState} {b : Byte} (hp : s.parse = some p)
    (hw : s.window = .none) : exec (.push b) s = s.finish (byteStep p b) := by
  cases hstep : byteStep p b with
  | ok turn => exact exec_push_eq_afterTurn hp hw hstep
  | error f => simp [exec_push_eq_runBytes hp hw, runBytes, hp, hstep, State.finish]

theorem hostReturn_eq_finish {answer : Bool} {s : State} {p : ParseState} (hp : s.parse = some p)
    (hw : s.window ≠ .none) (htodo : s.todo = []) :
    hostReturn answer s = s.finish (afterWindow answer p s.window) := by
  cases hturn : afterWindow answer p s.window with
  | ok turn => exact hostReturn_eq_afterTurn hp hw htodo hturn
  | error f => simp [hostReturn, hw, hp, hturn, State.finish]

/-- A procedure that hands its byte on to `FIRST_BYTE`. -/
theorem State.finish_firstByte {s s' : State} (hw : s'.window = .none) (hport : s'.port = s.port)
    (hevents : s'.events = s.events) (q : ParseState) (b : Byte) :
    s.finish (firstByte q b) = s'.redispatch q b := by
  obtain ⟨turn, h⟩ := firstByte_answers q b
  rw [h, redispatch_eq_afterTurn hw h, State.afterTurn_congr hport hevents]
  rfl

/-- FAIL, where the frame before the last byte is `dropped` (60_exceptions.md R352). -/
theorem State.finish_fail {s s' : State} (hw : s'.window = .none) (hport : s'.port = s.port)
    (hevents : s'.events = s.events) {q : ParseState} {dropped : List Byte}
    (hslice : q.slice 0 (q.length - 1) = .ok dropped) (c : Cause) (b : Byte) :
    s.finish (fail c q b) =
      if q.invalidEn then .next (s.raised q (.invalidData c dropped) (.inInvalid (some b)))
      else s'.redispatch q b := by
  unfold fail
  split_ifs
  · rw [hslice]
    rfl
  · exact State.finish_firstByte hw hport hevents q b

/-! ### The bytes before the last one -/

/-- A frame but the byte just stored is the frame before it. -/
theorem ParseState.Inv.slice_append_init {p : ParseState} (h : p.Inv) (b : Byte) :
    (p.append b).slice 0 p.length = .ok p.frameBytes := by
  refine ParseState.slice_of_readMany ?_
  rw [Nat.sub_zero, ← h.readMany_frame]
  refine Memory.readMany_congr fun j hj => ?_
  rw [ParseState.append_buffer, Memory.read_write_other _ _ (by omega)]

theorem ParseState.Inv.slice_frame {p : ParseState} (h : p.Inv) :
    p.slice 0 p.length = .ok p.frameBytes :=
  ParseState.slice_of_readMany h.readMany_frame

theorem ParseState.Inv.slice_init {p : ParseState} (h : p.Inv) :
    p.slice 0 (p.length - 1) = .ok p.frameBytes.dropLast := by
  obtain ⟨hlen, hread⟩ := Memory.readMany_eq_some.mp h.readMany_frame
  refine ParseState.slice_eq_ok.mpr ⟨by simp [hlen], fun j hj => ?_⟩
  rw [hread j (by omega), List.dropLast_eq_take, List.getElem?_take_of_lt (by omega)]

/-- A PUSH whose handler fails the frame, once it has rewritten accumulator and record. -/
theorem exec_push_of_fail {s : State} {p q : ParseState} {b : Byte} {c : Cause}
    (hp : s.parse = some p) (hw : s.window = .none) (hinv : p.Inv) (hq : (p.append b).SameFrame q)
    (hstep : byteStep p b = fail c q b) :
    exec (.push b) s =
      if q.invalidEn then .next (s.raised q (.invalidData c p.frameBytes) (.inInvalid (some b)))
      else s.redispatch q b := by
  have hslice : q.slice 0 (q.length - 1) = .ok p.frameBytes := by
    rw [hq]
    exact hinv.slice_append_init b
  rw [exec_push_eq_finish hp hw, hstep, State.finish_fail hw rfl rfl hslice]

/-! ### A byte that a state rejects -/

theorem isPrintable_eq_false {b : Byte} (h : b.toNat < 0x20 ∨ 0x7E < b.toNat) :
    isPrintable b = false := by
  simp only [isPrintable, Bool.and_eq_false_iff, decide_eq_false_iff_not]
  omega

theorem isHex_eq_false {b : Byte} (h : hexval b = none) : isHex b = false := by
  rw [isHex, h]
  rfl

theorem sbfLengthLegal_eq_false {len : BitVec 16} (h : len.toNat % 4 ≠ 0 ∨ len.toNat < 8) :
    sbfLengthLegal len = false := by
  simp only [sbfLengthLegal, Bool.and_eq_false_iff, beq_eq_false_iff_ne, decide_eq_false_iff_not]
  omega

/-- The accumulator when a state rejects its byte: the two length states have folded it already
(43_rtcm.md R172, 45_sbf.md R218). -/
def ParseState.rejectCrc (p : ParseState) (b : Byte) : BitVec 32 :=
  match p.state with
  | .rtcmLengthHi => (crc24q (p.crc.setWidth 24) b).setWidth 32
  | .sbfLengthHi => (ccitt16 (p.crc.setWidth 16) b).setWidth 32
  | _ => p.crc

/-- The record when a state rejects its byte: the SBF length is set already (45_sbf.md R218). -/
def ParseState.rejectSp (p : ParseState) (b : Byte) : Option Scratch :=
  match p.state, p.sp with
  | .sbfLengthHi, some (.sbf r) =>
    some (.sbf { r with length := r.length ||| (b.setWidth 16 <<< 8) })
  | _, sp => sp

/-- The ParseState that a rejected byte leaves, stored. -/
def ParseState.rejected (p : ParseState) (b : Byte) : ParseState :=
  { p.append b with crc := p.rejectCrc b, sp := p.rejectSp b }

/-- In the states that fold nothing before they reject, the byte is stored and that is all. -/
theorem ParseState.rejected_eq_append {p : ParseState} (b : Byte) (hr : p.state ≠ .rtcmLengthHi)
    (hs : p.state ≠ .sbfLengthHi) : p.rejected b = p.append b := by
  have hcrc : p.rejectCrc b = p.crc := by
    unfold ParseState.rejectCrc
    split
    · exact absurd ‹_› hr
    · exact absurd ‹_› hs
    · rfl
  have hsp : p.rejectSp b = p.sp := by
    unfold ParseState.rejectSp
    split
    · exact absurd ‹_› hs
    · rfl
  rw [ParseState.rejected, hcrc, hsp]
  rfl

/-- The handler of each state fails the bytes that the state rejects, with the cause it names. -/
theorem handler_of_rejects {p : ParseState} {b : Byte} {c : Cause} (h : p.Rejects b c) :
    handler (p.append b) b = fail c (p.rejected b) b := by
  unfold ParseState.Rejects at h
  split at h
  case h_1 r hs hsp =>
    obtain ⟨rfl, hcomma, halnum⟩ := h
    rw [ParseState.rejected_eq_append b (by simp [hs]) (by simp [hs])]
    simp only [handler, ParseState.append_state, hs, nmeaNameStep, withNmea,
      ParseState.append_sp, hsp, if_neg hcomma, if_neg halnum]
  case h_2 hs hsp =>
    obtain ⟨rfl, hstar, habort, hprint⟩ := h
    rw [ParseState.rejected_eq_append b (by simp [hs]) (by simp [hs])]
    simp only [handler, ParseState.append_state, hs, nmeaBodyStep, if_neg hstar]
    exact if_pos ⟨habort, isPrintable_eq_false hprint⟩
  case h_3 hs hsp =>
    obtain ⟨rfl, hhex⟩ := h
    rw [ParseState.rejected_eq_append b (by simp [hs]) (by simp [hs])]
    simp only [handler, ParseState.append_state, hs, nmeaChecksumHiStep, isHex_eq_false hhex,
      Bool.false_eq_true, if_false]
  case h_4 hs hsp =>
    obtain ⟨rfl, hhex⟩ := h
    rw [ParseState.rejected_eq_append b (by simp [hs]) (by simp [hs])]
    simp only [handler, ParseState.append_state, hs, nmeaChecksumLoStep, isHex_eq_false hhex,
      Bool.false_eq_true, if_false]
  case h_5 r hs hsp =>
    obtain ⟨rfl, hreserved⟩ := h
    have hq : p.rejected b = (p.append b).foldCrc24q b := by
      have hkept : p.rejectSp b = p.sp := by simp only [ParseState.rejectSp, hs, hsp]
      rw [ParseState.rejected, hkept]
      simp only [ParseState.rejectCrc, hs]
      rfl
    rw [hq]
    simp only [handler, ParseState.append_state, hs, rtcmLengthHiStep, withRtcm,
      ParseState.append_sp, hsp]
    exact if_neg (by simpa [rtcmReservedZero] using hreserved)
  case h_6 hs hsp =>
    obtain ⟨rfl, hsync⟩ := h
    rw [ParseState.rejected_eq_append b (by simp [hs]) (by simp [hs])]
    simp only [handler, ParseState.append_state, hs, ubxSync2Step, if_neg hsync]
  case h_7 hs hsp =>
    obtain ⟨rfl, hsync⟩ := h
    rw [ParseState.rejected_eq_append b (by simp [hs]) (by simp [hs])]
    simp only [handler, ParseState.append_state, hs, sbfPreamble2Step, if_neg hsync]
  case h_8 r hs hsp =>
    obtain ⟨rfl, hlen⟩ := h
    have hq : p.rejected b = ((p.append b).foldCcitt16 b).setSp
        (.sbf { r with length := r.length ||| (b.setWidth 16 <<< 8) }) := by
      simp only [ParseState.rejected, ParseState.rejectCrc, ParseState.rejectSp, hs, hsp]
      rfl
    rw [hq]
    simp only [handler, ParseState.append_state, hs, sbfLengthHiStep, withSbf,
      ParseState.append_sp, hsp, sbfLengthLegal_eq_false hlen, Bool.false_eq_true, if_false]
  case h_9 hs hsp =>
    obtain ⟨rfl, hsync⟩ := h
    rw [ParseState.rejected_eq_append b (by simp [hs]) (by simp [hs])]
    simp only [handler, ParseState.append_state, hs, ubinSync2Step, if_neg hsync]
  case h_10 hs hsp =>
    obtain ⟨rfl, hsync⟩ := h
    rw [ParseState.rejected_eq_append b (by simp [hs]) (by simp [hs])]
    simp only [handler, ParseState.append_state, hs, ubinSync3Step, withUbin,
      ParseState.append_sp, hsp, if_neg hsync]
  case h_11 r hs hsp =>
    obtain ⟨rfl, hcomma, halnum⟩ := h
    rw [ParseState.rejected_eq_append b (by simp [hs]) (by simp [hs])]
    simp only [handler, ParseState.append_state, hs, uhashNameStep, withUhash,
      ParseState.append_sp, hsp, if_neg hcomma, if_neg halnum]
  case h_12 hs hsp =>
    obtain ⟨rfl, hstar, habort, hprint⟩ := h
    rw [ParseState.rejected_eq_append b (by simp [hs]) (by simp [hs])]
    simp only [handler, ParseState.append_state, hs, uhashBodyStep, withUhash,
      ParseState.append_sp, hsp, if_neg hstar]
    exact if_pos ⟨habort, isPrintable_eq_false hprint⟩
  case h_13 hs hsp =>
    obtain ⟨rfl, hhex⟩ := h
    rw [ParseState.rejected_eq_append b (by simp [hs]) (by simp [hs])]
    simp only [handler, ParseState.append_state, hs, uhashChecksumStep, withUhash,
      ParseState.append_sp, hsp, isHex_eq_false hhex, Bool.false_eq_true, if_false]
  case h_14 => exact h.elim

/-- No state that stores nothing rejects a byte. -/
theorem ParseState.Rejects.inFrame {p : ParseState} {b : Byte} {c : Cause} (h : p.Rejects b c) :
    p.state.inFrame = true := by
  cases hs : p.state with
  | firstByte | lineTerm | crThenLf | lfThenCr => simp [ParseState.Rejects, hs] at h
  | _ => rfl

/-- Settles O21: the byte is stored and its state's handler fails the frame (`handler_of_rejects`). -/
theorem rejectedByte : Obligations.RejectedByte := by
  intro s p b c hp hw hinv hroom hrej
  refine ⟨p.rejected b, fun a => Memory.read_write p.buffer p.length a b, rfl, ?_⟩
  refine exec_push_of_fail (q := p.rejected b) hp hw hinv rfl ?_
  rw [byteStep_inFrame_room hrej.inFrame hroom, handler_of_rejects hrej]

/-! ### A SPARTN header that fails its CRC -/

theorem spartnHdr3Step_of_bad {q : ParseState} {r : SpartnRec} {h1 h2 b : Byte}
    (hsp : q.sp = some (.spartn r)) (hcount : r.frameCount = 2) (h1read : q.byteAt 1 = .ok h1)
    (h2read : q.byteAt 2 = .ok h2) (h3read : q.byteAt 3 = .ok b)
    (hbad : spHdrCrc h1 h2 b ≠ b.extractLsb' 0 4) :
    spartnHdr3Step q b =
      fail .checksum (q.setSp (.spartn { r.header3 b with frameCount := 3 })) b := by
  have hverdict : spartnHeaderVerdict h1 h2 b (b.extractLsb' 0 4) = false :=
    beq_eq_false_iff_ne.mpr hbad
  simp only [spartnHdr3Step, withSpartn, hsp, hcount, h1read, h2read, h3read]
  simp [SpartnRec.header3, hverdict]

/-- Settles O42: the handler of the third header byte, with the byte stored at index 3
(`spartnHdr3Step_of_bad`). -/
theorem spartnHeaderFails : Obligations.SpartnHeaderFails := by
  intro s p r h1 h2 b hp hw hinv hprogress hroom hs hsp hcount hread1 hread2 hbad
  have hlen : p.length = 3 := by
    simp only [ParseState.Progress, hs] at hprogress
    obtain ⟨-, hlen⟩ := hprogress r hsp
    rw [hlen, hcount]
    rfl
  have hread (a : Nat) (ha : a ≠ 3) : (p.append b).buffer.read a = p.buffer.read a :=
    Memory.read_write_other p.buffer b (by omega)
  have hlast : (p.append b).buffer.read 3 = some b := by
    rw [ParseState.append_buffer, hlen]
    exact Memory.read_write_same ..
  refine ⟨(p.append b).setSp (.spartn { r.header3 b with frameCount := 3 }),
    fun a => hlen ▸ Memory.read_write p.buffer p.length a b,
    by simp [ParseState.setSp, ParseState.append, hlen, SpartnRec.header3], ?_⟩
  refine exec_push_of_fail
    (q := (p.append b).setSp (.spartn { r.header3 b with frameCount := 3 })) hp hw hinv rfl ?_
  have hf : p.state.inFrame = true := by rw [hs]; rfl
  rw [byteStep_inFrame_room hf hroom, handler, ParseState.append_state, hs]
  exact spartnHdr3Step_of_bad hsp hcount
    (ParseState.byteAt_of_read ((hread 1 (by omega)).trans hread1))
    (ParseState.byteAt_of_read ((hread 2 (by omega)).trans hread2))
    (ParseState.byteAt_of_read hlast) hbad

/-! ### The host's answer to BAD_CRC -/

/-- The frame with its trailer, as it is delivered: the NUL behind it is no part of it
(41_dispatch.md R130). -/
theorem ParseState.slice_trailer {p : ParseState} {frame : List Byte}
    (h : p.slice 0 p.length = .ok frame) :
    p.trailer.slice 0 p.trailer.length = .ok (frame ++ [0x0D, 0x0A]) := by
  obtain ⟨hlen, hread⟩ := ParseState.slice_eq_ok.mp h
  rw [Nat.sub_zero] at hlen hread
  refine ParseState.slice_eq_ok.mpr ⟨by simp [hlen], fun j hj => ?_⟩
  rw [ParseState.trailer_length, Nat.sub_zero] at hj
  simp only [ParseState.trailer_buffer, Memory.read_write, Nat.zero_add]
  rcases Nat.lt_trichotomy j p.length with hlt | rfl | hgt
  · rw [if_neg (by omega), if_neg (by omega), if_neg (by omega), ← Nat.zero_add j, hread j hlt,
      Nat.zero_add, List.getElem?_append_left (by omega)]
  · simp [← hlen]
  · obtain rfl : j = p.length + 1 := by omega
    rw [if_neg (by omega), if_pos rfl, List.getElem?_append_right (by omega), hlen,
      Nat.add_sub_cancel_left]
    rfl

/-- The buffer with the trailer written behind the frame. -/
theorem ParseState.read_trailer (p : ParseState) (a : Nat) :
    p.trailer.buffer.read a =
      if a = p.length then some 0x0D else if a = p.length + 1 then some 0x0A
      else if a = p.length + 2 then some 0x00 else p.buffer.read a := by
  simp only [ParseState.trailer_buffer, Memory.read_write]
  rcases Nat.lt_trichotomy a (p.length + 1) with hlt | rfl | hgt
  · by_cases ha : a = p.length
    · simp [ha]
    · simp [ha, show a ≠ p.length + 1 by omega, show a ≠ p.length + 2 by omega]
  · simp
  · simp [show a ≠ p.length by omega, show a ≠ p.length + 1 by omega]

theorem deliver_eq {p : ParseState} {frame : List Byte} (h : p.slice 0 p.length = .ok frame) :
    deliver p = raise p (.eom p.active frame) (.inEom false) := by
  rw [deliver, h]

theorem textDeliver_room {p : ParseState} {frame : List Byte} (h : p.slice 0 p.length = .ok frame)
    (hroom : p.length + 3 ≤ p.bufferLength) (b : Byte) :
    textDeliver p b =
      raise p.trailer (.eom p.active (frame ++ [0x0D, 0x0A])) (.inEom true) := by
  rw [textDeliver, if_neg (by omega), ParseState.slice_trailer h]

theorem textDeliver_noRoom {p : ParseState} (hroom : p.bufferLength < p.length + 3) (b : Byte) :
    textDeliver p b = fail .tooLong p b :=
  if_pos hroom

/-- Settles O31: the answer `false` is FAIL, the answer `true` DELIVER or TEXT_DELIVER, on the frame that
stands in the buffer. -/
theorem rescueOrDrop : Obligations.RescueOrDrop := by
  intro s p b text h hp hw htodo closed
  obtain ⟨hinv, -⟩ := h.parseOk p hp
  have hreturn (answer : Bool) :
      hostReturn answer s = s.finish (if answer then complete text p b else fail .checksum p b) := by
    rw [hostReturn_eq_finish hp (by rw [hw]; nofun) htodo, hw]
    rfl
  have hfail (c : Cause) : s.finish (fail c p b) = _ :=
    State.finish_fail (s' := closed) rfl rfl rfl hinv.slice_init c b
  refine ⟨(hreturn false).trans (hfail .checksum), fun ht => ?_, fun ht hroom => ?_,
    fun ht hroom => ?_⟩
  · subst ht
    refine (hreturn true).trans ?_
    exact congrArg s.finish (deliver_eq hinv.slice_frame)
  · subst ht
    refine ⟨p.trailer, p.read_trailer, rfl, (hreturn true).trans ?_⟩
    exact congrArg s.finish (textDeliver_room hinv.slice_frame hroom b)
  · subst ht
    refine (hreturn true).trans (Eq.trans ?_ (hfail .tooLong))
    exact congrArg s.finish (textDeliver_noRoom hroom b)

end Sys2Proof.Machine
end

section
/-! PROOF. The events of one PUSH (41_dispatch.md section 6): which kinds of event may still follow once
a window is open, that each return of the host leads to a window with fewer to come, and so the eight
lists. -/

namespace Sys2Proof.Machine

/-! ### What may follow an open window -/

/-- How many windows there may be before the PUSH is over, an open one included. -/
@[simp] def Window.depth : Window → Nat
  | .none => 0
  | .inEom _ => 1
  | .inInvalid Option.none => 1
  | .inInvalid (some _) => 2
  | .inBadCrc _ _ => 3

/-- The events of a byte dispatched by FIRST_BYTE. -/
def rescanLists : List (List EventKind) := [[], [.invalidData]]

/-- The events of a frame that has failed. -/
def failLists : List (List EventKind) := [[], [.invalidData], [.invalidData, .invalidData]]

/-- The events after the host's answer to BAD_CRC. -/
def answerLists : List (List EventKind) :=
  [[], [.eom], [.invalidData], [.invalidData, .invalidData]]

/-- The kinds of the events that may still come before the PUSH is over. -/
@[simp] def Window.sequels : Window → List (List EventKind)
  | .none => [[]]
  | .inEom _ => [[]]
  | .inInvalid Option.none => [[]]
  | .inInvalid (some _) => rescanLists
  | .inBadCrc _ _ => answerLists

/-- The eight lists of 41_dispatch.md section 6. -/
def pushLists : List (List EventKind) :=
  [[], [.eom], [.badCrc, .eom], [.invalidData], [.invalidData, .invalidData],
    [.badCrc, .invalidData], [.badCrc, .invalidData, .invalidData], [.badCrc]]

theorem Window.eq_none_of_depth {w : Window} (h : w.depth = 0) : w = .none := by
  match w with
  | .none => rfl
  | .inEom _ | .inInvalid Option.none | .inInvalid (some _) | .inBadCrc _ _ => cases h

/-- The window that a turn leaves open. -/
@[simp] def Turn.window (t : Turn) : Window :=
  match t.raised with
  | none => .none
  | some (_, w) => w

/-- The events that a turn has raised. -/
@[simp] def Turn.events (t : Turn) : List Event :=
  (t.raised.map Prod.fst).toList

theorem State.afterTurn_window_eq (s : State) (t : Turn) : (s.afterTurn t).window = t.window := by
  obtain ⟨q, _ | ⟨e, w⟩⟩ := t <;> rfl

theorem State.afterTurn_todo (s : State) (t : Turn) : (s.afterTurn t).todo = [] := by
  unfold State.afterTurn
  split <;> rfl

theorem State.afterTurn_events (s : State) (t : Turn) :
    (s.afterTurn t).events = s.events ++ t.events := by
  obtain ⟨q, _ | ⟨e, w⟩⟩ := t
  · exact (List.append_nil _).symm
  · rfl

/-- Fewer than `n` windows are to come after the turn, and its events with any that follow are one of
`lists`. -/
def Turn.Within (n : Nat) (lists : List (List EventKind)) (t : Turn) : Prop :=
  t.window.depth < n ∧ ∀ l ∈ t.window.sequels, t.events.map Event.kind ++ l ∈ lists

theorem Turn.Within.mono {n m : Nat} {lists lists' : List (List EventKind)} {t : Turn}
    (h : t.Within n lists) (hn : n ≤ m) (hlists : lists ⊆ lists') : t.Within m lists' :=
  ⟨h.1.trans_le hn, fun l hl => hlists (h.2 l hl)⟩

section
variable {p : ParseState} {b : Byte}

theorem quiet_within {n : Nat} {lists : List (List EventKind)} (hn : 0 < n) (hnil : [] ∈ lists) :
    Ends (quiet p) (Turn.Within n lists) :=
  .quiet ⟨hn, by simpa using hnil⟩

theorem raise_within {e : Event} {w : Window} {n : Nat} {lists : List (List EventKind)}
    (hn : w.depth < n) (h : ∀ l ∈ w.sequels, e.kind :: l ∈ lists) :
    Ends (raise p e w) (Turn.Within n lists) :=
  .raise ⟨hn, h⟩

theorem firstByte_within :
    Ends (firstByte p b) (Turn.Within 2 rescanLists) := by
  unfold firstByte
  split
  · exact quiet_within (by decide) (by decide)
  · exact .ite (fun _ => raise_within (by simp) (by simp [Event.kind, rescanLists])) fun _ =>
      quiet_within (by decide) (by decide)

theorem raise_invalidData_within {c : Cause} {bytes : List Byte} :
    Ends (raise p (.invalidData c bytes) (.inInvalid (some b)))
      (Turn.Within 3 failLists) :=
  raise_within (by simp) (by simp [Event.kind, rescanLists, failLists])

theorem fail_within {c : Cause} :
    Ends (fail c p b) (Turn.Within 3 failLists) := by
  refine .ite (fun _ => ?_) fun _ t ht => (firstByte_within t ht).mono (by decide) (by decide)
  split
  · exact raise_invalidData_within
  · exact .error _

theorem failTooLong_within :
    Ends (failTooLong p b) (Turn.Within 3 failLists) := by
  refine .ite (fun _ => ?_) fun _ t ht => (firstByte_within t ht).mono (by decide) (by decide)
  split
  · exact raise_invalidData_within
  · exact .error _

theorem deliver_within : Ends (deliver p) (Turn.Within 3 answerLists) := by
  unfold deliver
  split
  · exact raise_within (by simp) (by simp [Event.kind, answerLists])
  · exact .error _

theorem textDeliver_within :
    Ends (textDeliver p b) (Turn.Within 3 answerLists) := by
  refine .ite (fun _ t ht => (fail_within t ht).mono (by decide) (by decide)) fun _ => ?_
  split
  · exact raise_within (by simp) (by simp [Event.kind, answerLists])
  · exact .error _

theorem complete_within {text : Bool} :
    Ends (complete text p b) (Turn.Within 3 answerLists) :=
  .ite (fun _ => textDeliver_within) fun _ => deliver_within

theorem conclude_within {good text : Bool} :
    Ends (conclude good text p b) (Turn.Within 4 pushLists) :=
  .ite (fun _ t ht => (complete_within t ht).mono (by decide) (by decide)) fun _ =>
    .ite (fun _ => raise_within (by simp) (by simp [Event.kind, answerLists, pushLists])) fun _ t ht =>
      (fail_within t ht).mono (by decide) (by decide)

theorem FrameTurn.within {t : Turn} (ht : FrameTurn p b t) : t.Within 4 pushLists := by
  cases ht with
  | onward _ _ => exact quiet_within (by decide) (by decide) _ rfl
  | failed _ ht => exact (fail_within _ ht).mono (by decide) (by decide)
  | concluded _ ht => exact conclude_within _ ht
  | delivered _ ht => exact (deliver_within _ ht).mono (by decide) (by decide)

theorem byteStep_within : Ends (byteStep p b) (Turn.Within 4 pushLists) := by
  have hquiet {q : ParseState} : Ends (quiet q) (Turn.Within 4 pushLists) :=
    quiet_within (by decide) (by decide)
  have hfirst : Ends (firstByte p b) (Turn.Within 4 pushLists) := fun t ht =>
    (firstByte_within t ht).mono (by decide) (by decide)
  cases hs : p.state with
  | firstByte =>
    rw [byteStep_firstByte hs]
    exact hfirst
  | lineTerm =>
    rw [byteStep_lineTerm hs]
    exact .ite (fun _ => hquiet) fun _ => .ite (fun _ => hquiet) fun _ => hfirst
  | crThenLf =>
    rw [byteStep_crThenLf hs]
    exact .ite (fun _ => hquiet) fun _ => hfirst
  | lfThenCr =>
    rw [byteStep_lfThenCr hs]
    exact .ite (fun _ => hquiet) fun _ => hfirst
  | _ =>
    have hf : p.state.inFrame = true := by rw [hs]; rfl
    rw [byteStep_inFrame hf]
    exact .ite (fun _ t ht => (failTooLong_within t ht).mono (by decide) (by decide)) fun _ t ht =>
      FrameTurn.within (handler_handles (p := p.append b) hf t ht)

/-- A return of the host leads to a window with fewer to come. -/
theorem afterWindow_within {answer : Bool} {w : Window} (hw : w ≠ .none) :
    Ends (afterWindow answer p w) (Turn.Within w.depth w.sequels) := by
  match w, hw with
  | .inEom true, _ | .inEom false, _ | .inInvalid Option.none, _ =>
    exact quiet_within (by decide) (by decide)
  | .inInvalid (some _), _ => exact firstByte_within
  | .inBadCrc _ _, _ =>
    exact .ite (fun _ => complete_within) fun _ t ht =>
      (fail_within t ht).mono (le_refl 3) (show failLists ⊆ answerLists by decide)

end

/-! ### Returns until no window is open -/

/-- As many returns as there are windows to come close them all. -/
theorem returnAll_closes (answers : List Bool) {s : State} (h : s.Inv) (htodo : s.todo = [])
    (hdepth : s.window.depth ≤ answers.length) :
    ∃ (u : State) (new : List Event), returnAll answers s = .next u ∧ u.window = .none ∧
      u.events = s.events ++ new ∧ new.map Event.kind ∈ s.window.sequels := by
  induction answers generalizing s with
  | nil =>
    have hw : s.window = .none := Window.eq_none_of_depth (Nat.le_zero.mp hdepth)
    exact ⟨s, [], rfl, hw, (List.append_nil _).symm, by simp [hw, Window.sequels]⟩
  | cons answer answers ih =>
    by_cases hw : s.window = .none
    · exact ⟨s, [], if_pos hw, hw, (List.append_nil _).symm, by simp [hw, Window.sequels]⟩
    obtain ⟨t, ht⟩ := h.hostReturn_answers answer
    obtain ⟨p, hp⟩ : ∃ p, s.parse = some p :=
      Option.ne_none_iff_exists'.mp fun hnone => hw (h.unconfigured hnone)
    obtain ⟨turn, hturn, rfl⟩ := hostReturn_turn hp hw htodo ht
    obtain ⟨hless, hkinds⟩ := afterWindow_within hw turn hturn
    rw [← s.afterTurn_window_eq turn] at hless hkinds
    rw [List.length_cons] at hdepth
    obtain ⟨u, new, hu, hclosed, hevents, hnew⟩ :=
      ih (hostReturn_inv ht h) (s.afterTurn_todo turn) (by omega)
    refine ⟨u, turn.events ++ new, ?_, hclosed, ?_, ?_⟩
    · rw [returnAll, if_neg hw, ht]
      exact hu
    · rw [hevents, State.afterTurn_events, List.append_assoc]
    · rw [List.map_append]
      exact hkinds _ hnew

/-- Settles O28: the byte step leaves at most three windows to come (`byteStep_within`), and the host's
returns close them (`returnAll_closes`). -/
theorem pushEventLists : Obligations.PushEventLists := by
  intro s p b a1 a2 a3 h hp hw
  obtain ⟨t, ht⟩ := h.exec_answers (.push b)
  obtain ⟨turn, hturn, rfl⟩ := exec_push_turn hp hw ht
  obtain ⟨hless, hkinds⟩ := byteStep_within turn hturn
  rw [← s.afterTurn_window_eq turn] at hless hkinds
  obtain ⟨u, new, hu, hclosed, hevents, hnew⟩ :=
    returnAll_closes [a1, a2, a3] ((exec_executes ht).inv h) (s.afterTurn_todo turn)
      (Nat.le_of_lt_succ hless)
  refine ⟨_, u, turn.events ++ new, ht, hu, hclosed, ?_, ?_⟩
  · rw [hevents, State.afterTurn_events, List.append_assoc]
  · rw [List.map_append]
    exact hkinds _ hnew

end Sys2Proof.Machine
end

section
/-! PROOF. Byte accounting (41_dispatch.md section 6): each procedure of a PUSH reports, delivers or still
owes exactly the bytes of the frame it was given. -/

namespace Sys2Proof.Machine

/-! ### What a ParseState owes -/

/-- The bytes still to be accounted for when `w` is open (`State.owed`). -/
def ParseState.owedIn (p : ParseState) : Window → List Byte
  | .none => if p.state.inFrame then p.frameBytes else []
  | .inEom _ => []
  | .inInvalid rescan => rescan.toList
  | .inBadCrc _ _ => p.frameBytes

theorem State.owed_eq {s : State} {p : ParseState} (hp : s.parse = some p) :
    s.owed = p.owedIn s.window := by
  rw [State.owed, hp]
  cases hw : s.window <;> rfl

theorem State.owed_afterTurn (s : State) (t : Turn) :
    (s.afterTurn t).owed = t.p.owedIn t.window := by
  rw [State.owed_eq (State.afterTurn_parse s t), State.afterTurn_window_eq]

/-- The bytes that the turn's events account for and those it leaves owed. -/
def Turn.accounted (t : Turn) : List Byte :=
  t.events.flatMap (Event.accounted t.p.table) ++ t.p.owedIn t.window

theorem Turn.accounted_quiet (q : ParseState) :
    (⟨q, none⟩ : Turn).accounted = q.owedIn .none := rfl

theorem Turn.accounted_raise (q : ParseState) (e : Event) (w : Window) :
    (⟨q, some (e, w)⟩ : Turn).accounted = e.accounted q.table ++ q.owedIn w := by
  simp [Turn.accounted]

/-- The turn accounts for `bytes`, if it is one the invariant allows. -/
def Turn.Accounts (bytes : List Byte) (t : Turn) : Prop := t.Good → t.accounted = bytes

/-- The turn of a procedure that keeps the invariant. -/
theorem Safe.good {r : Except Fault Turn} {t : Turn} (h : Safe r) (ht : r = .ok t) : t.Good := by
  obtain ⟨t', ht', hgood⟩ := h
  rwa [Except.ok.inj (ht.symm.trans ht')]

/-! ### What an event accounts for -/

theorem accounted_eom_binary {table : List Kind} {i : Nat} {frame : List Byte}
    (h : ∃ k, table[i]? = some k ∧ isText k = false) :
    (Event.eom i frame).accounted table = frame := by
  obtain ⟨k, hk, ht⟩ := h
  simp [Event.accounted, hk, ht]

/-- The synthetic `CR LF` is no byte of the stream (41_dispatch.md R130). -/
theorem accounted_eom_text {table : List Kind} {i : Nat} {frame : List Byte}
    (h : ∃ k, table[i]? = some k ∧ isText k = true) :
    (Event.eom i (frame ++ [0x0D, 0x0A])).accounted table = frame := by
  obtain ⟨k, hk, ht⟩ := h
  simp [Event.accounted, hk, ht]

/-! ### The shared procedures -/

/-- The frame that `q` holds is `init` with `b` behind it. -/
structure ParseState.FrameIs (q : ParseState) (init : List Byte) (b : Byte) : Prop where
  whole : q.slice 0 q.length = .ok (init ++ [b])
  init : q.slice 0 (q.length - 1) = .ok init

theorem ParseState.frameBytes_of_slice {q : ParseState} {frame : List Byte}
    (h : q.slice 0 q.length = .ok frame) : q.frameBytes = frame := by
  obtain ⟨hlen, hread⟩ := ParseState.slice_eq_ok.mp h
  exact ParseState.frameBytes_eq (Memory.readMany_eq_some.mpr ⟨hlen, hread⟩)

theorem ParseState.FrameIs.of_sameFrame {p q : ParseState} {init : List Byte} {b : Byte}
    (h : p.FrameIs init b) (hq : p.SameFrame q) : q.FrameIs init b := by
  rw [hq]
  exact ⟨h.whole, h.init⟩

/-- The frame of a PUSH: what stood there and the byte pushed. -/
theorem ParseState.Inv.frameIs_append {p : ParseState} (h : p.Inv) (b : Byte) :
    (p.append b).FrameIs p.frameBytes b where
  whole := ParseState.slice_of_readMany (h.readMany_append b)
  init := h.slice_append_init b

/-- The frame in an IN_BAD_CRC window ends in the byte that the window holds. -/
theorem ParseState.Inv.frameIs_last {p : ParseState} (h : p.Inv) {b : Byte} (hlen : 1 ≤ p.length)
    (hlast : p.buffer.read (p.length - 1) = some b) : p.FrameIs p.frameBytes.dropLast b := by
  have hne : p.frameBytes ≠ [] := List.ne_nil_of_length_pos (by rw [h.frameBytes_length]; omega)
  have hb : p.frameBytes.getLast hne = b := by
    obtain ⟨-, hread⟩ := Memory.readMany_eq_some.mp h.readMany_frame
    have hread' := hread (p.length - 1) (by omega)
    rw [Nat.zero_add, hlast, ← h.frameBytes_length, ← List.getLast?_eq_getElem?,
      List.getLast?_eq_some_getLast hne] at hread'
    exact (Option.some.inj hread').symm
  refine ⟨?_, h.slice_init⟩
  rw [← hb, List.dropLast_append_getLast hne]
  exact h.slice_frame

section
variable {p : ParseState} {b : Byte}

/-- A byte dispatched by FIRST_BYTE begins a frame or is reported. -/
theorem firstByte_accounts (hen : p.invalidEn = true) :
    Ends (firstByte p b) (Turn.Accounts [b]) := by
  unfold firstByte
  split
  case h_1 i k _ =>
    refine .quiet fun _ => ?_
    have hf : (firstState k).inFrame = true := by cases k <;> rfl
    simp [Turn.accounted_quiet, ParseState.owedIn, hf]
  case h_2 =>
    refine .ite (fun _ => .raise fun _ => ?_) fun h => absurd hen h
    simp [Turn.accounted_raise, ParseState.owedIn, Event.accounted]

theorem fail_accounts {c : Cause} {init : List Byte} (hen : p.invalidEn = true)
    (h : p.FrameIs init b) : Ends (fail c p b) (Turn.Accounts (init ++ [b])) := by
  refine .ite (fun _ => ?_) fun hno => absurd hen hno
  rw [h.init]
  exact .raise fun _ => Turn.accounted_raise ..

theorem failTooLong_accounts {frame : List Byte} (hen : p.invalidEn = true)
    (h : p.slice 0 p.length = .ok frame) :
    Ends (failTooLong p b) (Turn.Accounts (frame ++ [b])) := by
  refine .ite (fun _ => ?_) fun hno => absurd hen hno
  rw [h]
  exact .raise fun _ => Turn.accounted_raise ..

theorem deliver_accounts {frame : List Byte} (h : p.slice 0 p.length = .ok frame) :
    Ends (deliver p) (Turn.Accounts frame) := by
  rw [deliver_eq h]
  refine .raise fun hgood => ?_
  obtain ⟨-, -, hkind, -⟩ := hgood
  rw [Turn.accounted_raise, accounted_eom_binary hkind]
  exact List.append_nil frame

theorem textDeliver_accounts {init : List Byte} (hen : p.invalidEn = true)
    (h : p.FrameIs init b) : Ends (textDeliver p b) (Turn.Accounts (init ++ [b])) := by
  rcases Nat.lt_or_ge p.bufferLength (p.length + 3) with hroom | hroom
  · rw [textDeliver_noRoom hroom]
    exact fail_accounts hen h
  · rw [textDeliver_room h.whole hroom]
    refine .raise fun hgood => ?_
    obtain ⟨-, -, hkind, -⟩ := hgood
    have hevent : (Event.eom p.active (init ++ [b] ++ [0x0D, 0x0A])).accounted p.trailer.table =
        init ++ [b] := accounted_eom_text hkind
    rw [Turn.accounted_raise, hevent]
    exact List.append_nil _

theorem complete_accounts {text : Bool} {init : List Byte} (hen : p.invalidEn = true)
    (h : p.FrameIs init b) : Ends (complete text p b) (Turn.Accounts (init ++ [b])) :=
  .ite (fun _ => textDeliver_accounts hen h) fun _ => deliver_accounts h.whole

theorem conclude_accounts {good text : Bool} {init : List Byte} (hen : p.invalidEn = true)
    (h : p.FrameIs init b) : Ends (conclude good text p b) (Turn.Accounts (init ++ [b])) := by
  refine .ite (fun _ => complete_accounts hen h) fun _ => .ite (fun _ => ?_) fun _ =>
    fail_accounts hen h
  refine .raise fun _ => ?_
  rw [Turn.accounted_raise]
  exact ParseState.frameBytes_of_slice h.whole

theorem FrameTurn.accounts {t : Turn} {init : List Byte} (ht : FrameTurn p b t)
    (hen : p.invalidEn = true) (h : p.FrameIs init b) : t.Accounts (init ++ [b]) := by
  have hen' {q : ParseState} (hq : p.SameFrame q) : q.invalidEn = true := by
    rw [hq]
    exact hen
  cases ht with
  | onward hq hf =>
    intro _
    rw [Turn.accounted_quiet, ParseState.owedIn, if_pos hf]
    exact ParseState.frameBytes_of_slice (h.of_sameFrame hq).whole
  | failed hq ht => exact fail_accounts (hen' hq) (h.of_sameFrame hq) _ ht
  | concluded hq ht => exact conclude_accounts (hen' hq) (h.of_sameFrame hq) _ ht
  | delivered hq ht => exact deliver_accounts (h.of_sameFrame hq).whole _ ht

/-! ### One PUSH and one return of the host -/

theorem PState.consumes_inFrame {st : PState} (h : st.inFrame = true) : st.consumes b = false := by
  cases st with
  | firstByte | lineTerm | crThenLf | lfThenCr => cases h
  | _ => rfl

/-- The byte is consumed without trace and no frame is in progress. -/
theorem quiet_consumes {q : ParseState} (hq : q.state.inFrame = false) :
    Ends (quiet q) (Turn.Accounts []) :=
  .quiet fun _ => by rw [Turn.accounted_quiet, ParseState.owedIn, hq]; rfl

/-- In a state with no frame in progress, a byte that the state consumes leaves nothing, and every other
byte goes to FIRST_BYTE. -/
theorem byteStep_accounts_notInFrame (hen : p.invalidEn = true) (hf : p.state.inFrame = false) :
    Ends (byteStep p b) (Turn.Accounts (if p.state.consumes b then [] else [b])) := by
  have hfirst := firstByte_accounts (b := b) hen
  cases hs : p.state with
  | firstByte =>
    rw [byteStep_firstByte hs]
    exact hfirst
  | lineTerm =>
    rw [byteStep_lineTerm hs]
    simp only [PState.consumes, Bool.or_eq_true, beq_iff_eq]
    refine .ite (fun hb => ?_) fun hcr => .ite (fun hb => ?_) fun hlf => ?_
    · rw [if_pos (.inl hb)]
      exact quiet_consumes rfl
    · rw [if_pos (.inr hb)]
      exact quiet_consumes rfl
    · rw [if_neg (not_or_intro hcr hlf)]
      exact hfirst
  | crThenLf =>
    rw [byteStep_crThenLf hs]
    simp only [PState.consumes, beq_iff_eq]
    refine .ite (fun hb => ?_) fun hb => ?_
    · rw [if_pos hb]
      exact quiet_consumes rfl
    · rw [if_neg hb]
      exact hfirst
  | lfThenCr =>
    rw [byteStep_lfThenCr hs]
    simp only [PState.consumes, beq_iff_eq]
    refine .ite (fun hb => ?_) fun hb => ?_
    · rw [if_pos hb]
      exact quiet_consumes rfl
    · rw [if_neg hb]
      exact hfirst
  | _ =>
    rw [hs] at hf
    cases hf

/-- In a state with a frame in progress, the frame and the byte are accounted for. -/
theorem byteStep_accounts_inFrame (hinv : p.Inv) (hen : p.invalidEn = true)
    (hf : p.state.inFrame = true) :
    Ends (byteStep p b) (Turn.Accounts (p.frameBytes ++ [b])) := by
  rw [byteStep_inFrame hf]
  exact .ite (fun _ => failTooLong_accounts hen hinv.slice_frame) fun _ t ht =>
    (handler_handles (p := p.append b) hf t ht).accounts hen (hinv.frameIs_append b)

theorem byteStep_accounts (hinv : p.Inv) (hen : p.invalidEn = true) {t : Turn}
    (ht : byteStep p b = .ok t) (hgood : t.Good) :
    p.owedIn .none ++ [b] =
      t.events.flatMap (Event.accounted t.p.table) ++
        (if p.state.consumes b then [b] else []) ++ t.p.owedIn t.window := by
  cases hf : p.state.inFrame with
  | true =>
    have hacc : t.accounted = p.frameBytes ++ [b] :=
      byteStep_accounts_inFrame hinv hen hf t ht hgood
    have howed : p.owedIn .none = p.frameBytes := if_pos hf
    rw [howed, ← hacc, PState.consumes_inFrame hf]
    simp only [Bool.false_eq_true, if_false, List.append_nil, Turn.accounted]
  | false =>
    have hacc : t.accounted = if p.state.consumes b then [] else [b] :=
      byteStep_accounts_notInFrame hen hf t ht hgood
    have howed : p.owedIn .none = [] := if_neg (by rw [hf]; nofun)
    rw [Turn.accounted] at hacc
    rw [howed]
    split_ifs at hacc ⊢
    · obtain ⟨hevents, howed'⟩ := List.append_eq_nil_iff.mp hacc
      rw [hevents, howed']
      rfl
    · rw [List.append_nil, hacc]
      rfl

theorem afterWindow_accounts {answer : Bool} {w : Window} (hinv : p.Inv) (hen : p.invalidEn = true)
    (hw : w ≠ .none) (hfits : w.Fits p) :
    Ends (afterWindow answer p w) (Turn.Accounts (p.owedIn w)) := by
  match w, hw, hfits with
  | .inEom true, _, _ | .inEom false, _, _ => exact quiet_consumes rfl
  | .inInvalid Option.none, _, hfits =>
    have hs : p.state = .firstByte := hfits
    exact quiet_consumes (by rw [hs]; rfl)
  | .inInvalid (some _), _, _ => exact firstByte_accounts hen
  | .inBadCrc b text, _, ⟨_, hlen, hlast, _⟩ =>
    have hframe : p.FrameIs p.frameBytes.dropLast b := hinv.frameIs_last (by omega) hlast
    have howed : p.owedIn (.inBadCrc b text) = p.frameBytes.dropLast ++ [b] :=
      ParseState.frameBytes_of_slice hframe.whole
    rw [howed]
    exact .ite (fun _ => complete_accounts hen hframe) fun _ => fail_accounts hen hframe

end

/-- Settles O29: a PUSH by `byteStep_accounts`, a return by `afterWindow_accounts`; the table is written
by neither. -/
theorem byteAccounting : Obligations.ByteAccounting := by
  intro s t p h hp hen
  obtain ⟨hinv, hfits⟩ := h.parseOk p hp
  refine ⟨fun b hw ht => ?_, fun answer hw htodo ht => ?_⟩
  · obtain ⟨turn, hturn, rfl⟩ := exec_push_turn hp hw ht
    have hgood : turn.Good := (byteStep_safe hinv (h.idle hp hw).2 b).good hturn
    obtain ⟨htable, -⟩ := byteStep_keepsSetup p b turn hturn
    refine ⟨turn.events, s.afterTurn_events turn, ?_⟩
    rw [State.owed_eq hp, hw, byteStep_accounts hinv hen hturn hgood, State.owed_afterTurn,
      htable]
  · obtain ⟨turn, hturn, rfl⟩ := hostReturn_turn hp hw htodo ht
    have hgood : turn.Good := (afterWindow_safe hinv hw hfits answer).good hturn
    obtain ⟨htable, -⟩ := afterWindow_keepsSetup p answer s.window turn hturn
    refine ⟨turn.events, s.afterTurn_events turn, ?_⟩
    rw [State.owed_eq hp, State.owed_afterTurn, ← htable]
    exact (afterWindow_accounts hinv hen hw hfits turn hturn hgood).symm

end Sys2Proof.Machine
end

section
/-! PROOF. The integrity guarantee (60_exceptions.md R369): a procedure raises EOM and BAD_CRC only where
a frame's checksum is judged, and there the verdict is `frameChecks` of the frame's bytes. -/

namespace Sys2Proof.Machine

/-! ### Turns that judge no frame -/

/-- The turn delivers no frame and asks about none. -/
def ReportsOnly (t : Turn) : Prop := ∀ e ∈ t.events, e.kind = .invalidData

section
variable {p q : ParseState} {b : Byte}

theorem quiet_reports : Ends (quiet q) ReportsOnly := .quiet nofun

theorem raise_reports {c : Cause} {bytes : List Byte} {w : Window} :
    Ends (raise q (.invalidData c bytes) w) ReportsOnly :=
  .raise fun e he => by
    obtain rfl := List.mem_singleton.mp he
    rfl

theorem firstByte_reports : Ends (firstByte q b) ReportsOnly := by
  unfold firstByte
  split
  · exact quiet_reports
  · exact .ite (fun _ => raise_reports) fun _ => quiet_reports

theorem fail_reports {c : Cause} : Ends (fail c q b) ReportsOnly := by
  refine .ite (fun _ => ?_) fun _ => firstByte_reports
  split
  · exact raise_reports
  · exact .error _

theorem failTooLong_reports : Ends (failTooLong q b) ReportsOnly := by
  refine .ite (fun _ => ?_) fun _ => firstByte_reports
  split
  · exact raise_reports
  · exact .error _

theorem rtcmContinue_reports {r : RtcmRec} {next : PState} :
    Ends (rtcmContinue q r next) ReportsOnly :=
  .ite (fun _ => quiet_reports) fun _ => quiet_reports

theorem uhashComma_reports {r : UhashRec} : Ends (uhashComma q r b) ReportsOnly := by
  refine .ite (fun _ => ?_) fun _ => quiet_reports
  split
  · exact quiet_reports
  · exact .error _

theorem spartnHdr3Step_reports : Ends (spartnHdr3Step q b) ReportsOnly := by
  refine .withSpartn fun _ _ => .ite (fun _ => quiet_reports) fun _ =>
    .ite (fun _ => quiet_reports) fun _ => ?_
  split
  · exact .ite (fun _ => quiet_reports) fun _ => fail_reports
  all_goals exact .error _

theorem ubinReadHeaderStep_reports : Ends (ubinReadHeaderStep q b) ReportsOnly := by
  refine .withUbin fun _ _ => .ite (fun _ => ?_) fun _ => quiet_reports
  split
  · exact .ite (fun _ => quiet_reports) fun _ => quiet_reports
  all_goals exact .error _

/-- The states whose byte may complete a frame: those with a verdict the host may be asked about, and the
two of SBF, whose verdict it is never asked about (45_sbf.md R220). -/
def PState.completes : PState → Bool
  | .sbfLengthHi | .sbfBody => true
  | st => st.givesVerdict

/-- In every other state a frame goes on or fails. -/
theorem handler_reports (hf : p.state.inFrame = true) (hv : p.state.completes = false) :
    Ends (handler p b) ReportsOnly := by
  unfold handler
  cases hs : p.state with
  | firstByte | lineTerm | crThenLf | lfThenCr =>
    rw [hs] at hf
    cases hf
  | nmeaChecksumLo | rtcmCrc | ubxCkB | spartnCrc | ubinReadCrc | uhashChecksumByte | sbfLengthHi
  | sbfBody =>
    rw [hs] at hv
    cases hv
  | nmeaChecksumHi | ubxSync2 | sbfPreamble2 | ubinSync2 =>
    exact .ite (fun _ => quiet_reports) fun _ => fail_reports
  | nmeaNameThenFirstComma =>
    exact .withNmea fun _ _ => .ite (fun _ => quiet_reports) fun _ =>
      .ite (fun _ => quiet_reports) fun _ => fail_reports
  | nmeaFindAsterisk =>
    exact .ite (fun _ => quiet_reports) fun _ => .ite (fun _ => fail_reports) fun _ => quiet_reports
  | rtcmLengthHi =>
    exact .withRtcm fun _ _ => .ite (fun _ => quiet_reports) fun _ => fail_reports
  | rtcmLengthLo | rtcmMsgIdHi | rtcmMsgIdLo | rtcmData =>
    exact .withRtcm fun _ _ => rtcmContinue_reports
  | ubxClass | ubxId | ubxLengthLo | ubxLengthHi | ubxPayload =>
    exact .withUbx fun _ _ => quiet_reports
  | ubxCkA => exact quiet_reports
  | sbfCrc1 | sbfCrc2 | sbfId1 | sbfId2 | sbfLengthLo => exact .withSbf fun _ _ => quiet_reports
  | spartnHdr3 => exact spartnHdr3Step_reports
  | spartnExtHdr =>
    exact .withSpartn fun _ _ => .ite
      (fun _ => .ite (fun _ => quiet_reports) fun _ => quiet_reports) fun _ => quiet_reports
  | spartnPayload | spartnEmbedded =>
    exact .withSpartn fun _ _ => .ite (fun _ => quiet_reports) fun _ => quiet_reports
  | ubinSync3 =>
    exact .withUbin fun _ _ => .ite (fun _ => quiet_reports) fun _ => fail_reports
  | ubinReadHeader => exact ubinReadHeaderStep_reports
  | ubinReadBody =>
    exact .withUbin fun _ _ => .ite (fun _ => quiet_reports) fun _ => quiet_reports
  | uhashNameThenFirstComma =>
    exact .withUhash fun _ _ => .ite (fun _ => uhashComma_reports) fun _ =>
      .ite (fun _ => quiet_reports) fun _ => fail_reports
  | uhashFindAsterisk =>
    exact .withUhash fun _ _ => .ite (fun _ => quiet_reports) fun _ =>
      .ite (fun _ => fail_reports) fun _ => .ite (fun _ => quiet_reports) fun _ => quiet_reports

theorem byteStep_reports_notInFrame (hf : p.state.inFrame = false) :
    Ends (byteStep p b) ReportsOnly := by
  cases hs : p.state with
  | firstByte =>
    rw [byteStep_firstByte hs]
    exact firstByte_reports
  | lineTerm =>
    rw [byteStep_lineTerm hs]
    exact .ite (fun _ => quiet_reports) fun _ =>
      .ite (fun _ => quiet_reports) fun _ => firstByte_reports
  | crThenLf =>
    rw [byteStep_crThenLf hs]
    exact .ite (fun _ => quiet_reports) fun _ => firstByte_reports
  | lfThenCr =>
    rw [byteStep_lfThenCr hs]
    exact .ite (fun _ => quiet_reports) fun _ => firstByte_reports
  | _ =>
    rw [hs] at hf
    cases hf

/-! ### A verdict that is right -/

/-- What the turn delivers has the right checksum, and what it asks the host about has not. -/
def Turn.Checked (t : Turn) : Prop :=
  (∀ i f, Event.eom i f ∈ t.events → ∃ k, t.p.table[i]? = some k ∧
    frameChecks k ((Event.eom i f).accounted t.p.table)) ∧
  ∀ i, Event.badCrc i ∈ t.events → ∃ k, t.p.table[i]? = some k ∧
    ¬frameChecks k (t.p.owedIn t.window)

theorem ReportsOnly.checked {t : Turn} (h : ReportsOnly t) : t.Checked :=
  ⟨fun _ _ he => (nomatch h _ he), fun _ he => (nomatch h _ he)⟩

theorem Ends.checked {r : Except Fault Turn} (h : Ends r ReportsOnly) : Ends r Turn.Checked :=
  fun t ht => (h t ht).checked

theorem Turn.Checked.of_eom {q : ParseState} {i : Nat} {f frame : List Byte} {w : Window} {k : Kind}
    (hk : q.table[i]? = some k) (hacc : (Event.eom i f).accounted q.table = frame)
    (hc : frameChecks k frame) : Turn.Checked ⟨q, some (.eom i f, w)⟩ := by
  refine ⟨fun i' f' he => ?_, fun i' he => nomatch List.mem_singleton.mp he⟩
  cases List.mem_singleton.mp he
  exact ⟨k, hk, by rwa [hacc]⟩

theorem deliver_checked {frame : List Byte} {k : Kind} (h : q.slice 0 q.length = .ok frame)
    (hk : q.table[q.active]? = some k) (ht : isText k = false) (hc : frameChecks k frame) :
    Ends (deliver q) Turn.Checked := by
  rw [deliver_eq h]
  exact .raise (.of_eom hk (accounted_eom_binary ⟨k, hk, ht⟩) hc)

theorem textDeliver_checked {frame : List Byte} {k : Kind} (h : q.slice 0 q.length = .ok frame)
    (hk : q.table[q.active]? = some k) (ht : isText k = true) (hc : frameChecks k frame) :
    Ends (textDeliver q b) Turn.Checked := by
  rcases Nat.lt_or_ge q.bufferLength (q.length + 3) with hroom | hroom
  · rw [textDeliver_noRoom hroom]
    exact fail_reports.checked
  · rw [textDeliver_room h hroom]
    have htable : q.trailer.table[q.active]? = some k := hk
    exact .raise (.of_eom htable (accounted_eom_text ⟨k, htable, ht⟩) hc)

theorem conclude_checked {frame : List Byte} {k : Kind} {good : Bool}
    (h : q.slice 0 q.length = .ok frame) (hk : q.table[q.active]? = some k)
    (hgood : good = true ↔ frameChecks k frame) :
    Ends (conclude good (isText k) q b) Turn.Checked := by
  refine .ite (fun hg => .ite (fun ht => ?_) fun ht => ?_) fun hg => .ite (fun _ => .raise ?_)
    fun _ => fail_reports.checked
  · exact textDeliver_checked h hk ht (hgood.mp hg)
  · exact deliver_checked h hk (Bool.eq_false_iff.mpr ht) (hgood.mp hg)
  · refine ⟨fun _ _ he => (nomatch List.mem_singleton.mp he), fun i he => ?_⟩
    cases List.mem_singleton.mp he
    refine ⟨k, hk, fun hc => hg (hgood.mpr ?_)⟩
    rwa [← ParseState.frameBytes_of_slice h]

/-! ### What is read of the frame -/

theorem ParseState.slice_of_frame {frame bytes : List Byte} {a c : Nat}
    (h : q.slice 0 q.length = .ok frame) (hs : q.slice a c = .ok bytes) (hc : c ≤ q.length) :
    bytes = (frame.take c).drop a := by
  obtain ⟨hlen, hread⟩ := ParseState.slice_eq_ok.mp h
  obtain ⟨hlen', hread'⟩ := ParseState.slice_eq_ok.mp hs
  refine List.ext_getElem? fun j => ?_
  rw [List.getElem?_drop, List.getElem?_take]
  split_ifs with hj
  · rw [← hread' j (by omega), ← hread (a + j) (by omega), Nat.zero_add]
  · exact List.getElem?_eq_none (by omega)

/-- What is read back from `a` to the end of the frame. -/
theorem ParseState.slice_end_of_frame {frame bytes : List Byte} {a : Nat}
    (h : q.slice 0 q.length = .ok frame) (hs : q.slice a q.length = .ok bytes) :
    bytes = frame.drop a := by
  obtain ⟨hlen, -⟩ := ParseState.slice_eq_ok.mp h
  rw [ParseState.slice_of_frame h hs (le_refl _), List.take_of_length_le (by omega)]

theorem ParseState.FrameIs.init_length {init : List Byte} (h : q.FrameIs init b) :
    init.length = q.length - 1 := by
  obtain ⟨hlen, -⟩ := ParseState.slice_eq_ok.mp h.init
  omega

/-- The byte read back before the last one, with the last one. -/
theorem ParseState.FrameIs.last_two {init : List Byte} {a : Byte} (h : q.FrameIs init b)
    (h2 : 2 ≤ q.length) (ha : q.byteAt (q.length - 2) = .ok a) :
    (init ++ [b]).drop ((init ++ [b]).length - 2) = [a, b] := by
  have hlen := h.init_length
  have hread : q.buffer.read (q.length - 2) = some a := by
    unfold ParseState.byteAt at ha
    split at ha
    · cases ha
      assumption
    · cases ha
  obtain ⟨-, hinit⟩ := ParseState.slice_eq_ok.mp h.init
  have hne : init ≠ [] := List.ne_nil_of_length_pos (by omega)
  have hlast : init.getLast hne = a := by
    have hget := hinit (init.length - 1) (by omega)
    rw [Nat.zero_add, show init.length - 1 = q.length - 2 by omega, hread,
      show q.length - 2 = init.length - 1 by omega, ← List.getLast?_eq_getElem?,
      List.getLast?_eq_some_getLast hne] at hget
    exact (Option.some.inj hget).symm
  rw [List.length_append, List.length_singleton, Nat.add_sub_add_right,
    List.drop_append_of_le_length (by omega), List.drop_length_sub_one hne, hlast,
    List.singleton_append]

/-- The entry that a frame in progress belongs to. -/
theorem ParseState.Sound.entry (h : p.Sound) {k : Kind} (hs : p.state.owners = [k]) :
    p.table[p.active]? = some k :=
  (h.inv.latched_of_state hs).2.1.1

theorem ParseState.Sound.frameIs (h : p.Sound) (b : Byte) :
    (p.append b).FrameIs p.frameBytes b :=
  h.inv.frameIs_append b

/-! ### The verdict of each kind -/

theorem nmeaChecksumLoStep_checked (h : p.Sound) (hs : p.state = .nmeaChecksumLo) :
    Ends (nmeaChecksumLoStep (p.append b) b) Turn.Checked := by
  refine .ite (fun _ => ?_) fun _ => fail_reports.checked
  split
  · exact .error _
  rename_i hi hhi
  split
  · exact .error _
  rename_i good hverdict
  have hk := h.entry (k := .nmea) (by rw [hs]; rfl)
  obtain ⟨hstar, hcrc⟩ := (checksumCovers_nmeaLo hs).mp h.covers
  obtain ⟨hstar', hcov⟩ := h.digit hstar b
  rw [h.inv.frameBytes_append] at hstar' hcov
  refine conclude_checked (k := .nmea) (h.frameIs b).whole hk ?_
  have hpair := (h.frameIs b).last_two (by
    have := h.one_le (k := .nmea) (by rw [hs]; rfl)
    simpa using this) hhi
  have hsum : (p.crc.setWidth 8).toNat = (xor8Block (starred p.frameBytes 1)).toNat := by
    rw [hcrc, BitVec.setWidth_setWidth_of_le _ (by omega), BitVec.setWidth_eq]
  unfold nmeaVerdict at hverdict
  split at hverdict
  · rename_i rx hrx
    cases hverdict
    rw [ParseState.append_crc, hsum, beq_iff_eq]
    simp only [frameChecks, hpair, hcov, hrx, hstar', true_and, Option.some.injEq]
  · cases hverdict

theorem rtcmCrcStep_checked (h : p.Sound) (hs : p.state = .rtcmCrc) :
    Ends (rtcmCrcStep (p.append b) b) Turn.Checked := by
  have ho : p.state.owners = [.rtcm] := by rw [hs]; rfl
  refine .withRtcm fun r _ => .ite (fun _ => ?_) fun _ => quiet_reports.checked
  refine conclude_checked (k := .rtcm) (h.frameIs b).whole (h.entry ho) ?_
  have hcrc := h.rtcm_fold ho b
  rw [h.inv.frameBytes_append] at hcrc
  simp only [rtcmVerdict, ParseState.setSp_crc, ParseState.foldCrc24q, ParseState.setCrc_crc,
    ParseState.append_crc, hcrc, frameChecks, beq_iff_eq]
  rw [BitVec.setWidth_setWidth_of_le _ (by omega), BitVec.setWidth_eq]

theorem ubxCkBStep_checked (h : p.Sound) (hs : p.state = .ubxCkB) :
    Ends (ubxCkBStep (p.append b) b) Turn.Checked := by
  refine .withUbx fun r hr => ?_
  split
  · exact .error _
  rename_i a ha
  obtain ⟨hlen, hsums⟩ := (checksumCovers_ubxCkB hs).mp h.covers r hr
  refine conclude_checked (k := .ubx) (h.frameIs b).whole (h.entry (by rw [hs]; rfl)) ?_
  have hpair := (h.frameIs b).last_two (by simp; omega) ha
  have hcov : (p.frameBytes ++ [b]).take ((p.frameBytes ++ [b]).length - 2) =
      p.frameBytes.dropLast := by
    rw [List.length_append, List.length_singleton, Nat.add_sub_add_right,
      List.take_append_of_le_length (by omega), List.dropLast_eq_take]
  have hframe : 4 ≤ (p.frameBytes ++ [b]).length := by
    rw [List.length_append, h.inv.frameBytes_length, List.length_singleton]
    omega
  simp only [frameChecks, ubxVerdict, hpair, hcov, hframe, ← hsums, true_and, Bool.and_eq_true,
    beq_iff_eq, List.cons.injEq, and_true]

/-- The frame's last byte, folded: the verdict compares the CRC of all bytes behind the CRC field with
that field. -/
theorem sbfFinish_checked (h : p.Sound) (hs : p.state.sbfFolded = true) {r r' : SbfRec}
    (hr : p.sp = some (.sbf r)) (hexp : r'.expectedCrc = r.expectedCrc) :
    Ends (sbfFinish (((p.append b).foldCcitt16 b).setSp (.sbf r')) r' b) Turn.Checked := by
  obtain ⟨hlen, hcrc, hkept⟩ := (checksumCovers_sbf hs).mp h.covers r hr
  refine .ite (fun hgood => ?_) fun _ => fail_reports.checked
  have ho : p.state.owners = [.sbf] := by
    revert hs
    cases p.state <;> rintro ⟨⟩ <;> rfl
  refine deliver_checked (k := .sbf) (h.frameIs b).whole (h.entry ho) rfl ⟨?_, ?_⟩
  · rw [List.length_append, h.inv.frameBytes_length]
    omega
  · have hfold := foldCcitt16_covers hcrc b
    rw [List.drop_append_of_le_length (by rw [h.inv.frameBytes_length]; exact hlen),
      List.drop_append_of_le_length (by rw [h.inv.frameBytes_length]; omega),
      List.take_append_of_le_length (by rw [List.length_drop, h.inv.frameBytes_length]; omega),
      ← hkept, ← hexp, ← eq_of_beq hgood]
    simp only [ParseState.setSp_crc, ParseState.foldCcitt16, ParseState.setCrc_crc,
      ParseState.append_crc, hfold]
    rw [BitVec.setWidth_setWidth_of_le _ (by omega), BitVec.setWidth_eq]

theorem sbfLengthHiStep_checked (h : p.Sound) (hs : p.state = .sbfLengthHi) :
    Ends (sbfLengthHiStep (p.append b) b) Turn.Checked :=
  .withSbf fun _ hr => .ite
    (fun _ => .ite (fun _ => sbfFinish_checked h (by rw [hs]; rfl) hr rfl) fun _ =>
      quiet_reports.checked)
    fun _ => fail_reports.checked

theorem sbfBodyStep_checked (h : p.Sound) (hs : p.state = .sbfBody) :
    Ends (sbfBodyStep (p.append b) b) Turn.Checked :=
  .withSbf fun _ hr => .ite (fun _ => sbfFinish_checked h (by rw [hs]; rfl) hr rfl) fun _ =>
    quiet_reports.checked

/-- The body CRC of a CRC type has that type's width (40_generators.md R105). -/
theorem spBodyCrc_lt (t : BitVec 2) (bytes : List Byte) :
    (spBodyCrc t bytes).toNat < 2 ^ (8 * (t.toNat + 1)) := by
  have hwidth {w : Nat} (x : BitVec w) : (x.setWidth 32).toNat < 2 ^ w := by
    rw [BitVec.toNat_setWidth]
    exact (Nat.mod_le _ _).trans_lt x.isLt
  unfold spBodyCrc
  split_ifs with h0 h1 h2
  · rw [h0]
    exact hwidth _
  · rw [h1]
    exact hwidth _
  · rw [h2]
    exact hwidth _
  · have h3 : t = 3 := by
      revert h0 h1 h2
      revert t
      decide
    rw [h3]
    exact BitVec.isLt _

theorem spartnBodyVerdict_iff (t : BitVec 2) (received covered : List Byte) :
    spartnBodyVerdict t (t.toNat + 1) received covered = true ↔
      beNat received = (spBodyCrc t covered).toNat := by
  rw [spartnBodyVerdict, Nat.mod_eq_of_lt (spBodyCrc_lt t covered), beq_iff_eq]

theorem spartnCrcStep_checked (h : p.Sound) (hs : p.state = .spartnCrc) :
    Ends (spartnCrcStep (p.append b) b) Turn.Checked := by
  refine .withSpartn fun r hr => .ite (fun hlast => ?_) fun _ => quiet_reports.checked
  obtain ⟨hlen, htype⟩ := (checksumCovers_spartnCrc hs).mp h.covers r hr
  have hprogress := h.progress
  simp only [ParseState.Progress, hs] at hprogress
  obtain ⟨hbytes, hcount⟩ := hprogress r hr
  have hcounted : r.frameCount.toNat = r.crcType.toNat := by
    have hnat := congrArg BitVec.toNat hlast
    have h1 : (1 : BitVec 16).toNat = 1 := rfl
    simp only [BitVec.toNat_add, BitVec.toNat_setWidth, h1, hbytes] at hnat
    omega
  have htype' := h.spartn_crcType (by omega) htype b
  rw [h.inv.frameBytes_append] at htype'
  split
  case h_1 received covered hreceived hcovered =>
    have hflen : (p.frameBytes ++ [b]).length = p.length + 1 := by
      rw [List.length_append, h.inv.frameBytes_length, List.length_singleton]
    have hn : (p.frameBytes ++ [b]).length - (r.crcType.toNat + 1) =
        (p.append b).length - r.crcBytes.toNat := by
      rw [hflen, hbytes, ParseState.append_length]
    have hreceived' := ParseState.slice_end_of_frame (q := p.append b) (h.frameIs b).whole hreceived
    have hcovered' := ParseState.slice_of_frame (q := p.append b) (h.frameIs b).whole hcovered
      (Nat.sub_le _ _)
    simp only [ParseState.setSp_length, ← hn] at hreceived' hcovered'
    refine conclude_checked (k := .spartn) (h.frameIs b).whole (h.entry (by rw [hs]; rfl)) ?_
    rw [hbytes, spartnBodyVerdict_iff, hreceived', hcovered']
    refine ⟨fun hv => ⟨r.crcType, htype', by omega, hv⟩, ?_⟩
    rintro ⟨t, ht, -, hv⟩
    obtain rfl : t = r.crcType := Option.some.inj (ht.symm.trans htype')
    exact hv
  all_goals exact .error _

theorem ubinReadCrcStep_checked (h : p.Sound) (hs : p.state = .ubinReadCrc) :
    Ends (ubinReadCrcStep (p.append b) b) Turn.Checked := by
  refine .withUbin fun r hr => .ite (fun hlast => ?_) fun _ => quiet_reports.checked
  obtain ⟨-, hge, hsaved⟩ := (checksumCovers_ubinReadCrc hs).mp h.covers r hr
  have hone : r.bytesRemaining.toNat = 1 := by bv_omega
  rw [hone] at hge hsaved
  split
  case h_1 received hreceived =>
    have hflen : (p.frameBytes ++ [b]).length = p.length + 1 := by
      rw [List.length_append, h.inv.frameBytes_length, List.length_singleton]
    have hreceived' := ParseState.slice_end_of_frame (q := p.append b) (h.frameIs b).whole hreceived
    have hcov : (p.frameBytes ++ [b]).take ((p.frameBytes ++ [b]).length - 4) =
        p.frameBytes.take (p.length + 1 - 4) := by
      rw [hflen, List.take_append_of_le_length (by rw [h.inv.frameBytes_length]; omega)]
    simp only [ParseState.setSp_length, ParseState.append_length, ← hflen] at hreceived'
    refine conclude_checked (k := .ubin) (h.frameIs b).whole (h.entry (by rw [hs]; rfl)) ?_
    rw [ubinVerdict, beq_iff_eq, hreceived', hsaved, ← hcov]
    exact ⟨fun hv => ⟨by omega, hv⟩, fun hv => hv.2⟩
  case h_2 => exact .error _

/-- The verdict compares with the checksum of the number of digits that the name asked for
(48_unicore_hash.md R283). -/
theorem uhashVerdict_eq_some {digits : List Byte} {n : BitVec 8} {crc : BitVec 32} {good : Bool}
    {covered : List Byte} (hcrc : crc = uhashChecksum n.toNat covered)
    (hv : uhashVerdict digits n crc = some good) :
    good = true ↔ hexNumber digits = some (uhashChecksum n.toNat covered).toNat := by
  have hsum : (if n = 2 then (crc.setWidth 8).toNat else crc.toNat) =
      (uhashChecksum n.toNat covered).toNat := by
    split_ifs with h2
    · have hlt : (xor8Block covered).toNat < 2 ^ 32 := (BitVec.isLt _).trans (by decide)
      rw [hcrc, h2, uhashChecksum, if_pos (by decide),
        BitVec.setWidth_setWidth_of_le _ (by omega), BitVec.setWidth_eq, BitVec.toNat_setWidth,
        Nat.mod_eq_of_lt hlt]
    · rw [hcrc]
  unfold uhashVerdict at hv
  rw [hsum] at hv
  split at hv
  case h_1 rx hrx =>
    cases hv
    rw [beq_iff_eq, hrx, Option.some.injEq]
  case h_2 => cases hv

theorem uhashChecksumStep_checked (h : p.Sound) (hs : p.state = .uhashChecksumByte) :
    Ends (uhashChecksumStep (p.append b) b) Turn.Checked := by
  refine .withUhash fun r hr => .ite (fun _ => .ite (fun hlast => ?_) fun _ =>
    quiet_reports.checked) fun _ => fail_reports.checked
  obtain ⟨hdigits, hcomma, hstar, hcrc⟩ := (checksumCovers_uhashChecksum hs).mp h.covers r hr
  have hprogress := h.progress
  simp only [ParseState.Progress, hs] at hprogress
  obtain ⟨-, hle, -⟩ := hprogress r hr
  have hone : r.bytesRemaining.toNat = 1 := by bv_omega
  obtain ⟨hname, -⟩ := h.uhash_named hcomma b
  obtain ⟨hstar', hcov⟩ := h.digit hstar b
  rw [show r.checksumBytes.toNat - r.bytesRemaining.toNat + 1 = r.checksumBytes.toNat by omega,
    h.inv.frameBytes_append] at hstar' hcov
  rw [h.inv.frameBytes_append] at hname
  rw [← hcov] at hcrc
  split
  case h_1 => exact .error _
  case h_2 digits hslice =>
    split
    case h_1 => exact .error _
    case h_2 good hverdict =>
      refine conclude_checked (k := .uhash) (h.frameIs b).whole (h.entry (by rw [hs]; rfl)) ?_
      have hflen : (p.frameBytes ++ [b]).length = p.length + 1 := by
        rw [List.length_append, h.inv.frameBytes_length, List.length_singleton]
      have hread := ParseState.slice_end_of_frame (q := p.append b) (h.frameIs b).whole hslice
      simp only [ParseState.setSp_length, ParseState.append_length, ← hflen] at hread
      rw [uhashVerdict_eq_some hcrc hverdict, hread, frameChecks, hname, ← hdigits]
      exact ⟨fun hv => ⟨hstar', hv⟩, fun hv => hv.2⟩

/-! ### The byte step -/

theorem handler_checked (h : p.Sound) (hf : p.state.inFrame = true) :
    Ends (handler (p.append b) b) Turn.Checked := by
  by_cases hv : p.state.completes = true
  · unfold handler
    rw [ParseState.append_state]
    cases hs : p.state with
    | nmeaChecksumLo => exact nmeaChecksumLoStep_checked h hs
    | rtcmCrc => exact rtcmCrcStep_checked h hs
    | ubxCkB => exact ubxCkBStep_checked h hs
    | sbfLengthHi => exact sbfLengthHiStep_checked h hs
    | sbfBody => exact sbfBodyStep_checked h hs
    | spartnCrc => exact spartnCrcStep_checked h hs
    | ubinReadCrc => exact ubinReadCrcStep_checked h hs
    | uhashChecksumByte => exact uhashChecksumStep_checked h hs
    | _ =>
      rw [hs] at hv
      cases hv
  · exact (handler_reports (p := p.append b) hf (Bool.eq_false_iff.mpr hv)).checked

theorem byteStep_checked (h : p.Sound) : Ends (byteStep p b) Turn.Checked := by
  cases hf : p.state.inFrame with
  | true =>
    rw [byteStep_inFrame hf]
    exact .ite (fun _ => failTooLong_reports.checked) fun _ => handler_checked h hf
  | false => exact (byteStep_reports_notInFrame hf).checked

end

/-- Settles O37: what a PUSH delivers or asks about has been judged by its state's handler
(`byteStep_checked`). -/
theorem deliveredFramesCheck : Obligations.DeliveredFramesCheck := by
  intro s t p b i h hp hw hcovers ht
  obtain ⟨hinv, hprogress⟩ := h.idle hp hw
  obtain ⟨turn, hturn, rfl⟩ := exec_push_turn hp hw ht
  obtain ⟨htable, -⟩ := byteStep_keepsSetup p b turn hturn
  obtain ⟨hdelivered, hasked⟩ := byteStep_checked ⟨hinv, hprogress, hcovers⟩ turn hturn
  rw [htable] at hdelivered hasked
  have hevent {e : Event} (he : (s.afterTurn turn).events = s.events ++ [e]) : e ∈ turn.events := by
    rw [State.afterTurn_events] at he
    rw [List.append_cancel_left he]
    exact List.mem_singleton_self e
  refine ⟨fun frame he => hdelivered i frame (hevent he), fun he => ?_⟩
  rw [State.owed_afterTurn]
  exact hasked i (hevent he)

end Sys2Proof.Machine
end

section
/-! PROOF. A frame that arrives whole (30_encoding.md R61, R79): the ParseState while the frame is read,
what a byte more makes of it, and how the last byte ends the PUSHN. The seven recognisers' proofs build
on this. -/

namespace Sys2Proof.Machine

/-! ### The buffer with a byte string stored in it -/

/-- The bytes written from address `a` on. -/
def Memory.writeList (m : Memory) (a : Nat) : List Byte → Memory
  | [] => m
  | b :: bs => Memory.writeList (m.write a b) (a + 1) bs

theorem Memory.writeList_concat (m : Memory) (a : Nat) (bs : List Byte) (b : Byte) :
    m.writeList a (bs ++ [b]) = (m.writeList a bs).write (a + bs.length) b := by
  induction bs generalizing m a with
  | nil => rfl
  | cons c bs ih =>
    rw [List.cons_append, Memory.writeList, Memory.writeList, ih, List.length_cons, Nat.add_assoc,
      Nat.add_comm 1]

theorem Memory.read_writeList (m : Memory) (bs : List Byte) (j : Nat) :
    (m.writeList 0 bs).read j = if j < bs.length then bs[j]? else m.read j := by
  induction bs using List.reverseRecOn with
  | nil => rfl
  | append_singleton bs b ih =>
    rw [Memory.writeList_concat, Memory.read_write, Nat.zero_add, ih, List.length_append,
      List.length_singleton]
    rcases Nat.lt_trichotomy j bs.length with hlt | rfl | hgt
    · rw [if_neg (by omega), if_pos hlt, if_pos (by omega), List.getElem?_append_left hlt]
    · simp
    · rw [if_neg (by omega), if_neg (by omega), if_neg (by omega)]

/-! ### A frame being read -/

/-- The ParseState in which `bytes` of a frame of entry `i` have been stored. -/
def ParseState.reading (p : ParseState) (i : Nat) (bytes : List Byte) (st : PState)
    (crc : BitVec 32) (sp : Scratch) : ParseState :=
  { p with
    buffer := p.buffer.writeList 0 bytes, length := bytes.length, state := st, active := i
    crc := crc, sp := some sp }

section
variable {p : ParseState} {i : Nat} {bytes : List Byte} {st : PState} {crc : BitVec 32}
  {sp : Scratch}

@[simp] theorem ParseState.reading_append (b : Byte) :
    (p.reading i bytes st crc sp).append b = p.reading i (bytes ++ [b]) st crc sp := by
  rw [ParseState.append, ParseState.reading, ParseState.reading, Memory.writeList_concat,
    Nat.zero_add, List.length_append, List.length_singleton]

@[simp] theorem ParseState.reading_goto (st' : PState) :
    (p.reading i bytes st crc sp).goto st' = p.reading i bytes st' crc sp := rfl
@[simp] theorem ParseState.reading_setSp (sp' : Scratch) :
    (p.reading i bytes st crc sp).setSp sp' = p.reading i bytes st crc sp' := rfl
@[simp] theorem ParseState.reading_setCrc (crc' : BitVec 32) :
    (p.reading i bytes st crc sp).setCrc crc' = p.reading i bytes st crc' sp := rfl

@[simp] theorem ParseState.reading_length :
    (p.reading i bytes st crc sp).length = bytes.length := rfl
@[simp] theorem ParseState.reading_state : (p.reading i bytes st crc sp).state = st := rfl
@[simp] theorem ParseState.reading_crc : (p.reading i bytes st crc sp).crc = crc := rfl
@[simp] theorem ParseState.reading_sp : (p.reading i bytes st crc sp).sp = some sp := rfl
@[simp] theorem ParseState.reading_active : (p.reading i bytes st crc sp).active = i := rfl
@[simp] theorem ParseState.reading_bufferLength :
    (p.reading i bytes st crc sp).bufferLength = p.bufferLength := rfl

theorem ParseState.reading_holds : p.Holds (p.reading i bytes st crc sp) bytes := fun a =>
  Memory.read_writeList p.buffer bytes a

theorem ParseState.reading_read {j : Nat} (hj : j < bytes.length) :
    (p.reading i bytes st crc sp).buffer.read j = bytes[j]? :=
  (ParseState.reading_holds j).trans (if_pos hj)

theorem ParseState.reading_byteAt {j : Nat} {b : Byte} (h : bytes[j]? = some b) :
    (p.reading i bytes st crc sp).byteAt j = .ok b := by
  obtain ⟨hj, -⟩ := List.getElem?_eq_some_iff.mp h
  exact ParseState.byteAt_of_read ((ParseState.reading_read hj).trans h)

theorem ParseState.reading_slice {a c : Nat} (hc : c ≤ bytes.length) :
    (p.reading i bytes st crc sp).slice a c = .ok ((bytes.take c).drop a) := by
  refine ParseState.slice_eq_ok.mpr ⟨by simp [hc], fun j hj => ?_⟩
  rw [ParseState.reading_read (by omega), List.getElem?_drop, List.getElem?_take_of_lt (by omega)]

theorem ParseState.reading_slice_end (a : Nat) :
    (p.reading i bytes st crc sp).slice a bytes.length = .ok (bytes.drop a) := by
  rw [ParseState.reading_slice (le_refl _), List.take_length]

theorem ParseState.reading_frameIs {init : List Byte} {b : Byte} :
    (p.reading i (init ++ [b]) st crc sp).FrameIs init b where
  whole := ParseState.reading_slice_end 0
  init := by
    rw [ParseState.reading_slice (by simp), ParseState.reading_length, List.length_append,
      List.length_singleton, Nat.add_sub_cancel, List.take_left, List.drop_zero]

/-! ### The bytes of the frame, one after the other -/

/-- The preamble of an entry, in FIRST_BYTE (41_dispatch.md R126, R127). -/
theorem byteStep_preamble {k : Kind} (hs : p.state = .firstByte) (hl : p.Latches i k) :
    byteStep p (preamble k) =
      quiet (p.reading i [preamble k] (firstState k) (acceptCrc (preamble k) k)
        (Scratch.zero k)) :=
  (byteStep_firstByte hs _).trans (firstByte_latch hl)

/-- A byte of the frame, while there is room for it (41_dispatch.md R124). -/
theorem byteStep_reading {b : Byte} (hf : st.inFrame = true) (hroom : bytes.length < p.bufferLength) :
    byteStep (p.reading i bytes st crc sp) b = handler (p.reading i (bytes ++ [b]) st crc sp) b := by
  rw [byteStep_inFrame_room hf hroom, ParseState.reading_append]

/-! ### The last byte -/

theorem State.finish_congr {s s' : State} (hport : s'.port = s.port) (hevents : s'.events = s.events)
    (r : Except Fault Turn) : s'.finish r = s.finish r := by
  cases r with
  | ok turn => exact congrArg _ (State.afterTurn_congr hport hevents turn)
  | error f => rfl

/-- A PUSHN whose bytes but the last raise nothing. -/
theorem pushOctets_eq_finish {s : State} {q : ParseState} {init : List Byte} {b : Byte}
    (hp : s.parse = some p) (hw : s.window = .none) (hrun : QuietRun p init q) :
    pushOctets (init ++ [b]) s = s.finish (byteStep q b) := by
  rw [pushOctets_run _ hw hp, runBytes_quietRun [b] hp hrun]
  have hlast : runBytes [b] { s with parse := some q } =
      State.finish { s with parse := some q } (byteStep q b) :=
    (exec_push_eq_runBytes (s := { s with parse := some q }) rfl hw).symm.trans
      (exec_push_eq_finish rfl hw)
  exact hlast.trans (State.finish_congr rfl rfl _)

/-- A frame dropped by its checksum. -/
theorem State.finish_fail_checksum {s : State} {q : ParseState} {init : List Byte} {b : Byte}
    (hw : s.window = .none) (hq : q.FrameIs init b) :
    s.finish (fail .checksum q b) = s.dropFrame q (init ++ [b]) b := by
  rw [State.finish_fail hw rfl rfl hq.init, State.dropFrame, List.dropLast_concat]

/-- A bad verdict: the host is asked, or the frame dropped. -/
theorem State.finish_softCrc {s : State} {q : ParseState} {init : List Byte} {b : Byte}
    (hw : s.window = .none) (hq : q.FrameIs init b) (text : Bool) :
    s.finish (softCrc text q b) = s.softCrcFrame q (init ++ [b]) b text := by
  unfold softCrc State.softCrcFrame
  split_ifs
  · rfl
  · exact State.finish_fail_checksum hw hq

/-- The verdict on a binary frame. -/
theorem State.finish_conclude_binary {s : State} {q : ParseState} {init : List Byte} {b : Byte}
    (hw : s.window = .none) (hq : q.FrameIs init b) (good : Bool) :
    s.finish (conclude good false q b) =
      if good then .next (s.raised q (.eom q.active (init ++ [b])) (.inEom false))
      else s.softCrcFrame q (init ++ [b]) b false := by
  cases good with
  | true => exact congrArg s.finish (deliver_eq hq.whole)
  | false => exact State.finish_softCrc hw hq false

/-- The form of the statements about a binary frame: all its bytes but the last run quietly, and the last
gives the verdict. -/
theorem binary_frame_outcome {s : State} {q : ParseState} {init : List Byte} {b : Byte} {good : Bool}
    {Right : Prop} [Decidable Right] (hp : s.parse = some p) (hw : s.window = .none)
    (hrun : QuietRun p init q)
    (hlast : byteStep q b = conclude good false (p.reading i (init ++ [b]) st crc sp) b)
    (hgood : good = true ↔ Right) :
    ∃ q : ParseState, p.Holds q (init ++ [b]) ∧
      q =
        { p with
          buffer := q.buffer, length := (init ++ [b]).length, state := st, active := i, crc := crc
          sp := some sp } ∧
      pushOctets (init ++ [b]) s =
        if Right then .next (s.raised q (.eom i (init ++ [b])) (.inEom false))
        else s.softCrcFrame q (init ++ [b]) b false := by
  refine ⟨_, ParseState.reading_holds, rfl, ?_⟩
  rw [pushOctets_eq_finish hp hw hrun, hlast,
    State.finish_conclude_binary hw ParseState.reading_frameIs, ParseState.reading_active]
  simp only [hgood]

end

/-! ### Bytes still to come -/

/-- A payload byte read is one fewer to come. -/
theorem toNat_pred_of_cons {w : Nat} {x : BitVec w} {c : Byte} {rest : List Byte}
    (h : x.toNat = (c :: rest).length) : (x - 1).toNat = rest.length := by
  have hw : w ≠ 0 := by
    rintro rfl
    have hx := x.isLt
    simp only [List.length_cons] at h
    omega
  rw [List.length_cons] at h
  rw [toNat_sub_one (by omega) (by omega), h, Nat.add_sub_cancel]

theorem eq_zero_iff_nil {w : Nat} {x : BitVec w} {rest : List Byte} (h : x.toNat = rest.length) :
    x = 0 ↔ rest = [] := by
  rw [← List.length_eq_zero_iff, ← h]
  exact BitVec.toNat_eq.trans (by simp)

/-! ### The octets of the header fields -/

/-- Byte `i` of a value, in natural numbers. -/
theorem byteOf_eq_ofNat {w : Nat} (v : BitVec w) (i : Nat) :
    byteOf v i = BitVec.ofNat 8 (v.toNat / 2 ^ (8 * i)) := by
  apply BitVec.eq_of_toNat_eq
  rw [byteOf, BitVec.extractLsb'_toNat, BitVec.toNat_ofNat, Nat.shiftRight_eq_div_pow]

theorem ofNat_mod_256 (n : Nat) : BitVec.ofNat 8 (n % 256) = BitVec.ofNat 8 n :=
  BitVec.eq_of_toNat_eq (Nat.mod_mod n 256)

/-- The two octets of a 16-bit field, the low one first. -/
theorem byteOf_zero_eq_ofNat (v : BitVec 16) : byteOf v 0 = BitVec.ofNat 8 (v.toNat % 256) := by
  rw [byteOf_eq_ofNat, ofNat_mod_256, Nat.mul_zero, Nat.pow_zero, Nat.div_one]

theorem byteOf_one_eq_ofNat (v : BitVec 16) : byteOf v 1 = BitVec.ofNat 8 (v.toNat / 256) :=
  byteOf_eq_ofNat v 1

/-- Two octets put together, the second the more significant. -/
theorem toNat_or_shift8 (lo hi : Byte) :
    (lo.setWidth 16 ||| hi.setWidth 16 <<< 8 : BitVec 16).toNat = lo.toNat + 256 * hi.toNat := by
  have hlo : (lo.setWidth 16 : BitVec 16).toNat = leNat [lo] := by
    have hlt := lo.isLt
    rw [BitVec.toNat_setWidth, Nat.mod_eq_of_lt (by omega)]
    rfl
  rw [leNat_pair _ _ _ hlo]
  simp [leNat]

/-- A 16-bit field put together from its octets. -/
theorem or_bytes16 (v : BitVec 16) :
    (byteOf v 0).setWidth 16 ||| (byteOf v 1).setWidth 16 <<< 8 = v := by
  apply BitVec.eq_of_toNat_eq
  have hv := v.isLt
  rw [toNat_or_shift8, byteOf_zero_eq_ofNat, byteOf_one_eq_ofNat]
  simp only [BitVec.toNat_ofNat]
  omega

end Sys2Proof.Machine
end

section
/-! PROOF. A whole RTCM frame (43_rtcm.md R170 to R178): the run of its recogniser from the preamble to the
CRC's last byte. -/

namespace Sys2Proof.Machine

/-- An RTCM frame being read: the accumulator is the CRC-24Q of all its bytes (43_rtcm.md R170). -/
def ParseState.rtcmAt (p : ParseState) (i : Nat) (bytes : List Byte) (st : PState) (r : RtcmRec) :
    ParseState :=
  p.reading i bytes st ((crc24qBlock bytes).setWidth 32) (.rtcm r)

/-- The frame with its payload read so far, `rest` to come: the CRC phase if nothing is
(43_rtcm.md R177). -/
def ParseState.rtcmNext (p : ParseState) (i : Nat) (bytes rest : List Byte) (next : PState)
    (r : RtcmRec) : ParseState :=
  if rest = [] then
    p.rtcmAt i bytes .rtcmCrc { r with savedCrc := crc24qBlock bytes, bytesRemaining := 3 }
  else p.rtcmAt i bytes next r

section
variable {p : ParseState} {i : Nat} {bytes : List Byte} {st : PState} {r : RtcmRec} {b : Byte}

/-- The byte stored is the byte folded. -/
theorem ParseState.rtcmAt_fold :
    (p.reading i (bytes ++ [b]) st ((crc24qBlock bytes).setWidth 32) (.rtcm r)).foldCrc24q b =
      p.rtcmAt i (bytes ++ [b]) st r := by
  rw [ParseState.foldCrc24q, ParseState.reading_crc, foldCrc24q_covers rfl]
  rfl

theorem byteStep_rtcmAt (hst : st.inFrame = true) (hroom : bytes.length < p.bufferLength) :
    byteStep (p.rtcmAt i bytes st r) b =
      handler (p.reading i (bytes ++ [b]) st ((crc24qBlock bytes).setWidth 32) (.rtcm r)) b :=
  byteStep_reading hst hroom

theorem rtcmContinue_rtcmAt {rest : List Byte} {next : PState}
    (hrem : r.bytesRemaining.toNat = rest.length) {r' : RtcmRec} :
    rtcmContinue (p.rtcmAt i bytes st r') r next = quiet (p.rtcmNext i bytes rest next r) := by
  unfold rtcmContinue ParseState.rtcmNext
  simp only [eq_zero_iff_nil hrem]
  split_ifs
  · have hcrc : ((crc24qBlock bytes).setWidth 32).setWidth 24 = crc24qBlock bytes := by
      rw [BitVec.setWidth_setWidth_of_le _ (by omega), BitVec.setWidth_eq]
    simp only [enterRtcmCrc, ParseState.rtcmAt, ParseState.reading_crc, ParseState.reading_setSp,
      ParseState.reading_goto, hcrc]
  · rfl

/-! ### The payload -/

theorem byteStep_rtcmMsgIdHi {rest : List Byte} (hroom : bytes.length < p.bufferLength)
    (hrem : r.bytesRemaining.toNat = (b :: rest).length) :
    byteStep (p.rtcmAt i bytes .rtcmMsgIdHi r) b =
      quiet (p.rtcmNext i (bytes ++ [b]) rest .rtcmMsgIdLo
        { r with messageId := b.setWidth 16 <<< 4, bytesRemaining := r.bytesRemaining - 1 }) := by
  rw [byteStep_rtcmAt rfl hroom]
  simp only [handler, ParseState.reading_state, rtcmMsgIdHiStep, withRtcm, ParseState.reading_sp,
    ParseState.rtcmAt_fold]
  exact rtcmContinue_rtcmAt (toNat_pred_of_cons hrem)

theorem byteStep_rtcmMsgIdLo {rest : List Byte} (hroom : bytes.length < p.bufferLength)
    (hrem : r.bytesRemaining.toNat = (b :: rest).length) :
    byteStep (p.rtcmAt i bytes .rtcmMsgIdLo r) b =
      quiet (p.rtcmNext i (bytes ++ [b]) rest .rtcmData
        { r with
          messageId := r.messageId ||| (b >>> 4).setWidth 16
          bytesRemaining := r.bytesRemaining - 1 }) := by
  rw [byteStep_rtcmAt rfl hroom]
  simp only [handler, ParseState.reading_state, rtcmMsgIdLoStep, withRtcm, ParseState.reading_sp,
    ParseState.rtcmAt_fold]
  exact rtcmContinue_rtcmAt (toNat_pred_of_cons hrem)

theorem byteStep_rtcmData {rest : List Byte} (hroom : bytes.length < p.bufferLength)
    (hrem : r.bytesRemaining.toNat = (b :: rest).length) :
    byteStep (p.rtcmAt i bytes .rtcmData r) b =
      quiet (p.rtcmNext i (bytes ++ [b]) rest .rtcmData
        { r with bytesRemaining := r.bytesRemaining - 1 }) := by
  rw [byteStep_rtcmAt rfl hroom]
  simp only [handler, ParseState.reading_state, rtcmDataStep, withRtcm, ParseState.reading_sp,
    ParseState.rtcmAt_fold]
  exact rtcmContinue_rtcmAt (toNat_pred_of_cons hrem)

/-- The payload from its third byte on (43_rtcm.md R176). -/
theorem rtcmData_run {rest : List Byte} (hroom : (bytes ++ rest).length ≤ p.bufferLength)
    (hrem : r.bytesRemaining.toNat = rest.length) :
    QuietRun (p.rtcmNext i bytes rest .rtcmData r) rest
      (p.rtcmAt i (bytes ++ rest) .rtcmCrc
        { r with savedCrc := crc24qBlock (bytes ++ rest), bytesRemaining := 3 }) := by
  induction rest generalizing bytes r with
  | nil =>
    rw [List.append_nil]
    exact .nil _
  | cons c rest ih =>
    rw [List.append_cons] at hroom ⊢
    have hstored : bytes.length < p.bufferLength := by
      simp only [List.length_append, List.length_singleton] at hroom
      omega
    exact .cons (byteStep_rtcmData hstored hrem) (ih hroom (toNat_pred_of_cons hrem))

/-- The whole payload: its first two bytes carry the message id (43_rtcm.md R174, R175). -/
theorem rtcmPayload_run {payload : List Byte} (hroom : (bytes ++ payload).length ≤ p.bufferLength)
    (hrem : r.bytesRemaining.toNat = payload.length) (hid : r.messageId = 0) :
    QuietRun (p.rtcmNext i bytes payload .rtcmMsgIdHi r) payload
      (p.rtcmAt i (bytes ++ payload) .rtcmCrc
        { savedCrc := crc24qBlock (bytes ++ payload)
          bytesRemaining := 3
          messageId :=
            (payload.getD 0 0).setWidth 16 <<< 4 ||| ((payload.getD 1 0).setWidth 16 >>> 4) }) := by
  have hhigh (c : Byte) : (c >>> 4).setWidth 16 = (c.setWidth 16 : BitVec 16) >>> 4 :=
    BitVec.setWidth_ushiftRight (by omega)
  simp only [List.length_append] at hroom
  match payload, hrem, hroom with
  | [], hrem, _ =>
    have hr : { r with savedCrc := crc24qBlock bytes, bytesRemaining := 3 } =
        (⟨crc24qBlock bytes, 3, 0⟩ : RtcmRec) := by rw [← hid]
    rw [List.append_nil, ParseState.rtcmNext, if_pos rfl, hr]
    exact .nil _
  | [x], hrem, hroom =>
    have hrun := QuietRun.one (byteStep_rtcmMsgIdHi (p := p) (i := i) (bytes := bytes)
      (by simp at hroom; omega) hrem)
    simpa [ParseState.rtcmNext] using hrun
  | x :: y :: rest, hrem, hroom =>
    have hrem' := toNat_pred_of_cons hrem
    simp only [List.length_cons] at hroom
    refine .cons (byteStep_rtcmMsgIdHi (by omega) hrem)
      (.cons (byteStep_rtcmMsgIdLo (by simp; omega) hrem') ?_)
    have hrun := rtcmData_run (p := p) (i := i) (bytes := bytes ++ [x] ++ [y])
      (r := ⟨r.savedCrc, r.bytesRemaining - 1 - 1, x.setWidth 16 <<< 4 ||| (y >>> 4).setWidth 16⟩)
      (rest := rest) (by simp; omega) (toNat_pred_of_cons hrem')
    rw [hhigh] at hrun
    simpa using hrun

/-! ### The header -/

/-- The high byte of a 10-bit length. -/
theorem rtcm_lengthHi_bits {hi : Byte} (h : hi.toNat < 4) :
    rtcmReservedZero hi = true ∧ hi &&& 0x03 = hi := by
  revert hi
  decide

/-- The preamble and the two length bytes (43_rtcm.md R171 to R173). -/
theorem rtcmHeader_run {len : BitVec 10} (hs : p.state = .firstByte) (hl : p.Latches i .rtcm)
    {rest : List Byte} (hlen : len.toNat = rest.length) (hroom : 3 ≤ p.bufferLength) :
    let header : List Byte :=
      [0xD3, BitVec.ofNat 8 (len.toNat / 256), BitVec.ofNat 8 (len.toNat % 256)]
    ∃ r : RtcmRec, r.bytesRemaining.toNat = rest.length ∧ r.messageId = 0 ∧
      QuietRun p header (p.rtcmNext i header rest .rtcmMsgIdHi r) := by
  intro header
  have hlt := len.isLt
  have hi_small : (BitVec.ofNat 8 (len.toNat / 256)).toNat < 4 := by
    rw [BitVec.toNat_ofNat]
    omega
  have hsum : (BitVec.ofNat 8 (len.toNat % 256)).toNat +
      256 * (BitVec.ofNat 8 (len.toNat / 256)).toNat = rest.length := by
    simp only [BitVec.toNat_ofNat]
    omega
  subst header
  generalize BitVec.ofNat 8 (len.toNat / 256) = hi at hi_small hsum
  generalize BitVec.ofNat 8 (len.toNat % 256) = lo at hsum
  obtain ⟨hreserved, hlow⟩ := rtcm_lengthHi_bits hi_small
  have hrem : (hi.setWidth 16 <<< 8 ||| lo.setWidth 16 : BitVec 16).toNat = rest.length := by
    rw [BitVec.or_comm, toNat_or_shift8, hsum]
  refine ⟨⟨0, hi.setWidth 16 <<< 8 ||| lo.setWidth 16, 0⟩, hrem, rfl,
    .cons (q := p.rtcmAt i [0xD3] .rtcmLengthHi ⟨0, 0, 0⟩) ?_
      (.cons (q := p.rtcmAt i [0xD3, hi] .rtcmLengthLo ⟨0, hi.setWidth 16 <<< 8, 0⟩) ?_
        (.one ?_))⟩
  · have hcrc : (crc24qBlock [0xD3]).setWidth 32 = acceptCrc 0xD3 .rtcm := by
      simp [crc24qBlock, block, generatorParams, acceptCrc]
    rw [ParseState.rtcmAt, hcrc]
    exact byteStep_preamble hs hl
  · rw [byteStep_rtcmAt rfl (by simp; omega)]
    simp only [handler, ParseState.reading_state, rtcmLengthHiStep, withRtcm, ParseState.reading_sp,
      ParseState.rtcmAt_fold, hreserved, hlow]
    rfl
  · rw [byteStep_rtcmAt rfl (by simp; omega)]
    simp only [handler, ParseState.reading_state, rtcmLengthLoStep, withRtcm, ParseState.reading_sp,
      ParseState.rtcmAt_fold]
    exact rtcmContinue_rtcmAt hrem

/-! ### The CRC -/

/-- A CRC byte but the last (43_rtcm.md R178). -/
theorem byteStep_rtcmCrc {saved : BitVec 24} {id m n : BitVec 16}
    (hroom : bytes.length < p.bufferLength) (hn : m - 1 = n) (hmore : n ≠ 0) :
    byteStep (p.rtcmAt i bytes .rtcmCrc ⟨saved, m, id⟩) b =
      quiet (p.rtcmAt i (bytes ++ [b]) .rtcmCrc ⟨saved, n, id⟩) := by
  subst hn
  rw [byteStep_rtcmAt rfl hroom]
  simp only [handler, ParseState.reading_state, rtcmCrcStep, withRtcm, ParseState.reading_sp,
    ParseState.rtcmAt_fold, if_neg hmore]
  rfl

theorem rtcmCrc_run {saved : BitVec 24} {id : BitVec 16} {c0 c1 : Byte}
    (hroom : bytes.length + 2 ≤ p.bufferLength) :
    QuietRun (p.rtcmAt i bytes .rtcmCrc ⟨saved, 3, id⟩) [c0, c1]
      (p.rtcmAt i (bytes ++ [c0, c1]) .rtcmCrc ⟨saved, 1, id⟩) := by
  have hfirst : byteStep (p.rtcmAt i bytes .rtcmCrc ⟨saved, 3, id⟩) c0 =
      quiet (p.rtcmAt i (bytes ++ [c0]) .rtcmCrc ⟨saved, 2, id⟩) :=
    byteStep_rtcmCrc (by omega) (by decide) (by decide)
  have hsecond : byteStep (p.rtcmAt i (bytes ++ [c0]) .rtcmCrc ⟨saved, 2, id⟩) c1 =
      quiet (p.rtcmAt i (bytes ++ [c0] ++ [c1]) .rtcmCrc ⟨saved, 1, id⟩) :=
    byteStep_rtcmCrc (by simp; omega) (by decide) (by decide)
  rw [List.append_cons bytes]
  exact .cons hfirst (.one hsecond)

/-- The last CRC byte: the frame and its CRC have residue 0, or the CRC is bad. -/
theorem byteStep_rtcmCrc_last {saved : BitVec 24} {id : BitVec 16}
    (hroom : bytes.length < p.bufferLength) :
    byteStep (p.rtcmAt i bytes .rtcmCrc ⟨saved, 1, id⟩) b =
      conclude (crc24qBlock (bytes ++ [b]) == 0) false
        (p.rtcmAt i (bytes ++ [b]) .rtcmCrc ⟨saved, 0, id⟩) b := by
  rw [byteStep_rtcmAt rfl hroom]
  have hcrc : ((crc24qBlock (bytes ++ [b])).setWidth 32).setWidth 24 = crc24qBlock (bytes ++ [b]) := by
    rw [BitVec.setWidth_setWidth_of_le _ (by omega), BitVec.setWidth_eq]
  have hlast : (1 : BitVec 16) - 1 = 0 := by decide
  simp only [handler, ParseState.reading_state, rtcmCrcStep, withRtcm, ParseState.reading_sp,
    ParseState.rtcmAt_fold, hlast, if_true, rtcmVerdict, ParseState.rtcmAt,
    ParseState.reading_setSp, ParseState.reading_crc, hcrc]

end

/-- The residue of a frame is 0 exactly when its trailer is the CRC of what precedes it
(40_generators.md section 5). -/
theorem crc24qBlock_eq_zero_iff {message trailer : List Byte} (h : trailer.length = 3) :
    crc24qBlock (message ++ trailer) = 0 ↔ trailer = beBytes (crc24qBlock message) 3 := by
  obtain ⟨hresidue, -⟩ := zeroResidueMsbFirst message trailer
  rw [← hresidue h]
  simp [crc24qBlock, block, generatorParams]

theorem rtcmOctets_eq (len : BitVec 10) (rest : List Byte) :
    rtcmOctets len rest =
      0xD3 :: BitVec.ofNat 8 (len.toNat / 256) :: BitVec.ofNat 8 (len.toNat % 256) :: rest := by
  have hlt := len.isLt
  have hhi : (len.extractLsb' 8 2).setWidth 8 = BitVec.ofNat 8 (len.toNat / 256) := by
    apply BitVec.eq_of_toNat_eq
    simp only [BitVec.toNat_setWidth, BitVec.extractLsb'_toNat, BitVec.toNat_ofNat,
      Nat.shiftRight_eq_div_pow]
    omega
  rw [rtcmOctets, hhi, ofNat_mod_256]
  rfl

theorem exec_frameRtcm (len : BitVec 10) (rest : List Byte) (s : State) :
    exec (.frameRtcm len rest) s = pushOctets (rtcmOctets len rest) s := rfl

/-- Settles O38: header, payload and two CRC bytes run quietly; the last one gives the verdict. -/
theorem frameRtcm : Obligations.FrameRtcm := by
  intro s p i len payload trailer hp hw hs hl hpayload htrailer covered octets hroom
  obtain ⟨c0, c1, c2, rfl⟩ := List.length_eq_three.mp htrailer
  have hcovered : covered.length + 3 ≤ p.bufferLength := by simpa [octets] using hroom
  have hheaderRoom : 3 ≤ p.bufferLength := by simp [covered] at hcovered; omega
  obtain ⟨r, hrem, hid, hheader⟩ := rtcmHeader_run hs hl hpayload.symm hheaderRoom
  have hrun := (hheader.append (rtcmPayload_run (by simp [covered] at hcovered ⊢; omega) hrem
    hid)).append (rtcmCrc_run (bytes := covered) (c0 := c0) (c1 := c1) (by omega))
  have hlast := byteStep_rtcmCrc_last (p := p) (i := i) (bytes := covered ++ [c0, c1]) (b := c2)
    (saved := crc24qBlock covered)
    (id := (payload.getD 0 0).setWidth 16 <<< 4 ||| ((payload.getD 1 0).setWidth 16 >>> 4))
    (by simp; omega)
  have hgood : (crc24qBlock (covered ++ [c0, c1] ++ [c2]) == 0) = true ↔
      [c0, c1, c2] = beBytes (crc24qBlock covered) 3 := by
    rw [beq_iff_eq, ← crc24qBlock_eq_zero_iff htrailer, List.append_assoc]
    rfl
  obtain ⟨q, hholds, hq, hpush⟩ := binary_frame_outcome hp hw hrun hlast hgood
  have hexec : exec (.frameRtcm len (payload ++ [c0, c1, c2])) s =
      pushOctets (covered ++ [c0, c1] ++ [c2]) s := by
    rw [exec_frameRtcm, rtcmOctets_eq, List.append_assoc covered]
    rfl
  have hoctets : octets = covered ++ [c0, c1] ++ [c2] := (List.append_assoc covered [c0, c1] [c2]).symm
  rw [hoctets]
  exact ⟨q, hholds, hq, hexec.trans hpush⟩

end Sys2Proof.Machine
end

section
/-! PROOF. A whole UBX frame (44_ubx.md R190 to R199): the run of its recogniser from the sync bytes to
CK_B. -/

namespace Sys2Proof.Machine

/-- The UBX record once the bytes `covered` have been summed (44_ubx.md R193 to R197). -/
def ubxSummed (covered : List Byte) (rem : BitVec 16) (cls id : Byte) (len : BitVec 16) : UbxRec :=
  ⟨rem, cls, id, len, (fl8Block covered).1, (fl8Block covered).2⟩

theorem ubxSummed_fold (covered : List Byte) (rem : BitVec 16) (cls id : Byte) (len : BitVec 16)
    (b : Byte) :
    (ubxSummed covered rem cls id len).fold b = ubxSummed (covered ++ [b]) rem cls id len := by
  simp only [UbxRec.fold, ubxSummed, fl8Block_append]

/-- A UBX frame being read, with `covered` behind its sync bytes. -/
def ParseState.ubxAt (p : ParseState) (i : Nat) (covered : List Byte) (st : PState) (r : UbxRec) :
    ParseState :=
  p.reading i (0xB5 :: 0x62 :: covered) st 0 (.ubx r)

section
variable {p : ParseState} {i : Nat} {covered : List Byte} {st : PState} {r : UbxRec} {b : Byte}

theorem byteStep_ubxAt (hst : st.inFrame = true) (hroom : covered.length + 2 < p.bufferLength) :
    byteStep (p.ubxAt i covered st r) b = handler (p.ubxAt i (covered ++ [b]) st r) b :=
  byteStep_reading hst hroom

/-! ### The header -/

/-- The two sync bytes (44_ubx.md R191, R192). -/
theorem ubxSync_run (hs : p.state = .firstByte) (hl : p.Latches i .ubx) (hroom : 2 ≤ p.bufferLength) :
    QuietRun p [0xB5, 0x62] (p.ubxAt i [] .ubxClass (ubxSummed [] 0 0 0 0)) := by
  refine .cons (byteStep_preamble hs hl) (.one ?_)
  rw [byteStep_reading rfl (by simp; omega)]
  rfl

/-- Class, id and length (44_ubx.md R193 to R196). -/
theorem ubxHeader_run {cls id : Byte} {len : BitVec 16} (hroom : 6 ≤ p.bufferLength) :
    let header := [cls, id, byteOf len 0, byteOf len 1]
    QuietRun (p.ubxAt i [] .ubxClass (ubxSummed [] 0 0 0 0)) header
      (p.ubxAt i header (if len = 0 then .ubxCkA else .ubxPayload)
        (ubxSummed header len cls id len)) := by
  have hclass : byteStep (p.ubxAt i [] .ubxClass (ubxSummed [] 0 0 0 0)) cls =
      quiet (p.ubxAt i [cls] .ubxId (ubxSummed [cls] 0 cls 0 0)) := by
    rw [byteStep_ubxAt rfl (by simp; omega)]
    rfl
  have hid : byteStep (p.ubxAt i [cls] .ubxId (ubxSummed [cls] 0 cls 0 0)) id =
      quiet (p.ubxAt i [cls, id] .ubxLengthLo (ubxSummed [cls, id] 0 cls id 0)) := by
    rw [byteStep_ubxAt rfl (by simp; omega)]
    rfl
  have hlo : byteStep (p.ubxAt i [cls, id] .ubxLengthLo (ubxSummed [cls, id] 0 cls id 0))
      (byteOf len 0) =
      quiet (p.ubxAt i [cls, id, byteOf len 0] .ubxLengthHi
        (ubxSummed [cls, id, byteOf len 0] 0 cls id ((byteOf len 0).setWidth 16))) := by
    rw [byteStep_ubxAt rfl (by simp; omega)]
    rfl
  refine .cons hclass (.cons hid (.cons hlo (.one ?_)))
  rw [byteStep_ubxAt rfl (by simp; omega)]
  change quiet ((p.ubxAt i [cls, id, byteOf len 0, byteOf len 1]
      (if (byteOf len 0).setWidth 16 ||| (byteOf len 1).setWidth 16 <<< 8 = 0 then .ubxCkA
        else .ubxPayload)
      (ubxSummed [cls, id, byteOf len 0, byteOf len 1]
        ((byteOf len 0).setWidth 16 ||| (byteOf len 1).setWidth 16 <<< 8) cls id
        ((byteOf len 0).setWidth 16 ||| (byteOf len 1).setWidth 16 <<< 8)))) = _
  rw [or_bytes16]
  rfl

/-! ### The payload -/

/-- The payload, each of its bytes summed (44_ubx.md R197). -/
theorem ubxPayload_run {payload : List Byte} {rem len : BitVec 16} {cls id : Byte}
    (hroom : (covered ++ payload).length + 2 ≤ p.bufferLength)
    (hrem : rem.toNat = payload.length) :
    QuietRun (p.ubxAt i covered (if rem = 0 then .ubxCkA else .ubxPayload)
        (ubxSummed covered rem cls id len)) payload
      (p.ubxAt i (covered ++ payload) .ubxCkA (ubxSummed (covered ++ payload) 0 cls id len)) := by
  induction payload generalizing covered rem with
  | nil =>
    obtain rfl := (eq_zero_iff_nil hrem).mpr rfl
    rw [List.append_nil]
    exact .nil _
  | cons c rest ih =>
    have hne : rem ≠ 0 := fun h => nomatch (eq_zero_iff_nil hrem).mp h
    rw [List.append_cons] at hroom ⊢
    have hstored : covered.length + 2 < p.bufferLength := by
      simp only [List.length_append, List.length_singleton] at hroom
      omega
    refine .cons ?_ (ih hroom (toNat_pred_of_cons hrem))
    rw [if_neg hne, byteStep_ubxAt rfl hstored, ← ubxSummed_fold]
    rfl

/-! ### The checksum -/

theorem byteStep_ubxCkA (hroom : covered.length + 2 < p.bufferLength) :
    byteStep (p.ubxAt i covered .ubxCkA r) b = quiet (p.ubxAt i (covered ++ [b]) .ubxCkB r) := by
  rw [byteStep_ubxAt rfl hroom]
  rfl

theorem ubxCkBStep_eq {q : ParseState} {a : Byte} (hsp : q.sp = some (.ubx r))
    (ha : q.byteAt (q.length - 2) = .ok a) :
    ubxCkBStep q b = conclude (ubxVerdict a b r.ckA r.ckB) false q b := by
  simp only [ubxCkBStep, withUbx, hsp, ha]

/-- CK_B: both sums are compared with what the frame carries (44_ubx.md R199). -/
theorem byteStep_ubxCkB {ckA : Byte} (hroom : covered.length + 3 < p.bufferLength) :
    byteStep (p.ubxAt i (covered ++ [ckA]) .ubxCkB r) b =
      conclude (ubxVerdict ckA b r.ckA r.ckB) false
        (p.ubxAt i (covered ++ [ckA] ++ [b]) .ubxCkB r) b := by
  rw [byteStep_ubxAt rfl (by simp; omega)]
  exact ubxCkBStep_eq rfl (ParseState.reading_byteAt (by simp [ParseState.ubxAt]))

end

theorem ubxOctets_eq (cls id : Byte) (len : BitVec 16) (rest : List Byte) :
    ubxOctets cls id len rest =
      0xB5 :: 0x62 :: ([cls, id, BitVec.ofNat 8 (len.toNat % 256),
        BitVec.ofNat 8 (len.toNat / 256)] ++ rest) := by
  rw [← byteOf_zero_eq_ofNat, ← byteOf_one_eq_ofNat]
  rfl

theorem exec_frameUbx (cls id : Byte) (len : BitVec 16) (rest : List Byte) (s : State) :
    exec (.frameUbx cls id len rest) s = pushOctets (ubxOctets cls id len rest) s := rfl

/-- Settles O39: sync bytes, header, payload and CK_A run quietly; CK_B gives the verdict. -/
theorem frameUbx : Obligations.FrameUbx := by
  intro s p i cls id ckA ckB len payload hp hw hs hl hpayload covered octets hroom
  have hcovered : covered = [cls, id, byteOf len 0, byteOf len 1] ++ payload := by
    rw [byteOf_zero_eq_ofNat, byteOf_one_eq_ofNat]
    rfl
  have hlen : covered.length + 4 ≤ p.bufferLength := by simp [octets] at hroom; omega
  have hlen4 : covered.length = 4 + payload.length := by simp [hcovered]; omega
  have hpayloadRun := ubxPayload_run (p := p) (i := i)
    (covered := [cls, id, byteOf len 0, byteOf len 1]) (cls := cls) (id := id) (len := len)
    (by rw [← hcovered]; omega) hpayload.symm
  rw [← hcovered] at hpayloadRun
  have hckA := byteStep_ubxCkA (p := p) (i := i) (covered := covered)
    (r := ubxSummed covered 0 cls id len) (b := ckA) (by omega)
  have hrun := (((ubxSync_run hs hl (by omega)).append (ubxHeader_run (by omega))).append
    hpayloadRun).append (.one hckA)
  have hlast := byteStep_ubxCkB (p := p) (i := i) (covered := covered)
    (r := ubxSummed covered 0 cls id len) (ckA := ckA) (b := ckB) (by omega)
  have hgood : ubxVerdict ckA ckB (fl8Block covered).1 (fl8Block covered).2 = true ↔
      fl8Block covered = (ckA, ckB) := by
    rw [ubxVerdict, Bool.and_eq_true, beq_iff_eq, beq_iff_eq, Prod.ext_iff]
    exact and_congr eq_comm eq_comm
  obtain ⟨q, hholds, hq, hpush⟩ := binary_frame_outcome
    (init := [0xB5, 0x62] ++ covered ++ [ckA]) hp hw (by simpa [hcovered] using hrun)
    (hlast.trans (by rfl)) hgood
  have hoctets : [0xB5, 0x62] ++ covered ++ [ckA] ++ [ckB] = octets := by simp [octets]
  rw [hoctets] at hholds hq hpush
  refine ⟨q, hholds, hq, Eq.trans ?_ hpush⟩
  rw [exec_frameUbx, ubxOctets_eq]
  simp [octets, covered]

end Sys2Proof.Machine
end

section
/-! PROOF. A whole SBF frame (45_sbf.md R210 to R220): the run of its recogniser from the sync bytes to the
byte that completes the frame, which is the last of the body or, without a body, of the length. -/

namespace Sys2Proof.Machine

/-- An SBF frame being read, with `covered` behind its CRC field: the accumulator is their CCITT-16
(45_sbf.md R215 to R219). -/
def ParseState.sbfAt (p : ParseState) (i : Nat) (crc : BitVec 16) (covered : List Byte) (st : PState)
    (r : SbfRec) : ParseState :=
  p.reading i (0x24 :: 0x40 :: byteOf crc 0 :: byteOf crc 1 :: covered) st
    ((ccitt16Block covered).setWidth 32) (.sbf r)

section
variable {p : ParseState} {i : Nat} {crc : BitVec 16} {covered : List Byte} {st : PState}
  {r : SbfRec} {b : Byte}

/-- The byte stored is the byte folded. -/
theorem ParseState.sbfAt_fold :
    ((p.sbfAt i crc covered st r).append b).foldCcitt16 b = p.sbfAt i crc (covered ++ [b]) st r := by
  rw [ParseState.sbfAt, ParseState.reading_append, ParseState.foldCcitt16, ParseState.reading_crc,
    foldCcitt16_covers rfl]
  rfl

theorem byteStep_sbfAt (hst : st.inFrame = true) (hroom : covered.length + 4 < p.bufferLength) :
    byteStep (p.sbfAt i crc covered st r) b = handler ((p.sbfAt i crc covered st r).append b) b :=
  byteStep_inFrame_room (p := p.sbfAt i crc covered st r) hst hroom b

/-! ### The header -/

/-- The sync bytes and the CRC field (45_sbf.md R211 to R214). -/
theorem sbfSync_run (hs : p.state = .firstByte) (hl : p.Latches i .sbf) (hroom : 4 ≤ p.bufferLength) :
    QuietRun p [0x24, 0x40, byteOf crc 0, byteOf crc 1]
      (p.sbfAt i crc [] .sbfId1 ⟨crc, 0, 0, 0, 0, 0⟩) := by
  have hsync : byteStep (p.reading i [0x24] .sbfPreamble2 0 (Scratch.zero .sbf)) 0x40 =
      quiet (p.reading i [0x24, 0x40] .sbfCrc1 0 (Scratch.zero .sbf)) := by
    rw [byteStep_reading rfl (by simp; omega)]
    rfl
  have hcrc1 : byteStep (p.reading i [0x24, 0x40] .sbfCrc1 0 (Scratch.zero .sbf)) (byteOf crc 0) =
      quiet (p.reading i [0x24, 0x40, byteOf crc 0] .sbfCrc2 0
        (.sbf ⟨(byteOf crc 0).setWidth 16, 0, 0, 0, 0, 0⟩)) := by
    rw [byteStep_reading rfl (by simp; omega)]
    rfl
  refine .cons (byteStep_preamble hs hl) (.cons hsync (.cons hcrc1 (.one ?_)))
  rw [byteStep_reading rfl (by simp; omega)]
  change quiet (p.reading i [0x24, 0x40, byteOf crc 0, byteOf crc 1] .sbfId1 0
    (.sbf ⟨(byteOf crc 0).setWidth 16 ||| (byteOf crc 1).setWidth 16 <<< 8, 0, 0, 0, 0, 0⟩)) = _
  rw [or_bytes16]
  rfl

theorem byteStep_sbfId1 (hroom : covered.length + 4 < p.bufferLength) :
    byteStep (p.sbfAt i crc covered .sbfId1 r) b =
      quiet (p.sbfAt i crc (covered ++ [b]) .sbfId2 { r with blockId := b.setWidth 13 }) := by
  rw [byteStep_sbfAt rfl hroom]
  change quiet (((((p.sbfAt i crc covered .sbfId1 r).append b).foldCcitt16 b).setSp _).goto _) = _
  rw [ParseState.sbfAt_fold]
  rfl

theorem byteStep_sbfId2 (hroom : covered.length + 4 < p.bufferLength) :
    byteStep (p.sbfAt i crc covered .sbfId2 r) b =
      quiet (p.sbfAt i crc (covered ++ [b]) .sbfLengthLo
        { r with
          blockId := r.blockId ||| ((b &&& 0x1F).setWidth 13 <<< 8)
          blockRev := (b >>> 5).setWidth 3 }) := by
  rw [byteStep_sbfAt rfl hroom]
  change quiet (((((p.sbfAt i crc covered .sbfId2 r).append b).foldCcitt16 b).setSp _).goto _) = _
  rw [ParseState.sbfAt_fold]
  rfl

theorem byteStep_sbfLengthLo (hroom : covered.length + 4 < p.bufferLength) :
    byteStep (p.sbfAt i crc covered .sbfLengthLo r) b =
      quiet (p.sbfAt i crc (covered ++ [b]) .sbfLengthHi { r with length := b.setWidth 16 }) := by
  rw [byteStep_sbfAt rfl hroom]
  change quiet (((((p.sbfAt i crc covered .sbfLengthLo r).append b).foldCcitt16 b).setSp _).goto _) = _
  rw [ParseState.sbfAt_fold]
  rfl

/-- The length's high byte, when the length is legal (45_sbf.md R218): it ends the frame if there is no
body. -/
theorem byteStep_sbfLengthHi {len : BitVec 16} (hroom : covered.length + 4 < p.bufferLength)
    (hlen : r.length ||| b.setWidth 16 <<< 8 = len) (hlegal : sbfLengthLegal len = true) :
    byteStep (p.sbfAt i crc covered .sbfLengthHi r) b =
      if len - 8 = 0 then
        sbfFinish (p.sbfAt i crc (covered ++ [b]) .sbfLengthHi
          { r with length := len, bytesRemaining := len - 8 })
          { r with length := len, bytesRemaining := len - 8 } b
      else
        quiet (p.sbfAt i crc (covered ++ [b]) .sbfBody
          { r with length := len, bytesRemaining := len - 8 }) := by
  subst hlen
  rw [byteStep_sbfAt rfl hroom]
  change sbfLengthHiStep _ b = _
  have hsp : ((p.sbfAt i crc covered .sbfLengthHi r).append b).sp = some (.sbf r) := rfl
  simp only [sbfLengthHiStep, withSbf, hsp, ParseState.sbfAt_fold, hlegal, if_true]
  rfl

/-- ID and revision in their word (30_encoding.md R65). -/
theorem sbf_word_fields (id : BitVec 13) (rev : BitVec 3) :
    let word := id.toNat + 2 ^ 13 * rev.toNat
    let lo : Byte := BitVec.ofNat 8 (word % 256)
    let hi : Byte := BitVec.ofNat 8 (word / 256)
    lo.setWidth 13 ||| (hi &&& 0x1F).setWidth 13 <<< 8 = id ∧ (hi >>> 5).setWidth 3 = rev := by
  intro word lo hi
  have hid := id.isLt
  have hrev := rev.isLt
  have hword : word = id.toNat + 8192 * rev.toNat := rfl
  have hlo : lo.toNat = word % 256 := by simp [lo]
  have hhi : hi.toNat = word / 256 := by simp [hi]; omega
  have hlow : (hi &&& 0x1F).toNat = word / 256 % 32 := by
    rw [BitVec.toNat_and, hhi]
    exact Nat.and_two_pow_sub_one_eq_mod _ 5
  constructor
  · apply BitVec.eq_of_toNat_eq
    have hshift : ((hi &&& 0x1F).setWidth 13 <<< 8 : BitVec 13).toNat =
        (word / 256 % 32) <<< 8 := by
      rw [BitVec.toNat_shiftLeft, BitVec.toNat_setWidth, hlow, Nat.shiftLeft_eq]
      omega
    rw [BitVec.toNat_or, hshift, BitVec.toNat_setWidth, hlo, Nat.lor_comm,
      Nat.mod_eq_of_lt (show word % 256 < 2 ^ 13 by omega),
      ← Nat.shiftLeft_add_eq_or_of_lt (by omega), Nat.shiftLeft_eq]
    omega
  · apply BitVec.eq_of_toNat_eq
    rw [BitVec.toNat_setWidth, BitVec.toNat_ushiftRight, hhi, Nat.shiftRight_eq_div_pow]
    omega

/-- ID, revision and the length's low byte (45_sbf.md R215 to R217). -/
theorem sbfHeader_run {id : BitVec 13} {rev : BitVec 3} {len : BitVec 16}
    (hroom : 7 ≤ p.bufferLength) :
    let word := id.toNat + 2 ^ 13 * rev.toNat
    let header : List Byte :=
      [BitVec.ofNat 8 (word % 256), BitVec.ofNat 8 (word / 256), byteOf len 0]
    QuietRun (p.sbfAt i crc [] .sbfId1 ⟨crc, 0, 0, 0, 0, 0⟩) header
      (p.sbfAt i crc header .sbfLengthHi ⟨crc, 0, id, rev, (byteOf len 0).setWidth 16, 0⟩) := by
  intro word header
  obtain ⟨hid, hrev⟩ := sbf_word_fields id rev
  subst header
  generalize hlo : BitVec.ofNat 8 (word % 256) = lo at hid
  generalize hhi : BitVec.ofNat 8 (word / 256) = hi at hid hrev
  refine .cons (byteStep_sbfId1 (by simp; omega)) (.cons (byteStep_sbfId2 (by simp; omega)) (.one ?_))
  rw [hid, hrev]
  exact byteStep_sbfLengthLo (by simp; omega)

/-! ### The body -/

/-- A body byte: the last one ends the frame (45_sbf.md R219). -/
theorem byteStep_sbfBody (hroom : covered.length + 4 < p.bufferLength) :
    byteStep (p.sbfAt i crc covered .sbfBody r) b =
      if r.bytesRemaining - 1 = 0 then
        sbfFinish (p.sbfAt i crc (covered ++ [b]) .sbfBody
          { r with bytesRemaining := r.bytesRemaining - 1 })
          { r with bytesRemaining := r.bytesRemaining - 1 } b
      else
        quiet (p.sbfAt i crc (covered ++ [b]) .sbfBody
          { r with bytesRemaining := r.bytesRemaining - 1 }) := by
  rw [byteStep_sbfAt rfl hroom]
  change sbfBodyStep _ b = _
  have hsp : ((p.sbfAt i crc covered .sbfBody r).append b).sp = some (.sbf r) := rfl
  simp only [sbfBodyStep, withSbf, hsp, ParseState.sbfAt_fold]
  rfl

/-- The body but its last byte. -/
theorem sbfBody_run {init : List Byte} (hroom : (covered ++ init).length + 4 ≤ p.bufferLength)
    (hrem : r.bytesRemaining.toNat = (b :: init).length) :
    QuietRun (p.sbfAt i crc covered .sbfBody r) init
      (p.sbfAt i crc (covered ++ init) .sbfBody { r with bytesRemaining := 1 }) := by
  induction init generalizing covered r with
  | nil =>
    have hone : { r with bytesRemaining := 1 } = r := by
      rw [← show r.bytesRemaining = 1 from BitVec.eq_of_toNat_eq hrem]
    rw [List.append_nil, hone]
    exact .nil _
  | cons c rest ih =>
    have hpred : (r.bytesRemaining - 1).toNat = (b :: rest).length :=
      toNat_pred_of_cons (c := c) hrem
    have hmore : r.bytesRemaining - 1 ≠ 0 := fun h => nomatch (eq_zero_iff_nil hpred).mp h
    rw [List.append_cons] at hroom ⊢
    have hstored : covered.length + 4 < p.bufferLength := by
      simp only [List.length_append, List.length_singleton] at hroom
      omega
    exact .cons ((byteStep_sbfBody hstored).trans (if_neg hmore)) (ih hroom hpred)

end

/-! ### The byte that completes the frame -/

/-- The verdict compares the CRC of ID, length and body with the CRC field; the host is not asked
(45_sbf.md R220). -/
theorem sbf_frame_outcome {s : State} {p q : ParseState} {i : Nat} {init : List Byte} {b : Byte}
    {st : PState} {crc : BitVec 16} {covered : List Byte} {r : SbfRec} (hp : s.parse = some p)
    (hw : s.window = .none) (hrun : QuietRun p init q) (hexp : r.expectedCrc = crc)
    (hframe : init ++ [b] = 0x24 :: 0x40 :: byteOf crc 0 :: byteOf crc 1 :: covered)
    (hlast : byteStep q b = sbfFinish (p.sbfAt i crc covered st r) r b) :
    ∃ q : ParseState, p.Holds q (init ++ [b]) ∧
      q =
        { p with
          buffer := q.buffer, length := (init ++ [b]).length, state := st, active := i
          crc := (ccitt16Block covered).setWidth 32
          sp := some (.sbf { r with computedCrc := ccitt16Block covered }) } ∧
      pushOctets (init ++ [b]) s =
        if ccitt16Block covered = crc then .next (s.raised q (.eom i (init ++ [b])) (.inEom false))
        else s.dropFrame q (init ++ [b]) b := by
  subst hexp
  have hcrc : ((ccitt16Block covered).setWidth 32).setWidth 16 = ccitt16Block covered := by
    rw [BitVec.setWidth_setWidth_of_le _ (by omega), BitVec.setWidth_eq]
  rw [ParseState.sbfAt, ← hframe, sbfFinish, ParseState.reading_crc, hcrc] at hlast
  refine ⟨_, ParseState.reading_holds, rfl, ?_⟩
  rw [pushOctets_eq_finish hp hw hrun, hlast]
  simp only [sbfVerdict, beq_iff_eq, ParseState.reading_setSp]
  split_ifs
  · exact congrArg s.finish (deliver_eq ParseState.reading_frameIs.whole)
  · exact State.finish_fail_checksum hw ParseState.reading_frameIs

theorem sbfOctets_eq (crc : BitVec 16) (id : BitVec 13) (rev : BitVec 3) (len : BitVec 16)
    (rest : List Byte) :
    sbfOctets crc id rev len rest =
      [0x24, 0x40, byteOf crc 0, byteOf crc 1] ++
        [BitVec.ofNat 8 ((id.toNat + 2 ^ 13 * rev.toNat) % 256),
          BitVec.ofNat 8 ((id.toNat + 2 ^ 13 * rev.toNat) / 256), byteOf len 0] ++
        byteOf len 1 :: rest := by
  have hid := id.isLt
  have hrev := rev.isLt
  have hlo : id.extractLsb' 0 8 = BitVec.ofNat 8 ((id.toNat + 2 ^ 13 * rev.toNat) % 256) := by
    apply BitVec.eq_of_toNat_eq
    simp only [BitVec.extractLsb'_toNat, BitVec.toNat_ofNat, Nat.shiftRight_zero]
    omega
  have hhi : (rev ++ id.extractLsb' 8 5 : BitVec 8) =
      BitVec.ofNat 8 ((id.toNat + 2 ^ 13 * rev.toNat) / 256) := by
    apply BitVec.eq_of_toNat_eq
    rw [BitVec.toNat_append, ← Nat.shiftLeft_add_eq_or_of_lt (BitVec.isLt _)]
    simp only [BitVec.extractLsb'_toNat, BitVec.toNat_ofNat, Nat.shiftRight_eq_div_pow,
      Nat.shiftLeft_eq]
    omega
  rw [sbfOctets, hlo, hhi]
  rfl

theorem exec_frameSbf (crc : BitVec 16) (id : BitVec 13) (rev : BitVec 3) (len : BitVec 16)
    (rest : List Byte) (s : State) :
    exec (.frameSbf crc id rev len rest) s = pushOctets (sbfOctets crc id rev len rest) s := rfl

/-- The octets of ID, revision and length. -/
def sbfHeader (id : BitVec 13) (rev : BitVec 3) (len : BitVec 16) : List Byte :=
  [BitVec.ofNat 8 ((id.toNat + 2 ^ 13 * rev.toNat) % 256),
    BitVec.ofNat 8 ((id.toNat + 2 ^ 13 * rev.toNat) / 256), byteOf len 0, byteOf len 1]

/-- All octets of the frame but the last run quietly, and the last one, of the length or of the body,
completes the frame. -/
theorem sbf_frame_run {p : ParseState} {i : Nat} {crc : BitVec 16} {id : BitVec 13} {rev : BitVec 3}
    {len : BitVec 16} {body : List Byte} (hs : p.state = .firstByte) (hl : p.Latches i .sbf)
    (hlegal : sbfLengthLegal len = true) (hrem : (len - 8).toNat = body.length)
    (hroom : 8 + body.length ≤ p.bufferLength) :
    ∃ (init : List Byte) (b : Byte) (q : ParseState),
      sbfOctets crc id rev len body = init ++ [b] ∧ QuietRun p init q ∧
        byteStep q b =
          sbfFinish (p.sbfAt i crc (sbfHeader id rev len ++ body)
            (if body = [] then .sbfLengthHi else .sbfBody) ⟨crc, 0, id, rev, len, 0⟩)
            ⟨crc, 0, id, rev, len, 0⟩ b := by
  have hheader := (sbfSync_run (crc := crc) hs hl (by omega)).append
    (sbfHeader_run (id := id) (rev := rev) (len := len) (by omega))
  have hlengthHi := byteStep_sbfLengthHi (p := p) (i := i) (crc := crc)
    (covered := [BitVec.ofNat 8 ((id.toNat + 2 ^ 13 * rev.toNat) % 256),
      BitVec.ofNat 8 ((id.toNat + 2 ^ 13 * rev.toNat) / 256), byteOf len 0])
    (r := ⟨crc, 0, id, rev, (byteOf len 0).setWidth 16, 0⟩) (by simp; omega) (or_bytes16 len) hlegal
  rcases List.eq_nil_or_concat' body with rfl | ⟨init, last, rfl⟩
  · refine ⟨_, byteOf len 1, _, sbfOctets_eq .., hheader, hlengthHi.trans ?_⟩
    have hzero : len - 8 = 0 := (eq_zero_iff_nil hrem).mpr rfl
    rw [if_pos hzero, hzero]
    rfl
  · have hmore : len - 8 ≠ 0 := fun h => by simpa using (eq_zero_iff_nil hrem).mp h
    rw [if_neg hmore] at hlengthHi
    simp only [List.length_append, List.length_singleton] at hrem hroom
    have hbody := sbfBody_run (p := p) (i := i) (crc := crc) (covered := sbfHeader id rev len)
      (init := init) (b := last) (r := ⟨crc, 0, id, rev, len, len - 8⟩)
      (by simp [sbfHeader]; omega) (by simpa using hrem)
    refine ⟨_, last, _, ?_, hheader.append (.cons hlengthHi hbody), ?_⟩
    · rw [sbfOctets_eq]
      exact (List.append_assoc _ (byteOf len 1 :: init) [last]).symm
    · have hone : (1 : BitVec 16) - 1 = 0 := by decide
      refine (byteStep_sbfBody (by simp [sbfHeader]; omega)).trans ((if_pos hone).trans ?_)
      rw [if_neg (by simp), ← List.append_assoc]
      simp only [hone]

/-- Settles O40: what `sbf_frame_run` says of the frame's bytes, with the verdict of the last one. -/
theorem frameSbf : Obligations.FrameSbf := by
  intro s p i crc id rev len body hp hw hs hl hmod hlen word covered octets hroom
  have hlegal : sbfLengthLegal len = true := by
    simp only [sbfLengthLegal, Bool.and_eq_true, beq_iff_eq, decide_eq_true_eq]
    omega
  have hrem : (len - 8).toNat = body.length := by bv_omega
  obtain ⟨init, b, q, hinit, hrun, hlast⟩ := sbf_frame_run (crc := crc) (id := id) (rev := rev) hs hl
    hlegal hrem (by simp [octets, covered] at hroom; omega)
  have hcovered : sbfHeader id rev len ++ body = covered := by
    rw [sbfHeader, byteOf_zero_eq_ofNat, byteOf_one_eq_ofNat]
    rfl
  have hoctets : octets = init ++ [b] := by
    rw [← hinit, sbfOctets_eq]
    simp only [octets, ← hcovered, byteOf_zero_eq_ofNat crc, byteOf_one_eq_ofNat crc]
    rfl
  rw [hcovered] at hlast
  have hframe : init ++ [b] = 0x24 :: 0x40 :: byteOf crc 0 :: byteOf crc 1 :: covered := by
    rw [← hoctets, byteOf_zero_eq_ofNat, byteOf_one_eq_ofNat]
  obtain ⟨q', hholds, hq, hpush⟩ := sbf_frame_outcome hp hw hrun rfl hframe hlast
  rw [hoctets, List.getLastD_concat, exec_frameSbf, hinit]
  exact ⟨q', hholds, hq, hpush⟩

end Sys2Proof.Machine
end

section
/-! PROOF. A whole Unicore-binary frame (47_unicore_binary.md R260 to R267): the run of its recogniser from
the sync bytes to the CRC's last byte. -/

namespace Sys2Proof.Machine

/-- A Unicore-binary frame being read: the accumulator is the CRC-32 of all its bytes. -/
def ParseState.ubinAt (p : ParseState) (i : Nat) (bytes : List Byte) (st : PState) (r : UbinRec) :
    ParseState :=
  p.reading i bytes st (crc32rBlock bytes) (.ubin r)

/-- A Unicore-binary frame in its CRC phase: the accumulator is that of the bytes `covered` before it
(47_unicore_binary.md R266). -/
def ParseState.ubinCrcAt (p : ParseState) (i : Nat) (covered taken : List Byte) (rem : BitVec 16) :
    ParseState :=
  p.reading i (covered ++ taken) .ubinReadCrc (crc32rBlock covered) (.ubin ⟨crc32rBlock covered, rem⟩)

/-- The frame with `rest` of its body to come: the CRC phase if nothing is
(47_unicore_binary.md R267). -/
def ParseState.ubinNext (p : ParseState) (i : Nat) (bytes rest : List Byte) (r : UbinRec) :
    ParseState :=
  if rest = [] then p.ubinCrcAt i bytes [] 4 else p.ubinAt i bytes .ubinReadBody r

section
variable {p : ParseState} {i : Nat} {bytes : List Byte} {st : PState} {r : UbinRec} {b : Byte}

/-- The byte stored is the byte folded. -/
theorem ParseState.ubinAt_fold :
    ((p.ubinAt i bytes st r).append b).foldCrc32r b = p.ubinAt i (bytes ++ [b]) st r := by
  rw [ParseState.ubinAt, ParseState.reading_append, ParseState.foldCrc32r, ParseState.reading_crc,
    foldCrc32r_covers rfl]
  rfl

theorem byteStep_ubinAt (hst : st.inFrame = true) (hroom : bytes.length < p.bufferLength) :
    byteStep (p.ubinAt i bytes st r) b = handler ((p.ubinAt i bytes st r).append b) b :=
  byteStep_inFrame_room (p := p.ubinAt i bytes st r) hst hroom b

theorem enterUbinCrc_ubinAt (r r' : UbinRec) :
    enterUbinCrc (p.ubinAt i bytes st r) r' = p.ubinCrcAt i bytes [] 4 := by
  rw [ParseState.ubinCrcAt, List.append_nil]
  rfl

/-! ### The header -/

/-- The three sync bytes (47_unicore_binary.md R261 to R263). -/
theorem ubinSync_run (hs : p.state = .firstByte) (hl : p.Latches i .ubin) (hroom : 3 ≤ p.bufferLength) :
    QuietRun p [0xAA, 0x44, 0xB5] (p.ubinAt i [0xAA, 0x44, 0xB5] .ubinReadHeader ⟨0, 21⟩) := by
  have hpre : byteStep p 0xAA = quiet (p.ubinAt i [0xAA] .ubinSync2 ⟨0, 0⟩) := by
    have hcrc : crc32rBlock [0xAA] = acceptCrc 0xAA .ubin := by
      simp [crc32rBlock, block, generatorParams, acceptCrc]
    rw [ParseState.ubinAt, hcrc]
    exact byteStep_preamble hs hl
  have hsync2 : byteStep (p.ubinAt i [0xAA] .ubinSync2 ⟨0, 0⟩) 0x44 =
      quiet (p.ubinAt i [0xAA, 0x44] .ubinSync3 ⟨0, 0⟩) := by
    rw [byteStep_ubinAt rfl (by simp; omega)]
    change quiet (((((p.ubinAt i [0xAA] .ubinSync2 ⟨0, 0⟩).append 0x44).foldCrc32r 0x44)).goto _) = _
    rw [ParseState.ubinAt_fold]
    rfl
  refine .cons hpre (.cons hsync2 (.one ?_))
  rw [byteStep_ubinAt rfl (by simp; omega)]
  change quiet (((((p.ubinAt i [0xAA, 0x44] .ubinSync3 ⟨0, 0⟩).append 0xB5).foldCrc32r 0xB5).setSp
    _).goto _) = _
  rw [ParseState.ubinAt_fold]
  rfl

/-- A header byte but the last (47_unicore_binary.md R264). -/
theorem byteStep_ubinReadHeader (hroom : bytes.length < p.bufferLength)
    (hmore : r.bytesRemaining - 1 ≠ 0) :
    byteStep (p.ubinAt i bytes .ubinReadHeader r) b =
      quiet (p.ubinAt i (bytes ++ [b]) .ubinReadHeader
        { r with bytesRemaining := r.bytesRemaining - 1 }) := by
  rw [byteStep_ubinAt rfl hroom]
  change ubinReadHeaderStep _ b = _
  have hsp : ((p.ubinAt i bytes .ubinReadHeader r).append b).sp = some (.ubin r) := rfl
  simp only [ubinReadHeaderStep, withUbin, hsp, ParseState.ubinAt_fold, if_neg hmore]
  rfl

/-- The header but its last byte. -/
theorem ubinHeader_run {init : List Byte} (hroom : (bytes ++ init).length ≤ p.bufferLength)
    (hrem : r.bytesRemaining.toNat = (b :: init).length) :
    QuietRun (p.ubinAt i bytes .ubinReadHeader r) init
      (p.ubinAt i (bytes ++ init) .ubinReadHeader { r with bytesRemaining := 1 }) := by
  induction init generalizing bytes r with
  | nil =>
    have hone : { r with bytesRemaining := 1 } = r := by
      rw [← show r.bytesRemaining = 1 from BitVec.eq_of_toNat_eq hrem]
    rw [List.append_nil, hone]
    exact .nil _
  | cons c rest ih =>
    have hpred : (r.bytesRemaining - 1).toNat = (b :: rest).length :=
      toNat_pred_of_cons (c := c) hrem
    have hmore : r.bytesRemaining - 1 ≠ 0 := fun h => nomatch (eq_zero_iff_nil hpred).mp h
    rw [List.append_cons] at hroom ⊢
    have hstored : bytes.length < p.bufferLength := by
      simp only [List.length_append, List.length_singleton] at hroom
      omega
    exact .cons (byteStep_ubinReadHeader hstored hmore) (ih hroom hpred)

/-- The last header byte: the body's length is read back from the header (47_unicore_binary.md R264). -/
theorem byteStep_ubinReadHeader_last {saved : BitVec 32} {len : BitVec 16} {body : List Byte}
    (hroom : bytes.length < p.bufferLength) (hlo : (bytes ++ [b])[6]? = some (byteOf len 0))
    (hhi : (bytes ++ [b])[7]? = some (byteOf len 1)) (hlen : len.toNat = body.length) :
    byteStep (p.ubinAt i bytes .ubinReadHeader ⟨saved, 1⟩) b =
      quiet (p.ubinNext i (bytes ++ [b]) body ⟨saved, len⟩) := by
  rw [byteStep_ubinAt rfl hroom]
  change ubinReadHeaderStep _ b = _
  have hone : (1 : BitVec 16) - 1 = 0 := by decide
  have hsp : ((p.ubinAt i bytes .ubinReadHeader ⟨saved, 1⟩).append b).sp =
      some (.ubin ⟨saved, 1⟩) := rfl
  have hlo' : (p.ubinAt i (bytes ++ [b]) .ubinReadHeader ⟨saved, 1⟩).byteAt 6 = .ok (byteOf len 0) :=
    ParseState.reading_byteAt hlo
  have hhi' : (p.ubinAt i (bytes ++ [b]) .ubinReadHeader ⟨saved, 1⟩).byteAt 7 = .ok (byteOf len 1) :=
    ParseState.reading_byteAt hhi
  simp only [ubinReadHeaderStep, withUbin, hsp, ParseState.ubinAt_fold, hone, if_true, hlo', hhi',
    or_bytes16, eq_zero_iff_nil hlen, ParseState.ubinNext, enterUbinCrc_ubinAt]
  split_ifs <;> rfl

/-! ### The body -/

/-- The body, each of its bytes folded (47_unicore_binary.md R265, R267). -/
theorem ubinBody_run {body : List Byte} (hroom : (bytes ++ body).length ≤ p.bufferLength)
    (hrem : r.bytesRemaining.toNat = body.length) :
    QuietRun (p.ubinNext i bytes body r) body (p.ubinCrcAt i (bytes ++ body) [] 4) := by
  induction body generalizing bytes r with
  | nil =>
    rw [List.append_nil]
    exact .nil _
  | cons c rest ih =>
    have hpred := toNat_pred_of_cons hrem
    rw [List.append_cons] at hroom ⊢
    have hstored : bytes.length < p.bufferLength := by
      simp only [List.length_append, List.length_singleton] at hroom
      omega
    refine .cons ?_ (ih (r := { r with bytesRemaining := r.bytesRemaining - 1 }) hroom hpred)
    rw [ParseState.ubinNext, if_neg (by simp), byteStep_ubinAt rfl hstored]
    change ubinReadBodyStep _ c = _
    have hsp : ((p.ubinAt i bytes .ubinReadBody r).append c).sp = some (.ubin r) := rfl
    simp only [ubinReadBodyStep, withUbin, hsp, ParseState.ubinAt_fold, eq_zero_iff_nil hpred,
      ParseState.ubinNext, enterUbinCrc_ubinAt]
    split_ifs <;> rfl

/-! ### The CRC -/

/-- A CRC byte but the last: stored, not folded (47_unicore_binary.md R266). -/
theorem byteStep_ubinReadCrc {covered taken : List Byte} {m n : BitVec 16}
    (hroom : (covered ++ taken).length < p.bufferLength) (hn : m - 1 = n) (hmore : n ≠ 0) :
    byteStep (p.ubinCrcAt i covered taken m) b = quiet (p.ubinCrcAt i covered (taken ++ [b]) n) := by
  subst hn
  rw [ParseState.ubinCrcAt, byteStep_reading rfl hroom, List.append_assoc]
  change ubinReadCrcStep _ b = _
  simp only [ubinReadCrcStep, withUbin, ParseState.reading_sp, if_neg hmore,
    ParseState.reading_setSp]
  rfl

theorem ubinCrc_run {covered : List Byte} {c0 c1 c2 : Byte}
    (hroom : covered.length + 3 ≤ p.bufferLength) :
    QuietRun (p.ubinCrcAt i covered [] 4) [c0, c1, c2] (p.ubinCrcAt i covered [c0, c1, c2] 1) :=
  .cons (byteStep_ubinReadCrc (n := 3) (by simp; omega) (by decide) (by decide))
    (.cons (byteStep_ubinReadCrc (taken := [c0]) (n := 2) (by simp; omega) (by decide) (by decide))
      (.one (byteStep_ubinReadCrc (taken := [c0, c1]) (n := 1) (by simp; omega) (by decide)
        (by decide))))

/-- The last CRC byte: the CRC received is compared with that of what precedes it. -/
theorem byteStep_ubinReadCrc_last {covered taken : List Byte}
    (hroom : (covered ++ taken).length < p.bufferLength) (htaken : taken.length = 3) :
    byteStep (p.ubinCrcAt i covered taken 1) b =
      conclude (ubinVerdict (taken ++ [b]) (crc32rBlock covered)) false
        (p.reading i (covered ++ taken ++ [b]) .ubinReadCrc (crc32rBlock covered)
          (.ubin ⟨crc32rBlock covered, 0⟩)) b := by
  rw [ParseState.ubinCrcAt, byteStep_reading rfl hroom, List.append_assoc]
  change ubinReadCrcStep _ b = _
  have hone : (1 : BitVec 16) - 1 = 0 := by decide
  have hdrop : (covered ++ (taken ++ [b])).drop ((covered ++ (taken ++ [b])).length - 4) =
      taken ++ [b] := by
    have hlen : (covered ++ (taken ++ [b])).length - 4 = covered.length := by simp; omega
    rw [hlen, List.drop_left]
  simp only [ubinReadCrcStep, withUbin, ParseState.reading_sp, hone, if_true,
    ParseState.reading_setSp, ParseState.reading_length, ParseState.reading_slice_end, hdrop]

end

theorem ubinOctets_eq (h3 h4 h5 : Byte) (len : BitVec 16) (rest : List Byte) :
    ubinOctets h3 h4 h5 len rest =
      0xAA :: 0x44 :: 0xB5 :: h3 :: h4 :: h5 :: BitVec.ofNat 8 (len.toNat % 256) ::
        BitVec.ofNat 8 (len.toNat / 256) :: rest := by
  rw [← byteOf_zero_eq_ofNat, ← byteOf_one_eq_ofNat]
  rfl

theorem exec_frameUbin (h3 h4 h5 : Byte) (len : BitVec 16) (rest : List Byte) (s : State) :
    exec (.frameUbin h3 h4 h5 len rest) s = pushOctets (ubinOctets h3 h4 h5 len rest) s := rfl

/-- Header and body run quietly into the CRC phase. -/
theorem ubinCovered_run {p : ParseState} {i : Nat} {h3 h4 h5 : Byte} {len : BitVec 16}
    {header body : List Byte} (hs : p.state = .firstByte) (hl : p.Latches i .ubin)
    (hheader : header.length = 16) (hbody : body.length = len.toNat)
    (hroom : 24 + body.length ≤ p.bufferLength) :
    let covered : List Byte :=
      [0xAA, 0x44, 0xB5] ++ ([h3, h4, h5, byteOf len 0, byteOf len 1] ++ header) ++ body
    QuietRun p covered (p.ubinCrcAt i covered [] 4) := by
  intro covered
  obtain ⟨init, last, rfl⟩ : ∃ init last, header = init ++ [last] := by
    rcases List.eq_nil_or_concat' header with rfl | h
    · cases hheader
    · exact h
  have hinit : init.length = 15 := by simpa using hheader
  have hrest := ubinHeader_run (p := p) (i := i) (bytes := [0xAA, 0x44, 0xB5]) (r := ⟨0, 21⟩)
    (init := [h3, h4, h5, byteOf len 0, byteOf len 1] ++ init) (b := last) (by simp; omega)
    (by simp [hinit])
  have hlast := byteStep_ubinReadHeader_last (p := p) (i := i) (b := last) (saved := 0) (body := body)
    (bytes := [0xAA, 0x44, 0xB5] ++ ([h3, h4, h5, byteOf len 0, byteOf len 1] ++ init))
    (by simp; omega) rfl rfl hbody.symm
  have hbodyRun := ubinBody_run (p := p) (i := i) (r := ⟨0, len⟩) (body := body)
    (bytes := [0xAA, 0x44, 0xB5] ++ ([h3, h4, h5, byteOf len 0, byteOf len 1] ++ init) ++ [last])
    (by simp; omega) hbody.symm
  have hrun := (((ubinSync_run hs hl (by omega)).append hrest).append (.one hlast)).append hbodyRun
  simpa [covered] using hrun

/-- Settles O43: header, body and three CRC bytes run quietly; the last one gives the verdict. -/
theorem frameUbin : Obligations.FrameUbin := by
  intro s p i h3 h4 h5 len header body trailer hp hw hs hl hheader hbody htrailer covered octets hroom
  obtain ⟨c0, c1, c2, c3, rfl⟩ := List.length_eq_four.mp htrailer
  have hcovered : [0xAA, 0x44, 0xB5] ++ ([h3, h4, h5, byteOf len 0, byteOf len 1] ++ header) ++ body =
      covered := by
    rw [byteOf_zero_eq_ofNat, byteOf_one_eq_ofNat]
    simp [covered]
  have hlen : covered.length = 24 + body.length := by simp [covered, hheader]; omega
  have hroom' : covered.length + 4 ≤ p.bufferLength := by simpa [octets] using hroom
  have hquiet := ubinCovered_run (h3 := h3) (h4 := h4) (h5 := h5) hs hl hheader hbody (by omega)
  simp only [hcovered] at hquiet
  have hrun := hquiet.append (ubinCrc_run (c0 := c0) (c1 := c1) (c2 := c2) (by omega))
  have hlast := byteStep_ubinReadCrc_last (p := p) (i := i) (covered := covered)
    (taken := [c0, c1, c2]) (b := c3) (by simp; omega) rfl
  have hgood : ubinVerdict ([c0, c1, c2] ++ [c3]) (crc32rBlock covered) = true ↔
      leNat [c0, c1, c2, c3] = (crc32rBlock covered).toNat := beq_iff_eq
  obtain ⟨q, hholds, hq, hpush⟩ := binary_frame_outcome hp hw hrun hlast hgood
  have hoctets : octets = covered ++ [c0, c1, c2] ++ [c3] :=
    (List.append_assoc covered [c0, c1, c2] [c3]).symm
  rw [hoctets]
  refine ⟨q, hholds, hq, Eq.trans ?_ hpush⟩
  rw [exec_frameUbin, ubinOctets_eq, List.append_assoc covered]
  rfl

end Sys2Proof.Machine
end

section
/-! PROOF. A whole SPARTN frame (46_spartn.md R230 to R238): the fields of its header, and the run of its
recogniser from the preamble to the CRC's last byte. -/

namespace Sys2Proof.Machine

/-! ### The header's octets -/

/-- The low nibble of an octet masked off. -/
theorem nibbles_and (x c : BitVec 4) : (x ++ c : BitVec 8) &&& 0xF0 = x ++ (0 : BitVec 4) := by
  revert x c
  decide

theorem nibbles_or (x c : BitVec 4) : (x ++ (0 : BitVec 4) : BitVec 8) ||| c.setWidth 8 = x ++ c := by
  revert x c
  decide

/-- The payload length in its three places, read back from the header's octets (46_spartn.md R232). -/
theorem spartn_payloadLen (h1 h2 h3 : Byte) :
    (h1 &&& 1).setWidth 16 <<< 9 ||| h2.setWidth 16 <<< 1 ||| (h3 >>> 7).setWidth 16 =
      (h1.extractLsb' 0 1 ++ h2 ++ h3.extractLsb' 7 1 : BitVec 10).setWidth 16 := by
  have hb1 := h1.isLt
  have hb2 := h2.isLt
  have hb3 := h3.isLt
  apply BitVec.eq_of_toNat_eq
  have hlow : (h1 &&& 1).toNat = h1.toNat % 2 := by
    rw [BitVec.toNat_and]
    exact Nat.and_two_pow_sub_one_eq_mod _ 1
  have htop : ((h1 &&& 1).setWidth 16 <<< 9 : BitVec 16).toNat = ((h1.toNat % 2) <<< 8) <<< 1 := by
    rw [BitVec.toNat_shiftLeft, BitVec.toNat_setWidth, hlow, Nat.shiftLeft_eq, Nat.shiftLeft_eq,
      Nat.shiftLeft_eq]
    omega
  have hmid : (h2.setWidth 16 <<< 1 : BitVec 16).toNat = h2.toNat <<< 1 := by
    rw [BitVec.toNat_shiftLeft, BitVec.toNat_setWidth, Nat.shiftLeft_eq, Nat.shiftLeft_eq]
    omega
  have hbot : ((h3 >>> 7).setWidth 16 : BitVec 16).toNat = h3.toNat / 128 := by
    rw [BitVec.toNat_setWidth, BitVec.toNat_ushiftRight, Nat.shiftRight_eq_div_pow]
    omega
  have hsmall : (h1.extractLsb' 0 1 ++ h2 ++ h3.extractLsb' 7 1 : BitVec 10).toNat < 2 ^ 16 :=
    (BitVec.isLt _).trans (by decide)
  rw [BitVec.toNat_or, BitVec.toNat_or, htop, hmid, hbot, ← Nat.shiftLeft_or_distrib,
    BitVec.toNat_setWidth, Nat.mod_eq_of_lt hsmall, BitVec.toNat_append, BitVec.toNat_append,
    BitVec.extractLsb'_toNat, BitVec.extractLsb'_toNat, Nat.shiftRight_eq_div_pow,
    Nat.shiftRight_eq_div_pow, Nat.mod_eq_of_lt (show h3.toNat / 2 ^ 7 < 2 ^ 1 by omega)]
  simp

theorem spartnH1_eq (m : BitVec 7) (l : BitVec 10) :
    spartnH1 m l = BitVec.ofNat 8 (2 * m.toNat + l.toNat / 2 ^ 9) := by
  have hl := l.isLt
  apply BitVec.eq_of_toNat_eq
  rw [spartnH1, BitVec.toNat_append, ← Nat.shiftLeft_add_eq_or_of_lt (BitVec.isLt _)]
  simp only [BitVec.extractLsb'_toNat, BitVec.toNat_ofNat, Nat.shiftRight_eq_div_pow,
      Nat.shiftLeft_eq]
  omega

theorem spartnH2_eq (l : BitVec 10) : spartnH2 l = BitVec.ofNat 8 (l.toNat / 2) := by
  apply BitVec.eq_of_toNat_eq
  simp only [spartnH2, BitVec.extractLsb'_toNat, BitVec.toNat_ofNat, Nat.shiftRight_eq_div_pow]

theorem spartnH3_eq (l : BitVec 10) (e : BitVec 1) (t : BitVec 2) :
    spartnH3 l e t 0 =
      BitVec.ofNat 8 (128 * (l.toNat % 2) + 64 * e.toNat + 16 * t.toNat) := by
  have h0 : (0 : BitVec 4).toNat = 0 := rfl
  apply BitVec.eq_of_toNat_eq
  simp only [spartnH3, BitVec.toNat_append, ← Nat.shiftLeft_add_eq_or_of_lt (BitVec.isLt _)]
  simp only [BitVec.extractLsb'_toNat, BitVec.toNat_ofNat, Nat.shiftRight_zero,
      Nat.shiftLeft_eq, h0]
  omega

/-- The header CRC is taken with its own four bits zeroed (40_generators.md R104). -/
theorem spHdrCrc_spartnH3 (h1 h2 : Byte) (l : BitVec 10) (e : BitVec 1) (t : BitVec 2)
    (c : BitVec 4) : spHdrCrc h1 h2 (spartnH3 l e t c) = spHdrCrc h1 h2 (spartnH3 l e t 0) := by
  have hmask (c : BitVec 4) : spartnH3 l e t c &&& 0xF0 = spartnH3 l e t 0 := nibbles_and _ c
  rw [spHdrCrc, spHdrCrc, hmask, hmask]

/-! ### A SPARTN frame being read -/

/-- A SPARTN frame being read: no byte is folded (46_spartn.md). -/
def ParseState.spartnAt (p : ParseState) (i : Nat) (bytes : List Byte) (st : PState) (r : SpartnRec) :
    ParseState :=
  p.reading i bytes st 0 (.spartn r)

/-- The frame once its payload is read: its embedded data follow, or its CRC (46_spartn.md R237). -/
def ParseState.spartnTail (p : ParseState) (i : Nat) (bytes embedded : List Byte) (r : SpartnRec) :
    ParseState :=
  p.spartnAt i bytes (if embedded = [] then .spartnCrc else .spartnEmbedded)
    { r with frameCount := 0 }

/-- The frame with `rest` of its payload to come. -/
def ParseState.spartnBody (p : ParseState) (i : Nat) (bytes rest embedded : List Byte)
    (r : SpartnRec) : ParseState :=
  if rest = [] then p.spartnTail i bytes embedded r else p.spartnAt i bytes .spartnPayload r

/-- One byte more is counted: the count reaches its end with the last one. -/
theorem count_step {x y : BitVec 16} {c : Byte} {rest : List Byte}
    (h : x.toNat + (c :: rest).length = y.toNat) :
    (x + 1).toNat + rest.length = y.toNat ∧ (x + 1 = y ↔ rest = []) := by
  rw [List.length_cons] at h
  have hy := y.isLt
  have hx : (x + 1).toNat = x.toNat + 1 := by
    have h1 : (1 : BitVec 16).toNat = 1 := rfl
    rw [BitVec.toNat_add, h1]
    omega
  refine ⟨by omega, ?_⟩
  rw [BitVec.toNat_eq, hx, ← List.length_eq_zero_iff]
  omega

section
variable {p : ParseState} {i : Nat} {bytes : List Byte} {st : PState} {r : SpartnRec} {b : Byte}

theorem byteStep_spartnAt (hst : st.inFrame = true) (hroom : bytes.length < p.bufferLength) :
    byteStep (p.spartnAt i bytes st r) b = handler (p.spartnAt i (bytes ++ [b]) st r) b :=
  byteStep_reading hst hroom

/-- Room for the bytes that follow is room for the next one. -/
theorem stored_of_room {n : Nat} {bytes rest : List Byte} {c : Byte}
    (h : (bytes ++ [c] ++ rest).length ≤ n) : bytes.length < n := by
  simp only [List.length_append, List.length_singleton] at h
  omega

/-! ### The header -/

theorem spartnHdr3Step_of_good {q : ParseState} {h1 h2 : Byte} (hsp : q.sp = some (.spartn r))
    (hcount : r.frameCount = 2) (h1read : q.byteAt 1 = .ok h1) (h2read : q.byteAt 2 = .ok h2)
    (h3read : q.byteAt 3 = .ok b) (hgood : spHdrCrc h1 h2 b = b.extractLsb' 0 4) :
    spartnHdr3Step q b =
      quiet ((q.setSp (.spartn { r.header3 b with frameCount := 0 })).goto .spartnExtHdr) := by
  have hverdict : spartnHeaderVerdict h1 h2 b (b.extractLsb' 0 4) = true := beq_iff_eq.mpr hgood
  simp only [spartnHdr3Step, withSpartn, hsp, hcount, h1read, h2read, h3read]
  simp [SpartnRec.header3, hverdict]

/-- The preamble and the three header octets (46_spartn.md R231, R232). -/
theorem spartnHeader_run {m : BitVec 7} {l : BitVec 10} {e : BitVec 1} {t : BitVec 2} {c : BitVec 4}
    (hs : p.state = .firstByte) (hl : p.Latches i .spartn) (hroom : 4 ≤ p.bufferLength)
    (hcrc : spHdrCrc (spartnH1 m l) (spartnH2 l) (spartnH3 l e t c) = c) :
    let header := [0x73, spartnH1 m l, spartnH2 l, spartnH3 l e t c]
    QuietRun p header (p.spartnAt i header .spartnExtHdr
      ⟨0, t.setWidth 3 + 1, 0, m, l.setWidth 16, e, t, c, 0, 0, 0, 0⟩) := by
  obtain ⟨hm, hl', he, ht, hc⟩ := spartn_fields_of_octets m l e t c
  generalize spartnH1 m l = h1 at *
  generalize spartnH2 l = h2 at *
  generalize spartnH3 l e t c = h3 at *
  intro header
  have hfirst : byteStep (p.spartnAt i [0x73] .spartnHdr3 ⟨0, 0, 0, 0, 0, 0, 0, 0, 0, 0, 0, 0⟩) h1 =
      quiet (p.spartnAt i [0x73, h1] .spartnHdr3
        ⟨1, 0, 0, m, (h1 &&& 1).setWidth 16 <<< 9, 0, 0, 0, 0, 0, 0, 0⟩) := by
    rw [byteStep_spartnAt rfl (by simp; omega), ← hm]
    rfl
  have hsecond : byteStep (p.spartnAt i [0x73, h1] .spartnHdr3
        ⟨1, 0, 0, m, (h1 &&& 1).setWidth 16 <<< 9, 0, 0, 0, 0, 0, 0, 0⟩) h2 =
      quiet (p.spartnAt i [0x73, h1, h2] .spartnHdr3
        ⟨2, 0, 0, m, (h1 &&& 1).setWidth 16 <<< 9 ||| h2.setWidth 16 <<< 1, 0, 0, 0, 0, 0, 0, 0⟩) := by
    rw [byteStep_spartnAt rfl (by simp; omega)]
    rfl
  refine .cons (byteStep_preamble hs hl) (.cons hfirst (.cons hsecond (.one ?_)))
  rw [byteStep_spartnAt rfl (by simp; omega)]
  have hgood : spHdrCrc h1 h2 h3 = h3.extractLsb' 0 4 := by rw [hc, hcrc]
  have hrec : (⟨0, t.setWidth 3 + 1, 0, m, l.setWidth 16, e, t, c, 0, 0, 0, 0⟩ : SpartnRec) =
      { (⟨2, 0, 0, m, (h1 &&& 1).setWidth 16 <<< 9 ||| h2.setWidth 16 <<< 1, 0, 0, 0, 0, 0, 0, 0⟩ :
        SpartnRec).header3 h3 with frameCount := 0 } := by
    simp only [SpartnRec.header3, spartn_payloadLen, hl', he, ht, hc]
  rw [hrec]
  exact spartnHdr3Step_of_good (r := ⟨2, 0, 0, m, _, 0, 0, 0, 0, 0, 0, 0⟩) rfl rfl
    (ParseState.reading_byteAt rfl) (ParseState.reading_byteAt rfl) (ParseState.reading_byteAt rfl)
    hgood

/-! ### The extended header -/

theorem afterPayload_spartnAt {embedded : List Byte} {r' : SpartnRec}
    (hembedded : r.embeddedAppLen.toNat = embedded.length) :
    afterPayload (p.spartnAt i bytes st r') r = quiet (p.spartnTail i bytes embedded r) := by
  have hpos : 0 < r.embeddedAppLen.toNat ↔ ¬embedded = [] := by
    rw [hembedded, List.length_pos_iff]
  unfold afterPayload ParseState.spartnTail
  simp only [hpos]
  split_ifs <;> rfl

/-- What follows the last extended-header byte. -/
theorem spartnExtHdr_end {payload embedded : List Byte} {r' : SpartnRec}
    (hpayload : r.payloadLen.toNat = payload.length)
    (hembedded : r.embeddedAppLen.toNat = embedded.length) :
    (if 0 < r.payloadLen.toNat then
        quiet (((p.spartnAt i bytes st r').setSp (.spartn r)).goto .spartnPayload)
      else afterPayload (p.spartnAt i bytes st r') r) =
      quiet (p.spartnBody i bytes payload embedded r) := by
  have hpos : 0 < r.payloadLen.toNat ↔ ¬payload = [] := by rw [hpayload, List.length_pos_iff]
  rw [afterPayload_spartnAt hembedded, ParseState.spartnBody]
  simp only [hpos]
  split_ifs <;> rfl

/-- An extended-header byte (46_spartn.md R233). -/
theorem byteStep_spartnExtHdr (hroom : bytes.length < p.bufferLength) :
    byteStep (p.spartnAt i bytes .spartnExtHdr r) b =
      let r1 := r.extCount b
      let q := p.spartnAt i (bytes ++ [b]) .spartnExtHdr
      if r1.frameCount = r1.tf007ToTf016Len - r1.payloadLen then
        if 0 < (r1.extLast b).payloadLen.toNat then
          quiet (((q r).setSp (.spartn (r1.extLast b))).goto .spartnPayload)
        else afterPayload (q r) (r1.extLast b)
      else quiet (q r1) := by
  rw [byteStep_spartnAt rfl hroom]
  rfl

/-- A byte counted after the first one unpacks nothing. -/
theorem SpartnRec.extCount_of_started (h : 1 ≤ r.frameCount.toNat) :
    r.extCount b = { r with frameCount := r.frameCount + 1 } := by
  have hne : r.frameCount + 1 ≠ 1 := fun he => by
    have hzero : r.frameCount = 0 := by simpa using he
    rw [hzero] at h
    cases h
  rw [SpartnRec.extCount, if_neg hne]

theorem SpartnRec.extLast_frameCount (n : BitVec 16) :
    ({ r with frameCount := n } : SpartnRec).extLast b =
      { r.extLast b with frameCount := n } := by
  unfold SpartnRec.extLast
  split_ifs <;> rfl

theorem SpartnRec.extLast_payloadLen : (r.extLast b).payloadLen = r.payloadLen := by
  unfold SpartnRec.extLast
  split_ifs <;> rfl

/-- The extended header from its second byte on: the last byte sets the authentication fields. -/
theorem spartnExtHdr_run {rest : List Byte} {payload embedded : List Byte} (hne : rest ≠ [])
    (hroom : (bytes ++ rest).length ≤ p.bufferLength) (hstarted : 1 ≤ r.frameCount.toNat)
    (hcount : r.frameCount.toNat + rest.length = (r.tf007ToTf016Len - r.payloadLen).toNat)
    (hpayload : r.payloadLen.toNat = payload.length)
    (hembedded : (r.extLast (rest.getLastD 0)).embeddedAppLen.toNat = embedded.length) :
    QuietRun (p.spartnAt i bytes .spartnExtHdr r) rest
      (p.spartnBody i (bytes ++ rest) payload embedded
        { r.extLast (rest.getLastD 0) with frameCount := r.tf007ToTf016Len - r.payloadLen }) := by
  induction rest generalizing bytes r with
  | nil => exact absurd rfl hne
  | cons c rest ih =>
    obtain ⟨hcount', hlast⟩ := count_step hcount
    rw [List.append_cons] at hroom ⊢
    have hstep := byteStep_spartnExtHdr (p := p) (i := i) (r := r) (b := c) (stored_of_room hroom)
    simp only [SpartnRec.extCount_of_started hstarted, hlast, SpartnRec.extLast_frameCount] at hstep
    by_cases hrest : rest = []
    · subst hrest
      rw [if_pos rfl, spartnExtHdr_end (payload := payload) (embedded := embedded)
        (r := { r.extLast c with frameCount := r.frameCount + 1 })
        (by rw [← hpayload, ← SpartnRec.extLast_payloadLen (r := r) (b := c)]) hembedded,
        hlast.mpr rfl] at hstep
      rw [List.append_nil]
      exact .one hstep
    · rw [if_neg hrest] at hstep
      have hgetLast : (c :: rest).getLastD 0 = rest.getLastD 0 := by
        cases rest with
        | nil => exact absurd rfl hrest
        | cons d rest => rfl
      rw [hgetLast] at hembedded ⊢
      have hstarted' : 1 ≤ (r.frameCount + 1).toNat := by
        rw [List.length_cons] at hcount
        omega
      have hnext := ih (bytes := bytes ++ [c]) (r := { r with frameCount := r.frameCount + 1 }) hrest
        hroom hstarted' hcount' hpayload
        (by rw [SpartnRec.extLast_frameCount]; exact hembedded)
      rw [SpartnRec.extLast_frameCount] at hnext
      exact .cons hstep hnext

/-- The extended header: its first byte tells how long it is (46_spartn.md R233). -/
theorem spartnExt_run {first : Byte} {rest payload embedded : List Byte}
    (hroom : (bytes ++ first :: rest).length ≤ p.bufferLength) (hzero : r.frameCount = 0)
    (hlen : 4 ≤ (first :: rest).length)
    (hcount : (first :: rest).length =
      ((r.ext1 first).tf007ToTf016Len - (r.ext1 first).payloadLen).toNat)
    (hpayload : r.payloadLen.toNat = payload.length)
    (hembedded : ((r.ext1 first).extLast (rest.getLastD 0)).embeddedAppLen.toNat = embedded.length) :
    QuietRun (p.spartnAt i bytes .spartnExtHdr r) (first :: rest)
      (p.spartnBody i (bytes ++ first :: rest) payload embedded
        { (r.ext1 first).extLast (rest.getLastD 0) with
          frameCount := (r.ext1 first).tf007ToTf016Len - (r.ext1 first).payloadLen }) := by
  rw [List.append_cons] at hroom ⊢
  rw [List.length_cons] at hlen hcount
  have hfirst : r.extCount first = { r.ext1 first with frameCount := 1 } := by
    rw [SpartnRec.extCount, hzero]
    rfl
  have hstep := byteStep_spartnExtHdr (p := p) (i := i) (r := r) (b := first) (stored_of_room hroom)
  have hmore : (1 : BitVec 16) ≠ (r.ext1 first).tf007ToTf016Len - (r.ext1 first).payloadLen :=
    fun he => by
      rw [← he] at hcount
      have h1 : (1 : BitVec 16).toNat = 1 := rfl
      omega
  simp only [hfirst, if_neg hmore] at hstep
  have hrest := spartnExtHdr_run (p := p) (i := i) (bytes := bytes ++ [first]) (rest := rest)
    (r := { r.ext1 first with frameCount := 1 }) (payload := payload) (embedded := embedded)
    (List.ne_nil_of_length_pos (by omega)) hroom (le_refl 1)
    ((Nat.add_comm 1 _).trans hcount) hpayload
    (by rw [SpartnRec.extLast_frameCount]; exact hembedded)
  rw [SpartnRec.extLast_frameCount] at hrest
  exact .cons hstep hrest

/-! ### Payload and embedded data -/

theorem ParseState.spartnTail_eq (embedded : List Byte) :
    p.spartnTail i bytes embedded r =
      if embedded = [] then p.spartnAt i bytes .spartnCrc { r with frameCount := 0 }
      else p.spartnAt i bytes .spartnEmbedded { r with frameCount := 0 } := by
  unfold ParseState.spartnTail
  split_ifs <;> rfl

/-- The payload (46_spartn.md R234). -/
theorem spartnPayload_run {rest embedded : List Byte} (hroom : (bytes ++ rest).length ≤ p.bufferLength)
    (hcount : r.frameCount.toNat + rest.length = r.tf007ToTf016Len.toNat)
    (hembedded : r.embeddedAppLen.toNat = embedded.length) :
    QuietRun (p.spartnBody i bytes rest embedded r) rest (p.spartnTail i (bytes ++ rest) embedded r) := by
  induction rest generalizing bytes r with
  | nil =>
    rw [List.append_nil]
    exact .nil _
  | cons c rest ih =>
    obtain ⟨hcount', hlast⟩ := count_step hcount
    rw [List.append_cons] at hroom ⊢
    refine .cons ?_ (ih (r := { r with frameCount := r.frameCount + 1 }) hroom hcount' hembedded)
    rw [ParseState.spartnBody, if_neg (by simp), byteStep_spartnAt rfl (stored_of_room hroom)]
    change (if r.frameCount + 1 = r.tf007ToTf016Len then afterPayload _ _ else quiet _) = _
    rw [ParseState.spartnBody, afterPayload_spartnAt (embedded := embedded)
      (r := { r with frameCount := r.frameCount + 1 }) hembedded]
    simp only [hlast]
    split_ifs <;> rfl

/-- The embedded data (46_spartn.md R235). -/
theorem spartnEmbedded_run {rest : List Byte} (hroom : (bytes ++ rest).length ≤ p.bufferLength)
    (hcount : r.frameCount.toNat + rest.length = r.embeddedAppLen.toNat) :
    QuietRun
      (if rest = [] then p.spartnAt i bytes .spartnCrc { r with frameCount := 0 }
        else p.spartnAt i bytes .spartnEmbedded r)
      rest (p.spartnAt i (bytes ++ rest) .spartnCrc { r with frameCount := 0 }) := by
  induction rest generalizing bytes r with
  | nil =>
    rw [List.append_nil]
    exact .nil _
  | cons c rest ih =>
    have hwide : (r.embeddedAppLen.setWidth 16).toNat = r.embeddedAppLen.toNat :=
      BitVec.toNat_setWidth_of_le (by omega)
    obtain ⟨hcount', hlast⟩ := count_step (hcount.trans hwide.symm)
    rw [List.append_cons] at hroom ⊢
    refine .cons ?_ (ih (r := { r with frameCount := r.frameCount + 1 }) hroom (hcount'.trans hwide))
    rw [if_neg (by simp), byteStep_spartnAt rfl (stored_of_room hroom)]
    change (if r.frameCount + 1 = r.embeddedAppLen.setWidth 16 then quiet _ else quiet _) = _
    simp only [hlast]
    split_ifs <;> rfl

/-! ### The CRC -/

/-- The CRC but its last byte (46_spartn.md R236). -/
theorem spartnCrc_run {init : List Byte} {n : BitVec 16}
    (hroom : (bytes ++ init).length ≤ p.bufferLength)
    (hcount : r.frameCount.toNat + (b :: init).length = r.crcBytes.toNat)
    (hn : n.toNat = r.frameCount.toNat + init.length) :
    QuietRun (p.spartnAt i bytes .spartnCrc r) init
      (p.spartnAt i (bytes ++ init) .spartnCrc { r with frameCount := n }) := by
  induction init generalizing bytes r with
  | nil =>
    have hsame : { r with frameCount := n } = r := by
      rw [show n = r.frameCount from BitVec.eq_of_toNat_eq hn]
    rw [List.append_nil, hsame]
    exact .nil _
  | cons c rest ih =>
    have hwide : (r.crcBytes.setWidth 16).toNat = r.crcBytes.toNat :=
      BitVec.toNat_setWidth_of_le (by omega)
    obtain ⟨hcount', hlast⟩ := count_step (c := c) (rest := b :: rest) (hcount.trans hwide.symm)
    have hmore : r.frameCount + 1 ≠ r.crcBytes.setWidth 16 := fun h => nomatch hlast.mp h
    rw [List.append_cons] at hroom ⊢
    refine .cons ?_ (ih (r := { r with frameCount := r.frameCount + 1 }) hroom
      (hcount'.trans hwide) (by simp only [List.length_cons] at *; omega))
    rw [byteStep_spartnAt rfl (stored_of_room hroom)]
    change (if r.frameCount + 1 = r.crcBytes.setWidth 16 then _ else quiet _) = _
    rw [if_neg hmore]
    rfl

/-- The last CRC byte: the CRC received is compared with the body CRC of the CRC type. -/
theorem byteStep_spartnCrc_last {covered init : List Byte}
    (hbytes : bytes = 0x73 :: (covered ++ init)) (hroom : bytes.length < p.bufferLength)
    (hlast : r.frameCount + 1 = r.crcBytes.setWidth 16)
    (htrailer : (init ++ [b]).length = r.crcType.toNat + 1)
    (hcrcBytes : r.crcBytes.toNat = r.crcType.toNat + 1) {r' : SpartnRec}
    (hr' : { r with frameCount := r.crcBytes.setWidth 16 } = r') :
    byteStep (p.spartnAt i bytes .spartnCrc r) b =
      conclude (spartnBodyVerdict r.crcType (r.crcType.toNat + 1) (init ++ [b]) covered) false
        (p.spartnAt i (bytes ++ [b]) .spartnCrc r') b := by
  subst hr'
  have hframe : bytes ++ [b] = (0x73 :: covered) ++ (init ++ [b]) := by simp [hbytes]
  have hlen : (bytes ++ [b]).length - (r.crcType.toNat + 1) = (0x73 :: covered).length := by
    rw [hframe, List.length_append, htrailer, Nat.add_sub_cancel]
  rw [byteStep_spartnAt rfl hroom]
  change spartnCrcStep _ b = _
  have hsp : (p.spartnAt i (bytes ++ [b]) .spartnCrc r).sp = some (.spartn r) := rfl
  have hset : (p.spartnAt i (bytes ++ [b]) .spartnCrc r).setSp
      (.spartn { r with frameCount := r.crcBytes.setWidth 16 }) =
      p.spartnAt i (bytes ++ [b]) .spartnCrc { r with frameCount := r.crcBytes.setWidth 16 } := rfl
  have hreceived : (p.spartnAt i (bytes ++ [b]) .spartnCrc
      { r with frameCount := r.crcBytes.setWidth 16 }).slice (0x73 :: covered).length
        (bytes ++ [b]).length = .ok (init ++ [b]) := by
    refine (ParseState.reading_slice_end _).trans ?_
    rw [hframe, List.drop_left]
  have hcovered : (p.spartnAt i (bytes ++ [b]) .spartnCrc
      { r with frameCount := r.crcBytes.setWidth 16 }).slice 1 (0x73 :: covered).length =
        .ok covered := by
    refine (ParseState.reading_slice (by rw [hframe, List.length_append]; omega)).trans ?_
    rw [hframe, List.take_left]
    rfl
  have hqlen (r' : SpartnRec) : (p.spartnAt i (bytes ++ [b]) .spartnCrc r').length =
      (bytes ++ [b]).length := rfl
  simp only [spartnCrcStep, withSpartn, hsp, hlast, if_true, hset, hqlen, hcrcBytes, hlen, hreceived,
    hcovered]

end

/-! ### The whole frame -/

theorem SpartnRec.extLast_eq (r : SpartnRec) (b : Byte) :
    r.extLast b =
      { r with
        authIndicator := if r.eaf = 1 then b.extractLsb' 3 3 else 0
        embeddedAppLen :=
          if r.eaf = 1 then embeddedLen (b.extractLsb' 3 3) (b.extractLsb' 0 3) else 0 } := by
  unfold SpartnRec.extLast
  split_ifs <;> rfl

/-- The record of a frame once its extended header is read (46_spartn.md R232, R233), `n` of the bytes
of its present part taken. -/
def spartnRec (m : BitVec 7) (l : BitVec 10) (e : BitVec 1) (t : BitVec 2) (c : BitVec 4)
    (first last : Byte) (n : BitVec 16) : SpartnRec :=
  { (((⟨0, t.setWidth 3 + 1, 0, m, l.setWidth 16, e, t, c, 0, 0, 0, 0⟩ : SpartnRec).ext1 first).extLast
      last) with frameCount := n }

section
variable {m : BitVec 7} {l : BitVec 10} {e : BitVec 1} {t : BitVec 2} {c : BitVec 4}
  {first last : Byte} {ext payload embedded trailer : List Byte}

/-- The number of extended-header bytes, as the first of them gives it (30_encoding.md R67). -/
def spartnExtBits (first : Byte) (e : BitVec 1) : BitVec 16 :=
  (if first.extractLsb' 3 1 = 1 then 6 else 4) + (if e = 1 then 2 else 0)

theorem spartnExtBits_toNat (first : Byte) (e : BitVec 1) :
    (spartnExtBits first e).toNat =
      (if first.getLsbD 3 then 6 else 4) + (if e = 1 then 2 else 0) := by
  have hbit : first.extractLsb' 3 1 = 1 ↔ first.getLsbD 3 = true := by
    revert first
    decide
  unfold spartnExtBits
  simp only [hbit]
  split_ifs <;> rfl

theorem spartnRec_ext1_count (r : SpartnRec) (first : Byte) :
    (r.ext1 first).tf007ToTf016Len - (r.ext1 first).payloadLen = spartnExtBits first r.eaf :=
  BitVec.add_sub_cancel ..

theorem spartnRec_tf007 (n : BitVec 16) (hpayload : payload.length = l.toNat) :
    (spartnRec m l e t c first last n).tf007ToTf016Len.toNat =
      (spartnExtBits first e).toNat + payload.length := by
  have hl := l.isLt
  have hext : (spartnExtBits first e).toNat ≤ 8 := by
    rw [spartnExtBits_toNat]
    split_ifs <;> omega
  have hsum : (spartnRec m l e t c first last n).tf007ToTf016Len =
      spartnExtBits first e + l.setWidth 16 := by
    rw [spartnRec, SpartnRec.extLast_eq]
    rfl
  rw [hsum, BitVec.toNat_add, BitVec.toNat_setWidth, hpayload]
  omega

theorem spartnRec_embeddedAppLen (n : BitVec 16)
    (hembedded : embedded.length =
      (if e = 1 then (embeddedLen (last.extractLsb' 3 3) (last.extractLsb' 0 3)).toNat else 0)) :
    (spartnRec m l e t c first last n).embeddedAppLen.toNat = embedded.length := by
  rw [spartnRec, SpartnRec.extLast_eq, hembedded]
  exact apply_ite BitVec.toNat ..

theorem spartn_crcBytes_toNat (t : BitVec 2) : (t.setWidth 3 + 1 : BitVec 3).toNat = t.toNat + 1 := by
  revert t
  decide

theorem spartnRec_crcBytes (n : BitVec 16) :
    (spartnRec m l e t c first last n).crcBytes = t.setWidth 3 + 1 ∧
      (spartnRec m l e t c first last n).crcType = t := by
  rw [spartnRec, SpartnRec.extLast_eq]
  exact ⟨rfl, rfl⟩

/-- Everything between the preamble and the CRC runs quietly. -/
theorem spartnCovered_run {p : ParseState} {i : Nat} {rest : List Byte} (hs : p.state = .firstByte)
    (hl : p.Latches i .spartn)
    (hcrc : spHdrCrc (spartnH1 m l) (spartnH2 l) (spartnH3 l e t c) = c)
    (hext : (first :: rest).length =
      (if first.getLsbD 3 then 6 else 4) + (if e = 1 then 2 else 0))
    (hlast : rest.getLastD 0 = last) (hpayload : payload.length = l.toNat)
    (hembedded : embedded.length =
      (if e = 1 then (embeddedLen (last.extractLsb' 3 3) (last.extractLsb' 0 3)).toNat else 0))
    (hroom : ([0x73, spartnH1 m l, spartnH2 l, spartnH3 l e t c] ++ first :: rest ++ payload ++
      embedded).length ≤ p.bufferLength) :
    let covered := [0x73, spartnH1 m l, spartnH2 l, spartnH3 l e t c] ++ first :: rest ++ payload ++
      embedded
    QuietRun p covered (p.spartnAt i covered .spartnCrc (spartnRec m l e t c first last 0)) := by
  intro covered
  subst hlast
  have hlong : 4 ≤ (first :: rest).length := by
    rw [hext]
    split_ifs <;> omega
  have hcount := spartnRec_ext1_count
    ⟨0, t.setWidth 3 + 1, 0, m, l.setWidth 16, e, t, c, 0, 0, 0, 0⟩ first
  have hwide : (l.setWidth 16).toNat = l.toNat := BitVec.toNat_setWidth_of_le (by omega)
  have hembeddedLen (n : BitVec 16) := spartnRec_embeddedAppLen (m := m) (l := l) (t := t) (c := c)
    (first := first) n hembedded
  simp only [List.length_append] at hroom
  have hheader := spartnHeader_run (i := i) hs hl (by simp at hroom; omega) hcrc
  have hextRun := spartnExt_run (p := p) (i := i)
    (bytes := [0x73, spartnH1 m l, spartnH2 l, spartnH3 l e t c]) (first := first) (rest := rest)
    (r := ⟨0, t.setWidth 3 + 1, 0, m, l.setWidth 16, e, t, c, 0, 0, 0, 0⟩)
    (payload := payload) (embedded := embedded) (by simp only [List.length_append]; omega) rfl hlong
    (by rw [hcount, spartnExtBits_toNat, hext]) (hwide.trans hpayload.symm) (hembeddedLen 0)
  rw [hcount] at hextRun
  have hpayloadRun := spartnPayload_run (p := p) (i := i) (rest := payload) (embedded := embedded)
    (bytes := [0x73, spartnH1 m l, spartnH2 l, spartnH3 l e t c] ++ first :: rest)
    (r := spartnRec m l e t c first (rest.getLastD 0) (spartnExtBits first e))
    (by simp only [List.length_append]; omega) (spartnRec_tf007 _ hpayload).symm (hembeddedLen _)
  have hembeddedRun := spartnEmbedded_run (p := p) (i := i) (rest := embedded)
    (bytes := [0x73, spartnH1 m l, spartnH2 l, spartnH3 l e t c] ++ first :: rest ++ payload)
    (r := spartnRec m l e t c first (rest.getLastD 0) 0)
    (by simp only [List.length_append]; omega)
    ((Nat.zero_add _).trans (hembeddedLen 0).symm)
  rw [ParseState.spartnTail_eq] at hpayloadRun
  exact ((hheader.append hextRun).append hpayloadRun).append hembeddedRun

/-- The record when the CRC is complete. -/
theorem spartnRec_eq (hext : ext.length = (spartnExtBits first e).toNat)
    (hpayload : payload.length = l.toNat)
    (hembedded : embedded.length =
      (if e = 1 then (embeddedLen (last.extractLsb' 3 3) (last.extractLsb' 0 3)).toNat else 0)) :
    spartnRec m l e t c first last ((t.setWidth 3 + 1 : BitVec 3).setWidth 16) =
      { frameCount := BitVec.ofNat 16 (t.toNat + 1)
        crcBytes := BitVec.ofNat 3 (t.toNat + 1)
        tf007ToTf016Len := BitVec.ofNat 16 (ext.length + payload.length)
        messageType := m
        payloadLen := l.setWidth 16
        eaf := e
        crcType := t
        headerCrc := c
        subtype := first.extractLsb' 4 4
        timeTagType := first.extractLsb' 3 1
        authIndicator := if e = 1 then last.extractLsb' 3 3 else 0
        embeddedAppLen := BitVec.ofNat 8 embedded.length } := by
  have hcount : (t.setWidth 3 + 1 : BitVec 3).setWidth 16 = BitVec.ofNat 16 (t.toNat + 1) ∧
      (t.setWidth 3 + 1 : BitVec 3) = BitVec.ofNat 3 (t.toNat + 1) := by
    revert t
    decide
  have htf007 := spartnRec_tf007 (m := m) (e := e) (t := t) (c := c) (first := first) (last := last)
    ((t.setWidth 3 + 1 : BitVec 3).setWidth 16) hpayload
  have hembeddedLen := spartnRec_embeddedAppLen (m := m) (l := l) (t := t) (c := c) (first := first)
    ((t.setWidth 3 + 1 : BitVec 3).setWidth 16) hembedded
  rw [← hext] at htf007
  rw [← htf007, ← hembeddedLen, BitVec.ofNat_toNat, BitVec.ofNat_toNat, BitVec.setWidth_eq,
    BitVec.setWidth_eq, ← hcount.1, ← hcount.2, spartnRec, SpartnRec.extLast_eq]
  rfl

end

theorem exec_frameSpartn (m : BitVec 7) (l : BitVec 10) (e : BitVec 1) (t : BitVec 2) (c : BitVec 4)
    (rest : List Byte) (s : State) :
    exec (.frameSpartn m l e t c rest) s = pushOctets (spartnOctets m l e t c rest) s := rfl

/-- Settles O41: everything before the CRC and all of the CRC but its last byte run quietly
(`spartnCovered_run`, `spartnCrc_run`); the last byte gives the verdict. -/
theorem frameSpartn : Obligations.FrameSpartn := by
  intro s p i msgType payloadLen eaf crcType ext payload embedded trailer hp hw hs hl h1 h2 h3 hdrCrc
    first last hext hpayload hembedded htrailer covered octets hroom
  have hh1 : h1 = spartnH1 msgType payloadLen := (spartnH1_eq ..).symm
  have hh2 : h2 = spartnH2 payloadLen := (spartnH2_eq _).symm
  have hh3 : h3 = spartnH3 payloadLen eaf crcType 0 := (spartnH3_eq ..).symm
  have hoctet3 : h3 ||| hdrCrc.setWidth 8 = spartnH3 payloadLen eaf crcType hdrCrc := by
    rw [hh3]
    exact nibbles_or _ _
  have hcrc : spHdrCrc (spartnH1 msgType payloadLen) (spartnH2 payloadLen)
      (spartnH3 payloadLen eaf crcType hdrCrc) = hdrCrc := by
    rw [spHdrCrc_spartnH3, ← hh1, ← hh2, ← hh3]
  obtain ⟨f, rest, rfl, hlast⟩ :
      ∃ f rest, ext = f :: rest ∧ rest.getLastD 0 = ext.getLastD 0 := by
    match ext, hext with
    | f :: d :: rest, _ => exact ⟨f, d :: rest, rfl, rfl⟩
    | [_], hext => split_ifs at hext <;> cases hext
    | [], hext => split_ifs at hext <;> cases hext
  obtain ⟨init, b, rfl⟩ : ∃ init b, trailer = init ++ [b] := by
    rcases List.eq_nil_or_concat' trailer with rfl | h
    · cases htrailer
    · exact h
  have hcovered : [0x73, spartnH1 msgType payloadLen, spartnH2 payloadLen,
      spartnH3 payloadLen eaf crcType hdrCrc] ++ f :: rest ++ payload ++ embedded =
        0x73 :: covered := by
    rw [← hh1, ← hh2, ← hoctet3]
    simp [covered]
  have hroom' : (0x73 :: covered).length + (init.length + 1) ≤ p.bufferLength := by
    simp only [octets, List.length_append, List.length_singleton] at hroom
    omega
  have hquiet := spartnCovered_run (i := i) hs hl hcrc hext hlast hpayload hembedded
    (by rw [hcovered]; omega)
  simp only [hcovered] at hquiet
  have hbytes : (spartnRec msgType payloadLen eaf crcType hdrCrc f last 0).crcBytes.toNat =
      crcType.toNat + 1 := by
    rw [(spartnRec_crcBytes 0).1, spartn_crcBytes_toNat]
  have htype := (spartnRec_crcBytes (m := msgType) (l := payloadLen) (e := eaf) (t := crcType)
    (c := hdrCrc) (first := f) (last := last) 0).2
  have htrailerLen : init.length + 1 = crcType.toNat + 1 := by simpa using htrailer
  have hinit : (BitVec.ofNat 16 crcType.toNat).toNat = init.length := by
    rw [BitVec.toNat_ofNat]
    omega
  have hcrcRun := spartnCrc_run (p := p) (i := i) (bytes := 0x73 :: covered) (init := init) (b := b)
    (r := spartnRec msgType payloadLen eaf crcType hdrCrc f last 0)
    (n := BitVec.ofNat 16 crcType.toNat) (by simp only [List.length_append]; omega)
    ((Nat.zero_add _).trans (by rw [hbytes, List.length_cons]; omega))
    (hinit.trans (Nat.zero_add _).symm)
  have hcount : BitVec.ofNat 16 crcType.toNat + 1 =
      (spartnRec msgType payloadLen eaf crcType hdrCrc f last 0).crcBytes.setWidth 16 := by
    rw [(spartnRec_crcBytes 0).1]
    clear * -
    revert crcType
    decide
  have hrec := spartnRec_eq (m := msgType) (c := hdrCrc) (first := f) (last := last) (t := crcType)
    (ext := f :: rest) (hext.trans (spartnExtBits_toNat f eaf).symm) hpayload hembedded
  rw [← (spartnRec_crcBytes (m := msgType) (l := payloadLen) (e := eaf) (t := crcType)
    (c := hdrCrc) (first := f) (last := last) 0).1] at hrec
  have hlastStep := byteStep_spartnCrc_last (p := p) (i := i) (b := b) (covered := covered)
    (init := init) (bytes := 0x73 :: covered ++ init)
    (r := { spartnRec msgType payloadLen eaf crcType hdrCrc f last 0 with
      frameCount := BitVec.ofNat 16 crcType.toNat })
    rfl (by simp only [List.length_append]; omega) hcount
    (htrailer.trans (by rw [htype])) (hbytes.trans (by rw [htype])) hrec
  have hgood : spartnBodyVerdict (spartnRec msgType payloadLen eaf crcType hdrCrc f last 0).crcType
      ((spartnRec msgType payloadLen eaf crcType hdrCrc f last 0).crcType.toNat + 1) (init ++ [b])
        covered = true ↔ beNat (init ++ [b]) = (spBodyCrc crcType covered).toNat := by
    rw [htype]
    exact spartnBodyVerdict_iff ..
  obtain ⟨q, hholds, hq, hpush⟩ := binary_frame_outcome hp hw (hquiet.append hcrcRun) hlastStep hgood
  have hoctets : octets = 0x73 :: covered ++ init ++ [b] :=
    (List.append_assoc (0x73 :: covered) init [b]).symm
  rw [hoctets, List.getLastD_concat]
  refine ⟨q, hholds, hq, Eq.trans ?_ hpush⟩
  rw [exec_frameSpartn, spartnOctets, ← hoctet3, ← hh1, ← hh2]
  simp only [covered, List.cons_append, List.append_assoc]

end Sys2Proof.Machine
end

section
/-! PROOF. The text frames that arrive whole: what the two recognisers share (42_nmea.md R152,
48_unicore_hash.md R281; 41_dispatch.md R130), and a whole NMEA sentence (42_nmea.md R150 to R157). -/

namespace Sys2Proof.Machine

/-! ### The last byte of a text frame -/

/-- CR LF NUL stands after the frame that is delivered (41_dispatch.md R130). -/
theorem ParseState.reading_trailer_holds {p : ParseState} {i : Nat} {bytes : List Byte} {st : PState}
    {crc : BitVec 32} {sp : Scratch} :
    p.Holds (p.reading i bytes st crc sp).trailer (bytes ++ [0x0D, 0x0A, 0x00]) := by
  intro a
  rw [ParseState.read_trailer, ParseState.reading_length, ParseState.reading_holds a,
    List.length_append]
  rcases Nat.lt_or_ge a bytes.length with hlt | hge
  · rw [if_neg (by omega), if_neg (by omega), if_neg (by omega), if_pos hlt,
      if_pos (by simp; omega), List.getElem?_append_left hlt]
  · obtain ⟨k, rfl⟩ := Nat.exists_eq_add_of_le hge
    rw [List.getElem?_append_right hge, Nat.add_sub_cancel_left]
    match k with
    | 0 => simp
    | 1 => simp
    | 2 => simp
    | k + 3 => simp

/-- The form of the statements about a text frame: all its bytes but the last run quietly, and the last
gives the verdict. -/
theorem text_frame_outcome {s : State} {p q : ParseState} {i : Nat} {init : List Byte} {b : Byte}
    {st : PState} {crc : BitVec 32} {sp : Scratch} {good : Bool} {Right : Prop}
    (hp : s.parse = some p) (hw : s.window = .none) (hrun : QuietRun p init q)
    (hlast : byteStep q b = conclude good true (p.reading i (init ++ [b]) st crc sp) b)
    (hgood : good = true ↔ Right) :
    ∃ q : ParseState, p.Holds q (init ++ [b]) ∧
      q =
        { p with
          buffer := q.buffer, length := (init ++ [b]).length, state := st, active := i, crc := crc
          sp := some sp } ∧
      (¬Right → pushOctets (init ++ [b]) s = s.softCrcFrame q (init ++ [b]) b true) ∧
      (Right → p.bufferLength < (init ++ [b]).length + 3 →
        pushOctets (init ++ [b]) s =
          if p.invalidEn then
            .next (s.raised q (.invalidData .tooLong (init ++ [b]).dropLast) (.inInvalid (some b)))
          else s.redispatch q b) ∧
      (Right → (init ++ [b]).length + 3 ≤ p.bufferLength →
        ∃ q' : ParseState, p.Holds q' (init ++ [b] ++ [0x0D, 0x0A, 0x00]) ∧
          q' = { q with buffer := q'.buffer, length := (init ++ [b]).length + 2 } ∧
          pushOctets (init ++ [b]) s =
            .next (s.raised q' (.eom i (init ++ [b] ++ [0x0D, 0x0A])) (.inEom true))) := by
  have hframe : (p.reading i (init ++ [b]) st crc sp).FrameIs init b := ParseState.reading_frameIs
  have hpush := (pushOctets_eq_finish (s := s) hp hw hrun).trans (congrArg s.finish hlast)
  refine ⟨_, ParseState.reading_holds, rfl, fun hwrong => ?_, fun hright hroom => ?_,
    fun hright hroom => ⟨(p.reading i (init ++ [b]) st crc sp).trailer, ?_, rfl, ?_⟩⟩
  · rw [hpush, conclude, if_neg (hgood.not.mpr hwrong)]
    exact State.finish_softCrc hw hframe true
  · rw [hpush, conclude, if_pos (hgood.mpr hright), List.dropLast_concat]
    refine (congrArg s.finish (textDeliver_noRoom hroom b)).trans ?_
    exact State.finish_fail hw rfl rfl hframe.init .tooLong b
  · exact ParseState.reading_trailer_holds
  · rw [hpush, conclude, if_pos (hgood.mpr hright)]
    exact congrArg s.finish (textDeliver_room hframe.whole hroom b)

/-! ### The name -/

/-- The record holds `name`, with zeros behind it (42_nmea.md R152). -/
def NameIs (chars : Vector Byte 16) (len : BitVec 8) (name : List Byte) : Prop :=
  len.toNat = name.length ∧ chars.toList = name ++ List.replicate (16 - name.length) 0

section
variable {chars : Vector Byte 16} {len : BitVec 8} {name : List Byte}

theorem nameIs_zero : NameIs (Vector.replicate 16 0) 0 [] := ⟨rfl, rfl⟩

/-- One character more. -/
theorem NameIs.push (h : NameIs chars len name) (hlt : name.length < 15) (c : Byte) :
    NameIs (chars.setIfInBounds len.toNat c) (len + 1) (name ++ [c]) := by
  obtain ⟨hlen, hchars⟩ := h
  refine ⟨?_, ?_⟩
  · have h1 : (1 : BitVec 8).toNat = 1 := rfl
    rw [BitVec.toNat_add, h1, hlen, List.length_append, List.length_singleton]
    omega
  · have hzeros : List.replicate (16 - name.length) (0 : Byte) =
        0 :: List.replicate (16 - (name ++ [c]).length) 0 := by
      rw [List.length_append, List.length_singleton, ← List.replicate_succ]
      congr 1
      omega
    rw [Vector.toList_setIfInBounds, hchars, hlen, List.set_append_right _ _ (le_refl _),
      Nat.sub_self, hzeros]
    simp

/-- The zero that the comma writes behind the name stands there already. -/
theorem NameIs.close (h : NameIs chars len name) (hle : name.length ≤ 15) :
    NameIs (chars.setIfInBounds len.toNat 0) len name := by
  obtain ⟨hlen, hchars⟩ := h
  refine ⟨hlen, ?_⟩
  rw [Vector.toList_setIfInBounds, hchars, hlen, List.set_append_right _ _ (le_refl _), Nat.sub_self,
    show 16 - name.length = (15 - name.length) + 1 by omega, List.replicate_succ, List.set_cons_zero]

theorem NameIs.nameChars (h : NameIs chars len name) : nameChars chars len = name := by
  obtain ⟨hlen, hchars⟩ := h
  rw [Machine.nameChars, hchars, hlen, List.take_left]

end

/-- A letter or digit is no comma. -/
theorem ne_comma_of_alnum {c : Byte} (h : isAlnum c = true) : c ≠ 0x2C := by
  rintro rfl
  rw [comma_not_alnum] at h
  cases h

theorem isPrintable_of_range {c : Byte} (h : 0x20 ≤ c.toNat ∧ c.toNat ≤ 0x7E) :
    isPrintable c = true := by
  simp only [isPrintable, Bool.and_eq_true, decide_eq_true_eq]
  exact h

/-! ### An NMEA sentence being read -/

/-- An NMEA sentence being read, with `covered` between its preamble and its star: the accumulator is
their XOR-8, and `digits` stand behind the star (42_nmea.md R152 to R155). -/
def ParseState.nmeaAt (p : ParseState) (i : Nat) (covered tail : List Byte) (st : PState)
    (r : NmeaRec) : ParseState :=
  p.reading i (0x24 :: covered ++ tail) st ((xor8Block covered).setWidth 32) (.nmea r)

section
variable {p : ParseState} {i : Nat} {covered tail : List Byte} {st : PState} {r : NmeaRec} {b : Byte}

/-- The byte stored is the byte folded. -/
theorem ParseState.nmeaAt_fold :
    ((p.nmeaAt i covered [] st r).append b).foldXor b = p.nmeaAt i (covered ++ [b]) [] st r := by
  rw [ParseState.nmeaAt, ParseState.reading_append, ParseState.foldXor, ParseState.reading_crc,
    foldXor_covers rfl, ParseState.nmeaAt]
  simp

theorem ParseState.nmeaAt_append :
    (p.nmeaAt i covered tail st r).append b = p.nmeaAt i covered (tail ++ [b]) st r := by
  rw [ParseState.nmeaAt, ParseState.reading_append, List.append_assoc]
  rfl

theorem byteStep_nmeaAt (hst : st.inFrame = true)
    (hroom : (covered ++ tail).length + 1 < p.bufferLength) :
    byteStep (p.nmeaAt i covered tail st r) b = handler ((p.nmeaAt i covered tail st r).append b) b :=
  byteStep_inFrame_room (p := p.nmeaAt i covered tail st r) hst hroom b

/-- A character of the name (42_nmea.md R152). -/
theorem byteStep_nmeaName_char {name : List Byte} (hroom : covered.length + 1 < p.bufferLength)
    (hname : NameIs r.sentenceName r.nameLen name) (hlt : name.length < 15)
    (halnum : isAlnum b = true) :
    byteStep (p.nmeaAt i covered [] .nmeaNameThenFirstComma r) b =
      quiet (p.nmeaAt i (covered ++ [b]) [] .nmeaNameThenFirstComma
        ⟨r.sentenceName.setIfInBounds r.nameLen.toNat b, r.nameLen + 1⟩) := by
  rw [byteStep_nmeaAt rfl (by simpa using hroom)]
  change nmeaNameStep _ b = _
  have hsp : ((p.nmeaAt i covered [] .nmeaNameThenFirstComma r).append b).sp = some (.nmea r) := rfl
  have hshort : r.nameLen.toNat < 15 := by rw [hname.1]; exact hlt
  simp only [nmeaNameStep, withNmea, hsp, ne_comma_of_alnum halnum, false_and, if_false, halnum,
    hshort, and_self, if_true, ParseState.nmeaAt_fold]
  rfl

/-- The first comma (42_nmea.md R152). -/
theorem byteStep_nmeaName_comma {name : List Byte} (hroom : covered.length + 1 < p.bufferLength)
    (hname : NameIs r.sentenceName r.nameLen name) (hone : 1 ≤ name.length) :
    byteStep (p.nmeaAt i covered [] .nmeaNameThenFirstComma r) 0x2C =
      quiet (p.nmeaAt i (covered ++ [0x2C]) [] .nmeaFindAsterisk
        { r with sentenceName := r.sentenceName.setIfInBounds r.nameLen.toNat 0 }) := by
  rw [byteStep_nmeaAt rfl (by simpa using hroom)]
  change nmeaNameStep _ _ = _
  have hsp : ((p.nmeaAt i covered [] .nmeaNameThenFirstComma r).append 0x2C).sp = some (.nmea r) := rfl
  have hlen : 1 ≤ r.nameLen.toNat := by rw [hname.1]; exact hone
  simp only [nmeaNameStep, withNmea, hsp, hlen, and_self, if_true, ParseState.nmeaAt_fold]
  rfl

/-- The name, of which `covered` has been read. -/
theorem nmeaName_run {rest : List Byte} (hname : NameIs r.sentenceName r.nameLen covered)
    (hlen : (covered ++ rest).length ≤ 15) (halnum : ∀ c ∈ rest, isAlnum c = true)
    (hroom : (covered ++ rest).length + 1 ≤ p.bufferLength) :
    ∃ r' : NmeaRec, NameIs r'.sentenceName r'.nameLen (covered ++ rest) ∧
      QuietRun (p.nmeaAt i covered [] .nmeaNameThenFirstComma r) rest
        (p.nmeaAt i (covered ++ rest) [] .nmeaNameThenFirstComma r') := by
  induction rest generalizing covered r with
  | nil =>
    rw [List.append_nil]
    exact ⟨r, hname, .nil _⟩
  | cons c rest ih =>
    have hlt : covered.length < 15 := by simp at hlen; omega
    rw [List.append_cons] at hlen hroom ⊢
    obtain ⟨r', hname', hrun⟩ := ih
      (r := ⟨r.sentenceName.setIfInBounds r.nameLen.toNat c, r.nameLen + 1⟩) (hname.push hlt c) hlen
      (fun d hd => halnum d (List.mem_cons_of_mem c hd)) hroom
    exact ⟨r', hname',
      .cons (byteStep_nmeaName_char (by simp at hroom; omega) hname hlt (halnum c List.mem_cons_self))
        hrun⟩

/-- A byte of the body (42_nmea.md R153). -/
theorem byteStep_nmeaBody (hroom : covered.length + 1 < p.bufferLength) (hstar : b ≠ 0x2A)
    (hprint : p.abortNpNmea = true → isPrintable b = true) :
    byteStep (p.nmeaAt i covered [] .nmeaFindAsterisk r) b =
      quiet (p.nmeaAt i (covered ++ [b]) [] .nmeaFindAsterisk r) := by
  rw [byteStep_nmeaAt rfl (by simpa using hroom)]
  change nmeaBodyStep _ b = _
  rw [nmeaBodyStep, if_neg hstar, ParseState.nmeaAt_fold, if_neg]
  rintro ⟨habort, hno⟩
  rw [hprint habort] at hno
  cases hno

theorem nmeaBody_run {body : List Byte} (hstar : 0x2A ∉ body)
    (hprint : p.abortNpNmea = true → ∀ c ∈ body, isPrintable c = true)
    (hroom : (covered ++ body).length + 1 ≤ p.bufferLength) :
    QuietRun (p.nmeaAt i covered [] .nmeaFindAsterisk r) body
      (p.nmeaAt i (covered ++ body) [] .nmeaFindAsterisk r) := by
  induction body generalizing covered with
  | nil =>
    rw [List.append_nil]
    exact .nil _
  | cons c body ih =>
    rw [List.mem_cons, not_or] at hstar
    rw [List.append_cons] at hroom ⊢
    exact .cons
      (byteStep_nmeaBody (by simp at hroom; omega) (Ne.symm hstar.1) fun h =>
        hprint h c List.mem_cons_self)
      (ih hstar.2 (fun h d hd => hprint h d (List.mem_cons_of_mem c hd)) hroom)

/-- The star and the first digit (42_nmea.md R153, R154). -/
theorem nmeaStar_run {hi : Byte} (hroom : covered.length + 3 ≤ p.bufferLength)
    (hhi : isHex hi = true) :
    QuietRun (p.nmeaAt i covered [] .nmeaFindAsterisk r) [0x2A, hi]
      (p.nmeaAt i covered [0x2A, hi] .nmeaChecksumLo r) := by
  have hstar : byteStep (p.nmeaAt i covered [] .nmeaFindAsterisk r) 0x2A =
      quiet (p.nmeaAt i covered [0x2A] .nmeaChecksumHi r) := by
    rw [byteStep_nmeaAt rfl (by simp; omega), ParseState.nmeaAt_append]
    rfl
  have hdigit : byteStep (p.nmeaAt i covered [0x2A] .nmeaChecksumHi r) hi =
      quiet (p.nmeaAt i covered [0x2A, hi] .nmeaChecksumLo r) := by
    rw [byteStep_nmeaAt rfl (by simp; omega), ParseState.nmeaAt_append]
    exact if_pos hhi
  exact .cons hstar (.one hdigit)

/-- The last digit: the two digits are the XOR-8, or they are not (42_nmea.md R155). -/
theorem byteStep_nmeaChecksumLo {hi lo : Byte} (hroom : covered.length + 4 ≤ p.bufferLength)
    (hhi : isHex hi = true) (hlo : isHex lo = true) :
    ∃ good : Bool, (good = true ↔ hexNumber [hi, lo] = some (xor8Block covered).toNat) ∧
      byteStep (p.nmeaAt i covered [0x2A, hi] .nmeaChecksumLo r) lo =
        conclude good true (p.nmeaAt i covered [0x2A, hi, lo] .nmeaChecksumLo r) lo := by
  obtain ⟨n, hn⟩ := hexNumber_isSome (ds := [hi, lo]) (by simp [hhi, hlo])
  refine ⟨n == (xor8Block covered).toNat, by simp [hn], ?_⟩
  rw [byteStep_nmeaAt rfl (by simp; omega), ParseState.nmeaAt_append]
  change nmeaChecksumLoStep _ lo = _
  have hbyte : (p.nmeaAt i covered [0x2A, hi, lo] .nmeaChecksumLo r).byteAt
      ((p.nmeaAt i covered [0x2A, hi, lo] .nmeaChecksumLo r).length - 2) = .ok hi :=
    ParseState.reading_byteAt (by simp [ParseState.nmeaAt])
  have hcrc : ((p.nmeaAt i covered [0x2A, hi, lo] .nmeaChecksumLo r).crc).setWidth 8 =
      xor8Block covered :=
    (BitVec.setWidth_setWidth_of_le _ (by omega)).trans (BitVec.setWidth_eq _)
  simp only [nmeaChecksumLoStep, hlo, if_true, List.cons_append, List.nil_append, hbyte,
    nmeaVerdict, hn, hcrc]

end

/-- The preamble, with nothing covered yet (42_nmea.md R151). -/
theorem byteStep_nmea_preamble {p : ParseState} {i : Nat} (hs : p.state = .firstByte)
    (hl : p.Latches i .nmea) :
    byteStep p 0x24 =
      quiet (p.nmeaAt i [] [] .nmeaNameThenFirstComma ⟨Vector.replicate 16 0, 0⟩) :=
  byteStep_preamble hs hl

/-- A sentence up to its first digit. -/
theorem nmeaFrame_run {p : ParseState} {i : Nat} {name body : List Byte} {hi : Byte}
    (hs : p.state = .firstByte) (hl : p.Latches i .nmea) (hone : 1 ≤ name.length)
    (hlen : name.length ≤ 15) (halnum : ∀ c ∈ name, isAlnum c = true) (hstar : 0x2A ∉ body)
    (hprint : p.abortNpNmea = true → ∀ c ∈ body, isPrintable c = true) (hhi : isHex hi = true)
    (hroom : (name ++ 0x2C :: body).length + 3 ≤ p.bufferLength) :
    ∃ r : NmeaRec, NameIs r.sentenceName r.nameLen name ∧
      QuietRun p (0x24 :: (name ++ 0x2C :: body) ++ [0x2A, hi])
        (p.nmeaAt i (name ++ 0x2C :: body) [0x2A, hi] .nmeaChecksumLo r) := by
  have hlength : (name ++ 0x2C :: body).length = name.length + (body.length + 1) := by simp
  obtain ⟨r, hname, hnameRun⟩ := nmeaName_run (p := p) (i := i) (covered := []) (rest := name)
    (r := ⟨Vector.replicate 16 0, 0⟩) nameIs_zero hlen halnum (by rw [List.nil_append]; omega)
  rw [List.nil_append] at hname hnameRun
  have hcomma := byteStep_nmeaName_comma (p := p) (i := i) (covered := name) (by omega) hname hone
  have hbodyRun := nmeaBody_run (p := p) (i := i) (covered := name ++ [0x2C])
    (r := ⟨r.sentenceName.setIfInBounds r.nameLen.toNat 0, r.nameLen⟩) hstar hprint
    (by simp; omega)
  rw [← List.append_cons] at hbodyRun
  exact ⟨_, hname.close hlen,
    (QuietRun.cons (byteStep_nmea_preamble hs hl) (hnameRun.append (.cons hcomma hbodyRun))).append
      (nmeaStar_run hroom hhi)⟩

theorem exec_frameNmea (rest : List Byte) (s : State) :
    exec (.frameNmea rest) s = pushOctets (0x24 :: rest) s := rfl

/-- Settles O44: preamble, name, comma, body, star and first digit run quietly; the last digit gives the
verdict. -/
theorem frameNmea : Obligations.FrameNmea := by
  intro s p i name body hi lo hp hw hs hl hone hlen halnum hstar hprint hhi hlo covered octets hroom
  have hcovered : covered.length + 4 ≤ p.bufferLength := by
    simp only [octets, List.length_append, List.length_cons, List.length_nil] at hroom
    omega
  obtain ⟨r, ⟨hnameLen, hnameChars⟩, hrun⟩ := nmeaFrame_run hs hl hone hlen halnum hstar
    (fun h c hc => isPrintable_of_range (hprint h c hc)) hhi (Nat.le_of_succ_le hcovered)
  obtain ⟨good, hgood, hlast⟩ := byteStep_nmeaChecksumLo (p := p) (i := i) (r := r) hcovered hhi hlo
  have hoctets : octets = 0x24 :: covered ++ [0x2A, hi] ++ [lo] := by simp [octets]
  have hverdict : byteStep (p.nmeaAt i covered [0x2A, hi] .nmeaChecksumLo r) lo = conclude good true
      (p.reading i (0x24 :: covered ++ [0x2A, hi] ++ [lo]) .nmeaChecksumLo
        ((xor8Block covered).setWidth 32) (.nmea r)) lo := by
    rw [← hoctets]
    exact hlast
  have houtcome := text_frame_outcome hp hw hrun hverdict hgood
  rw [← hoctets] at houtcome
  obtain ⟨q, hholds, hq, hwrong, hfull, hdeliver⟩ := houtcome
  rw [exec_frameNmea]
  exact ⟨q, r, hholds, hnameLen, hnameChars, hq, hwrong, hfull, hdeliver⟩

end Sys2Proof.Machine
end

section
/-! PROOF. A Unicore-hash sentence that arrives whole (48_unicore_hash.md R280 to R286). -/

namespace Sys2Proof.Machine

/-- A Unicore-hash sentence being read, with `covered` between its preamble and its star: the
accumulator is their checksum, by the number of digits that the record holds (48_unicore_hash.md R281,
R282), and `tail` stands behind them. -/
def ParseState.uhashAt (p : ParseState) (i : Nat) (covered tail : List Byte) (st : PState)
    (r : UhashRec) : ParseState :=
  p.reading i (0x23 :: covered ++ tail) st (uhashChecksum r.checksumBytes.toNat covered) (.uhash r)

section
variable {p : ParseState} {i : Nat} {covered tail : List Byte} {st : PState} {r : UhashRec} {b : Byte}
  {n : BitVec 8} {chars : Vector Byte 16} {len : BitVec 8}

theorem ParseState.uhashAt_append :
    (p.uhashAt i covered tail st r).append b = p.uhashAt i covered (tail ++ [b]) st r := by
  rw [ParseState.uhashAt, ParseState.reading_append, List.append_assoc]
  rfl

theorem byteStep_uhashAt (hst : st.inFrame = true)
    (hroom : (covered ++ tail).length + 1 < p.bufferLength) :
    byteStep (p.uhashAt i covered tail st r) b =
      handler (p.uhashAt i covered (tail ++ [b]) st r) b :=
  (byteStep_inFrame_room (p := p.uhashAt i covered tail st r) hst hroom b).trans
    (congrArg (handler · b) ParseState.uhashAt_append)

/-- The byte stored is the byte folded, with the XOR-8 of a name with `MODE`. -/
theorem ParseState.uhashAt_foldXor (h : r.checksumBytes = 2) :
    (p.uhashAt i covered [b] st r).foldXor b = p.uhashAt i (covered ++ [b]) [] st r := by
  rw [ParseState.foldXor, ParseState.uhashAt, ParseState.reading_crc, ParseState.uhashAt,
    uhashChecksum_append, if_pos (by rw [h]; rfl)]
  simp

theorem toNat_ne_two {n : BitVec 8} (h : n ≠ 2) : n.toNat ≠ 2 :=
  fun h2 => h (BitVec.eq_of_toNat_eq h2)

/-- The byte stored is the byte folded, with the CRC-32 of any other name. -/
theorem ParseState.uhashAt_foldCrc32r (h : r.checksumBytes ≠ 2) :
    (p.uhashAt i covered [b] st r).foldCrc32r b = p.uhashAt i (covered ++ [b]) [] st r := by
  rw [ParseState.foldCrc32r, ParseState.uhashAt, ParseState.reading_crc, ParseState.uhashAt,
    uhashChecksum_append, if_neg (toNat_ne_two h)]
  simp

/-- The record holds no number of digits while the name is read. -/
theorem zero_ne_two : (0 : BitVec 8) ≠ 2 := by decide

/-! ### The name -/

/-- A character of the name (48_unicore_hash.md R281). -/
theorem byteStep_uhashName_char (hroom : covered.length + 1 < p.bufferLength)
    (hname : NameIs chars len covered) (hlt : covered.length < 15) (halnum : isAlnum b = true) :
    byteStep (p.uhashAt i covered [] .uhashNameThenFirstComma ⟨0, 0, chars, len⟩) b =
      quiet (p.uhashAt i (covered ++ [b]) [] .uhashNameThenFirstComma
        ⟨0, 0, chars.setIfInBounds len.toNat b, len + 1⟩) := by
  rw [byteStep_uhashAt rfl (by simpa using hroom)]
  change uhashNameStep _ b = _
  have hsp : (p.uhashAt i covered [b] .uhashNameThenFirstComma ⟨0, 0, chars, len⟩).sp =
      some (.uhash ⟨0, 0, chars, len⟩) := rfl
  have hshort : len.toNat < 15 := by rw [hname.1]; exact hlt
  simp only [uhashNameStep, withUhash, List.nil_append, hsp, ne_comma_of_alnum halnum, false_and,
    if_false, halnum, hshort, and_self, if_true]
  rw [ParseState.uhashAt_foldCrc32r zero_ne_two]
  rfl

/-- The name, of which `covered` has been read. -/
theorem uhashName_run {rest : List Byte} (hname : NameIs chars len covered)
    (hlen : (covered ++ rest).length ≤ 15) (halnum : ∀ c ∈ rest, isAlnum c = true)
    (hroom : (covered ++ rest).length + 1 ≤ p.bufferLength) :
    ∃ (chars' : Vector Byte 16) (len' : BitVec 8), NameIs chars' len' (covered ++ rest) ∧
      QuietRun (p.uhashAt i covered [] .uhashNameThenFirstComma ⟨0, 0, chars, len⟩) rest
        (p.uhashAt i (covered ++ rest) [] .uhashNameThenFirstComma ⟨0, 0, chars', len'⟩) := by
  induction rest generalizing covered chars len with
  | nil =>
    rw [List.append_nil]
    exact ⟨chars, len, hname, .nil _⟩
  | cons c rest ih =>
    have hlt : covered.length < 15 := by simp at hlen; omega
    rw [List.append_cons] at hlen hroom ⊢
    obtain ⟨chars', len', hname', hrun⟩ := ih (hname.push hlt c) hlen
      (fun d hd => halnum d (List.mem_cons_of_mem c hd)) hroom
    have hchar := byteStep_uhashName_char (p := p) (i := i) (by simp at hroom; omega) hname hlt
      (halnum c List.mem_cons_self)
    exact ⟨chars', len', hname', .cons hchar hrun⟩

/-- The first comma: the name chooses the checksum (48_unicore_hash.md R281). -/
theorem byteStep_uhashName_comma (hroom : covered.length + 1 < p.bufferLength)
    (hname : NameIs chars len covered) (hone : 1 ≤ covered.length) (hlen : covered.length ≤ 15) :
    ∃ n : BitVec 8, n.toNat = uhashDigits covered ∧
      byteStep (p.uhashAt i covered [] .uhashNameThenFirstComma ⟨0, 0, chars, len⟩) 0x2C =
        quiet (p.uhashAt i (covered ++ [0x2C]) [] .uhashFindAsterisk
          ⟨0, n, chars.setIfInBounds len.toNat 0, len⟩) := by
  rw [byteStep_uhashAt rfl (by simpa using hroom)]
  have hpos : 1 ≤ len.toNat := by rw [hname.1]; exact hone
  have hstep : handler (p.uhashAt i covered ([] ++ [0x2C]) .uhashNameThenFirstComma
        ⟨0, 0, chars, len⟩) 0x2C =
      uhashComma (p.uhashAt i covered [0x2C] .uhashNameThenFirstComma ⟨0, 0, chars, len⟩)
        ⟨0, 0, chars, len⟩ 0x2C := if_pos ⟨rfl, hpos⟩
  rw [hstep]
  simp only [uhashComma, (hname.close hlen).nameChars, uhashDigits]
  by_cases hmode : containsMode covered = true
  · have hslice : (p.uhashAt i covered [0x2C] .uhashNameThenFirstComma ⟨0, 0, chars, len⟩).slice 1
        (p.uhashAt i covered [0x2C] .uhashNameThenFirstComma ⟨0, 0, chars, len⟩).length =
          .ok (covered ++ [0x2C]) := ParseState.reading_slice_end 1
    refine ⟨2, by rw [if_pos hmode]; rfl, ?_⟩
    rw [if_pos hmode, hslice]
    simp [ParseState.uhashAt, uhashChecksum]
  · refine ⟨8, by rw [if_neg hmode]; rfl, ?_⟩
    rw [if_neg hmode, ParseState.uhashAt_foldCrc32r zero_ne_two]
    rfl

/-! ### The body -/

/-- A byte of the body (48_unicore_hash.md R282). -/
theorem byteStep_uhashBody (hroom : covered.length + 1 < p.bufferLength) (hstar : b ≠ 0x2A)
    (hprint : p.abortNpUhash = true → isPrintable b = true) :
    byteStep (p.uhashAt i covered [] .uhashFindAsterisk r) b =
      quiet (p.uhashAt i (covered ++ [b]) [] .uhashFindAsterisk r) := by
  rw [byteStep_uhashAt rfl (by simpa using hroom)]
  change uhashBodyStep _ b = _
  have hsp : (p.uhashAt i covered [b] .uhashFindAsterisk r).sp = some (.uhash r) := rfl
  have hadmit : ¬((p.uhashAt i covered [b] .uhashFindAsterisk r).abortNpUhash = true ∧
      isPrintable b = false) := by
    rintro ⟨habort, hno⟩
    rw [hprint habort] at hno
    cases hno
  simp only [uhashBodyStep, withUhash, List.nil_append, hsp, if_neg hstar, if_neg hadmit]
  split_ifs with htwo
  · rw [ParseState.uhashAt_foldXor htwo]
  · rw [ParseState.uhashAt_foldCrc32r htwo]

theorem uhashBody_run {body : List Byte} (hstar : 0x2A ∉ body)
    (hprint : p.abortNpUhash = true → ∀ c ∈ body, isPrintable c = true)
    (hroom : (covered ++ body).length + 1 ≤ p.bufferLength) :
    QuietRun (p.uhashAt i covered [] .uhashFindAsterisk r) body
      (p.uhashAt i (covered ++ body) [] .uhashFindAsterisk r) := by
  induction body generalizing covered with
  | nil =>
    rw [List.append_nil]
    exact .nil _
  | cons c body ih =>
    rw [List.mem_cons, not_or] at hstar
    rw [List.append_cons] at hroom ⊢
    exact .cons
      (byteStep_uhashBody (by simp at hroom; omega) (Ne.symm hstar.1) fun h =>
        hprint h c List.mem_cons_self)
      (ih hstar.2 (fun h d hd => hprint h d (List.mem_cons_of_mem c hd)) hroom)

/-- The star: as many digits are to come as the name asked for. -/
theorem byteStep_uhashStar (hroom : covered.length + 1 < p.bufferLength) :
    byteStep (p.uhashAt i covered [] .uhashFindAsterisk ⟨0, n, chars, len⟩) 0x2A =
      quiet (p.uhashAt i covered [0x2A] .uhashChecksumByte ⟨n, n, chars, len⟩) := by
  rw [byteStep_uhashAt rfl (by simpa using hroom)]
  rfl

/-! ### The digits -/

/-- A digit but the last (48_unicore_hash.md R283). -/
theorem byteStep_uhashDigit {rem : BitVec 8}
    (hroom : (covered ++ tail).length + 1 < p.bufferLength) (hhex : isHex b = true)
    (hmore : rem - 1 ≠ 0) :
    byteStep (p.uhashAt i covered tail .uhashChecksumByte ⟨rem, n, chars, len⟩) b =
      quiet (p.uhashAt i covered (tail ++ [b]) .uhashChecksumByte ⟨rem - 1, n, chars, len⟩) := by
  rw [byteStep_uhashAt rfl hroom]
  exact (if_pos hhex).trans (if_neg hmore)

theorem uhashDigits_run {rem : BitVec 8} {digits : List Byte} (hrem : rem.toNat = digits.length + 1)
    (hhex : ∀ c ∈ digits, isHex c = true)
    (hroom : (covered ++ (tail ++ digits)).length + 1 ≤ p.bufferLength) :
    QuietRun (p.uhashAt i covered tail .uhashChecksumByte ⟨rem, n, chars, len⟩) digits
      (p.uhashAt i covered (tail ++ digits) .uhashChecksumByte ⟨1, n, chars, len⟩) := by
  induction digits generalizing tail rem with
  | nil =>
    obtain rfl : rem = 1 := BitVec.eq_of_toNat_eq hrem
    rw [List.append_nil]
    exact .nil _
  | cons c digits ih =>
    have hpred : (rem - 1).toNat = digits.length + 1 :=
      toNat_pred_of_cons (c := c) (rest := c :: digits) hrem
    have hmore : rem - 1 ≠ 0 := fun h => by rw [h] at hpred; cases hpred
    rw [List.append_cons] at hroom ⊢
    exact .cons
      (byteStep_uhashDigit (by simp at hroom ⊢; omega) (hhex c List.mem_cons_self) hmore)
      (ih hpred (fun d hd => hhex d (List.mem_cons_of_mem c hd)) hroom)

/-- The digits, behind the star. -/
theorem ParseState.uhashAt_slice_digits {digits : List Byte}
    (hn : r.checksumBytes.toNat = digits.length) :
    (p.uhashAt i covered (0x2A :: digits) st r).slice
        ((p.uhashAt i covered (0x2A :: digits) st r).length - r.checksumBytes.toNat)
        (p.uhashAt i covered (0x2A :: digits) st r).length = .ok digits := by
  refine (ParseState.reading_slice_end _).trans (congrArg _ ?_)
  rw [List.append_cons]
  refine List.drop_left' ?_
  simp [ParseState.uhashAt, hn]
  omega

/-- The digits are complete: their verdict ends the frame. -/
theorem uhashChecksumStep_last {digits : List Byte} {good : Bool} (hsp : p.sp = some (.uhash r))
    (hhex : isHex b = true) (hlast : r.bytesRemaining - 1 = 0)
    (hslice : p.slice (p.length - r.checksumBytes.toNat) p.length = .ok digits)
    (hgood : uhashVerdict digits r.checksumBytes p.crc = some good) :
    uhashChecksumStep p b =
      conclude good true (p.setSp (.uhash { r with bytesRemaining := 0 })) b := by
  have hslice' (sp : Scratch) : (p.setSp sp).slice (p.length - r.checksumBytes.toNat) p.length =
      .ok digits := hslice
  simp only [uhashChecksumStep, withUhash, hsp, hhex, if_true, hlast, ParseState.setSp_length,
    hslice', ParseState.setSp_crc, hgood]

/-- The last digit: the digits are the checksum, or they are not (48_unicore_hash.md R283). -/
theorem byteStep_uhashDigit_last {digits : List Byte}
    (hroom : covered.length + digits.length + 3 ≤ p.bufferLength)
    (hhex : ∀ c ∈ digits ++ [b], isHex c = true) (hn : n.toNat = digits.length + 1) :
    ∃ good : Bool,
      (good = true ↔ hexNumber (digits ++ [b]) = some (uhashChecksum n.toNat covered).toNat) ∧
      byteStep (p.uhashAt i covered (0x2A :: digits) .uhashChecksumByte ⟨1, n, chars, len⟩) b =
        conclude good true
          (p.uhashAt i covered (0x2A :: digits ++ [b]) .uhashChecksumByte ⟨0, n, chars, len⟩) b := by
  obtain ⟨rx, hrx⟩ := hexNumber_isSome hhex
  obtain ⟨good, hgood⟩ : ∃ good,
      uhashVerdict (digits ++ [b]) n (uhashChecksum n.toNat covered) = some good := by
    rw [uhashVerdict, hrx]
    exact ⟨_, rfl⟩
  refine ⟨good, uhashVerdict_eq_some rfl hgood, ?_⟩
  rw [byteStep_uhashAt rfl (by simp; omega)]
  exact uhashChecksumStep_last (r := ⟨1, n, chars, len⟩) rfl (hhex b (by simp))
    (BitVec.sub_self 1)
    (ParseState.uhashAt_slice_digits (by simpa using hn)) hgood

end

/-- The preamble, with nothing covered yet (48_unicore_hash.md R280). -/
theorem byteStep_uhash_preamble {p : ParseState} {i : Nat} (hs : p.state = .firstByte)
    (hl : p.Latches i .uhash) :
    byteStep p 0x23 =
      quiet (p.uhashAt i [] [] .uhashNameThenFirstComma ⟨0, 0, Vector.replicate 16 0, 0⟩) :=
  byteStep_preamble hs hl

/-- A sentence up to its star. -/
theorem uhashStarred_run {p : ParseState} {i : Nat} {name body : List Byte}
    (hs : p.state = .firstByte) (hl : p.Latches i .uhash) (hone : 1 ≤ name.length)
    (hlen : name.length ≤ 15) (halnum : ∀ c ∈ name, isAlnum c = true) (hstar : 0x2A ∉ body)
    (hprint : p.abortNpUhash = true → ∀ c ∈ body, isPrintable c = true)
    (hroom : (name ++ 0x2C :: body).length + 2 ≤ p.bufferLength) :
    ∃ (n : BitVec 8) (chars : Vector Byte 16) (len : BitVec 8), n.toNat = uhashDigits name ∧
      NameIs chars len name ∧
      QuietRun p (0x23 :: (name ++ 0x2C :: body) ++ [0x2A])
        (p.uhashAt i (name ++ 0x2C :: body) [0x2A] .uhashChecksumByte ⟨n, n, chars, len⟩) := by
  have hlength : (name ++ 0x2C :: body).length = name.length + (body.length + 1) := by simp
  obtain ⟨chars, len, hname, hnameRun⟩ := uhashName_run (p := p) (i := i) (covered := [])
    (rest := name) nameIs_zero hlen halnum (by rw [List.nil_append]; omega)
  rw [List.nil_append] at hname hnameRun
  obtain ⟨n, hn, hcomma⟩ := byteStep_uhashName_comma (p := p) (i := i) (by omega) hname hone hlen
  have hbodyRun := uhashBody_run (p := p) (i := i) (covered := name ++ [0x2C])
    (r := ⟨0, n, chars.setIfInBounds len.toNat 0, len⟩) hstar hprint (by simp; omega)
  rw [← List.append_cons] at hbodyRun
  exact ⟨n, _, len, hn, hname.close hlen,
    (QuietRun.cons (byteStep_uhash_preamble hs hl) (hnameRun.append (.cons hcomma hbodyRun))).append
      (.one (byteStep_uhashStar hroom))⟩

/-- The checksum that the name asks for (48_unicore_hash.md R281). -/
theorem uhashChecksum_uhashDigits (name covered : List Byte) :
    uhashChecksum (uhashDigits name) covered =
      if [0x4D, 0x4F, 0x44, 0x45] <:+: name then (xor8Block covered).setWidth 32
      else crc32rBlock covered := by
  rw [uhashDigits_eq]
  by_cases hmode : [0x4D, 0x4F, 0x44, 0x45] <:+: name
  · simp only [if_pos hmode, uhashChecksum, if_true]
  · simp only [if_neg hmode]
    rfl

/-- Every name asks for digits. -/
theorem uhashDigits_pos (name : List Byte) : 0 < uhashDigits name := by
  unfold uhashDigits
  split_ifs <;> decide

theorem exec_frameUhash (rest : List Byte) (s : State) :
    exec (.frameUhash rest) s = pushOctets (0x23 :: rest) s := rfl

/-- Settles O45: preamble, name, comma, body, star and all digits but one run quietly; the last digit
gives the verdict. -/
theorem frameUhash : Obligations.FrameUhash := by
  intro s p i name body digits hp hw hs hl hone hlen halnum hstar hprint hdigits hhex covered octets
    checksum hroom
  have hchecksum : checksum = uhashChecksum (uhashDigits name) covered :=
    (uhashChecksum_uhashDigits name covered).symm
  rw [← uhashDigits_eq] at hdigits
  obtain ⟨init, b, rfl⟩ : ∃ init b, digits = init ++ [b] :=
    (List.eq_nil_or_concat' digits).resolve_left
      (List.ne_nil_of_length_pos (hdigits ▸ uhashDigits_pos name))
  have hcovered : covered.length + init.length + 3 ≤ p.bufferLength := by
    simp only [octets, List.length_append, List.length_cons, List.length_nil] at hroom
    omega
  obtain ⟨n, chars, len, hn, ⟨hnameLen, hnameChars⟩, hstarred⟩ := uhashStarred_run hs hl hone hlen
    halnum hstar (fun h c hc => isPrintable_of_range (hprint h c hc))
    (show covered.length + 2 ≤ p.bufferLength by omega)
  rw [← hdigits, List.length_append, List.length_singleton] at hn
  have hrun := hstarred.append (uhashDigits_run (covered := covered) (digits := init) hn
    (fun c hc => hhex c (List.mem_append_left [b] hc)) (by simp; omega))
  obtain ⟨good, hgood, hlast⟩ := byteStep_uhashDigit_last (p := p) (i := i) (chars := chars)
    (len := len) hcovered hhex hn
  have hoctets : octets = 0x23 :: covered ++ [0x2A] ++ init ++ [b] := by simp [octets]
  have hverdict : byteStep (p.uhashAt i covered ([0x2A] ++ init) .uhashChecksumByte
        ⟨1, n, chars, len⟩) b =
      conclude good true
        (p.reading i (0x23 :: covered ++ [0x2A] ++ init ++ [b]) .uhashChecksumByte checksum
          (.uhash ⟨0, n, chars, len⟩)) b := by
    rw [← hoctets, hchecksum, ← hdigits, List.length_append, List.length_singleton, ← hn]
    exact hlast
  rw [hn, ← List.length_singleton, ← List.length_append, hdigits, ← hchecksum] at hgood
  have houtcome := text_frame_outcome hp hw hrun hverdict hgood
  rw [← hoctets] at houtcome
  obtain ⟨q, hholds, hq, hwrong, hfull, hdeliver⟩ := houtcome
  rw [List.getLastD_concat, exec_frameUhash]
  exact ⟨q, _, hholds, hnameLen, hnameChars, rfl, by simpa using hn, hq, hwrong, hfull, hdeliver⟩

end Sys2Proof.Machine
end
